-- ==== Sys2Proof/Word.lean ====
section
/-! DEFINITION. The word type and the types of the values the part moves: the two number formats (R1, R187)
and exact numbers before rounding (R6). -/

namespace Sys2Proof

/-- A word: 32 bits (00_scope.md, Terms). -/
abbrev Word := BitVec 32

/-- The number formats: narrow (one word) and wide (two words). -/
inductive Format where
  | n
  | w
  deriving DecidableEq, Repr

/-- An encoding of one of the two formats, bit for bit (R187). A wide value is its high and its low word. -/
inductive Value where
  | narrow (word : Word)
  | wide (high low : Word)
  deriving DecidableEq, Repr

/-- The exact number `m × 2^e` (R6 forms every result exactly before it rounds). -/
structure Dyadic where
  m : Int
  e : Int
  deriving DecidableEq, Repr

/-- `2^k` as an integer. -/
def pow2 (k : Nat) : Int := ((2 ^ k : Nat) : Int)

namespace Dyadic

/-- The number 0. -/
def zero : Dyadic := ⟨0, 0⟩

/-- The exact product. -/
def mul (a b : Dyadic) : Dyadic := ⟨a.m * b.m, a.e + b.e⟩

/-- The integer `m × 2^(e - base)` for a base not above `e`. -/
def scaled (a : Dyadic) (base : Int) : Int := a.m * pow2 (a.e - base).toNat

/-- The exact sum. -/
def add (a b : Dyadic) : Dyadic :=
  ⟨a.scaled (min a.e b.e) + b.scaled (min a.e b.e), min a.e b.e⟩

/-- The negation. -/
def neg (a : Dyadic) : Dyadic := ⟨-a.m, a.e⟩

/-- The exact difference. -/
def sub (a b : Dyadic) : Dyadic := a.add b.neg

/-- Exact comparison by value (R5). -/
def lt (a b : Dyadic) : Bool := decide ((a.sub b).m < 0)

/-- Exact comparison by value (R5). -/
def le (a b : Dyadic) : Bool := decide ((a.sub b).m ≤ 0)

end Dyadic

end Sys2Proof
end

