-- ==== Sys2Proof/Syntax.lean ====
section
/-! DEFINITION. The commands of the block: one constructor for each row of spec/opcode_table.json, with the
operands that come from outside the part. The arguments of CMD commands are not operands: they are read from
CMD_ARG0 to CMD_ARG2 when the command is taken (R162). -/

namespace Sys2Proof

/-- The registers a REGISTER_WRITE row writes: STAGE0 to STAGE6 (R53) and CMD_ARG0 to CMD_ARG2 (R164). -/
inductive PlainReg where
  | stage (i : Fin 7)
  | cmdArg (i : Fin 3)
  deriving DecidableEq, Repr

/-- A window access as the part sees it (R177): direction, the low eight address bits, the byte lanes, and the
data of a write. -/
structure WindowAccess where
  write : Bool
  offset : BitVec 8
  lanes : BitVec 4
  data : Word
  deriving DecidableEq, Repr

/-- The end of a transfer whose data does not reach the part's state (R132). -/
inductive TransferEnd where
  | ack
  | berr
  deriving DecidableEq, Repr

/-- The end of a read transfer: ACK with the word read, or BERR (R132). -/
inductive ReadEnd where
  | ack (data : Word)
  | berr
  deriving DecidableEq, Repr

/-- Which operation in flight completes: the running job's own, or one that an ENGINE_RESET has cut off from its
job and whose outcome is discarded whenever it completes (R96, R174). -/
inductive Completing where
  | current
  | abandoned
  deriving DecidableEq, Repr

/-- The commands, one constructor per row of the table. -/
inductive Instr where
  /-- OPEN_LOAD (R38). -/
  | openLoad
  /-- COMMIT_LOAD (R48). -/
  | commitLoad
  /-- CANCEL_LOAD (R49). -/
  | cancelLoad
  /-- RETIRE (R28). -/
  | retire
  /-- QUERY_CURVE (R30). -/
  | queryCurve
  /-- QUERY_JOB (R68). -/
  | queryJob
  /-- CONTINUE (R121). -/
  | continueHeld
  /-- ABORT (R166). -/
  | abort
  /-- FLUSH_LEVEL (R170). -/
  | flushLevel
  /-- ENGINE_RESET (R172). -/
  | engineReset
  /-- BAD_COMMAND: a write to CMD of a code that names no command (R162). -/
  | badCommand (code : BitVec 8)
  /-- SUBMIT: a read of SUBMITn (R57). -/
  | submit (level : Fin 4)
  /-- LOAD_DATA: a write to LOAD_DATA (R41). -/
  | loadData (word : Word)
  /-- CPOP: a write to CPOP, its data ignored (R154). -/
  | cpop
  /-- EVENTS_WRITE (R158). -/
  | eventsWrite (word : Word)
  /-- EVENT_ENABLE_WRITE (R159). -/
  | eventEnableWrite (word : Word)
  /-- CONTROL_WRITE (R103, R146). -/
  | controlWrite (word : Word)
  /-- REGISTER_WRITE (R53, R164). -/
  | registerWrite (reg : PlainReg) (word : Word)
  /-- WINDOW_ACCESS_ERROR (R178). -/
  | windowAccessError (access : WindowAccess)
  /-- RST_ASSERT (R176). -/
  | rstAssert
  /-- RST_RELEASE (R176). -/
  | rstRelease
  /-- BGNT (R133, R135). -/
  | bgnt
  /-- BGNT_REMOVED (R180). -/
  | bgntRemoved
  /-- DEMAND_READ_END (R77). -/
  | demandReadEnd (outcome : ReadEnd)
  /-- RESULT_WRITE_END (R81). -/
  | resultWriteEnd (outcome : TransferEnd)
  /-- PREFETCH_READ_END (R141). -/
  | prefetchReadEnd (data : Word)
  /-- PREFETCH_READ_FAILURE (R142). -/
  | prefetchReadFailure
  /-- DROPPED_VALUE_END (R144). -/
  | droppedValueEnd (outcome : TransferEnd)
  /-- W_LOW_HALF_END (R132): the word is the data of a read, and is ignored for a write. -/
  | wLowHalfEnd (data : Word)
  /-- SETUP_COMPLETION (R78). -/
  | setupCompletion (which : Completing)
  /-- TERMS_ITERATION_COMPLETION (R79). -/
  | termsCompletion (which : Completing)
  /-- RESULT_CONVERSION_COMPLETION (R80). -/
  | conversionCompletion (which : Completing)
  /-- DISPATCH (R101). -/
  | dispatch
  /-- ENGINE_RESET_COMPLETION (R174). -/
  | engineResetCompletion
  deriving DecidableEq, Repr

end Sys2Proof
end

