-- ==== Sys2Proof/Decode.lean ====
section
/-! DEFINITION. Reading a command from the bits of its row, and the two operand spaces that WellFormed checks: the
command codes (R183) and the register map (section 11.3, R178). The rows of spec/opcode_table.json give no bits (each
has an empty field list and no fixed pattern), so no word spells a command. The words that do issue commands, the
window accesses, are read by `Sys2Proof.Machine.accessCommand` (Machine/Window.lean). -/

namespace Sys2Proof

/-- The command a word spells by the table's bits: none, since no row of the table gives any. -/
def decodeTableWord (_nbits _w : Nat) : Option Instr := none

/-- The code names one of the ten commands (R183). -/
def namesCommand (code : BitVec 8) : Bool := decide (1 ≤ code.toNat) && decide (code.toNat ≤ 10)

/-- The access class of a window offset (R178, section 11.3). -/
inductive OffsetClass where
  | readOnly
  | writeOnly
  | readWrite
  | unmapped
  deriving DecidableEq, Repr

/-- The register map of section 11.3: the class of each word offset. -/
def offsetClass (offset : BitVec 8) : OffsetClass :=
  let o := offset.toNat
  if o % 4 ≠ 0 then .unmapped
  else if o ≤ 0x04 then .readOnly
  else if o ≤ 0x20 then .readWrite
  else if o ≤ 0x30 then .readOnly
  else if o < 0x40 then .unmapped
  else if o ≤ 0x58 then .readWrite
  else if o < 0x60 then .unmapped
  else if o ≤ 0x6C then .readOnly
  else if o = 0x70 then .writeOnly
  else if o ≤ 0x78 then .readOnly
  else if o < 0x80 then .unmapped
  else if o ≤ 0x94 then .readOnly
  else if o < 0xA0 then .unmapped
  else if o = 0xA0 then .writeOnly
  else if o = 0xA4 then .readOnly
  else if o < 0xB0 then .unmapped
  else if o ≤ 0xC4 then .readOnly
  else .unmapped

/-- R178: the accesses the window answers with BERR. -/
def WindowAccess.erroneous (a : WindowAccess) : Bool :=
  decide (a.offset.toNat % 4 ≠ 0) || decide (a.lanes ≠ 0xF#4) ||
    match offsetClass a.offset with
    | .unmapped => true
    | .readOnly => a.write
    | .writeOnly => !a.write
    | .readWrite => false

end Sys2Proof
end

