-- ==== Sys2Proof/Config.lean ====
section
/-! DEFINITION. The constants of the part. The spec fixes every one of them and leaves no result undefined, so
there is no implementation-defined constant and no free value. -/

namespace Sys2Proof.Config

/-- Job tags, numbered 0 to 47 (R61). -/
def tagCount : Nat := 48

/-- Store blocks, numbered 0 to 127 (R33). -/
def blockCount : Nat := 128

/-- Words of one block (R33). -/
def blockWords : Nat := 32

/-- Entries a level queue holds (R63). -/
def queueDepth : Nat := 8

/-- Entries the prefetch buffer holds (R139). -/
def prefetchDepth : Nat := 4

/-- The value at which the exception count stays (R88). -/
def exceptionCountMax : Nat := 65535

/-- The largest degree of a segment (R43). -/
def degreeMax : Nat := 15

/-- The largest segment count (R38). -/
def segmentCountMax : Nat := 64

/-- IDENT (R181). -/
def ident : Word := 0xC8802030#32

/-- CONTROL after hard reset (R181): all levels and prefetch ENABLED, tenure limit field 3. -/
def controlReset : Word := 0x0000031F#32

/-- The bits of CONTROL that carry a field (R181). -/
def controlMask : Word := 0x00000F1F#32

end Sys2Proof.Config
end

