-- ==== Sys2Proof/Machine/State.lean ====
section
/-! DEFINITION. The state of the block, one record for each block that owns state (00_scope.md, Block Overview),
its reset value, and the reasons a command stops. -/

namespace Sys2Proof.Machine

/-! ### Curve directory (chapter 2) -/

/-- The origin mode of a curve (R19). -/
inductive OriginMode where
  | absolute
  | offset
  deriving DecidableEq, Repr

/-- The range policy of a curve (R17). -/
inductive RangePolicy where
  | clamp
  | extend
  | reject
  deriving DecidableEq, Repr

/-- The underflow policy of a curve (R8). -/
inductive UnderflowPolicy where
  | flush
  | fault
  deriving DecidableEq, Repr

/-- The header of a curve (R16). -/
structure CurveHeader where
  format : Format
  segments : Nat
  origin : OriginMode
  range : RangePolicy
  underflow : UnderflowPolicy
  deriving DecidableEq, Repr

/-- The states of a curve (section 2.4). -/
inductive CurveState where
  | empty
  | loading
  | ready
  | retiring
  deriving DecidableEq, Repr

/-- A directory entry (section 2.1). -/
structure CurveEntry where
  state : CurveState
  header : Option CurveHeader
  refCount : Nat
  generation : BitVec 8
  blocks : List Nat
  deriving DecidableEq, Repr

/-! ### Coefficient store and load unit (chapter 3) -/

/-- The coefficient store (R33): its words as (address, word) cells, and the free pool as an ascending list.
The address of word `j` of block `b` is `32 * b + j`. -/
structure CoeffStore where
  words : List (Nat × Word)
  free : List Nat
  deriving DecidableEq, Repr

/-- The states of the load session (section 3.2). -/
inductive SessionState where
  | idle
  | opened
  | failed
  deriving DecidableEq, Repr

/-- The phases of the cursor (R40). -/
inductive Phase where
  | breakpoints
  | degree
  | terms
  | complete
  deriving DecidableEq, Repr

/-- The cursor (R40, R41). -/
structure Cursor where
  phase : Phase
  segment : Nat
  remaining : Nat
  lowHalf : Option Word
  deriving DecidableEq, Repr

/-- The reasons a session fails (R43 to R45). -/
inductive LoadReason where
  | badValue
  | badOrder
  | badDegree
  | storeFull
  | overrun
  deriving DecidableEq, Repr

/-- The failure record (R46). -/
structure FailureRecord where
  reason : LoadReason
  wordIndex : Nat
  deriving DecidableEq, Repr

/-- The load session (section 3.2). -/
structure LoadSession where
  state : SessionState
  curve : Fin 32
  cursor : Cursor
  wordIndex : Nat
  failure : Option FailureRecord
  deriving DecidableEq, Repr

/-! ### Jobs (chapter 4) and exceptions (section 1.5) -/

/-- The exception policies (R54). -/
inductive ExcPolicy where
  | mark
  | stop
  | hold
  deriving DecidableEq, Repr

/-- What the kind of a job adds to its descriptor (R55, R56). -/
inductive JobBody where
  | single (arg : Value)
  | batch (count : Nat) (argBase : Word) (argStride : BitVec 16) (resBase : Word) (resStride : BitVec 16)
  deriving DecidableEq, Repr

/-- A descriptor copy (R54, R60). -/
structure Descriptor where
  curve : Fin 32
  argFormat : Format
  resFormat : Format
  policy : ExcPolicy
  notify : Bool
  cookie : BitVec 16
  body : JobBody
  deriving DecidableEq, Repr

/-- The exception kinds (section 1.5). -/
inductive ExcKind where
  | invalid
  | range
  | overflow
  | underflow
  deriving DecidableEq, Repr

/-- The stages (R14); the term index is part of the TERM stage and of no other. -/
inductive Stage where
  | argument
  | range
  | origin
  | term (j : Nat)
  | result
  deriving DecidableEq, Repr

/-- An exception (section 1.5). -/
structure Exc where
  kind : ExcKind
  stage : Stage
  deriving DecidableEq, Repr

/-- A first exception: the element and its exception (section 5.2). -/
structure FirstExc where
  element : Nat
  exc : Exc
  deriving DecidableEq, Repr

/-- A job entry (R60), as it travels with the tag. The abort mark and the working values exist only while the job
is in the engine (R71, R73, R74) and are in `RunningJob`. -/
structure Job where
  tag : Nat
  level : Fin 4
  desc : Descriptor
  index : Nat
  done : Nat
  excCount : Nat
  first : Option FirstExc
  deriving DecidableEq, Repr

/-- Job intake: the staging area (R53), the tag pool as an ascending list (R61), the level queues (R63). -/
structure Intake where
  stage : Vector Word 7
  freeTags : List Nat
  queues : Vector (List Job) 4
  deriving DecidableEq, Repr

/-! ### Engine (chapter 5), context slots (chapter 6), hold slot (chapter 7) -/

/-- The engine states (R70). -/
inductive EngineState where
  | idle
  | fetch
  | setup
  | terms
  | store
  | frozen
  deriving DecidableEq, Repr

/-- The working values (section 5.2); `nextTerm` is `none` when no term remains. -/
structure Working where
  segment : Nat
  t : Value
  acc : Value
  nextTerm : Option Nat
  deriving DecidableEq, Repr

/-- The running job (section 5.2). -/
structure RunningJob where
  job : Job
  abortMark : Bool
  arg : Option Value
  work : Option Working
  result : Option Value
  deriving DecidableEq, Repr

/-- The arithmetic operations (R70). -/
inductive ArithOp where
  | setup
  | terms
  | conversion
  deriving DecidableEq, Repr

/-- The evaluation engine. `abandoned` lists the operations still in flight whose outcome is to be discarded
whenever they complete (R96, R97). -/
structure Engine where
  state : EngineState
  running : Option RunningJob
  abandoned : List ArithOp
  deriving DecidableEq, Repr

/-- The partial part (R73, R109). -/
structure PartialPart where
  work : Working
  arg : Value
  deriving DecidableEq, Repr

/-- The record in an occupied context slot (R109). -/
structure Suspended where
  job : Job
  part : Option PartialPart
  deriving DecidableEq, Repr

/-- The pending action of a continued job (R116, R121). -/
inductive HoldAction where
  | skipMark
  | substitute (v : Value)
  | retry
  deriving DecidableEq, Repr

/-- The hold record (R116): HELD while `action` is absent, CONTINUING while it is present. -/
structure HoldRecord where
  job : Job
  exc : Exc
  arg : Value
  action : Option HoldAction
  deriving DecidableEq, Repr

/-! ### Bus master (chapter 8) -/

/-- The bus states (R130). -/
inductive BusState where
  | idle
  | requesting
  | owner
  deriving DecidableEq, Repr

/-- The kinds of a value under way (section 8.1). -/
inductive ValueKind where
  | resultWrite
  | demandRead
  | prefetchRead
  | dropped
  deriving DecidableEq, Repr

/-- The value under way: its first word's address, its size in words, the halves ended so far, and the low word
read of a W value whose low half has ended (section 8.1). -/
structure UnderWay where
  kind : ValueKind
  addr : Word
  size : Nat
  ended : Nat
  lowRead : Option Word
  deriving DecidableEq, Repr

/-- A waiting result write (section 8.1). -/
structure WaitingWrite where
  element : Nat
  addr : Word
  value : Value
  deriving DecidableEq, Repr

/-- A waiting demand read (section 8.1). -/
structure WaitingRead where
  element : Nat
  addr : Word
  deriving DecidableEq, Repr

/-- A prefetch entry (R139): IN_FLIGHT while `value` is absent, READY while it is present. -/
structure PrefetchEntry where
  element : Nat
  value : Option Value
  deriving DecidableEq, Repr

/-- The prefetch index p and the prefetch-stopped flag (section 8.1). -/
structure PrefetchPart where
  p : Nat
  stopped : Bool
  deriving DecidableEq, Repr

/-- The bus master (section 8.1). `grantRemoved`: the arbiter has removed BGNT in the present tenure (R180). -/
structure BusMaster where
  state : BusState
  tenureCount : Nat
  grantRemoved : Bool
  underWay : Option UnderWay
  waitingWrite : Option WaitingWrite
  waitingRead : Option WaitingRead
  buffer : List PrefetchEntry
  prefetch : Option PrefetchPart
  deriving DecidableEq, Repr

/-! ### Completion unit (chapter 9) -/

/-- The end statuses of a job (R93). -/
inductive JobStatus where
  | complete
  | completeMarked
  | stopped
  | holdUnavailable
  | aborted
  | busError
  deriving DecidableEq, Repr

/-- The kind of a job as a record shows it. -/
inductive JobKind where
  | single
  | batch
  deriving DecidableEq, Repr

/-- The direction of a failed transfer (R93). -/
inductive Direction where
  | read
  | write
  deriving DecidableEq, Repr

/-- The bus error part of a record (R150). -/
structure BusErr where
  addr : Word
  dir : Direction
  deriving DecidableEq, Repr

/-- A completion record (R150). -/
structure Record where
  tag : Nat
  level : Fin 4
  kind : JobKind
  status : JobStatus
  cookie : BitVec 16
  curve : Fin 32
  generation : BitVec 8
  done : Nat
  excCount : Nat
  first : Option FirstExc
  result : Option Value
  busErr : Option BusErr
  deriving DecidableEq, Repr

/-- The event flags, in the order of their bits (R157, R181). -/
inductive EventFlag where
  | completion
  | hold
  | cmdDone
  | loadFailed
  | cmdOverrun
  | popEmpty
  | loadDiscard
  deriving DecidableEq, Repr

/-- The completion unit: queue oldest first (R151), flags (R157) and enables (R159), bits as R181 gives. -/
structure Completion where
  records : List Record
  events : BitVec 7
  enables : BitVec 7
  deriving DecidableEq, Repr

/-! ### Command unit (chapter 10) and window (chapter 11) -/

/-- The result codes (section 10.2, R183). -/
inductive CmdResult where
  | none
  | done
  | deferred
  | alreadyRetiring
  | noCurve
  | curveBusy
  | badHeader
  | sessionBusy
  | incomplete
  | sessionFailed
  | noSession
  | notHeld
  | notApplicable
  | aborted
  | abortPending
  | tooLate
  | unknownTag
  | badArgument
  | badCommand
  deriving DecidableEq, Repr

/-- The command unit (section 10.1); `pending` is the command state. -/
structure CommandUnit where
  pending : Bool
  lastCommand : Option (BitVec 8)
  lastResult : CmdResult
  args : Vector Word 3
  query : Vector Word 4
  deriving DecidableEq, Repr

/-- What the window answers to an access (R177, R178, R185): nothing while RST is asserted, ACK, ACK with read
data, or BERR. -/
inductive WindowAnswer where
  | unanswered
  | ack
  | ackData (data : Word)
  | berr
  deriving DecidableEq, Repr

/-! ### The state -/

/-- The state of the block. -/
structure State where
  /-- RST is asserted (R176). -/
  rst : Bool
  /-- The window's answer to the last access (R177). -/
  answer : WindowAnswer
  /-- Command unit. -/
  cmd : CommandUnit
  /-- Curve directory. -/
  curves : Vector CurveEntry 32
  /-- Coefficient store. -/
  store : CoeffStore
  /-- Load unit. -/
  load : LoadSession
  /-- Job intake. -/
  intake : Intake
  /-- CONTROL (R103, R146, R181). -/
  control : Word
  /-- Context slots 0, 1 and 2 (R109). -/
  slots : Vector (Option Suspended) 3
  /-- The yield request (R105). -/
  yieldRequest : Bool
  /-- Evaluation engine. -/
  engine : Engine
  /-- The hold slot (R116). -/
  hold : Option HoldRecord
  /-- Bus master. -/
  bus : BusMaster
  /-- Completion unit. -/
  completion : Completion
  /-- The commands waiting, first in first out: the model's own field. -/
  pending : List Instr
  deriving DecidableEq, Repr

/-- Why a command cannot be taken at all. -/
inductive Fault where
  /-- Raised by the events of the part, its bus and its reset line when the state has nothing for them to end: a
  completion with no such operation in flight, the end of a transfer that is not under way, a release of RST that
  is not asserted. The spec has no such event. Safe: the model stops where the hardware has no behaviour. -/
  | noSuchEvent
  deriving DecidableEq, Repr

/-- Why a command has no meaning. -/
inductive Refusal where
  /-- Raised by `exec` for a row without a meaning. Safe. No row is left so. -/
  | notModelled (mnemonic : String)
  /-- Raised by BAD_COMMAND with a code that names a command and by WINDOW_ACCESS_ERROR with an access that is
  not in error: operands that the row cannot have (R162, R178). Safe. -/
  | illFormed
  deriving DecidableEq, Repr

/-! ### Reset values -/

/-- A directory entry after hard reset (R32). -/
def CurveEntry.reset : CurveEntry :=
  { state := .empty, header := none, refCount := 0, generation := 0, blocks := [] }

/-- The cursor after hard reset (R52); DESIGN CHOICE 0 for the count of values remaining (log 16). -/
def Cursor.reset : Cursor := { phase := .breakpoints, segment := 0, remaining := 0, lowHalf := none }

/-- The load session after hard reset (R52). -/
def LoadSession.reset : LoadSession :=
  { state := .idle, curve := 0, cursor := Cursor.reset, wordIndex := 0, failure := none }

/-- The bus master after hard reset (R149). -/
def BusMaster.reset : BusMaster :=
  { state := .idle, tenureCount := 0, grantRemoved := false, underWay := none, waitingWrite := none,
    waitingRead := none, buffer := [], prefetch := none }

/-- The machine at the release of hard reset (R176 and the rules it names). -/
def State.reset : State :=
  { rst := false
    answer := .unanswered
    cmd :=
      { pending := false, lastCommand := none, lastResult := .none,
        args := Vector.replicate 3 0, query := Vector.replicate 4 0 }
    curves := Vector.replicate 32 CurveEntry.reset
    store := { words := [], free := List.range Config.blockCount }
    load := LoadSession.reset
    intake :=
      { stage := Vector.replicate 7 0, freeTags := List.range Config.tagCount, queues := Vector.replicate 4 [] }
    control := Config.controlReset
    slots := Vector.replicate 3 none
    yieldRequest := false
    engine := { state := .idle, running := none, abandoned := [] }
    hold := none
    bus := BusMaster.reset
    completion := { records := [], events := 0, enables := 0 }
    pending := [] }

end Sys2Proof.Machine
end

