-- ==== Sys2Proof/Machine/Flags.lean ====
section
/-! DEFINITION. The event flags, their enables and the interrupt line (section 9.4, 9.5), and the level enables
and bus fields of CONTROL (R181). -/

namespace Sys2Proof.Machine

/-- The bit of an event in EVENTS and EVENT_ENABLE (R181). -/
def eventBit : EventFlag → Nat
  | .completion => 0
  | .hold => 1
  | .cmdDone => 2
  | .loadFailed => 3
  | .cmdOverrun => 4
  | .popEmpty => 5
  | .loadDiscard => 6

/-- The word of the seven flags with one flag set. -/
def eventMask (f : EventFlag) : BitVec 7 := 1#7 <<< eventBit f

/-- R157: set a flag; a flag already set stays set. -/
def setEvent (f : EventFlag) (s : State) : State :=
  { s with completion := { s.completion with events := s.completion.events ||| eventMask f } }

/-- Clear the flags whose bits are 1. -/
def clearEvents (m : BitVec 7) (s : State) : State :=
  { s with completion := { s.completion with events := s.completion.events &&& ~~~m } }

/-- A flag is SET. -/
def eventSet (f : EventFlag) (s : State) : Bool := s.completion.events.getLsbD (eventBit f)

/-- R159, R176: IRQ is asserted while a flag is SET whose enable is ENABLED, and never while RST is asserted. -/
def irq (s : State) : Bool := !s.rst && decide (s.completion.events &&& s.completion.enables ≠ 0#7)

/-- Level `l` is ENABLED in CONTROL (R103, R181). -/
def levelEnabled (s : State) (l : Fin 4) : Bool := s.control.getLsbD l.val

/-- Prefetch is ENABLED in CONTROL (R146, R181). -/
def prefetchEnabled (s : State) : Bool := s.control.getLsbD 4

/-- The tenure limit of CONTROL in transfers (R146, R181). -/
def tenureLimit (s : State) : Nat := (s.control.toNat / 2 ^ 8) % 2 ^ 4 + 1

end Sys2Proof.Machine
end

