-- ==== Sys2Proof/Machine/Arith.lean ====
section
/-! DEFINITION. Number formats and evaluation arithmetic (chapter 1, layouts of R187). -/

namespace Sys2Proof.Machine

/-! ### Formats (table of section 1.1) -/

/-- Words of a value of the format. -/
def formatWords : Format → Nat
  | .n => 1
  | .w => 2

/-- Width of the fraction field. -/
def fracBits : Format → Nat
  | .n => 23
  | .w => 52

/-- Exponent bias. -/
def bias : Format → Int
  | .n => 128
  | .w => 1024

/-- The all-ones exponent field of the invalid marker (R3). -/
def markerExp : Format → Nat
  | .n => 255
  | .w => 2047

/-- Largest unbiased exponent of a normal value (R7). -/
def maxExp : Format → Int
  | .n => 126
  | .w => 1022

/-- Smallest unbiased exponent of a normal value (R8). -/
def minExp : Format → Int
  | .n => -127
  | .w => -1023

/-! ### Fields of an encoding (R187) -/

/-- The format a value is encoded in. -/
def valueFormat : Value → Format
  | .narrow _ => .n
  | .wide _ _ => .w

/-- The sign field, set for a negative value. -/
def valueSign : Value → Bool
  | .narrow x => x.msb
  | .wide hi _ => hi.msb

/-- The exponent field. -/
def valueExp : Value → Nat
  | .narrow x => (x.toNat / 2 ^ 23) % 2 ^ 8
  | .wide hi _ => (hi.toNat / 2 ^ 20) % 2 ^ 11

/-- The fraction field. -/
def valueFrac : Value → Nat
  | .narrow x => x.toNat % 2 ^ 23
  | .wide hi lo => (hi.toNat % 2 ^ 20) * 2 ^ 32 + lo.toNat

/-- R2: a zero is told by its exponent field alone. -/
def isZero (v : Value) : Bool := decide (valueExp v = 0)

/-- R3: the invalid marker is told by its exponent field alone. -/
def isMarker (v : Value) : Bool := decide (valueExp v = markerExp (valueFormat v))

/-- The number of an encoding: 0 for a zero (R2), else R1's formula. No step applies it to a marker (R3, R5). -/
def valueNum (v : Value) : Dyadic :=
  if isZero v then Dyadic.zero
  else
    let m : Int := ((2 ^ fracBits (valueFormat v) + valueFrac v : Nat) : Int)
    ⟨if valueSign v then -m else m, (valueExp v : Int) - bias (valueFormat v) - (fracBits (valueFormat v) : Int)⟩

/-- Zero as the part writes it (R4). -/
def zeroValue : Format → Value
  | .n => .narrow 0
  | .w => .wide 0 0

/-- The invalid marker as the part writes it (R4). -/
def markerValue : Format → Value
  | .n => .narrow 0xFFFFFFFF#32
  | .w => .wide 0xFFFFFFFF#32 0xFFFFFFFF#32

/-- The encoding with the given sign, exponent and fraction fields (R187). -/
def packValue (f : Format) (neg : Bool) (exp frac : Nat) : Value :=
  match f with
  | .n => .narrow (BitVec.ofNat 32 ((if neg then 2 ^ 31 else 0) + exp * 2 ^ 23 + frac))
  | .w =>
    .wide (BitVec.ofNat 32 ((if neg then 2 ^ 31 else 0) + exp * 2 ^ 20 + frac / 2 ^ 32))
      (BitVec.ofNat 32 (frac % 2 ^ 32))

/-- R4: a zero of any encoding becomes the all-zero pattern; every other value stays. -/
def canonical (v : Value) : Value := if isZero v then zeroValue (valueFormat v) else v

/-- R5: the first value is less than the second. -/
def valueLt (a b : Value) : Bool := (valueNum a).lt (valueNum b)

/-- R5: the first value is less than or equal to the second. -/
def valueLe (a b : Value) : Bool := (valueNum a).le (valueNum b)

/-! ### Rounding (R6 to R8) -/

/-- The outcome of rounding an exact number: a value, or one of the two conditions. -/
inductive Rounded where
  | value (v : Value)
  | overflow
  | underflow
  deriving DecidableEq, Repr

/-- R6: a magnitude rounded to `p` significant bits, to nearest with ties away from zero: the significand as an
integer of `p` bits and the unbiased exponent, renormalized when the significand reached 2. -/
def roundMagnitude (p : Nat) (mag : Nat) (e : Int) : Nat × Int :=
  let l := Nat.log2 mag
  let u : Int := (l : Int) + e
  if l + 1 ≤ p then (mag * 2 ^ (p - 1 - l), u)
  else
    let sh := l + 1 - p
    let sig := (mag + 2 ^ (sh - 1)) / 2 ^ sh
    if sig = 2 ^ p then (2 ^ (p - 1), u + 1) else (sig, u)

/-- R6 to R8: an exact number rounded once into a format and tested for overflow and then for underflow. -/
def roundTo (f : Format) (v : Dyadic) : Rounded :=
  if v.m = 0 then .value (zeroValue f)
  else
    let r := roundMagnitude (fracBits f + 1) v.m.natAbs v.e
    if maxExp f < r.2 then .overflow
    else if r.2 < minExp f then .underflow
    else .value (packValue f (decide (v.m < 0)) (r.2 + bias f).toNat (r.1 - 2 ^ fracBits f))

/-- What a step delivers: a value, or an exception of the kind (R7, R8). -/
inductive Delivered where
  | value (v : Value)
  | exception (k : ExcKind)
  deriving DecidableEq, Repr

/-- R7 and R8: OVERFLOW is always an exception, UNDERFLOW is zero under FLUSH and an exception under FAULT. -/
def deliver (f : Format) (pol : UnderflowPolicy) : Rounded → Delivered
  | .value v => .value v
  | .overflow => .exception .overflow
  | .underflow =>
    match pol with
    | .flush => .value (zeroValue f)
    | .fault => .exception .underflow

/-! ### The operations of section 1.4 -/

/-- R9: the fused step `acc × t + c`, exact and rounded once into the working format. -/
def fusedStep (f : Format) (pol : UnderflowPolicy) (acc t c : Value) : Delivered :=
  deliver f pol (roundTo f (((valueNum acc).mul (valueNum t)).add (valueNum c)))

/-- R10: the origin subtraction `x - b`. -/
def originSub (f : Format) (pol : UnderflowPolicy) (x b : Value) : Delivered :=
  deliver f pol (roundTo f ((valueNum x).sub (valueNum b)))

/-- R11: the same number in the wide format: the exponent field larger by 896, the fraction followed by 29 zero
bits. -/
def widen (v : Value) : Value := packValue .w (valueSign v) (valueExp v + 896) (valueFrac v * 2 ^ 29)

/-- R11 and R12: a conversion to the target format. Only W to N rounds. A zero leaves in canonical form. -/
def convert (target : Format) (pol : UnderflowPolicy) (v : Value) : Delivered :=
  match valueFormat v, target with
  | .n, .n => .value (canonical v)
  | .w, .w => .value (canonical v)
  | .n, .w => .value (if isZero v then zeroValue .w else widen v)
  | .w, .n => deliver .n pol (roundTo .n (valueNum v))

end Sys2Proof.Machine
end

