-- ==== Sys2Proof/Machine/Operands.lean ====
section
/-! DEFINITION. The operand forms: fields of the argument registers and of the staging area as commands and
submissions read them (R179, R183, R184), and the codes that words show (R182 to R186). -/

namespace Sys2Proof.Machine

/-- Bits `lo + width - 1 : lo` of a word as a number. -/
def bits (w : Word) (lo width : Nat) : Nat := (w.toNat / 2 ^ lo) % 2 ^ width

/-- A field of a word that is shown: `v` in `width` bits from bit `lo` up. -/
def field (v lo width : Nat) : Word := BitVec.ofNat 32 ((v % 2 ^ width) * 2 ^ lo)

/-- A flag shown at one bit. -/
def flagBit (b : Bool) (lo : Nat) : Word := field (if b then 1 else 0) lo 1

/-- One bit of a word as a flag. -/
def bitSet (w : Word) (i : Nat) : Bool := w.getLsbD i

/-! ### Argument registers -/

/-- CMD_ARG`i` (R164). -/
def cmdArg (s : State) (i : Fin 3) : Word := s.cmd.args[i]

/-- CMD_ARG0 as one unsigned number (R179, R183). -/
def argNumber (s : State) : Nat := (cmdArg s 0).toNat

/-- A number as a curve id, when it is one. -/
def curveId? (n : Nat) : Option (Fin 32) := if h : n < 32 then some ⟨n, h⟩ else none

/-- A number as a level, when it is one. -/
def level? (n : Nat) : Option (Fin 4) := if h : n < 4 then some ⟨n, h⟩ else none

/-- The format a format bit names. -/
def formatOf (wide : Bool) : Format := if wide then .w else .n

/-- The range policy code (R183); code 3 names none. -/
def rangeOf : Nat → Option RangePolicy
  | 0 => some .clamp
  | 1 => some .extend
  | 2 => some .reject
  | _ => none

/-- The curve header in CMD_ARG1 of OPEN_LOAD, or `none` for BAD_HEADER (R38, R183). -/
def decodeHeader (w : Word) : Option CurveHeader :=
  let k := bits w 0 8
  if k = 0 ∨ Config.segmentCountMax < k then none
  else
    (rangeOf (bits w 10 2)).map fun r =>
      { format := formatOf (bitSet w 8)
        segments := k
        origin := if bitSet w 9 then .offset else .absolute
        range := r
        underflow := if bitSet w 12 then .fault else .flush }

/-- The value in a register pair: the first word alone for N, low word first for W (00, Conventions). -/
def pairValue (f : Format) (first second : Word) : Value :=
  match f with
  | .n => .narrow first
  | .w => .wide second first

/-- The action codes of CONTINUE (R183). -/
inductive ActionCode where
  | skipMark
  | substitute
  | retry
  deriving DecidableEq, Repr

/-- The action field of CMD_ARG0 (R183); code 3 names none. -/
def actionOf : Nat → Option ActionCode
  | 0 => some .skipMark
  | 1 => some .substitute
  | 2 => some .retry
  | _ => none

/-- The pending action an accepted CONTINUE sets (R121, R122). -/
def pendingAction (s : State) (resFormat : Format) : ActionCode → HoldAction
  | .skipMark => .skipMark
  | .substitute => .substitute (pairValue resFormat (cmdArg s 1) (cmdArg s 2))
  | .retry => .retry

/-! ### The staged descriptor -/

/-- STAGE`i` (R53). -/
def stageReg (s : State) (i : Fin 7) : Word := s.intake.stage[i]

/-- The reasons of BAD_DESCRIPTOR (R58). -/
inductive DescReason where
  | kind
  | count
  | align
  | stride
  | range
  deriving DecidableEq, Repr

/-- The exception-policy code (R184); code 3 names none. -/
def policyOf : Nat → Option ExcPolicy
  | 0 => some .mark
  | 1 => some .stop
  | 2 => some .hold
  | _ => none

/-- The kind code (R184); codes 2 and 3 name none. -/
def kindOf : Nat → Option JobKind
  | 0 => some .single
  | 1 => some .batch
  | _ => none

/-- Bytes of a value of the format (R56). -/
def formatBytes (f : Format) : Nat := 4 * formatWords f

/-- The byte after the last byte of an array of `n` elements, not reduced modulo 2^32 (R58, RANGE). -/
def arrayEnd (base : Word) (stride : BitVec 16) (n : Nat) (f : Format) : Nat :=
  base.toNat + (n - 1) * stride.toNat + formatBytes f

/-- The checks 2 to 5 of R58, for a BATCH descriptor, in their order. -/
def batchReason (argFormat resFormat : Format) (n : Nat) (argBase : Word) (argStride : BitVec 16) (resBase : Word)
    (resStride : BitVec 16) : Option DescReason :=
  if n = 0 then some .count
  else if argBase.toNat % 4 ≠ 0 ∨ resBase.toNat % 4 ≠ 0 then some .align
  else if argStride.toNat % 4 ≠ 0 ∨ resStride.toNat % 4 ≠ 0 ∨ resStride.toNat < formatBytes resFormat then
    some .stride
  else if 2 ^ 32 < arrayEnd argBase argStride n argFormat ∨ 2 ^ 32 < arrayEnd resBase resStride n resFormat then
    some .range
  else none

/-- The staged descriptor, or the reason of the first check of R58 that fails. -/
def stagedDescriptor (s : State) : Except DescReason Descriptor :=
  let w := stageReg s 0
  let argFormat := formatOf (bitSet w 7)
  let resFormat := formatOf (bitSet w 8)
  match kindOf (bits w 0 2), policyOf (bits w 9 2) with
  | some .single, some policy =>
    .ok
      { curve := ⟨bits w 2 5, Nat.mod_lt _ (by decide)⟩, argFormat := argFormat, resFormat := resFormat,
        policy := policy, notify := bitSet w 11, cookie := (stageReg s 1).truncate 16,
        body := .single (pairValue argFormat (stageReg s 2) (stageReg s 3)) }
  | some .batch, some policy =>
    let n := bits (stageReg s 2) 0 16
    let argStride := (stageReg s 4).truncate 16
    let resStride := (stageReg s 6).truncate 16
    match batchReason argFormat resFormat n (stageReg s 3) argStride (stageReg s 5) resStride with
    | some r => .error r
    | none =>
      .ok
        { curve := ⟨bits w 2 5, Nat.mod_lt _ (by decide)⟩, argFormat := argFormat, resFormat := resFormat,
          policy := policy, notify := bitSet w 11, cookie := (stageReg s 1).truncate 16,
          body := .batch n (stageReg s 3) argStride (stageReg s 5) resStride }
  | _, _ => .error .kind

/-! ### Descriptors -/

/-- The element count: 1 by kind for a SINGLE job (R55, R56). -/
def elementCount (d : Descriptor) : Nat :=
  match d.body with
  | .single _ => 1
  | .batch n _ _ _ _ => n

/-- The kind of a job. -/
def descKind (d : Descriptor) : JobKind :=
  match d.body with
  | .single _ => .single
  | .batch _ _ _ _ _ => .batch

/-- The job is a BATCH job. -/
def isBatch (d : Descriptor) : Bool := decide (descKind d = .batch)

/-- The address of the argument of element `i` (R56, R132); a SINGLE job has none. -/
def argAddress (d : Descriptor) (i : Nat) : Word :=
  match d.body with
  | .single _ => 0
  | .batch _ base stride _ _ => BitVec.ofNat 32 (base.toNat + i * stride.toNat)

/-- The address of the result slot of element `i` (R56, R132); a SINGLE job has none. -/
def resAddress (d : Descriptor) (i : Nat) : Word :=
  match d.body with
  | .single _ => 0
  | .batch _ _ _ base stride => BitVec.ofNat 32 (base.toNat + i * stride.toNat)

/-! ### Codes that words show -/

/-- Result codes (R183). -/
def resultCode : CmdResult → Nat
  | .none => 0x00
  | .done => 0x01
  | .deferred => 0x02
  | .alreadyRetiring => 0x03
  | .noCurve => 0x04
  | .curveBusy => 0x05
  | .badHeader => 0x06
  | .sessionBusy => 0x07
  | .incomplete => 0x08
  | .sessionFailed => 0x09
  | .noSession => 0x0A
  | .notHeld => 0x0B
  | .notApplicable => 0x0C
  | .aborted => 0x0D
  | .abortPending => 0x0E
  | .tooLate => 0x0F
  | .unknownTag => 0x10
  | .badArgument => 0x11
  | .badCommand => 0x12

/-- Descriptor reason codes (R185). -/
def reasonCode : DescReason → Nat
  | .kind => 1
  | .count => 2
  | .align => 3
  | .stride => 4
  | .range => 5

/-- Format codes (R183, R184). -/
def formatCode : Format → Nat
  | .n => 0
  | .w => 1

/-- The header in the layout of R183. -/
def headerWord (h : CurveHeader) : Word :=
  field h.segments 0 8 ||| field (formatCode h.format) 8 1
    ||| field (match h.origin with | .absolute => 0 | .offset => 1) 9 1
    ||| field (match h.range with | .clamp => 0 | .extend => 1 | .reject => 2) 10 2
    ||| field (match h.underflow with | .flush => 0 | .fault => 1) 12 1

/-- Curve state codes (R183). -/
def curveStateCode : CurveState → Nat
  | .empty => 0
  | .loading => 1
  | .ready => 2
  | .retiring => 3

/-- Exception kind codes (R186). -/
def kindCode : ExcKind → Nat
  | .invalid => 1
  | .range => 2
  | .overflow => 3
  | .underflow => 4

/-- Stage codes (R186). -/
def stageCode : Stage → Nat
  | .argument => 1
  | .range => 2
  | .origin => 3
  | .term _ => 4
  | .result => 5

/-- The term index shown with a stage: that of TERM (R186). The other stages have none, and the field then reads 0:
DESIGN CHOICE (log 30). -/
def stageTermIndex : Stage → Nat
  | .term j => j
  | _ => 0

/-- Job kind codes (R184, R186). -/
def jobKindCode : JobKind → Nat
  | .single => 0
  | .batch => 1

/-- Status codes (R186). -/
def statusCode : JobStatus → Nat
  | .complete => 1
  | .completeMarked => 2
  | .stopped => 3
  | .holdUnavailable => 4
  | .aborted => 5
  | .busError => 6

/-- The first word of a value: the N value or the low word of a W value (R186, R187). -/
def valueLow : Value → Word
  | .narrow x => x
  | .wide _ lo => lo

/-- The second word of a value: the high word of a W value, 0 for N (R186, R187). -/
def valueHigh : Value → Word
  | .narrow _ => 0
  | .wide hi _ => hi

end Sys2Proof.Machine
end

