-- ==== Sys2Proof/Machine/Store.lean ====
section
/-! DEFINITION. The coefficient store (chapter 3): its words, the free pool, and the words, breakpoints, degrees
and terms of a curve as R36 arranges them. -/

namespace Sys2Proof.Machine

/-! ### Ascending lists without repeats: the sets of free blocks and free tags -/

/-- Insert a number into an ascending list; a number already there stays once. -/
def insertAsc (n : Nat) : List Nat → List Nat
  | [] => [n]
  | m :: rest => if n < m then n :: m :: rest else if n = m then m :: rest else m :: insertAsc n rest

/-- Insert every number of a list. -/
def insertAllAsc (ns : List Nat) (set : List Nat) : List Nat := ns.foldl (fun acc n => insertAsc n acc) set

/-! ### Word cells in canonical form -/

/-- What a word that no cell lists reads as. DESIGN CHOICE, no rule makes it visible (R33; log 14). -/
def unlistedWord : Word := 0

/-- The word at an address. -/
def readCell (cells : List (Nat × Word)) (a : Nat) : Word :=
  match cells with
  | [] => unlistedWord
  | (b, x) :: rest => if a = b then x else readCell rest a

/-- Remove the cell of an address. -/
def eraseCell (a : Nat) : List (Nat × Word) → List (Nat × Word)
  | [] => []
  | (b, x) :: rest => if a = b then rest else (b, x) :: eraseCell a rest

/-- Put a cell into its place. -/
def insertCell (a : Nat) (v : Word) : List (Nat × Word) → List (Nat × Word)
  | [] => [(a, v)]
  | (b, x) :: rest =>
    if a < b then (a, v) :: (b, x) :: rest
    else if a = b then (a, v) :: rest
    else (b, x) :: insertCell a v rest

/-- Write a word; writing what an unlisted word reads as removes the cell. -/
def writeCell (a : Nat) (v : Word) (cells : List (Nat × Word)) : List (Nat × Word) :=
  if v = unlistedWord then eraseCell a cells else insertCell a v cells

/-- The canonical form: addresses strictly rising, no cell equal to what an unlisted word reads as. -/
def cellsWf : List (Nat × Word) → Bool
  | [] => true
  | (a, v) :: rest =>
    decide (v ≠ unlistedWord) && (rest.all fun c => decide (a < c.1)) && cellsWf rest

/-! ### Curve words (R36) -/

/-- The store address of word `n` of a curve that holds `blocks` in order. -/
def curveWordAddress (blocks : List Nat) (n : Nat) : Nat :=
  Config.blockWords * blocks.getD (n / Config.blockWords) 0 + n % Config.blockWords

/-- Word `n` of a curve. -/
def curveWord (st : CoeffStore) (blocks : List Nat) (n : Nat) : Word :=
  readCell st.words (curveWordAddress blocks n)

/-- The value of format `f` whose first word is curve word `n`, low word first (R36). -/
def curveValue (st : CoeffStore) (blocks : List Nat) (f : Format) (n : Nat) : Value :=
  match f with
  | .n => .narrow (curveWord st blocks n)
  | .w => .wide (curveWord st blocks (n + 1)) (curveWord st blocks n)

/-- The words of a value in the order of the store: low word first. -/
def valueWords : Value → List Word
  | .narrow x => [x]
  | .wide hi lo => [lo, hi]

/-- Write words at the next curve words (R42, step 3). -/
def writeCurveWords (blocks : List Nat) (n : Nat) (ws : List Word) (cells : List (Nat × Word)) :
    List (Nat × Word) :=
  match ws with
  | [] => cells
  | x :: rest => writeCurveWords blocks (n + 1) rest (writeCell (curveWordAddress blocks n) x cells)

/-- The curve word after a segment whose degree word is curve word `off` (R36). -/
def segmentEnd (st : CoeffStore) (blocks : List Nat) (h : CurveHeader) (off : Nat) : Nat :=
  off + 1 + ((curveWord st blocks off).toNat + 1) * formatWords h.format

/-- Where the degree word of segment `i` stands among the curve words (R36). -/
def segmentOffset (st : CoeffStore) (blocks : List Nat) (h : CurveHeader) : Nat → Nat
  | 0 => (h.segments + 1) * formatWords h.format
  | i + 1 => segmentEnd st blocks h (segmentOffset st blocks h i)

/-- Breakpoint `b_i`. -/
def breakpoint (st : CoeffStore) (blocks : List Nat) (h : CurveHeader) (i : Nat) : Value :=
  curveValue st blocks h.format (i * formatWords h.format)

/-- Degree `d_i`. -/
def segmentDegree (st : CoeffStore) (blocks : List Nat) (h : CurveHeader) (i : Nat) : Nat :=
  (curveWord st blocks (segmentOffset st blocks h i)).toNat

/-- Term `c_j` of segment `i`. -/
def segmentTerm (st : CoeffStore) (blocks : List Nat) (h : CurveHeader) (i j : Nat) : Value :=
  curveValue st blocks h.format (segmentOffset st blocks h i + 1 + j * formatWords h.format)

/-! ### Placing an argument on a curve (section 2.2) -/

/-- R18, and segment 0 or the last one under EXTEND (R17): the highest segment not above `top` whose lower
breakpoint is at most `x`, or segment 0. -/
def selectSegment (st : CoeffStore) (blocks : List Nat) (h : CurveHeader) (x : Value) : Nat → Nat
  | 0 => 0
  | top + 1 =>
    if valueLe (breakpoint st blocks h (top + 1)) x then top + 1 else selectSegment st blocks h x top

/-- R17: the argument after the range policy, or `none` for the RANGE exception. -/
def applyRange (st : CoeffStore) (blocks : List Nat) (h : CurveHeader) (x : Value) : Option Value :=
  let lo := breakpoint st blocks h 0
  let hi := breakpoint st blocks h h.segments
  if valueLt x lo then
    match h.range with
    | .clamp => some lo
    | .extend => some x
    | .reject => none
  else if valueLt hi x then
    match h.range with
    | .clamp => some hi
    | .extend => some x
    | .reject => none
  else some x

/-- The outcome of SETUP or of an iteration: working values, or an exception (R78). -/
inductive OpOutcome where
  | working (w : Working)
  | exception (e : Exc)
  deriving DecidableEq, Repr

/-- The next term index below `n`, or no term remaining (R78, R79). -/
def termBelow : Nat → Option Nat
  | 0 => none
  | j + 1 => some j

/-- R20 and the last step of R78: acc takes the highest term. t and acc are held in canonical form (R4, R109;
log 18). -/
def loadAccumulator (st : CoeffStore) (blocks : List Nat) (h : CurveHeader) (i : Nat) (t : Value) : OpOutcome :=
  .working
    { segment := i, t := canonical t, acc := canonical (segmentTerm st blocks h i (segmentDegree st blocks h i)),
      nextTerm := termBelow (segmentDegree st blocks h i) }

/-- Segment selection and the origin mode (R18, R19). -/
def placeArgument (st : CoeffStore) (blocks : List Nat) (h : CurveHeader) (x : Value) : OpOutcome :=
  let i := selectSegment st blocks h x (h.segments - 1)
  match h.origin with
  | .absolute => loadAccumulator st blocks h i x
  | .offset =>
    match originSub h.format h.underflow x (breakpoint st blocks h i) with
    | .exception k => .exception ⟨k, .origin⟩
    | .value t => loadAccumulator st blocks h i t

/-- R78: the SETUP operation on the argument in hand, its stages in the order of R14. -/
def evalSetup (st : CoeffStore) (blocks : List Nat) (h : CurveHeader) (arg : Value) : OpOutcome :=
  if isMarker arg then .exception ⟨.invalid, .argument⟩
  else
    match convert h.format h.underflow arg with
    | .exception k => .exception ⟨k, .argument⟩
    | .value x =>
      match applyRange st blocks h x with
      | none => .exception ⟨.range, .range⟩
      | some x' => placeArgument st blocks h x'

/-- R79: one Horner iteration, adding term `j` of the working segment. -/
def evalTerm (st : CoeffStore) (blocks : List Nat) (h : CurveHeader) (w : Working) (j : Nat) : OpOutcome :=
  match fusedStep h.format h.underflow w.acc w.t (segmentTerm st blocks h w.segment j) with
  | .exception k => .exception ⟨k, .term j⟩
  | .value acc => .working { w with acc := acc, nextTerm := termBelow j }

end Sys2Proof.Machine
end

