-- ==== Sys2Proof/Machine/Ops.lean ====
section
/-! DEFINITION. The shared operations of the blocks: emptying a curve, posting a record, the dispatcher's sources
and yield request, the bus master's work and its choice points, ending, suspending and starting a job, and the
completion of an engine reset. Each is one action at one event. -/

namespace Sys2Proof.Machine

/-! ### Curve directory and store -/

/-- The directory entry of a curve. -/
def curveEntry (s : State) (c : Fin 32) : CurveEntry := s.curves[c]

/-- Replace a directory entry. -/
def setCurve (c : Fin 32) (e : CurveEntry) (s : State) : State := { s with curves := s.curves.set c e }

/-- A directory entry with its lifetime ended: EMPTY, no header, count 0, no blocks, generation kept (R23). -/
def emptiedEntry (e : CurveEntry) : CurveEntry :=
  { e with state := .empty, header := none, refCount := 0, blocks := [] }

/-- R23: a curve is emptied and its blocks return to the free pool, at one event. -/
def emptyCurve (c : Fin 32) (s : State) : State :=
  { s with
    curves := s.curves.set c (emptiedEntry (curveEntry s c))
    store := { s.store with free := insertAllAsc (curveEntry s c).blocks s.store.free } }

/-- The header of a curve; that of an absent header is read by no rule (R16). -/
def headerOf (e : CurveEntry) : CurveHeader :=
  e.header.getD { format := .n, segments := 1, origin := .absolute, range := .clamp, underflow := .flush }

/-! ### Completion unit -/

/-- R27: one job fewer names the curve; a RETIRING curve whose count reaches 0 is emptied. -/
def releaseReference (c : Fin 32) (s : State) : State :=
  if (curveEntry s c).state = .retiring ∧ (curveEntry s c).refCount ≤ 1 then emptyCurve c s
  else setCurve c { curveEntry s c with refCount := (curveEntry s c).refCount - 1 } s

/-- R151: place a record at the tail of the completion queue. -/
def appendRecord (r : Record) (s : State) : State :=
  { s with completion := { s.completion with records := s.completion.records ++ [r] } }

/-- R95, R150: the record of a job, its generation read from the directory at the posting. -/
def buildRecord (s : State) (job : Job) (status : JobStatus) (result : Option Value) (err : Option BusErr) :
    Record :=
  { tag := job.tag, level := job.level, kind := descKind job.desc, status := status, cookie := job.desc.cookie,
    curve := job.desc.curve, generation := (curveEntry s job.desc.curve).generation, done := job.done,
    excCount := job.excCount, first := if job.excCount = 0 then none else job.first, result := result,
    busErr := err }

/-- R151: the posting of a job's record, with the release of its reference and COMPLETION for notify yes. -/
def postJob (job : Job) (status : JobStatus) (result : Option Value) (err : Option BusErr) (s : State) : State :=
  let posted := releaseReference job.desc.curve (appendRecord (buildRecord s job status result err) s)
  if job.desc.notify then setEvent .completion posted else posted

/-! ### Dispatcher: sources and yield request -/

/-- The levels, highest first. -/
def levelsDown : List (Fin 4) := [3, 2, 1, 0]

/-- Level queue `l` (R63). -/
def queueOf (s : State) (l : Fin 4) : List Job := s.intake.queues[l]

/-- Replace level queue `l`. -/
def setQueue (l : Fin 4) (q : List Job) (s : State) : State :=
  { s with intake := { s.intake with queues := s.intake.queues.set l q } }

/-- Context slot `l`; level 3 has none (R98). -/
def slotOf (s : State) (l : Fin 4) : Option Suspended := if h : l.val < 3 then s.slots[l.val] else none

/-- Replace context slot `l`; level 3 has none. -/
def setSlot (l : Fin 4) (x : Option Suspended) (s : State) : State :=
  if h : l.val < 3 then { s with slots := s.slots.set l.val x } else s

/-- A place from which the dispatcher can hand over a job (R98), with what it holds. -/
inductive Source where
  | contextSlot (l : Fin 4) (x : Suspended)
  | holdSlot (h : HoldRecord) (act : HoldAction)
  | queueHead (l : Fin 4) (j : Job) (rest : List Job)
  deriving DecidableEq, Repr

/-- The hold slot as a source of level `l`: CONTINUING, its job of that level (R98). -/
def holdSource (s : State) (l : Fin 4) : Option Source :=
  match s.hold with
  | some h =>
    match h.action with
    | some act => if h.job.level = l then some (.holdSlot h act) else none
    | none => none
  | none => none

/-- The head of level queue `l` as a source (R98). -/
def queueSource (s : State) (l : Fin 4) : Option Source :=
  match queueOf s l with
  | j :: rest => some (.queueHead l j rest)
  | [] => none

/-- The first source of level `l` in the order of R99: context slot, hold slot, queue head. -/
def sourceAt (s : State) (l : Fin 4) : Option Source :=
  match slotOf s l with
  | some x => some (.contextSlot l x)
  | none =>
    match holdSource s l with
    | some src => some src
    | none => queueSource s l

/-- The first eligible source of level `l` (R98). -/
def eligibleSource (s : State) (l : Fin 4) : Option Source :=
  if levelEnabled s l then sourceAt s l else none

/-- R99: the winner, from the highest enabled level at which a source exists. -/
def winner (s : State) : Option Source := levelsDown.findSome? (eligibleSource s)

/-- R100: a dispatch request exists. -/
def dispatchRequest (s : State) : Bool := decide (s.engine.state = .idle) && (winner s).isSome

/-- An eligible source exists at some level above `l` (R105). -/
def higherSource (s : State) (l : Fin 4) : Bool :=
  levelsDown.any fun k => decide (l < k) && (eligibleSource s k).isSome

/-- R105: what the yield request is while the state stands as it does. -/
def yieldDue (s : State) : Bool :=
  match s.engine.running with
  | some r => higherSource s r.job.level
  | none => false

/-- R105: the dispatcher sets the yield request afresh. -/
def refreshYield (s : State) : State := { s with yieldRequest := yieldDue s }

/-! ### Bus master: pending work, requests and choice points -/

/-- The running job's descriptor. -/
def runningDesc (s : State) : Option Descriptor := s.engine.running.map fun r => r.job.desc

/-- R140: a prefetch read for element p is pending. -/
def prefetchPending (s : State) : Bool :=
  match s.engine.running, s.bus.prefetch with
  | some r, some pf =>
    prefetchEnabled s && isBatch r.job.desc && decide (s.engine.state ≠ .frozen) && !pf.stopped
      && decide (pf.p < elementCount r.job.desc) && decide (s.bus.buffer.length < Config.prefetchDepth)
  | _, _ => false

/-- R131: some work is pending. -/
def busPending (s : State) : Bool :=
  s.bus.waitingWrite.isSome || s.bus.waitingRead.isSome || prefetchPending s

/-- R133 and R135: work pending while IDLE requests the bus, and a request with no work left is withdrawn. -/
def settleRequest (s : State) : State :=
  match s.bus.state with
  | .idle => if busPending s then { s with bus := { s.bus with state := .requesting } } else s
  | .requesting => if busPending s then s else { s with bus := { s.bus with state := .idle } }
  | .owner => s

/-- R130, R180: the release itself: the part stops driving the bus lines and removes BREQ, all at once. -/
def endTenure (s : State) : State := { s with bus := { s.bus with state := .idle, grantRemoved := false } }

/-- R134, R136, R180: the part releases the bus, and after it asserts BREQ again, at the same event, when work is still
pending. -/
def releaseBus (s : State) : State := settleRequest (endTenure s)

/-- Transfers of a value of the running job's argument format (R132). -/
def argSize (s : State) : Nat :=
  match runningDesc s with
  | some d => formatWords d.argFormat
  | none => 1

/-- The value a choice point takes (R134). -/
inductive Choice where
  | write (w : WaitingWrite)
  | read (r : WaitingRead)
  | prefetch (element : Nat) (addr : Word)
  deriving DecidableEq, Repr

/-- The prefetch read for element p, when it is pending (R140). -/
def prefetchChoice (s : State) : Option Choice :=
  if prefetchPending s then
    match s.engine.running, s.bus.prefetch with
    | some r, some pf => some (.prefetch pf.p (argAddress r.job.desc pf.p))
    | _, _ => none
  else none

/-- R134: result write, then demand read, then prefetch read. -/
def busChoice (s : State) : Option Choice :=
  match s.bus.waitingWrite with
  | some w => some (.write w)
  | none =>
    match s.bus.waitingRead with
    | some r => some (.read r)
    | none => prefetchChoice s

/-- Transfers of the chosen value (R132). -/
def choiceSize (s : State) : Choice → Nat
  | .write w => formatWords (valueFormat w.value)
  | .read _ => argSize s
  | .prefetch _ _ => argSize s

/-- R134: the value fits the tenure limit; the first value of a tenure always does. -/
def choiceFits (s : State) (c : Choice) : Bool :=
  decide (s.bus.tenureCount = 0) || decide (s.bus.tenureCount + choiceSize s c ≤ tenureLimit s)

/-- A value whose first transfer begins. -/
def beginning (kind : ValueKind) (addr : Word) (size : Nat) : UnderWay :=
  { kind := kind, addr := addr, size := size, ended := 0, lowRead := none }

/-- R131, R134, R140: the chosen value begins; its first transfer counts. -/
def beginValue (c : Choice) (s : State) : State :=
  match c with
  | .write w =>
    { s with
      bus :=
        { s.bus with
          tenureCount := s.bus.tenureCount + 1, waitingWrite := none
          underWay := some (beginning .resultWrite w.addr (choiceSize s c)) } }
  | .read r =>
    { s with
      bus :=
        { s.bus with
          tenureCount := s.bus.tenureCount + 1, waitingRead := none
          underWay := some (beginning .demandRead r.addr (choiceSize s c)) } }
  | .prefetch q addr =>
    { s with
      bus :=
        { s.bus with
          tenureCount := s.bus.tenureCount + 1
          underWay := some (beginning .prefetchRead addr (choiceSize s c))
          buffer := s.bus.buffer ++ [{ element := q, value := none }]
          prefetch := s.bus.prefetch.map fun pf => { pf with p := q + 1 } } }

/-- R134, R180: a choice point. -/
def choicePoint (s : State) : State :=
  if s.bus.grantRemoved then releaseBus s
  else
    match busChoice s with
    | none => releaseBus s
    | some c => if choiceFits s c then beginValue c s else releaseBus s

/-- The value under way has ended. -/
def endValue (s : State) : State := { s with bus := { s.bus with underWay := none } }

/-- R144: a prefetch read under way becomes a DROPPED value. -/
def dropPrefetchRead (u : UnderWay) : UnderWay :=
  if u.kind = .prefetchRead then { u with kind := .dropped, lowRead := none } else u

/-- R144: the bus master discards the work of a job that leaves the engine. -/
def discardJobWork (b : BusMaster) : BusMaster :=
  { b with
    underWay := b.underWay.map dropPrefetchRead, waitingRead := none, buffer := [], prefetch := none }

/-! ### Engine: leaving -/

/-- The job leaves the engine: IDLE, its bus work discarded, the yield request lowered (R70, R105, R144). -/
def leaveEngine (s : State) : State :=
  { s with
    engine := { s.engine with state := .idle, running := none }
    bus := discardJobWork s.bus
    yieldRequest := false }

/-- R150: the result part of a record: a SINGLE job with its element done. -/
def recordResult (r : RunningJob) : Option Value :=
  if descKind r.job.desc = .single ∧ r.job.done = 1 then r.result else none

/-- R94: the running job ends. -/
def endRunning (r : RunningJob) (status : JobStatus) (err : Option BusErr) (s : State) : State :=
  leaveEngine (postJob r.job status (recordResult r) err s)

/-- The end status of a job with no element left (R84, check 4). -/
def finalStatus (job : Job) : JobStatus := if job.excCount = 0 then .complete else .completeMarked

/-- R86, R110: the running job moves to the context slot of its level. -/
def suspend (r : RunningJob) (part : Option PartialPart) (s : State) : State :=
  setSlot r.job.level (some { job := r.job, part := part }) (leaveEngine s)

/-- The yield request as the engine reads it for its job: raised, and the job not of level 3 (R86, R105). -/
def yieldRaised (s : State) (r : RunningJob) : Bool := s.yieldRequest && decide (r.job.level.val < 3)

/-- A demand read is under way (R75). -/
def demandUnderWay (s : State) : Bool :=
  match s.bus.underWay with
  | some u => decide (u.kind = .demandRead)
  | none => false

/-- R75: the engine stands at the standing boundary. -/
def standing (s : State) : Bool := decide (s.engine.state = .fetch) && !demandUnderWay s

/-- R76: a raised yield request suspends a job that stands at the standing boundary, without a partial part. -/
def suspendIfStanding (s : State) : State :=
  match s.engine.running with
  | some r => if standing s && yieldRaised s r then suspend r none s else s
  | none => s

/-- R105 and R76: the dispatcher's inputs have changed: the yield request is set afresh and taken at once by a job
at the standing boundary. -/
def reactToSources (s : State) : State := settleRequest (suspendIfStanding (refreshYield s))

/-! ### Engine: the element flow -/

/-- Put a running job into the engine in a state. -/
def setEngine (st : EngineState) (r : RunningJob) (s : State) : State :=
  { s with engine := { s.engine with state := st, running := some r } }

/-- R137: a demand read for element `i` is requested. -/
def requestDemandRead (d : Descriptor) (i : Nat) (b : BusMaster) : BusMaster :=
  { b with
    waitingRead := some { element := i, addr := argAddress d i }
    prefetch := b.prefetch.map fun pf => { pf with p := i + 1 } }

/-- The prefetch entry for an element (R75). -/
def entryFor (b : BusMaster) (i : Nat) : Option PrefetchEntry := b.buffer.find? fun e => decide (e.element = i)

/-- R141: remove the entry of an element. -/
def removeEntry (i : Nat) (b : BusMaster) : BusMaster :=
  { b with buffer := b.buffer.filter fun e => decide (e.element ≠ i) }

/-- R75: the engine enters FETCH for the job's element and looks into the prefetch buffer. -/
def enterFetch (r : RunningJob) (s : State) : State :=
  match entryFor s.bus r.job.index with
  | some { element := _, value := some v } =>
    setEngine .setup { r with arg := some v } { s with bus := removeEntry r.job.index s.bus }
  | some { element := _, value := none } => setEngine .fetch r s
  | none => setEngine .fetch r { s with bus := requestDemandRead r.job.desc r.job.index s.bus }

/-- R138: the engine requests the result write of the job's element. -/
def requestWrite (r : RunningJob) (v : Value) (s : State) : State :=
  { s with
    bus :=
      { s.bus with
        waitingWrite := some { element := r.job.index, addr := resAddress r.job.desc r.job.index, value := v } } }

/-- The engine is in STORE with a result in hand whose write it requests (R80, R89, R126). -/
def storeResult (r : RunningJob) (v : Value) (s : State) : State :=
  requestWrite r v (setEngine .store { r with result := some v } s)

/-- R82: the capture of a SINGLE job's result. -/
def captured (r : RunningJob) (v : Value) : RunningJob :=
  { r with result := some v, job := { r.job with done := 1 } }

/-- R73: the element ends: its argument, working values and result are removed. -/
def clearElement (r : RunningJob) : RunningJob := { r with arg := none, work := none, result := none }

/-! ### Engine: exceptions (section 5.6) -/

/-- R88: count an exception and fill the first exception if absent. -/
def countException (e : Exc) (job : Job) : Job :=
  { job with
    excCount := min (job.excCount + 1) Config.exceptionCountMax
    first := if job.first = none then some { element := job.index, exc := e } else job.first }

/-- R89: MARK. A batch element's marker is written, a single job's is captured and the job ends. -/
def applyMark (r : RunningJob) (s : State) : State :=
  let v := markerValue r.job.desc.resFormat
  if isBatch r.job.desc then storeResult r v s else endRunning (captured r v) .completeMarked none s

/-- R91, R118, R120: HOLD. The job moves to an EMPTY hold slot, or ends HOLD_UNAVAILABLE. -/
def applyHold (r : RunningJob) (e : Exc) (arg : Value) (s : State) : State :=
  match s.hold with
  | none =>
    setEvent .hold
      { leaveEngine s with hold := some { job := r.job, exc := e, arg := arg, action := none } }
  | some _ => endRunning r .holdUnavailable none s

/-- R88: an exception of a job whose abort mark is clear is counted and the job's policy applied. -/
def applyException (r : RunningJob) (e : Exc) (arg : Value) (s : State) : State :=
  let r' : RunningJob := { r with job := countException e r.job, work := none, result := none }
  match r.job.desc.policy with
  | .mark => applyMark r' s
  | .stop => endRunning r' .stopped none s
  | .hold => applyHold r' e arg s

/-! ### Engine: taking a job (R71, R101, R145) -/

/-- A job as the engine takes it: abort mark clear, nothing in hand (R71). -/
def takenJob (job : Job) : RunningJob :=
  { job := job, abortMark := false, arg := none, work := none, result := none }

/-- R145: a batch job has a fresh prefetch part, a single job none. -/
def freshPrefetch (job : Job) (b : BusMaster) : BusMaster :=
  { b with
    buffer := []
    prefetch := if isBatch job.desc then some { p := job.index + 1, stopped := false } else none }

/-- R71: a job begins its element from the start: FETCH for a batch job, SETUP for a single one. -/
def startElement (job : Job) (s : State) : State :=
  match job.desc.body with
  | .single arg => setEngine .setup { takenJob job with arg := some arg } s
  | .batch _ _ _ _ _ => enterFetch (takenJob job) s

/-- R113: a job resumes from its partial part. -/
def resumePart (job : Job) (pp : PartialPart) (s : State) : State :=
  setEngine (if pp.work.nextTerm.isSome then .terms else .store)
    { takenJob job with arg := some pp.arg, work := some pp.work } s

/-- R126: an element receives its result without evaluation. -/
def deliverContinuation (job : Job) (v : Value) (s : State) : State :=
  if isBatch job.desc then storeResult (takenJob job) v s
  else endRunning (captured (takenJob job) v) .completeMarked none s

/-- R125 to R127: the engine takes the continued job as its pending action calls for. -/
def startContinuation (job : Job) (act : HoldAction) (s : State) : State :=
  match act with
  | .skipMark => deliverContinuation job (markerValue job.desc.resFormat) s
  | .substitute v => deliverContinuation job v s
  | .retry => startElement job s

/-- The bus master and the dispatcher as a job enters the engine (R101, R145). -/
def admitJob (job : Job) (s : State) : State :=
  { s with bus := freshPrefetch job s.bus, yieldRequest := false }

/-- R101: the winner leaves its source and the engine takes it. -/
def handOver : Source → State → State
  | .contextSlot l x, s =>
    match x.part with
    | some pp => resumePart x.job pp (admitJob x.job (setSlot l none s))
    | none => startElement x.job (admitJob x.job (setSlot l none s))
  | .holdSlot h act, s => startContinuation h.job act (admitJob h.job { s with hold := none })
  | .queueHead l j rest, s => startElement j (admitJob j (setQueue l rest s))

/-! ### Ending waiting jobs (R167) -/

/-- The places a tag can be in (R62). -/
inductive Place where
  | queued (l : Fin 4) (j : Job)
  | running (r : RunningJob)
  | suspended (l : Fin 4) (x : Suspended)
  | held (h : HoldRecord)
  | finished (r : Record)
  | free
  deriving DecidableEq, Repr

/-- The entry of a tag in level queue `l`. -/
def findQueued (s : State) (tag : Nat) (l : Fin 4) : Option Place :=
  ((queueOf s l).find? fun j => decide (j.tag = tag)).map (Place.queued l)

/-- The tag in context slot `l`. -/
def findSuspended (s : State) (tag : Nat) (l : Fin 4) : Option Place :=
  match slotOf s l with
  | some x => if x.job.tag = tag then some (.suspended l x) else none
  | none => none

/-- The tag in the engine. -/
def findRunning (s : State) (tag : Nat) : Option Place :=
  match s.engine.running with
  | some r => if r.job.tag = tag then some (.running r) else none
  | none => none

/-- The tag in the hold slot. -/
def findHeld (s : State) (tag : Nat) : Option Place :=
  match s.hold with
  | some h => if h.job.tag = tag then some (.held h) else none
  | none => none

/-- The tag in a completion record. -/
def findFinished (s : State) (tag : Nat) : Option Place :=
  (s.completion.records.find? fun r => decide (r.tag = tag)).map Place.finished

/-- Where the job bound to a tag is; FREE when no job is (R62, R68). -/
def placeOf (s : State) (tag : Nat) : Place :=
  ((levelsDown.findSome? (findQueued s tag)).orElse fun _ =>
    (findRunning s tag).orElse fun _ =>
    (levelsDown.findSome? (findSuspended s tag)).orElse fun _ =>
    (findHeld s tag).orElse fun _ => findFinished s tag).getD .free

/-- R167: a waiting job ends ABORTED. -/
def postAborted (job : Job) (s : State) : State := postJob job .aborted none none s

/-- R167: remove the entry of a queued job; the entries behind it move up. -/
def removeQueued (l : Fin 4) (tag : Nat) (s : State) : State :=
  setQueue l ((queueOf s l).eraseP fun j => decide (j.tag = tag)) s

/-- R74: set the abort mark of the running job. -/
def markRunning (r : RunningJob) (s : State) : State :=
  { s with engine := { s.engine with running := some { r with abortMark := true } } }

/-! ### Engine reset (section 10.5) and hard reset -/

/-- The arithmetic operation in flight (R70). -/
def operationInFlight (e : Engine) : Option ArithOp :=
  match e.state, e.running with
  | .setup, some _ => some .setup
  | .terms, some _ => some .terms
  | .store, some r => if r.result.isNone then some .conversion else none
  | _, _ => none

/-- R96: the operation in flight is cut off from its job. -/
def abandonOperation (e : Engine) : List ArithOp := e.abandoned ++ (operationInFlight e).toList

/-- Apply a function to every directory entry. -/
def mapCurves (f : CurveEntry → CurveEntry) (v : Vector CurveEntry 32) : Vector CurveEntry 32 :=
  ⟨⟨v.toArray.toList.map f⟩, by simp⟩

/-- R31: a directory entry at the completion of ENGINE_RESET. -/
def resetEntry (e : CurveEntry) : CurveEntry :=
  if e.state = .retiring then emptiedEntry e else { e with refCount := 0 }

/-- The blocks an entry returns at the completion of ENGINE_RESET (R31). -/
def resetFreed (e : CurveEntry) : List Nat := if e.state = .retiring then e.blocks else []

/-- R174: the completion of ENGINE_RESET, every block at one event. -/
def completeReset (s : State) : State :=
  setEvent .cmdDone
    (clearEvents (eventMask .completion ||| eventMask .hold)
      { s with
        intake :=
          { s.intake with freeTags := List.range Config.tagCount, queues := Vector.replicate 4 [] }
        engine := { s.engine with state := .idle, running := none }
        slots := Vector.replicate 3 none
        yieldRequest := false
        hold := none
        completion := { s.completion with records := [] }
        curves := mapCurves resetEntry s.curves
        store :=
          { s.store with
            free := insertAllAsc (s.curves.toArray.toList.flatMap resetFreed) s.store.free }
        bus := { BusMaster.reset with tenureCount := s.bus.tenureCount }
        cmd := { s.cmd with pending := false, lastResult := .done } })

/-! ### Window and commands -/

/-- A window access: not answered while RST is asserted (R176), else taken. -/
def hostAccess (f : State → State) (s : State) : State :=
  if s.rst then { s with answer := .unanswered } else f s

/-- A write the window acknowledges (R177). -/
def windowWrite (f : State → State) (s : State) : State := hostAccess (fun t => { f t with answer := .ack }) s

/-- R162: record a command that has been taken and its result. -/
def recordCommand (code : BitVec 8) (result : CmdResult) (s : State) : State :=
  { s with cmd := { s.cmd with lastCommand := some code, lastResult := result } }

/-- R162, R165: a write to CMD. It overruns while ENGINE_RESET is pending; else the command is taken. -/
def takeCommand (take : State → State) (s : State) : State :=
  windowWrite (fun t => if t.cmd.pending then setEvent .cmdOverrun t else take t) s

/-- R162: a command that is carried out at the write: its effect and its result. -/
def immediate (code : BitVec 8) (body : State → State × CmdResult) (s : State) : State :=
  takeCommand (fun t => recordCommand code (body t).2 (body t).1) s

/-- The query registers filled (R164). -/
def fillQuery (q0 q1 q2 q3 : Word) (s : State) : State :=
  { s with cmd := { s.cmd with query := #v[q0, q1, q2, q3] } }

/-- The next state of an outcome, for statements and tests. -/
def nextOf (o : Host.Outcome State Fault Refusal) : Option State :=
  match o with
  | .next s => some s
  | .fault _ => none
  | .refused _ => none

end Sys2Proof.Machine
end

