-- ==== Sys2Proof/Machine/Reset.lean ====
section
/-! DEFINITION. ENGINE_RESET and its completion (R172, R174, R189), and the reset line (R176). -/

namespace Sys2Proof.Machine

/-- R148, R172: the bus master at the taking of ENGINE_RESET: waiting work discarded, a prefetch read under way
DROPPED (R189), a request withdrawn, a grant with no value under way released. -/
def resetBusWork (b : BusMaster) : BusMaster :=
  { discardJobWork b with
    waitingWrite := none
    state := if b.state = .owner ∧ b.underWay.isSome then .owner else .idle
    grantRemoved := if b.state = .owner ∧ b.underWay.isSome then b.grantRemoved else false }

/-- R172: the taking of ENGINE_RESET. -/
def takeReset (s : State) : State :=
  { s with
    cmd := { s.cmd with pending := true, lastCommand := some 0x0A#8, lastResult := .none }
    engine := { s.engine with state := .frozen, abandoned := abandonOperation s.engine }
    bus := resetBusWork s.bus }

/-- R172, R174: the taking, and the completion at the same event when the bus master is quiet. -/
def engineResetBody (s : State) : State :=
  if s.bus.underWay.isSome then takeReset s else completeReset (takeReset s)

/-- ENGINE_RESET (R172). -/
def execEngineReset (s : State) : Host.Outcome State Fault Refusal := .next (takeCommand engineResetBody s)

/-- ENGINE_RESET_COMPLETION (R174): the event at which the bus master becomes quiet. With no reset pending the
completion has come about already, at the end of the value that was under way, and nothing is left to do
(log 11). -/
def execEngineResetCompletion (s : State) : Host.Outcome State Fault Refusal :=
  .next (if s.cmd.pending then completeReset s else s)

/-- A directory entry dropped by the assertion of RST: its generation falls to 0 at the release (R32). -/
def droppedEntry (e : CurveEntry) : CurveEntry := emptiedEntry e

/-- R149, R161, R176: the assertion of RST. -/
def assertRst (s : State) : State :=
  { s with
    rst := true
    answer := .unanswered
    cmd := { s.cmd with pending := false }
    curves := mapCurves droppedEntry s.curves
    store := { words := [], free := List.range Config.blockCount }
    load := LoadSession.reset
    intake := { s.intake with freeTags := List.range Config.tagCount, queues := Vector.replicate 4 [] }
    slots := Vector.replicate 3 none
    yieldRequest := false
    engine := { state := .idle, running := none, abandoned := abandonOperation s.engine }
    hold := none
    bus := BusMaster.reset
    completion := { s.completion with records := [], events := 0 } }

/-- RST_ASSERT (R176). -/
def execRstAssert (s : State) : Host.Outcome State Fault Refusal := .next (assertRst s)

/-- RST_RELEASE (R176): every block takes its hard-reset values. The commands still waiting are not state of the
part and stay. -/
def execRstRelease (s : State) : Host.Outcome State Fault Refusal :=
  if s.rst then .next { State.reset with pending := s.pending } else .fault .noSuchEvent

end Sys2Proof.Machine
end

