-- ==== Sys2Proof/Machine/BusEvents.lean ====
section
/-! DEFINITION. The events of the bus master: the grant and its removal (R133, R135, R180), and the ends of its
transfers (R77, R81, R132, R136 to R142, R144, R148). At the end of a value its owner is told first and the choice
point or the release follows at the same event (R134, R136). -/

namespace Sys2Proof.Machine

/-! ### Grant -/

/-- R133: the grant is taken: OWNER, tenure count 0, and the first choice of value. -/
def takeGrant (s : State) : State :=
  choicePoint { s with bus := { s.bus with state := .owner, tenureCount := 0, grantRemoved := false } }

/-- R133, R135, R149: a grant is used in REQUESTING and released at once in IDLE; RST asserted answers none. -/
def bgntBody (s : State) : State :=
  if s.rst then s
  else
    match s.bus.state with
    | .requesting => takeGrant s
    | .idle => s
    | .owner => s

/-- BGNT (R133). -/
def execBgnt (s : State) : Host.Outcome State Fault Refusal := .next (bgntBody s)

/-- R180: the removal is remembered until the release; an OWNER with no value under way is at a choice point. -/
def bgntRemovedBody (s : State) : State :=
  match s.bus.state with
  | .owner =>
    if s.bus.underWay.isSome then { s with bus := { s.bus with grantRemoved := true } } else releaseBus s
  | .idle => s
  | .requesting => s

/-- BGNT_REMOVED (R180). -/
def execBgntRemoved (s : State) : Host.Outcome State Fault Refusal := .next (bgntRemovedBody s)

/-! ### Transfers -/

/-- The value under way, when it is of the kind. -/
def valueOf (s : State) (k : ValueKind) : Option UnderWay :=
  match s.bus.underWay with
  | some u => if u.kind = k then some u else none
  | none => none

/-- The transfer in progress is the value's last (R132). -/
def lastTransfer (u : UnderWay) : Bool := decide (u.size ≤ u.ended + 1)

/-- The value read, when its last word has arrived (R132). -/
def readValue (u : UnderWay) (data : Word) : Value :=
  match u.lowRead with
  | some lo => .wide data lo
  | none => .narrow data

/-- The address of the transfer in progress: the high half is at the address plus 4 (R132, R137, R138). -/
def transferAddress (u : UnderWay) : Word := u.addr + BitVec.ofNat 32 (4 * u.ended)

/-- The low word a read holds after its low half: nothing for a write, and nothing for a DROPPED value (R144). -/
def heldLow (u : UnderWay) (data : Word) : Option Word :=
  match u.kind with
  | .demandRead => some data
  | .prefetchRead => some data
  | .resultWrite => none
  | .dropped => none

/-- R132, R134: the low half has ended with ACK and the high-half transfer begins. -/
def beginHighHalf (u : UnderWay) (data : Word) (s : State) : State :=
  { s with
    bus :=
      { s.bus with
        tenureCount := s.bus.tenureCount + 1
        underWay := some { u with ended := 1, lowRead := heldLow u data } } }

/-- W_LOW_HALF_END (R132). -/
def execWLowHalfEnd (data : Word) (s : State) : Host.Outcome State Fault Refusal :=
  match s.bus.underWay with
  | some u => if lastTransfer u then .fault .noSuchEvent else .next (beginHighHalf u data s)
  | none => .fault .noSuchEvent

/-- R174, R189: the end of a value while ENGINE_RESET is pending is the completion of the reset; the outcome is
discarded. -/
def quietReset (s : State) : State := completeReset (endValue s)

/-! ### Demand read -/

/-- R137: a demand read that ends with ACK lets prefetch go on. -/
def resumePrefetch (b : BusMaster) : BusMaster :=
  { b with prefetch := b.prefetch.map fun pf => { pf with stopped := false } }

/-- R77, R84, R85: the boundary of a demand read that succeeded. -/
def demandAcked (r : RunningJob) (v : Value) (s : State) : State :=
  if r.abortMark then endRunning r .aborted none s
  else if yieldRaised s r then suspend r none s
  else setEngine .setup { r with arg := some v } s

/-- R77, R84: the boundary of a demand read that failed. -/
def demandFailed (r : RunningJob) (addr : Word) (s : State) : State :=
  if r.abortMark then endRunning r .aborted none s
  else endRunning r .busError (some { addr := addr, dir := .read }) s

/-- The end of a demand read of the job in FETCH, with no reset pending. -/
def demandEnd (r : RunningJob) (u : UnderWay) (outcome : ReadEnd) (s : State) : State :=
  match outcome with
  | .ack data => choicePoint (demandAcked r (readValue u data) { s with bus := resumePrefetch (endValue s).bus })
  | .berr => releaseBus (demandFailed r (transferAddress u) (endValue s))

/-- A read transfer may end so: ACK only on the value's last transfer. -/
def readEndPossible (u : UnderWay) : ReadEnd → Bool
  | .ack _ => lastTransfer u
  | .berr => true

/-- DEMAND_READ_END (R77, R136, R137, R148). -/
def execDemandReadEnd (outcome : ReadEnd) (s : State) : Host.Outcome State Fault Refusal :=
  match valueOf s .demandRead with
  | none => .fault .noSuchEvent
  | some u =>
    if readEndPossible u outcome then
      if s.cmd.pending then .next (quietReset s)
      else
        match s.engine.state, s.engine.running with
        | .fetch, some r => .next (demandEnd r u outcome s)
        | _, _ => .fault .noSuchEvent
    else .fault .noSuchEvent

/-! ### Result write -/

/-- R81: the element is counted and ends. -/
def countElement (r : RunningJob) : RunningJob :=
  clearElement { r with job := { r.job with done := r.job.done + 1 } }

/-- R81: the next element. -/
def nextElement (r : RunningJob) : RunningJob := { r with job := { r.job with index := r.job.index + 1 } }

/-- R81: the boundary of a result write that succeeded, after the count. -/
def writeAcked (r : RunningJob) (s : State) : State :=
  if r.abortMark then endRunning r .aborted none s
  else if elementCount r.job.desc ≤ r.job.index + 1 then endRunning r (finalStatus r.job) none s
  else if yieldRaised s r then suspend (nextElement r) none s
  else enterFetch (nextElement r) s

/-- R81: the boundary of a result write that failed. -/
def writeFailed (r : RunningJob) (addr : Word) (s : State) : State :=
  if r.abortMark then endRunning r .aborted none s
  else endRunning r .busError (some { addr := addr, dir := .write }) s

/-- The end of a result write of the job in STORE, with no reset pending. -/
def writeEnd (r : RunningJob) (u : UnderWay) (outcome : TransferEnd) (s : State) : State :=
  match outcome with
  | .ack => choicePoint (writeAcked (countElement r) (endValue s))
  | .berr => releaseBus (writeFailed r (transferAddress u) (endValue s))

/-- A transfer may end so: ACK only on the value's last transfer. -/
def transferEndPossible (u : UnderWay) : TransferEnd → Bool
  | .ack => lastTransfer u
  | .berr => true

/-- RESULT_WRITE_END (R81, R136, R138, R148). -/
def execResultWriteEnd (outcome : TransferEnd) (s : State) : Host.Outcome State Fault Refusal :=
  match valueOf s .resultWrite with
  | none => .fault .noSuchEvent
  | some u =>
    if transferEndPossible u outcome then
      if s.cmd.pending then .next (quietReset s)
      else
        match s.engine.state, s.engine.running with
        | .store, some r => .next (writeEnd r u outcome s)
        | _, _ => .fault .noSuchEvent
    else .fault .noSuchEvent

/-! ### Prefetch read -/

/-- The entry whose read is under way (R139). -/
def inFlightEntry (b : BusMaster) : Option PrefetchEntry := b.buffer.find? fun e => e.value.isNone

/-- R141: the entry becomes READY. -/
def readyEntry (v : Value) (b : BusMaster) : BusMaster :=
  { b with buffer := b.buffer.map fun e => if e.value.isNone then { e with value := some v } else e }

/-- R142: the entry is dropped, prefetch stops, p becomes its element. -/
def failEntry (q : Nat) (b : BusMaster) : BusMaster :=
  { b with
    buffer := b.buffer.filter fun e => e.value.isSome
    prefetch := b.prefetch.map fun _ => { p := q, stopped := true } }

/-- R75, R141, R142: an engine in FETCH that waits for an entry looks into the buffer again. -/
def wakeFetch (s : State) : State :=
  match s.engine.state, s.engine.running with
  | .fetch, some r => if s.bus.waitingRead.isSome then s else enterFetch r s
  | _, _ => s

/-- R141: the entry becomes READY, a waiting engine takes it, and the choice point follows. -/
def prefetchEnd (u : UnderWay) (data : Word) (s : State) : State :=
  choicePoint (wakeFetch { s with bus := readyEntry (readValue u data) (endValue s).bus })

/-- R142: the entry is dropped, prefetch stops, a waiting engine requests a demand read, and the tenure ends. -/
def prefetchFailed (q : Nat) (s : State) : State :=
  releaseBus (wakeFetch { s with bus := failEntry q (endValue s).bus })

/-- PREFETCH_READ_END (R141, R148). -/
def execPrefetchReadEnd (data : Word) (s : State) : Host.Outcome State Fault Refusal :=
  match valueOf s .prefetchRead with
  | none => .fault .noSuchEvent
  | some u =>
    if lastTransfer u then
      if s.cmd.pending then .next (quietReset s) else .next (prefetchEnd u data s)
    else .fault .noSuchEvent

/-- PREFETCH_READ_FAILURE (R142, R148). -/
def execPrefetchReadFailure (s : State) : Host.Outcome State Fault Refusal :=
  match valueOf s .prefetchRead, inFlightEntry s.bus with
  | some _, some e => if s.cmd.pending then .next (quietReset s) else .next (prefetchFailed e.element s)
  | _, _ => .fault .noSuchEvent

/-! ### Dropped value -/

/-- R136, R144: a DROPPED value ends; its data is dropped and its BERR is not reported. -/
def droppedEnd (outcome : TransferEnd) (s : State) : State :=
  match outcome with
  | .ack => choicePoint (endValue s)
  | .berr => releaseBus (endValue s)

/-- DROPPED_VALUE_END (R144, R174, R189). -/
def execDroppedValueEnd (outcome : TransferEnd) (s : State) : Host.Outcome State Fault Refusal :=
  match valueOf s .dropped with
  | none => .fault .noSuchEvent
  | some u =>
    if transferEndPossible u outcome then
      if s.cmd.pending then .next (quietReset s) else .next (droppedEnd outcome s)
    else .fault .noSuchEvent

end Sys2Proof.Machine
end

