-- ==== Sys2Proof/Machine/Curves.lean ====
section
/-! DEFINITION. The directory's commands: RETIRE (R28) and QUERY_CURVE (R30). -/

namespace Sys2Proof.Machine

/-- R28: the outcome of RETIRE by the state of the named curve. -/
def retireCurve (c : Fin 32) (s : State) : State × CmdResult :=
  let e := curveEntry s c
  match e.state with
  | .empty => (s, .noCurve)
  | .loading => (s, .curveBusy)
  | .retiring => (s, .alreadyRetiring)
  | .ready =>
    if e.refCount = 0 then (emptyCurve c s, .done)
    else (setCurve c { e with state := .retiring } s, .deferred)

/-- R28: RETIRE. -/
def retireBody (s : State) : State × CmdResult :=
  match curveId? (argNumber s) with
  | none => (s, .badArgument)
  | some c => retireCurve c s

/-- RETIRE. -/
def execRetire (s : State) : Host.Outcome State Fault Refusal := .next (immediate 0x04#8 retireBody s)

/-- QUERY0 of QUERY_CURVE (R183). -/
def curveQuery0 (e : CurveEntry) : Word := field (curveStateCode e.state) 0 2 ||| flagBit e.header.isSome 4

/-- QUERY1 of QUERY_CURVE: the header, or 0 when absent (R183). -/
def curveQuery1 (e : CurveEntry) : Word :=
  match e.header with
  | some h => headerWord h
  | none => 0

/-- QUERY2 of QUERY_CURVE (R183). -/
def curveQuery2 (e : CurveEntry) : Word :=
  field e.generation.toNat 0 8 ||| field e.refCount 8 8 ||| field e.blocks.length 16 8

/-- R30: QUERY_CURVE. -/
def queryCurveBody (s : State) : State × CmdResult :=
  match curveId? (argNumber s) with
  | none => (s, .badArgument)
  | some c =>
    (fillQuery (curveQuery0 (curveEntry s c)) (curveQuery1 (curveEntry s c)) (curveQuery2 (curveEntry s c)) 0 s,
      .done)

/-- QUERY_CURVE. -/
def execQueryCurve (s : State) : Host.Outcome State Fault Refusal := .next (immediate 0x05#8 queryCurveBody s)

end Sys2Proof.Machine
end

