-- ==== Sys2Proof/Machine/EngineEvents.lean ====
section
/-! DEFINITION. The completions of the engine's operations (R78 to R80, R82) and their boundaries (R84), and the
dispatch (R101). -/

namespace Sys2Proof.Machine

/-! ### Reading the curve (R21) -/

/-- The header of the running job's curve. -/
def jobHeader (s : State) (job : Job) : CurveHeader := headerOf (curveEntry s job.desc.curve)

/-- The blocks of the running job's curve. -/
def jobBlocks (s : State) (job : Job) : List Nat := (curveEntry s job.desc.curve).blocks

/-- The outcome of SETUP for an argument (R78). -/
def setupOutcome (s : State) (job : Job) (arg : Value) : OpOutcome :=
  evalSetup s.store (jobBlocks s job) (jobHeader s job) arg

/-- The outcome of the iteration for term `j` (R79). -/
def termOutcome (s : State) (job : Job) (w : Working) (j : Nat) : OpOutcome :=
  evalTerm s.store (jobBlocks s job) (jobHeader s job) w j

/-- The outcome of the result conversion (R80). -/
def conversionOutcome (s : State) (job : Job) (w : Working) : Delivered :=
  convert job.desc.resFormat (jobHeader s job).underflow w.acc

/-! ### Abandoned operations (R96, R97) -/

/-- An operation cut off from its job completes and its outcome is discarded. -/
def discardOutcome (op : ArithOp) (s : State) : Host.Outcome State Fault Refusal :=
  if s.engine.abandoned.contains op then
    .next { s with engine := { s.engine with abandoned := s.engine.abandoned.erase op } }
  else .fault .noSuchEvent

/-! ### Boundaries -/

/-- The engine goes on with working values: TERMS while a term remains, else STORE (R78, R79). -/
def continueWith (r : RunningJob) (w : Working) (s : State) : State :=
  setEngine (if w.nextTerm.isSome then .terms else .store) { r with work := some w } s

/-- R84, R85: the boundary of SETUP. -/
def setupBoundary (r : RunningJob) (arg : Value) (o : OpOutcome) (s : State) : State :=
  if r.abortMark then endRunning r .aborted none s
  else
    match o with
    | .exception e => applyException r e arg s
    | .working w => if yieldRaised s r then suspend r none s else continueWith r w s

/-- SETUP_COMPLETION (R78): of the running job's SETUP, or else of one that a reset has cut off (log 8). -/
def execSetupCompletion (which : Completing) (s : State) : Host.Outcome State Fault Refusal :=
  match which, s.engine.state, s.engine.running with
  | .current, .setup, some r =>
    match r.arg with
    | some arg => .next (settleRequest (setupBoundary r arg (setupOutcome s r.job arg) s))
    | none => .fault .noSuchEvent
  | _, _, _ => discardOutcome .setup s

/-- R84, R85, R110: the boundary of a TERMS iteration, which saves a partial part at a suspension. -/
def termsBoundary (r : RunningJob) (arg : Value) (o : OpOutcome) (s : State) : State :=
  if r.abortMark then endRunning r .aborted none s
  else
    match o with
    | .exception e => applyException r e arg s
    | .working w =>
      if yieldRaised s r then suspend r (some { work := w, arg := arg }) s else continueWith r w s

/-- TERMS_ITERATION_COMPLETION (R79): of the running job's iteration, or else of one that a reset has cut off
(log 8). -/
def execTermsCompletion (which : Completing) (s : State) : Host.Outcome State Fault Refusal :=
  match which, s.engine.state, s.engine.running with
  | .current, .terms, some r =>
    match r.arg, r.work with
    | some arg, some w =>
      match w.nextTerm with
      | some j => .next (settleRequest (termsBoundary r arg (termOutcome s r.job w j) s))
      | none => .fault .noSuchEvent
    | _, _ => .fault .noSuchEvent
  | _, _, _ => discardOutcome .terms s

/-- R82: the capture of a single job's result, at which the job ends. -/
def captureResult (r : RunningJob) (v : Value) (s : State) : State :=
  let c := captured r v
  endRunning c (if r.abortMark then .aborted else finalStatus c.job) none s

/-- R80, R82, R85: the completion of the result conversion. -/
def conversionBoundary (r : RunningJob) (arg : Value) (o : Delivered) (s : State) : State :=
  match o with
  | .value v => if isBatch r.job.desc then storeResult r v s else captureResult r v s
  | .exception k =>
    if r.abortMark then endRunning r .aborted none s else applyException r ⟨k, .result⟩ arg s

/-- RESULT_CONVERSION_COMPLETION (R80): of the running job's conversion, or else of one that a reset has cut off
(log 8). -/
def execConversionCompletion (which : Completing) (s : State) : Host.Outcome State Fault Refusal :=
  match which, s.engine.state, s.engine.running with
  | .current, .store, some r =>
    match r.arg, r.work, r.result with
    | some arg, some w, none =>
      .next (settleRequest (conversionBoundary r arg (conversionOutcome s r.job w) s))
    | _, _, _ => discardOutcome .conversion s
  | _, _, _ => discardOutcome .conversion s

/-! ### Dispatch -/

/-- R100, R101: the winner is handed to the IDLE engine; with no eligible source, or an engine that is not IDLE,
no job is handed over (log 12). -/
def dispatchBody (s : State) : State :=
  if s.engine.state = .idle then
    match winner s with
    | some src => settleRequest (handOver src s)
    | none => s
  else s

/-- DISPATCH (R101). -/
def execDispatch (s : State) : Host.Outcome State Fault Refusal := .next (dispatchBody s)

end Sys2Proof.Machine
end

