-- ==== Sys2Proof/Machine/Jobs.lean ====
section
/-! DEFINITION. Submission (R57 to R60), QUERY_JOB (R68), CONTINUE (R121, R122), ABORT (R166 to R168) and
FLUSH_LEVEL (R170). -/

namespace Sys2Proof.Machine

/-! ### SUBMIT -/

/-- The answers of a SUBMIT read (R57). -/
inductive SubmitAnswer where
  | accepted (tag : Nat)
  | resetting
  | badDescriptor (r : DescReason)
  | noCurve
  | queueFull
  | noTag
  deriving DecidableEq, Repr

/-- The word of an answer (R185). -/
def submitWord : SubmitAnswer → Word
  | .accepted tag => field 0x01 0 8 ||| field tag 8 8
  | .resetting => field 0x02 0 8
  | .badDescriptor r => field 0x03 0 8 ||| field (reasonCode r) 16 3
  | .noCurve => field 0x04 0 8
  | .queueFull => field 0x05 0 8
  | .noTag => field 0x06 0 8

/-- R60: the job entry built at acceptance. -/
def newJob (tag : Nat) (l : Fin 4) (d : Descriptor) : Job :=
  { tag := tag, level := l, desc := d, index := 0, done := 0, excCount := 0, first := none }

/-- R26: one job more names the curve. -/
def addReference (c : Fin 32) (s : State) : State :=
  setCurve c { curveEntry s c with refCount := (curveEntry s c).refCount + 1 } s

/-- R59: acceptance, one action at the read. -/
def acceptJob (tag : Nat) (rest : List Nat) (l : Fin 4) (d : Descriptor) (s : State) : State :=
  reactToSources
    (setQueue l (queueOf s l ++ [newJob tag l d])
      (addReference d.curve { s with intake := { s.intake with freeTags := rest } }))

/-- R57: the checks of a submission in their order. -/
def submitBody (l : Fin 4) (s : State) : State × SubmitAnswer :=
  if s.cmd.pending then (s, .resetting)
  else
    match stagedDescriptor s with
    | .error r => (s, .badDescriptor r)
    | .ok d =>
      if (curveEntry s d.curve).state ≠ .ready then (s, .noCurve)
      else if Config.queueDepth ≤ (queueOf s l).length then (s, .queueFull)
      else
        match s.intake.freeTags with
        | [] => (s, .noTag)
        | tag :: rest => (acceptJob tag rest l d s, .accepted tag)

/-- A SUBMIT read: the answer is its data (R57, R185). -/
def submitRead (l : Fin 4) (s : State) : State :=
  { (submitBody l s).1 with answer := .ackData (submitWord (submitBody l s).2) }

/-- SUBMIT. -/
def execSubmit (l : Fin 4) (s : State) : Host.Outcome State Fault Refusal := .next (hostAccess (submitRead l) s)

/-! ### QUERY_JOB -/

/-- QUERY0 of QUERY_JOB (R183). -/
def jobQuery0 (code : Nat) (l : Fin 4) (c : Fin 32) : Word := field code 0 3 ||| field l.val 4 2 ||| field c.val 8 5

/-- QUERY1 of QUERY_JOB (R183). -/
def jobQuery1 (done excCount : Nat) : Word := field done 0 16 ||| field excCount 16 16

/-- The query registers of a live job in the state with the code (R68). -/
def fillJob (code : Nat) (j : Job) (s : State) : State :=
  fillQuery (jobQuery0 code j.level j.desc.curve) (jobQuery1 j.done j.excCount) 0 0 s

/-- R68: what QUERY_JOB shows, by the place of the tag. -/
def showPlace (p : Place) (s : State) : State :=
  match p with
  | .free => fillQuery 0 0 0 0 s
  | .queued _ j => fillJob 1 j s
  | .running r => fillJob 2 r.job s
  | .suspended _ x => fillJob 3 x.job s
  | .held h => fillJob (if h.action.isSome then 5 else 4) h.job s
  | .finished r => fillQuery (jobQuery0 6 r.level r.curve) (jobQuery1 r.done r.excCount) 0 0 s

/-- R68: QUERY_JOB. -/
def queryJobBody (s : State) : State × CmdResult :=
  if Config.tagCount ≤ argNumber s then (s, .badArgument) else (showPlace (placeOf s (argNumber s)) s, .done)

/-- QUERY_JOB. -/
def execQueryJob (s : State) : Host.Outcome State Fault Refusal := .next (immediate 0x06#8 queryJobBody s)

/-! ### CONTINUE -/

/-- R122: an accepted CONTINUE. -/
def continueJob (h : HoldRecord) (a : HoldAction) (s : State) : State :=
  reactToSources { s with hold := some { h with action := some a } }

/-- R121: the checks 2 and 3, for a tag and an action that the fields name. -/
def continueHeldJob (tag : Nat) (a : ActionCode) (s : State) : State × CmdResult :=
  match s.hold with
  | none => (s, .notHeld)
  | some h =>
    if h.action.isSome ∨ h.job.tag ≠ tag then (s, .notHeld)
    else if a = .retry ∧ descKind h.job.desc = .single then (s, .notApplicable)
    else (continueJob h (pendingAction s h.job.desc.resFormat a) s, .done)

/-- R121: CONTINUE. -/
def continueBody (s : State) : State × CmdResult :=
  let tag := bits (cmdArg s 0) 0 8
  match actionOf (bits (cmdArg s 0) 8 2) with
  | none => (s, .badArgument)
  | some a => if Config.tagCount ≤ tag then (s, .badArgument) else continueHeldJob tag a s

/-- CONTINUE. -/
def execContinueHeld (s : State) : Host.Outcome State Fault Refusal := .next (immediate 0x07#8 continueBody s)

/-! ### ABORT -/

/-- R168: an ABORT or FLUSH_LEVEL of the running job: ended at the standing boundary, marked otherwise. -/
def abortRunning (r : RunningJob) (s : State) : State :=
  if standing s then endRunning r .aborted none s else markRunning r s

/-- R167: the removal of a queued job. -/
def abortQueued (l : Fin 4) (j : Job) (s : State) : State := postAborted j (removeQueued l j.tag s)

/-- R167: the removal of a suspended job. -/
def abortSuspended (l : Fin 4) (x : Suspended) (s : State) : State := postAborted x.job (setSlot l none s)

/-- R167: the removal of the hold slot's job. -/
def abortHeld (h : HoldRecord) (s : State) : State := postAborted h.job { s with hold := none }

/-- R166: the effect of ABORT, by the place of the tag. -/
def abortPlace (p : Place) (s : State) : State × CmdResult :=
  match p with
  | .queued l j => (reactToSources (abortQueued l j s), .aborted)
  | .suspended l x => (reactToSources (abortSuspended l x s), .aborted)
  | .held h => (reactToSources (abortHeld h s), .aborted)
  | .running r => (reactToSources (abortRunning r s), if standing s then .aborted else .abortPending)
  | .finished _ => (s, .tooLate)
  | .free => (s, .unknownTag)

/-- R166: ABORT. -/
def abortBody (s : State) : State × CmdResult :=
  if Config.tagCount ≤ argNumber s then (s, .badArgument) else abortPlace (placeOf s (argNumber s)) s

/-- ABORT. -/
def execAbort (s : State) : Host.Outcome State Fault Refusal := .next (immediate 0x08#8 abortBody s)

/-! ### FLUSH_LEVEL -/

/-- What a flush has done so far: the jobs ended at once and whether the running job was marked (R170). -/
structure FlushTally where
  ended : Nat
  marked : Bool
  deriving DecidableEq, Repr

/-- R170, 1: the running job. -/
def flushRunning (l : Fin 4) (s : State) : State × FlushTally :=
  match s.engine.running with
  | some r =>
    if r.job.level = l then (abortRunning r s, if standing s then ⟨1, false⟩ else ⟨0, true⟩) else (s, ⟨0, false⟩)
  | none => (s, ⟨0, false⟩)

/-- R170, 2: the job in the context slot. -/
def flushSlot (l : Fin 4) (s : State) (t : FlushTally) : State × FlushTally :=
  match slotOf s l with
  | some x => (abortSuspended l x s, { t with ended := t.ended + 1 })
  | none => (s, t)

/-- R170, 3: the job in the hold slot. -/
def flushHold (l : Fin 4) (s : State) (t : FlushTally) : State × FlushTally :=
  match s.hold with
  | some h => if h.job.level = l then (abortHeld h s, { t with ended := t.ended + 1 }) else (s, t)
  | none => (s, t)

/-- R170, 4: the jobs of the queue, from the head to the tail. -/
def flushQueue (l : Fin 4) (s : State) (t : FlushTally) : State × FlushTally :=
  ((queueOf s l).foldl (fun acc j => postAborted j acc) (setQueue l [] s),
    { t with ended := t.ended + (queueOf s l).length })

/-- R170: every live job of the level, in the order of the list. -/
def flushJobs (l : Fin 4) (s : State) : State × FlushTally :=
  let a := flushRunning l s
  let b := flushSlot l a.1 a.2
  let c := flushHold l b.1 b.2
  flushQueue l c.1 c.2

/-- R170: the flush and its report in the query registers. -/
def flushLevel (l : Fin 4) (s : State) : State :=
  let r := flushJobs l s
  fillQuery (field r.2.ended 0 4 ||| flagBit r.2.marked 8) 0 0 0 (reactToSources r.1)

/-- R170: FLUSH_LEVEL. -/
def flushLevelBody (s : State) : State × CmdResult :=
  match level? (argNumber s) with
  | none => (s, .badArgument)
  | some l => (flushLevel l s, .done)

/-- FLUSH_LEVEL. -/
def execFlushLevel (s : State) : Host.Outcome State Fault Refusal := .next (immediate 0x09#8 flushLevelBody s)

end Sys2Proof.Machine
end

