-- ==== Sys2Proof/Machine/Load.lean ====
section
/-! DEFINITION. The load unit: OPEN_LOAD, COMMIT_LOAD, CANCEL_LOAD and LOAD_DATA (chapter 3). -/

namespace Sys2Proof.Machine

/-! ### OPEN_LOAD (R38, R39) -/

/-- R39: the cursor at its start: BREAKPOINTS, k + 1 values remaining. -/
def startCursor (h : CurveHeader) : Cursor :=
  { phase := .breakpoints, segment := 0, remaining := h.segments + 1, lowHalf := none }

/-- R22, R39: an accepted OPEN_LOAD. -/
def openSession (c : Fin 32) (h : CurveHeader) (s : State) : State :=
  setCurve c { curveEntry s c with state := .loading, header := some h }
    { s with
      load := { state := .opened, curve := c, cursor := startCursor h, wordIndex := 0, failure := none } }

/-- R38: the checks of OPEN_LOAD in their order. -/
def openLoadBody (s : State) : State × CmdResult :=
  if s.load.state = .opened then (s, .sessionBusy)
  else
    match curveId? (argNumber s) with
    | none => (s, .badArgument)
    | some c =>
      match decodeHeader (cmdArg s 1) with
      | none => (s, .badHeader)
      | some h => if (curveEntry s c).state = .empty then (openSession c h s, .done) else (s, .curveBusy)

/-- OPEN_LOAD. -/
def execOpenLoad (s : State) : Host.Outcome State Fault Refusal := .next (immediate 0x01#8 openLoadBody s)

/-! ### COMMIT_LOAD (R48) and CANCEL_LOAD (R49) -/

/-- R24, R48: the session curve becomes READY under the next generation, the session IDLE. -/
def commitSession (s : State) : State :=
  let e := curveEntry s s.load.curve
  setCurve s.load.curve { e with state := .ready, generation := e.generation + 1 }
    { s with load := { s.load with state := .idle } }

/-- R48: COMMIT_LOAD. -/
def commitLoadBody (s : State) : State × CmdResult :=
  match s.load.state with
  | .idle => (s, .noSession)
  | .failed => (s, .sessionFailed)
  | .opened =>
    match s.load.cursor.phase with
    | .complete => (commitSession s, .done)
    | .breakpoints => (s, .incomplete)
    | .degree => (s, .incomplete)
    | .terms => (s, .incomplete)

/-- COMMIT_LOAD. -/
def execCommitLoad (s : State) : Host.Outcome State Fault Refusal := .next (immediate 0x02#8 commitLoadBody s)

/-- R49: an OPEN session is cancelled: its curve emptied, a held low half released, the session IDLE. -/
def cancelSession (s : State) : State :=
  emptyCurve s.load.curve
    { s with load := { s.load with state := .idle, cursor := { s.load.cursor with lowHalf := none } } }

/-- R49: CANCEL_LOAD. -/
def cancelLoadBody (s : State) : State × CmdResult :=
  match s.load.state with
  | .idle => (s, .noSession)
  | .failed => ({ s with load := { s.load with state := .idle } }, .done)
  | .opened => (cancelSession s, .done)

/-- CANCEL_LOAD. -/
def execCancelLoad (s : State) : Host.Outcome State Fault Refusal := .next (immediate 0x03#8 cancelLoadBody s)

/-! ### LOAD_DATA (R40 to R47) -/

/-- Words stored for the session curve: the word index, less one while a low half is held (R41). -/
def storedWords (l : LoadSession) : Nat := if l.cursor.lowHalf.isSome then l.wordIndex - 1 else l.wordIndex

/-- R46: the session fails, as one action at the arrival of the offending word. -/
def failSession (reason : LoadReason) (s : State) : State :=
  setEvent .loadFailed
    (emptyCurve s.load.curve
      { s with
        load :=
          { s.load with
            state := .failed
            cursor := { s.load.cursor with lowHalf := none }
            failure := some { reason := reason, wordIndex := s.load.wordIndex } } })

/-- R40: the cursor after the degree of its segment. -/
def enterDegree (seg : Nat) : Cursor := { phase := .degree, segment := seg, remaining := 1, lowHalf := none }

/-- R40: the cursor after a breakpoint has been accepted. -/
def advanceBreakpoint (c : Cursor) : Cursor :=
  if c.remaining ≤ 1 then enterDegree 0 else { c with remaining := c.remaining - 1, lowHalf := none }

/-- R40: the cursor after the degree `d` has been accepted. -/
def advanceDegree (d : Nat) (c : Cursor) : Cursor :=
  { phase := .terms, segment := c.segment, remaining := d + 1, lowHalf := none }

/-- R40: the cursor after a term has been accepted, on a curve of `k` segments. -/
def advanceTerm (k : Nat) (c : Cursor) : Cursor :=
  if c.remaining ≤ 1 then
    if c.segment + 1 < k then enterDegree (c.segment + 1)
    else { phase := .complete, segment := c.segment, remaining := 0, lowHalf := none }
  else { c with remaining := c.remaining - 1, lowHalf := none }

/-- R42, step 3: a value's words are stored, the cursor advances, the word index counts the word. -/
def storeWords (blocks : List Nat) (ws : List Word) (cur : Cursor) (s : State) : State :=
  { s with
    store := { s.store with words := writeCurveWords blocks (storedWords s.load) ws s.store.words }
    load := { s.load with cursor := cur, wordIndex := s.load.wordIndex + 1 } }

/-- R34: the lowest free block is taken and appended to the session curve's list. -/
def takeBlock (b : Nat) (rest : List Nat) (s : State) : State :=
  setCurve s.load.curve
    { curveEntry s s.load.curve with blocks := (curveEntry s s.load.curve).blocks ++ [b] }
    { s with store := { s.store with free := rest } }

/-- R34: a value of `n` words needs a block. -/
def needsBlock (s : State) (n : Nat) : Bool :=
  decide (Config.blockWords * (curveEntry s s.load.curve).blocks.length < storedWords s.load + n)

/-- R42, steps 2 and 3: a value that passed its checks is placed, or the session fails with STORE_FULL. -/
def placeValue (ws : List Word) (cur : Cursor) (s : State) : State :=
  if needsBlock s ws.length then
    match s.store.free with
    | [] => failSession .storeFull s
    | b :: rest =>
      storeWords ((curveEntry s s.load.curve).blocks ++ [b]) ws cur (takeBlock b rest s)
  else storeWords (curveEntry s s.load.curve).blocks ws cur s

/-- R43: the checks of a breakpoint: the marker, then strict ascent over the one before it. -/
def breakpointReason (s : State) (f : Format) (v : Value) : Option LoadReason :=
  let n := storedWords s.load
  if isMarker v then some .badValue
  else if n = 0 then none
  else if valueLt (curveValue s.store (curveEntry s s.load.curve).blocks f (n - formatWords f)) v then none
  else some .badOrder

/-- R43: the check of a term. -/
def termReason (v : Value) : Option LoadReason := if isMarker v then some .badValue else none

/-- R42: a complete value is checked and placed. -/
def completeValue (reason : Option LoadReason) (ws : List Word) (cur : Cursor) (s : State) : State :=
  match reason with
  | some r => failSession r s
  | none => placeValue ws cur s

/-- R42, R43: a complete breakpoint or term. -/
def takeValue (h : CurveHeader) (v : Value) (s : State) : State :=
  match s.load.cursor.phase with
  | .breakpoints =>
    completeValue (breakpointReason s h.format v) (valueWords v) (advanceBreakpoint s.load.cursor) s
  | _ => completeValue (termReason v) (valueWords v) (advanceTerm h.segments s.load.cursor) s

/-- R41: a word in phase BREAKPOINTS or TERMS: a whole N value, the low half or the high half of a W value. -/
def takeHalf (h : CurveHeader) (x : Word) (s : State) : State :=
  match h.format, s.load.cursor.lowHalf with
  | .n, _ => takeValue h (.narrow x) s
  | .w, some lo => takeValue h (.wide x lo) s
  | .w, none =>
    { s with
      load :=
        { s.load with cursor := { s.load.cursor with lowHalf := some x }, wordIndex := s.load.wordIndex + 1 } }

/-- R43: the check of a degree word. -/
def degreeReason (x : Word) : Option LoadReason := if Config.degreeMax < x.toNat then some .badDegree else none

/-- R41, R45: a word taken by the cursor of an OPEN session. -/
def takeLoadWord (x : Word) (s : State) : State :=
  let h := headerOf (curveEntry s s.load.curve)
  match s.load.cursor.phase with
  | .complete => failSession .overrun s
  | .degree => completeValue (degreeReason x) [x] (advanceDegree x.toNat s.load.cursor) s
  | .breakpoints => takeHalf h x s
  | .terms => takeHalf h x s

/-- R41, R47: a write to LOAD_DATA. -/
def loadDataBody (x : Word) (s : State) : State :=
  match s.load.state with
  | .opened => takeLoadWord x s
  | .idle => setEvent .loadDiscard s
  | .failed => setEvent .loadDiscard s

/-- LOAD_DATA. -/
def execLoadData (x : Word) (s : State) : Host.Outcome State Fault Refusal :=
  .next (windowWrite (loadDataBody x) s)

end Sys2Proof.Machine
end

