-- ==== Sys2Proof/WellFormed.lean ====
section
/-! DEFINITION. Which commands exist: the operands' types carry every bound but two, which are checked here. -/

namespace Sys2Proof

/-- A command that the table's row can be: BAD_COMMAND's code names no command (R162), and
WINDOW_ACCESS_ERROR's access is one of R178's cases. -/
def Instr.wellFormed : Instr → Bool
  | .badCommand code => !namesCommand code
  | .windowAccessError a => a.erroneous
  | .openLoad => true
  | .commitLoad => true
  | .cancelLoad => true
  | .retire => true
  | .queryCurve => true
  | .queryJob => true
  | .continueHeld => true
  | .abort => true
  | .flushLevel => true
  | .engineReset => true
  | .submit _ => true
  | .loadData _ => true
  | .cpop => true
  | .eventsWrite _ => true
  | .eventEnableWrite _ => true
  | .controlWrite _ => true
  | .registerWrite _ _ => true
  | .rstAssert => true
  | .rstRelease => true
  | .bgnt => true
  | .bgntRemoved => true
  | .demandReadEnd _ => true
  | .resultWriteEnd _ => true
  | .prefetchReadEnd _ => true
  | .prefetchReadFailure => true
  | .droppedValueEnd _ => true
  | .wLowHalfEnd _ => true
  | .setupCompletion _ => true
  | .termsCompletion _ => true
  | .conversionCompletion _ => true
  | .dispatch => true
  | .engineResetCompletion => true

end Sys2Proof
end

