-- ==== Sys2Proof/Machine/Registers.lean ====
section
/-! DEFINITION. The window writes that are no command of CMD: CPOP (R154), EVENTS (R158), EVENT_ENABLE (R159),
CONTROL (R103, R146), the plain registers (R53, R164), a code that names no command (R162) and the accesses
answered with BERR (R178). -/

namespace Sys2Proof.Machine

/-- R154: the oldest record is removed and its tag returns to the pool. -/
def popRecord (r : Record) (rest : List Record) (s : State) : State :=
  { s with
    completion := { s.completion with records := rest }
    intake := { s.intake with freeTags := insertAsc r.tag s.intake.freeTags } }

/-- R154: a write to CPOP. -/
def cpopBody (s : State) : State :=
  match s.completion.records with
  | r :: rest => popRecord r rest s
  | [] => setEvent .popEmpty s

/-- CPOP. -/
def execCpop (s : State) : Host.Outcome State Fault Refusal := .next (windowWrite cpopBody s)

/-- EVENTS_WRITE (R158): clears the flags whose bits are 1. -/
def execEventsWrite (x : Word) (s : State) : Host.Outcome State Fault Refusal :=
  .next (windowWrite (clearEvents (x.truncate 7)) s)

/-- R159: all seven enables. -/
def setEnables (x : Word) (s : State) : State :=
  { s with completion := { s.completion with enables := x.truncate 7 } }

/-- EVENT_ENABLE_WRITE (R159). -/
def execEventEnableWrite (x : Word) (s : State) : Host.Outcome State Fault Refusal :=
  .next (windowWrite (setEnables x) s)

/-- R103, R104, R146: CONTROL is written and the dispatcher and the bus master react. -/
def writeControl (x : Word) (s : State) : State := reactToSources { s with control := x &&& Config.controlMask }

/-- CONTROL_WRITE (R103, R146). -/
def execControlWrite (x : Word) (s : State) : Host.Outcome State Fault Refusal :=
  .next (windowWrite (writeControl x) s)

/-- R53, R164: a staging or argument register holds the written word. -/
def writePlain (reg : PlainReg) (x : Word) (s : State) : State :=
  match reg with
  | .stage i => { s with intake := { s.intake with stage := s.intake.stage.set i x } }
  | .cmdArg i => { s with cmd := { s.cmd with args := s.cmd.args.set i x } }

/-- REGISTER_WRITE (R53, R164). -/
def execRegisterWrite (reg : PlainReg) (x : Word) (s : State) : Host.Outcome State Fault Refusal :=
  .next (windowWrite (writePlain reg x) s)

/-- BAD_COMMAND (R162): taken as such, recorded as written, with no other effect. -/
def execBadCommand (code : BitVec 8) (s : State) : Host.Outcome State Fault Refusal :=
  if namesCommand code then .refused .illFormed else .next (immediate code (fun t => (t, .badCommand)) s)

/-- WINDOW_ACCESS_ERROR (R178): answered with BERR, with no other effect. -/
def execWindowAccessError (a : WindowAccess) (s : State) : Host.Outcome State Fault Refusal :=
  if a.erroneous then .next (hostAccess (fun t => { t with answer := .berr }) s) else .refused .illFormed

end Sys2Proof.Machine
end

