-- ==== Sys2Proof/Machine/Dispatch.lean ====
section
/-! DEFINITION. The effect of each command on everything but the queue: one arm per row of the table. -/

namespace Sys2Proof.Machine

def exec (i : Instr) (s : State) : Host.Outcome State Fault Refusal :=
  match i with
  | .openLoad => Sys2Proof.Machine.execOpenLoad s
  | .commitLoad => Sys2Proof.Machine.execCommitLoad s
  | .cancelLoad => Sys2Proof.Machine.execCancelLoad s
  | .retire => Sys2Proof.Machine.execRetire s
  | .queryCurve => Sys2Proof.Machine.execQueryCurve s
  | .queryJob => Sys2Proof.Machine.execQueryJob s
  | .continueHeld => Sys2Proof.Machine.execContinueHeld s
  | .abort => Sys2Proof.Machine.execAbort s
  | .flushLevel => Sys2Proof.Machine.execFlushLevel s
  | .engineReset => Sys2Proof.Machine.execEngineReset s
  | .badCommand code => Sys2Proof.Machine.execBadCommand code s
  | .submit l => Sys2Proof.Machine.execSubmit l s
  | .loadData x => Sys2Proof.Machine.execLoadData x s
  | .cpop => Sys2Proof.Machine.execCpop s
  | .eventsWrite x => Sys2Proof.Machine.execEventsWrite x s
  | .eventEnableWrite x => Sys2Proof.Machine.execEventEnableWrite x s
  | .controlWrite x => Sys2Proof.Machine.execControlWrite x s
  | .registerWrite reg x => Sys2Proof.Machine.execRegisterWrite reg x s
  | .windowAccessError a => Sys2Proof.Machine.execWindowAccessError a s
  | .rstAssert => Sys2Proof.Machine.execRstAssert s
  | .rstRelease => Sys2Proof.Machine.execRstRelease s
  | .bgnt => Sys2Proof.Machine.execBgnt s
  | .bgntRemoved => Sys2Proof.Machine.execBgntRemoved s
  | .demandReadEnd outcome => Sys2Proof.Machine.execDemandReadEnd outcome s
  | .resultWriteEnd outcome => Sys2Proof.Machine.execResultWriteEnd outcome s
  | .prefetchReadEnd data => Sys2Proof.Machine.execPrefetchReadEnd data s
  | .prefetchReadFailure => Sys2Proof.Machine.execPrefetchReadFailure s
  | .droppedValueEnd outcome => Sys2Proof.Machine.execDroppedValueEnd outcome s
  | .wLowHalfEnd data => Sys2Proof.Machine.execWLowHalfEnd data s
  | .setupCompletion which => Sys2Proof.Machine.execSetupCompletion which s
  | .termsCompletion which => Sys2Proof.Machine.execTermsCompletion which s
  | .conversionCompletion which => Sys2Proof.Machine.execConversionCompletion which s
  | .dispatch => Sys2Proof.Machine.execDispatch s
  | .engineResetCompletion => Sys2Proof.Machine.execEngineResetCompletion s

end Sys2Proof.Machine
end

