-- ==== Sys2Proof/Machine/Window.lean ====
section
/-! DEFINITION. The register window (chapter 11): what a read of each register returns, which command an access
is, and the signals the part drives. Plain reads have no side effect and no row of the table. -/

namespace Sys2Proof.Machine

/-! ### Status words -/

/-- Engine state codes (R182). -/
def engineStateCode : EngineState → Nat
  | .idle => 0
  | .fetch => 1
  | .setup => 2
  | .terms => 3
  | .store => 4
  | .frozen => 5

/-- Bus state codes (R182). -/
def busStateCode : BusState → Nat
  | .idle => 0
  | .requesting => 1
  | .owner => 2

/-- Hold slot state codes (R182, R186): EMPTY, HELD, CONTINUING. -/
def holdStateCode (h : Option HoldRecord) : Nat :=
  match h with
  | none => 0
  | some r => if r.action.isSome then 2 else 1

/-- STATUS (R182). -/
def readStatus (s : State) : Word :=
  field (engineStateCode s.engine.state) 0 3 ||| field (busStateCode s.bus.state) 3 2
    ||| field s.intake.freeTags.length 5 6
    ||| flagBit s.slots[0].isSome 11 ||| flagBit s.slots[1].isSome 12 ||| flagBit s.slots[2].isSome 13
    ||| field (holdStateCode s.hold) 14 2
    ||| field (queueOf s 0).length 16 4 ||| field (queueOf s 1).length 20 4
    ||| field (queueOf s 2).length 24 4 ||| field (queueOf s 3).length 28 4

/-- CMD as read (R163, R183). -/
def readCmd (s : State) : Word :=
  field (match s.cmd.lastCommand with | some c => c.toNat | none => 0) 0 8
    ||| field (resultCode s.cmd.lastResult) 8 8 ||| flagBit s.cmd.pending 16 ||| flagBit s.cmd.lastCommand.isSome 17

/-- Session state codes (R186). -/
def sessionStateCode : SessionState → Nat
  | .idle => 0
  | .opened => 1
  | .failed => 2

/-- Phase codes (R186). -/
def phaseCode : Phase → Nat
  | .breakpoints => 0
  | .degree => 1
  | .terms => 2
  | .complete => 3

/-- Failure reason codes (R186); NONE while the failure record is absent. -/
def failureCode : Option FailureRecord → Nat
  | none => 0
  | some r =>
    match r.reason with
    | .badValue => 1
    | .badOrder => 2
    | .badDegree => 3
    | .storeFull => 4
    | .overrun => 5

/-- LOAD_STATUS (R51, R186). -/
def readLoadStatus (s : State) : Word :=
  field (sessionStateCode s.load.state) 0 2 ||| field s.load.curve.val 2 5
    ||| field (phaseCode s.load.cursor.phase) 7 2 ||| field s.load.cursor.segment 9 6
    ||| flagBit s.load.cursor.lowHalf.isSome 15 ||| field s.load.wordIndex 16 12
    ||| field (failureCode s.load.failure) 28 3

/-- STORE_STATUS (R37, R186). With no free block there is no lowest one, and bits 14:8 read 0: DESIGN CHOICE
(log 29). -/
def readStoreStatus (s : State) : Word :=
  field s.store.free.length 0 8
    ||| match s.store.free with
      | b :: _ => field b 8 7 ||| flagBit true 15
      | [] => 0

/-! ### The oldest record (R153, R186) -/

/-- CREC0 of a record. -/
def recordWord0 (r : Record) : Word :=
  field r.tag 0 6 ||| field r.level.val 6 2 ||| field (jobKindCode r.kind) 8 1 ||| field (statusCode r.status) 9 3
    ||| flagBit r.first.isSome 12 ||| flagBit r.result.isSome 13 ||| flagBit r.busErr.isSome 14
    ||| field r.curve.val 15 5 ||| field r.generation.toNat 20 8

/-- CREC1 of a record. -/
def recordWord1 (r : Record) : Word := field r.cookie.toNat 0 16 ||| field r.done 16 16

/-- CREC2 of a record. An absent first exception reads 0 (R150). -/
def recordWord2 (r : Record) : Word :=
  field r.excCount 0 16
    ||| match r.first with
      | some f =>
        field (kindCode f.exc.kind) 16 3 ||| field (stageCode f.exc.stage) 19 3
          ||| field (stageTermIndex f.exc.stage) 22 4
      | none => 0

/-- CREC3 of a record. It holds two optional parts, and the bits of an absent one read 0, which is deduced from R150
(log 32). -/
def recordWord3 (r : Record) : Word :=
  (match r.first with
    | some f => field f.element 0 16
    | none => 0)
    ||| match r.busErr with
      | some e => field (match e.dir with | .read => 0 | .write => 1) 16 1
      | none => 0

/-- CREC4 of a record: the result's first word, or the failing address. -/
def recordWord4 (r : Record) : Word :=
  match r.result, r.busErr with
  | some v, _ => valueLow v
  | none, some e => e.addr
  | none, none => 0

/-- CREC5 of a record. -/
def recordWord5 (r : Record) : Word :=
  match r.result with
  | some v => valueHigh v
  | none => 0

/-- A word of the oldest record, 0 while the queue is empty (R153). -/
def readRecord (f : Record → Word) (s : State) : Word :=
  match s.completion.records with
  | r :: _ => f r
  | [] => 0

/-! ### The hold record (R117, R186) -/

/-- Action codes as in CONTINUE (R183, R186). -/
def actionCode : HoldAction → Nat
  | .skipMark => 0
  | .substitute _ => 1
  | .retry => 2

/-- HOLD0 of a record. Without a pending action there is no action to show, and bits 13:12 read 0: DESIGN CHOICE
(log 31). -/
def holdWord0 (h : HoldRecord) : Word :=
  field (holdStateCode (some h)) 0 2 ||| field h.job.tag 2 6 ||| field h.job.level.val 8 2
    ||| field (jobKindCode (descKind h.job.desc)) 10 1 ||| flagBit h.action.isSome 11
    ||| field (match h.action with | some a => actionCode a | none => 0) 12 2

/-- HOLD1 of a record. -/
def holdWord1 (h : HoldRecord) : Word :=
  field h.job.desc.curve.val 0 5 ||| field (formatCode h.job.desc.argFormat) 5 1
    ||| field (formatCode h.job.desc.resFormat) 6 1 ||| field (kindCode h.exc.kind) 8 3
    ||| field (stageCode h.exc.stage) 11 3 ||| field (stageTermIndex h.exc.stage) 14 4

/-- HOLD2 of a record. -/
def holdWord2 (h : HoldRecord) : Word := field h.job.index 0 16

/-- HOLD3 of a record. -/
def holdWord3 (h : HoldRecord) : Word := field h.job.done 0 16 ||| field h.job.excCount 16 16

/-- A word of the hold record, 0 while the slot is EMPTY (R117). -/
def readHold (f : HoldRecord → Word) (s : State) : Word :=
  match s.hold with
  | some h => f h
  | none => 0

/-! ### The window -/

/-- The word of the register at a word offset (section 11.3); `none` where the offset holds no register that is read
plainly: unmapped, write-only, or a SUBMIT register, whose read is a command. -/
def registerWord (s : State) (offset : BitVec 8) : Option Word :=
  match offset.toNat with
  | 0x00 => some Config.ident
  | 0x04 => some (readStatus s)
  | 0x08 => some (field s.completion.events.toNat 0 7)
  | 0x0C => some (field s.completion.enables.toNat 0 7)
  | 0x10 => some s.control
  | 0x14 => some (readCmd s)
  | 0x18 => some s.cmd.args[0]
  | 0x1C => some s.cmd.args[1]
  | 0x20 => some s.cmd.args[2]
  | 0x24 => some s.cmd.query[0]
  | 0x28 => some s.cmd.query[1]
  | 0x2C => some s.cmd.query[2]
  | 0x30 => some s.cmd.query[3]
  | 0x40 => some s.intake.stage[0]
  | 0x44 => some s.intake.stage[1]
  | 0x48 => some s.intake.stage[2]
  | 0x4C => some s.intake.stage[3]
  | 0x50 => some s.intake.stage[4]
  | 0x54 => some s.intake.stage[5]
  | 0x58 => some s.intake.stage[6]
  | 0x74 => some (readLoadStatus s)
  | 0x78 => some (readStoreStatus s)
  | 0x80 => some (readRecord recordWord0 s)
  | 0x84 => some (readRecord recordWord1 s)
  | 0x88 => some (readRecord recordWord2 s)
  | 0x8C => some (readRecord recordWord3 s)
  | 0x90 => some (readRecord recordWord4 s)
  | 0x94 => some (readRecord recordWord5 s)
  | 0xA4 => some (field s.completion.records.length 0 6)
  | 0xB0 => some (readHold holdWord0 s)
  | 0xB4 => some (readHold holdWord1 s)
  | 0xB8 => some (readHold holdWord2 s)
  | 0xBC => some (readHold holdWord3 s)
  | 0xC0 => some (readHold (fun h => valueLow h.arg) s)
  | 0xC4 => some (readHold (fun h => valueHigh h.arg) s)
  | _ => none

/-- The data a plain read returns: the word of the register, and nothing while RST is asserted, since no access is
answered then (R129, R161, R176, R177). -/
def windowRead (s : State) (offset : BitVec 8) : Option Word := if s.rst then none else registerWord s offset

/-- A plain read taken (R177): answered at once with ACK and the word of the register, with no other effect. Where no
register can be read the answer is BERR (R178); a SUBMIT read is a command and is not taken here. -/
def plainRead (offset : BitVec 8) (s : State) : State :=
  hostAccess
    (fun t =>
      match registerWord t offset with
      | some w => { t with answer := .ackData w }
      | none => { t with answer := .berr })
    s

/-- The command a write of the code to CMD issues (R183). -/
def cmdCommand (code : BitVec 8) : Instr :=
  match code.toNat with
  | 0x01 => .openLoad
  | 0x02 => .commitLoad
  | 0x03 => .cancelLoad
  | 0x04 => .retire
  | 0x05 => .queryCurve
  | 0x06 => .queryJob
  | 0x07 => .continueHeld
  | 0x08 => .abort
  | 0x09 => .flushLevel
  | 0x0A => .engineReset
  | _ => .badCommand code

/-- The command a write of a word at an offset of the map is. -/
def writeCommand (offset : BitVec 8) (x : Word) : Option Instr :=
  match offset.toNat with
  | 0x08 => some (.eventsWrite x)
  | 0x0C => some (.eventEnableWrite x)
  | 0x10 => some (.controlWrite x)
  | 0x14 => some (cmdCommand (x.truncate 8))
  | 0x18 => some (.registerWrite (.cmdArg 0) x)
  | 0x1C => some (.registerWrite (.cmdArg 1) x)
  | 0x20 => some (.registerWrite (.cmdArg 2) x)
  | 0x40 => some (.registerWrite (.stage 0) x)
  | 0x44 => some (.registerWrite (.stage 1) x)
  | 0x48 => some (.registerWrite (.stage 2) x)
  | 0x4C => some (.registerWrite (.stage 3) x)
  | 0x50 => some (.registerWrite (.stage 4) x)
  | 0x54 => some (.registerWrite (.stage 5) x)
  | 0x58 => some (.registerWrite (.stage 6) x)
  | 0x70 => some (.loadData x)
  | 0xA0 => some .cpop
  | _ => none

/-- The command a read at an offset of the map is: a SUBMIT read; a plain read is none. -/
def readCommand (offset : BitVec 8) : Option Instr :=
  match offset.toNat with
  | 0x60 => some (.submit 0)
  | 0x64 => some (.submit 1)
  | 0x68 => some (.submit 2)
  | 0x6C => some (.submit 3)
  | _ => none

/-- The command a window access is (R177, R178, R183); a plain read is none. -/
def accessCommand (a : WindowAccess) : Option Instr :=
  if a.erroneous then some (.windowAccessError a)
  else if a.write then writeCommand a.offset a.data
  else readCommand a.offset

/-! ### Signals -/

/-- BREQ (R130, R180): asserted from the request to the release. -/
def breq (s : State) : Bool := decide (s.bus.state ≠ .idle)

/-- The levels BREQ takes in turn at the event that leads from `s` to `t`: at a release with work still pending it is
removed and asserted again, so that the arbiter sees it fall between two tenures (R180). -/
def breqLevels (s t : State) : List Bool :=
  if s.bus.state = .owner ∧ t.bus.state = .requesting then [breq (endTenure s), breq t] else [breq t]

/-- A transfer as the part drives it (R130, R180): WRT, the byte lanes, the data of a write, and STB; a read drives no
data. -/
structure DrivenTransfer where
  addr : Word
  lanes : BitVec 4
  write : Bool
  data : Option Word
  stb : Bool
  deriving DecidableEq, Repr

/-- The word of a value that its transfer carries: the low word first (R132). -/
def transferWord (v : Value) (ended : Nat) : Word := if ended = 0 then valueLow v else valueHigh v

/-- The word of the result in hand that the transfer in progress carries (R132, R138). -/
def drivenData (s : State) (u : UnderWay) : Option Word :=
  (s.engine.running.bind (·.result)).map fun v => transferWord v u.ended

/-- The transfer the part drives in OWNER (R130, R132, R180), with all four byte lanes and STB asserted. -/
def drivenTransfer (s : State) : Option DrivenTransfer :=
  s.bus.underWay.map fun u =>
    { addr := u.addr + BitVec.ofNat 32 (4 * u.ended)
      lanes := 0xF#4
      write := decide (u.kind = .resultWrite)
      data := if u.kind = .resultWrite then drivenData s u else none
      stb := true }

/-- STB as the part drives it as master (R180): asserted for a transfer, from its beginning to its end. -/
def masterStb (s : State) : Bool := (drivenTransfer s).any (·.stb)

/-- The levels STB takes in turn, as the part drives it, at the event that leads from `s` to `t`: where a transfer ends
and the next one begins, a high half after its low half or the value chosen at the choice point, STB is removed and
asserted again (R180). Each transfer of a tenure counts one as it begins (R134), so the count tells the next transfer
from the one before it. -/
def masterStbLevels (s t : State) : List Bool :=
  if masterStb s && masterStb t && decide (s.bus.tenureCount ≠ t.bus.tenureCount) then [false, true] else [masterStb t]

end Sys2Proof.Machine
end

