-- ==== Sys2Proof/Machine/Access.lean ====
section
/-! DEFINITION. A window access as a whole (R177, R178): the command it is, or a plain read. -/

namespace Sys2Proof.Machine

/-- A window access taken. A plain read is no row of the table, and its answer is its one effect (log 6). -/
def takeAccess (a : WindowAccess) (s : State) : Host.Outcome State Fault Refusal :=
  match accessCommand a with
  | some c => exec c s
  | none => .next (plainRead a.offset s)

end Sys2Proof.Machine
end

