-- ==== Sys2Proof/Safety.lean ====
section
/-! DEFINITION. What counts as a safe run, in the terms claims use: the laws the spec states of every moment, and the
states a run from hard reset can reach. -/

namespace Sys2Proof.Machine

/-! ### Places -/

/-- The live jobs: queued, running, suspended, held or continuing (section 4.3). -/
def liveJobs (s : State) : List Job :=
  levelsDown.flatMap (queueOf s) ++ (s.engine.running.map (·.job)).toList
    ++ levelsDown.flatMap (fun l => ((slotOf s l).map (·.job)).toList) ++ (s.hold.map (·.job)).toList

/-- The tags of the records in the completion queue. -/
def recordTags (s : State) : List Nat := s.completion.records.map (·.tag)

/-- The blocks on the block lists of all curves. -/
def heldBlocks (s : State) : List Nat := s.curves.toList.flatMap (·.blocks)

/-! ### Laws of every moment -/

/-- R33, R34: the words are in canonical form within the 4096 words, the free pool is an ascending set, and every
block is in exactly one place. -/
structure StoreLaw (s : State) : Prop where
  canonical : cellsWf s.store.words = true
  bounded : ∀ c ∈ s.store.words, c.1 < Config.blockCount * Config.blockWords
  ascending : s.store.free.Pairwise (· < ·)
  partition : (s.store.free ++ heldBlocks s).Perm (List.range Config.blockCount)

/-- R22, R27: a curve is LOADING exactly when the session is OPEN and names it; only a READY or RETIRING curve has
references; an EMPTY curve has no header and no blocks; a RETIRING curve has a reference. -/
structure CurveLaw (s : State) : Prop where
  loading : ∀ c, (curveEntry s c).state = .loading ↔ s.load.state = .opened ∧ s.load.curve = c
  unreferenced : ∀ c, (curveEntry s c).state = .empty ∨ (curveEntry s c).state = .loading →
    (curveEntry s c).refCount = 0
  emptied : ∀ c, (curveEntry s c).state = .empty → (curveEntry s c).blocks = []
  header : ∀ c, (curveEntry s c).header.isSome = true ↔ (curveEntry s c).state ≠ .empty
  retiring : ∀ c, (curveEntry s c).state = .retiring → 0 < (curveEntry s c).refCount

/-- R63, R70, R109, R111: queues and slots hold jobs of their level, a queue at most eight; the slot of the running
job's level is EMPTY; an IDLE engine has no job and a working one has one. -/
structure PlaceLaw (s : State) : Prop where
  queueLevel : ∀ l, ∀ j ∈ queueOf s l, j.level = l
  queueLength : ∀ l, (queueOf s l).length ≤ Config.queueDepth
  slotLevel : ∀ l x, slotOf s l = some x → x.job.level = l
  slotFree : ∀ r, s.engine.running = some r → slotOf s r.job.level = none
  idle : s.engine.state = .idle → s.engine.running = none
  working : s.engine.state ≠ .idle → s.engine.state ≠ .frozen → s.engine.running.isSome = true

/-- R61, R62: the free tags are an ascending set and every tag is in exactly one place. -/
structure TagLaw (s : State) : Prop where
  ascending : s.intake.freeTags.Pairwise (· < ·)
  partition :
    (s.intake.freeTags ++ (liveJobs s).map (·.tag) ++ recordTags s).Perm (List.range Config.tagCount)

/-- R27: the reference count of a curve is the number of live jobs that name it. -/
def CountLaw (s : State) : Prop :=
  ∀ c, (curveEntry s c).refCount = (liveJobs s).countP fun j => decide (j.desc.curve = c)

/-- R105: the yield request is what its inputs make it. -/
def YieldLaw (s : State) : Prop := s.yieldRequest = yieldDue s

/-- R70 to R73, R78 to R80: SETUP has the argument in hand, TERMS also working values with a term remaining, and
STORE either a result in hand or what the result conversion needs. -/
structure EngineLaw (s : State) : Prop where
  setup : s.engine.state = .setup → ∃ r a, s.engine.running = some r ∧ r.arg = some a
  terms : s.engine.state = .terms →
    ∃ r a w j, s.engine.running = some r ∧ r.arg = some a ∧ r.work = some w ∧ w.nextTerm = some j
  store : s.engine.state = .store →
    ∃ r, s.engine.running = some r ∧ (r.result.isSome = true ∨ ∃ a w, r.arg = some a ∧ r.work = some w)

/-- R172, R174, R182: the engine is FROZEN exactly while the command state is PENDING, and a pending reset waits for
a value under way. -/
structure ResetLaw (s : State) : Prop where
  frozen : s.engine.state = .frozen ↔ s.cmd.pending = true
  waiting : s.cmd.pending = true → s.bus.underWay.isSome = true

/-- R130 to R135: a value is under way exactly in OWNER; the bus is requested exactly while work is pending; a
waiting write belongs to STORE with a result in hand and a waiting read to FETCH; so does the value under way,
unless the engine is FROZEN; a value under way has a transfer left; the buffer holds at most four entries. -/
structure BusLaw (s : State) : Prop where
  owner : s.bus.state = .owner ↔ s.bus.underWay.isSome = true
  requested : s.bus.state ≠ .owner → (s.bus.state = .requesting ↔ busPending s = true)
  write : s.bus.waitingWrite.isSome = true →
    s.engine.state = .store ∧ ∃ r, s.engine.running = some r ∧ r.result.isSome = true
  read : s.bus.waitingRead.isSome = true → s.engine.state = .fetch
  reading : ∀ u, s.bus.underWay = some u → u.kind = .demandRead →
    s.engine.state = .frozen ∨ (s.engine.state = .fetch ∧ s.bus.waitingRead = none)
  writing : ∀ u, s.bus.underWay = some u → u.kind = .resultWrite →
    s.engine.state = .frozen ∨ (s.engine.state = .store ∧ s.bus.waitingWrite = none ∧
      ∃ r, s.engine.running = some r ∧ r.result.isSome = true)
  transfers : ∀ u, s.bus.underWay = some u → u.ended < u.size ∧ u.size ≤ 2
  buffered : s.bus.buffer.length ≤ Config.prefetchDepth

/-- R137, R139: there is a prefetch part exactly while a batch job is in an engine that is not FROZEN, and no entry
without one; the entries name consecutive elements, the highest p - 1, the lowest the one after the job's element, or
that element itself while the engine waits in FETCH for its entry alone; an entry is IN_FLIGHT exactly while a prefetch
read is under way, and it is the highest one. R75: an engine in FETCH waits for its demand read or for its entry. -/
structure PrefetchLaw (s : State) : Prop where
  present : s.bus.prefetch.isSome = true ↔
    s.engine.state ≠ .frozen ∧ ∃ r, s.engine.running = some r ∧ isBatch r.job.desc = true
  absent : s.bus.prefetch = none → s.bus.buffer = []
  consecutive : ∀ r pf, s.engine.running = some r → s.bus.prefetch = some pf →
    ∃ low, s.bus.buffer.map (·.element) = List.range' low s.bus.buffer.length ∧ pf.p = low + s.bus.buffer.length ∧
      (low = r.job.index + 1 ∨ low = r.job.index ∧ s.engine.state = .fetch ∧ s.bus.waitingRead = none ∧
        s.bus.buffer.length = 1 ∧ (inFlightEntry s.bus).isSome = true)
  inFlight : (valueOf s .prefetchRead).isSome = (inFlightEntry s.bus).isSome
  highest : ∀ e ∈ s.bus.buffer.dropLast, e.value.isSome = true
  waits : s.engine.state = .fetch → s.bus.waitingRead.isSome = true ∨ demandUnderWay s = true ∨
    ∃ r e, s.engine.running = some r ∧ inFlightEntry s.bus = some e ∧ e.element = r.job.index

/-- R132, R137, R138, R140: a waiting write carries the result in hand to the slot of the job's element, and a waiting
read is for that element's argument; so is the value under way, a prefetch read for the argument of some element; a
read whose low half has ended holds the low word, and nothing else holds one. -/
structure TransferLaw (s : State) : Prop where
  writeWaits : ∀ w, s.bus.waitingWrite = some w → ∃ r, s.engine.running = some r ∧ r.result = some w.value ∧
    w.element = r.job.index ∧ w.addr = resAddress r.job.desc r.job.index
  readWaits : ∀ q, s.bus.waitingRead = some q → ∃ r, s.engine.running = some r ∧ q.element = r.job.index ∧
    q.addr = argAddress r.job.desc r.job.index
  writing : ∀ u, s.bus.underWay = some u → u.kind = .resultWrite → ∃ r v, s.engine.running = some r ∧
    r.result = some v ∧ u.addr = resAddress r.job.desc r.job.index ∧ u.size = formatWords (valueFormat v)
  reading : ∀ u, s.bus.underWay = some u → u.kind = .demandRead → ∃ r, s.engine.running = some r ∧
    u.addr = argAddress r.job.desc r.job.index ∧ u.size = formatWords r.job.desc.argFormat
  prefetching : ∀ u, s.bus.underWay = some u → u.kind = .prefetchRead → ∃ r i, s.engine.running = some r ∧
    i < elementCount r.job.desc ∧ u.addr = argAddress r.job.desc i ∧ u.size = formatWords r.job.desc.argFormat
  lowWord : ∀ u, s.bus.underWay = some u →
    (u.lowRead.isSome = true ↔ u.ended = 1 ∧ (u.kind = .demandRead ∨ u.kind = .prefetchRead))

/-- R179, R181: the bits of CONTROL that carry no field read as 0. -/
def ControlLaw (s : State) : Prop := s.control &&& Config.controlMask = s.control

/-- Every law of every moment. -/
structure Lawful (s : State) : Prop where
  store : StoreLaw s
  curve : CurveLaw s
  place : PlaceLaw s
  engine : EngineLaw s
  tag : TagLaw s
  count : CountLaw s
  yield : YieldLaw s
  reset : ResetLaw s
  bus : BusLaw s
  prefetch : PrefetchLaw s
  transfer : TransferLaw s
  control : ControlLaw s

/-! ### Runs -/

/-- The states a run reaches: any commands waiting at the release of hard reset, taken one after another. -/
inductive Reachable : State → Prop where
  | reset (commands : List Instr) : Reachable { State.reset with pending := commands }
  | step {s t : State} : Reachable s → step s = .next t → Reachable t

/-! ### Hypotheses of claims -/

/-- A write to CMD is taken: RST released, command state IDLE (R162, R176). -/
def commandTaken (s : State) : Prop := s.rst = false ∧ s.cmd.pending = false

/-- The code a write to CMD carries; `none` for a command that is no write to CMD (R162, R183). -/
def cmdCode : Instr → Option (BitVec 8)
  | .openLoad => some 0x01#8
  | .commitLoad => some 0x02#8
  | .cancelLoad => some 0x03#8
  | .retire => some 0x04#8
  | .queryCurve => some 0x05#8
  | .queryJob => some 0x06#8
  | .continueHeld => some 0x07#8
  | .abort => some 0x08#8
  | .flushLevel => some 0x09#8
  | .engineReset => some 0x0A#8
  | .badCommand code => some code
  | _ => none

/-- The command is an access of the register window (chapter 11). -/
def isWindowAccess (c : Instr) : Bool :=
  (cmdCode c).isSome ||
    match c with
    | .submit _ => true
    | .loadData _ => true
    | .cpop => true
    | .eventsWrite _ => true
    | .eventEnableWrite _ => true
    | .controlWrite _ => true
    | .registerWrite _ _ => true
    | .windowAccessError _ => true
    | _ => false

/-- The value a word completes: the word itself in N-format, the high half of a W value whose low half is held
(R41). -/
def completed (f : Format) (held : Option Word) (x : Word) : Option Value :=
  match f, held with
  | .n, _ => some (.narrow x)
  | .w, some lo => some (.wide x lo)
  | .w, none => none

/-- R40 to R43: in the OPEN session on a curve with header `h` the word `x` completes a value that passes its checks;
`ws` are the words of the value and `cur` is the cursor after it. -/
inductive AcceptsWord (s : State) (h : CurveHeader) (x : Word) : List Word → Cursor → Prop where
  | breakpoint (v : Value) :
    s.load.cursor.phase = .breakpoints → completed h.format s.load.cursor.lowHalf x = some v →
    isMarker v = false →
    (storedWords s.load = 0 ∨
      valueLt (curveValue s.store (curveEntry s s.load.curve).blocks h.format
        (storedWords s.load - formatWords h.format)) v = true) →
    AcceptsWord s h x (valueWords v)
      (if s.load.cursor.remaining ≤ 1 then { phase := .degree, segment := 0, remaining := 1, lowHalf := none }
        else { s.load.cursor with remaining := s.load.cursor.remaining - 1, lowHalf := none })
  | degree :
    s.load.cursor.phase = .degree → x.toNat ≤ 15 →
    AcceptsWord s h x [x]
      { phase := .terms, segment := s.load.cursor.segment, remaining := x.toNat + 1, lowHalf := none }
  | term (v : Value) :
    s.load.cursor.phase = .terms → completed h.format s.load.cursor.lowHalf x = some v → isMarker v = false →
    AcceptsWord s h x (valueWords v)
      (if s.load.cursor.remaining ≤ 1 then
        if s.load.cursor.segment + 1 < h.segments then
          { phase := .degree, segment := s.load.cursor.segment + 1, remaining := 1, lowHalf := none }
        else { phase := .complete, segment := s.load.cursor.segment, remaining := 0, lowHalf := none }
      else { s.load.cursor with remaining := s.load.cursor.remaining - 1, lowHalf := none })

/-! ### Numbers -/

/-- R1, R2: the number an encoding with the fields sign, exponent and fraction has, in a format with `frac` fraction
bits and the bias `bias`. -/
def fieldsNumber (frac : Nat) (bias : Int) (sign exp fraction : Nat) : ℚ :=
  if exp = 0 then 0 else (-1) ^ sign * (1 + (fraction : ℚ) / 2 ^ frac) * 2 ^ ((exp : Int) - bias)

/-- R1, R2, R187: the number of an encoding. That of a marker plays no part (log 21). -/
def numberOf : Value → ℚ
  | .narrow x => fieldsNumber 23 128 (x.toNat / 2 ^ 31) (x.toNat / 2 ^ 23 % 2 ^ 8) (x.toNat % 2 ^ 23)
  | .wide hi lo =>
    fieldsNumber 52 1024 (hi.toNat / 2 ^ 31) (hi.toNat / 2 ^ 20 % 2 ^ 11) (hi.toNat % 2 ^ 20 * 2 ^ 32 + lo.toNat)

/-- The exact number `m × 2^e`. -/
def dyadicNumber (d : Dyadic) : ℚ := (d.m : ℚ) * 2 ^ d.e

/-! ### Next states of claims, written out field by field -/

/-- The state after a command whose only effect is its recording: acknowledged, with its code and its result
(R162, R177). -/
def recorded (code : BitVec 8) (result : CmdResult) (s : State) : State :=
  { s with answer := .ack, cmd := { s.cmd with lastCommand := some code, lastResult := result } }

/-- The state after a write to CMD that overruns (R165). -/
def overrun (s : State) : State :=
  { s with answer := .ack, completion := { s.completion with events := s.completion.events ||| 0x10#7 } }

/-- A curve emptied: its blocks in the pool, no header, count 0, generation kept (R23). -/
def emptied (c : Fin 32) (s : State) : State :=
  { s with
    curves :=
      s.curves.set c { curveEntry s c with state := .empty, header := none, refCount := 0, blocks := [] }
    store := { s.store with free := insertAllAsc (curveEntry s c).blocks s.store.free } }

/-- The state after a LOAD_DATA word that fails the session (R46). -/
def failedLoad (reason : LoadReason) (s : State) : State :=
  { emptied s.load.curve s with
    answer := .ack
    load :=
      { s.load with
        state := .failed
        cursor := { s.load.cursor with lowHalf := none }
        failure := some { reason := reason, wordIndex := s.load.wordIndex } }
    completion := { s.completion with events := s.completion.events ||| 0x08#7 } }

/-- The reset values of the completion of ENGINE_RESET (R174). The tenure count keeps its value (log 17) and the
operations in flight stay on their way to be discarded (log 8). -/
def resetDone (s : State) : State :=
  { s with
    cmd := { s.cmd with pending := false, lastResult := .done }
    curves :=
      mapCurves
        (fun e =>
          if e.state = .retiring then { e with state := .empty, header := none, refCount := 0, blocks := [] }
          else { e with refCount := 0 })
        s.curves
    store :=
      { s.store with
        free :=
          insertAllAsc
            (s.curves.toArray.toList.flatMap fun e => if e.state = .retiring then e.blocks else []) s.store.free }
    intake := { s.intake with freeTags := List.range 48, queues := Vector.replicate 4 [] }
    slots := Vector.replicate 3 none
    yieldRequest := false
    engine := { s.engine with state := .idle, running := none }
    hold := none
    bus :=
      { state := .idle, tenureCount := s.bus.tenureCount, grantRemoved := false, underWay := none,
        waitingWrite := none, waitingRead := none, buffer := [], prefetch := none }
    completion := { s.completion with records := [], events := s.completion.events &&& 0x7C#7 ||| 0x04#7 } }

end Sys2Proof.Machine
end

