-- ==== Sys2Proof/Certificates/Slice0/Obligations.lean ====
section
/-! DEFINITION. The statements for the provers. Conclusions about a command are the next state itself, written out:
what they do not mention is unchanged. The shared operations that such a state names have statements of their own. -/

open Sys2Proof Sys2Proof.Machine

/-! ### The queue of commands -/

/-- A step takes the command at the front of the queue and runs it with the queue's rest. An empty queue idles: the
model's choice (log 2). -/
def Obligations.StepTakesFrontCommand : Prop :=
  (∀ (c : Instr) (rest : List Instr) (s : State),
    step { s with pending := c :: rest } = exec c { s with pending := rest }) ∧
  ∀ s : State, s.pending = [] → step s = .next s

/-- No command changes the queue of those that wait behind it. That queue is the model's own field, no state of the part
(log 25). -/
def Obligations.ExecKeepsTheQueue : Prop :=
  ∀ (c : Instr) (s t : State), exec c s = .next t → t.pending = s.pending

/-! ### Reset line -/

/-- What every plainly readable register shows after hard reset. -/
def Obligations.ResetReadsAsTheManualSays : Prop :=
  windowRead State.reset 0x00#8 = some 0xC8802030#32 ∧ windowRead State.reset 0x04#8 = some 0x00000600#32 ∧
  windowRead State.reset 0x10#8 = some 0x0000031F#32 ∧ windowRead State.reset 0x78#8 = some 0x00008080#32 ∧
  (∀ o ∈ [0x08#8, 0x0C#8, 0x14#8, 0x18#8, 0x1C#8, 0x20#8, 0x24#8, 0x28#8, 0x2C#8, 0x30#8, 0x40#8, 0x44#8, 0x48#8,
      0x4C#8, 0x50#8, 0x54#8, 0x58#8, 0x74#8, 0x80#8, 0x84#8, 0x88#8, 0x8C#8, 0x90#8, 0x94#8, 0xA4#8, 0xB0#8, 0xB4#8,
      0xB8#8, 0xBC#8, 0xC0#8, 0xC4#8],
    windowRead State.reset o = some 0#32) ∧
  irq State.reset = false ∧ breq State.reset = false ∧ drivenTransfer State.reset = none

/-- Hard reset. While RST is asserted no access is answered, a plain read neither, and none has an effect; the assertion
leaves no interrupt, no claim on the bus, and no job, record, curve or session; the release gives every block its
hard-reset values, sets no event and raises no interrupt. The model's choices in it: which fields fall at the assertion
already, the command state, both pools and the session (log 9), an assertion of a line that is asserted (log 10), and
the queue of commands, which stays (log 25). -/
def Obligations.HardReset : Prop :=
  (∀ (c : Instr) (s : State), isWindowAccess c = true → c.wellFormed = true → s.rst = true →
    exec c s = .next { s with answer := .unanswered }) ∧
  (∀ (o : BitVec 8) (s : State), s.rst = true →
    windowRead s o = none ∧ plainRead o s = { s with answer := .unanswered }) ∧
  (∀ s : State, ∃ t : State,
    exec .rstAssert s = .next t ∧ t.rst = true ∧ irq t = false ∧ breq t = false ∧ drivenTransfer t = none ∧
    liveJobs t = [] ∧ t.engine.state = .idle ∧ t.engine.running = none ∧ t.completion.records = [] ∧
    t.intake.freeTags = List.range 48 ∧ t.load.state = .idle ∧ t.store.free = List.range 128 ∧
    (∀ c, (curveEntry t c).state = .empty ∧ (curveEntry t c).blocks = [] ∧ (curveEntry t c).refCount = 0) ∧
    t.cmd.pending = false ∧ t.pending = s.pending) ∧
  ∀ s : State, s.rst = true → ∃ t : State,
    exec .rstRelease s = .next t ∧ t.rst = false ∧ irq t = false ∧ breq t = false ∧ drivenTransfer t = none ∧
    (∀ c, curveEntry t c = { state := .empty, header := none, refCount := 0, generation := 0, blocks := [] }) ∧
    t.store.free = List.range 128 ∧ t.load.state = .idle ∧ t.load.curve = 0 ∧ t.load.cursor.phase = .breakpoints ∧
    t.load.cursor.segment = 0 ∧ t.load.cursor.lowHalf = none ∧ t.load.wordIndex = 0 ∧ t.load.failure = none ∧
    t.intake.stage = Vector.replicate 7 0 ∧ (∀ l, queueOf t l = []) ∧ t.intake.freeTags = List.range 48 ∧
    t.engine.state = .idle ∧ t.engine.running = none ∧ (∀ l, slotOf t l = none) ∧ t.yieldRequest = false ∧
    (∀ l, levelEnabled t l = true) ∧ t.hold = none ∧
    t.bus.state = .idle ∧ t.bus.tenureCount = 0 ∧ t.bus.underWay = none ∧ t.bus.waitingWrite = none ∧
    t.bus.waitingRead = none ∧ t.bus.buffer = [] ∧ prefetchEnabled t = true ∧ tenureLimit t = 4 ∧
    t.completion.records = [] ∧ t.completion.events = 0#7 ∧ t.completion.enables = 0#7 ∧
    t.cmd.pending = false ∧ t.cmd.lastCommand = none ∧ t.cmd.lastResult = .none ∧
    t.cmd.args = Vector.replicate 3 0 ∧ t.cmd.query = Vector.replicate 4 0 ∧ t.pending = s.pending

/-! ### Window accesses -/

/-- The accesses in error, by the register map, are answered with BERR and change nothing. -/
def Obligations.AccessErrorChangesNothing : Prop :=
  (∀ a : WindowAccess,
    a.erroneous = true ↔
      a.offset ∉ [0x00#8, 0x04#8, 0x08#8, 0x0C#8, 0x10#8, 0x14#8, 0x18#8, 0x1C#8, 0x20#8, 0x24#8, 0x28#8, 0x2C#8,
        0x30#8, 0x40#8, 0x44#8, 0x48#8, 0x4C#8, 0x50#8, 0x54#8, 0x58#8, 0x60#8, 0x64#8, 0x68#8, 0x6C#8, 0x70#8, 0x74#8,
        0x78#8, 0x80#8, 0x84#8, 0x88#8, 0x8C#8, 0x90#8, 0x94#8, 0xA0#8, 0xA4#8, 0xB0#8, 0xB4#8, 0xB8#8, 0xBC#8, 0xC0#8,
        0xC4#8] ∨
      a.offset.toNat % 4 ≠ 0 ∨ a.lanes ≠ 0xF#4 ∨
      (a.write = true ∧
        a.offset ∈ [0x00#8, 0x04#8, 0x24#8, 0x28#8, 0x2C#8, 0x30#8, 0x60#8, 0x64#8, 0x68#8, 0x6C#8, 0x74#8, 0x78#8,
          0x80#8, 0x84#8, 0x88#8, 0x8C#8, 0x90#8, 0x94#8, 0xA4#8, 0xB0#8, 0xB4#8, 0xB8#8, 0xBC#8, 0xC0#8, 0xC4#8]) ∨
      (a.write = false ∧ a.offset ∈ [0x70#8, 0xA0#8])) ∧
  ∀ (a : WindowAccess) (s : State), a.erroneous = true → s.rst = false →
    exec (.windowAccessError a) s = .next { s with answer := .berr }

/-- Every access is decided: one in error is WINDOW_ACCESS_ERROR, every other one is a well-formed command or a plain
read of a readable register; bits 31:8 of a word written to CMD play no part. A plain read is answered at once with the
register's word and changes nothing else, and is not answered while RST is asserted. It has no row: that it is taken
outside the queue of commands is the model's choice (log 6). -/
def Obligations.EveryAccessIsDecided : Prop :=
  (∀ a : WindowAccess, a.erroneous = true → accessCommand a = some (.windowAccessError a)) ∧
  (∀ a : WindowAccess, a.erroneous = false →
    accessCommand a = if a.write then writeCommand a.offset a.data else readCommand a.offset) ∧
  (∀ (a : WindowAccess) (c : Instr) (s : State), accessCommand a = some c →
    c.wellFormed = true ∧ isWindowAccess c = true ∧ takeAccess a s = exec c s) ∧
  (∀ (a : WindowAccess) (s : State), a.erroneous = false → accessCommand a = none →
    a.write = false ∧
    (s.rst = false → ∃ w, windowRead s a.offset = some w ∧ takeAccess a s = .next { s with answer := .ackData w }) ∧
    (s.rst = true → takeAccess a s = .next { s with answer := .unanswered })) ∧
  (∀ x : Word, ∃ c, writeCommand 0x14#8 x = some c ∧ cmdCode c = some (x.truncate 8)) ∧
  (∀ i : Fin 4, readCommand (BitVec.ofNat 8 (0x60 + 4 * i.val)) = some (.submit i)) ∧
  (∀ (i : Fin 7) (x : Word),
    writeCommand (BitVec.ofNat 8 (0x40 + 4 * i.val)) x = some (.registerWrite (.stage i) x)) ∧
  (∀ (i : Fin 3) (x : Word),
    writeCommand (BitVec.ofNat 8 (0x18 + 4 * i.val)) x = some (.registerWrite (.cmdArg i) x)) ∧
  ∀ x : Word, writeCommand 0x08#8 x = some (.eventsWrite x) ∧ writeCommand 0x0C#8 x = some (.eventEnableWrite x) ∧
    writeCommand 0x10#8 x = some (.controlWrite x) ∧ writeCommand 0x70#8 x = some (.loadData x) ∧
    writeCommand 0xA0#8 x = some .cpop

/-- A staging or argument register holds the word written to it, in every state of the part, and reads it back. -/
def Obligations.RegisterWriteHoldsTheWord : Prop :=
  ∀ (x : Word) (s : State), s.rst = false →
    (∀ i : Fin 7,
      let t : State := { s with answer := .ack, intake := { s.intake with stage := s.intake.stage.set i x } }
      exec (.registerWrite (.stage i) x) s = .next t ∧
        windowRead t (BitVec.ofNat 8 (0x40 + 4 * i.val)) = some x) ∧
    (∀ i : Fin 3,
      let t : State := { s with answer := .ack, cmd := { s.cmd with args := s.cmd.args.set i x } }
      exec (.registerWrite (.cmdArg i) x) s = .next t ∧
        windowRead t (BitVec.ofNat 8 (0x18 + 4 * i.val)) = some x)

/-- A write to EVENTS clears the flags whose bits are 1, in every state of the part, and does nothing else; a read shows
the flags; and the bit of each flag. -/
def Obligations.EventsWriteClearsOnes : Prop :=
  (∀ (x : Word) (s : State), s.rst = false → ∃ e : BitVec 7,
    let t : State := { s with answer := .ack, completion := { s.completion with events := e } }
    exec (.eventsWrite x) s = .next t ∧ windowRead t 0x08#8 = some (e.setWidth 32) ∧
      ∀ f : EventFlag, eventSet f t = (eventSet f s && !x.getLsbD (eventBit f))) ∧
  (∀ (f : EventFlag) (s : State), eventSet f s = s.completion.events.getLsbD (eventBit f)) ∧
  [EventFlag.completion, .hold, .cmdDone, .loadFailed, .cmdOverrun, .popEmpty, .loadDiscard].map eventBit =
    [0, 1, 2, 3, 4, 5, 6]

/-- A write to EVENT_ENABLE sets the seven enables and does nothing else, a read returns them, and IRQ follows the flags
and the enables. -/
def Obligations.EventEnablesGateTheInterrupt : Prop :=
  (∀ (x : Word) (s : State), s.rst = false →
    let t : State := { s with answer := .ack, completion := { s.completion with enables := x.truncate 7 } }
    exec (.eventEnableWrite x) s = .next t ∧ windowRead t 0x0C#8 = some (x &&& 0x7F#32)) ∧
  ∀ s : State, irq s = true ↔
    s.rst = false ∧ ∃ f : EventFlag, eventSet f s = true ∧ s.completion.enables.getLsbD (eventBit f) = true

/-- A write to CONTROL sets its fields, in every state of the part, and the dispatcher and the bus master react at the
event of the write: bit L enables level L, bit 4 prefetch, and bits 11:8 are the tenure limit less one. -/
def Obligations.ControlWriteReacts : Prop :=
  ∀ (x : Word) (s : State), s.rst = false →
    let t := { reactToSources { s with control := x &&& 0x00000F1F#32 } with answer := .ack }
    exec (.controlWrite x) s = .next t ∧ windowRead t 0x10#8 = some (x &&& 0x00000F1F#32) ∧
      (∀ l : Fin 4, levelEnabled t l = x.getLsbD l.val) ∧ prefetchEnabled t = x.getLsbD 4 ∧
      tenureLimit t = x.toNat / 256 % 16 + 1

/-- R105 and R76: how the dispatcher's inputs act. The yield request is raised exactly when an eligible source exists
above the level of the job in the engine; set afresh, it suspends a job that stands at the standing boundary; then the
bus request follows the work. -/
def Obligations.YieldRequestIsSetAfresh : Prop :=
  (∀ s : State, yieldDue s = true ↔
    ∃ r, s.engine.running = some r ∧ ∃ k : Fin 4, r.job.level < k ∧ levelEnabled s k = true ∧
      (sourceAt s k).isSome = true) ∧
  (∀ s : State, demandUnderWay s = true ↔ ∃ u, s.bus.underWay = some u ∧ u.kind = .demandRead) ∧
  (∀ (s : State) (r : RunningJob), s.engine.running = some r → s.engine.state = .fetch → demandUnderWay s = false →
    yieldDue s = true →
    reactToSources s = settleRequest
      { setSlot r.job.level (some { job := r.job, part := none }) s with
        engine := { s.engine with state := .idle, running := none }
        bus := discardJobWork s.bus
        yieldRequest := false }) ∧
  ∀ s : State, s.engine.running = none ∨ s.engine.state ≠ .fetch ∨ demandUnderWay s = true ∨ yieldDue s = false →
    reactToSources s = settleRequest { s with yieldRequest := yieldDue s }

/-- The bus is requested while work is pending: requested from IDLE, withdrawn from REQUESTING, unaffected in OWNER; and
what work is pending. -/
def Obligations.RequestFollowsPendingWork : Prop :=
  (∀ s : State,
    (s.bus.state = .idle → busPending s = true →
      settleRequest s = { s with bus := { s.bus with state := .requesting } }) ∧
    (s.bus.state = .requesting → busPending s = false →
      settleRequest s = { s with bus := { s.bus with state := .idle } }) ∧
    (s.bus.state = .owner ∨ (s.bus.state = .requesting ∧ busPending s = true) ∨
      (s.bus.state = .idle ∧ busPending s = false) → settleRequest s = s)) ∧
  (∀ s : State, busPending s = true ↔
    s.bus.waitingWrite.isSome = true ∨ s.bus.waitingRead.isSome = true ∨ prefetchPending s = true) ∧
  ∀ s : State, prefetchPending s = true ↔
    s.control.getLsbD 4 = true ∧ s.engine.state ≠ .frozen ∧
    ∃ r pf, s.engine.running = some r ∧ descKind r.job.desc = .batch ∧ s.bus.prefetch = some pf ∧
      pf.stopped = false ∧ pf.p < elementCount r.job.desc ∧ s.bus.buffer.length < 4

/-- A pop removes the oldest record and returns its tag; a pop of the empty queue sets POP_EMPTY; in every state of the
part, and nothing else changes. The free pools are ascending lists (log 15), into which insertion puts a number. -/
def Obligations.CpopRemovesTheOldestRecord : Prop :=
  (∀ (s : State) (r : Record) (rest : List Record), s.rst = false → s.completion.records = r :: rest →
    exec .cpop s = .next
      { s with
        answer := .ack
        completion := { s.completion with records := rest }
        intake := { s.intake with freeTags := insertAsc r.tag s.intake.freeTags } }) ∧
  (∀ s : State, s.rst = false → s.completion.records = [] →
    exec .cpop s = .next
      { s with answer := .ack, completion := { s.completion with events := s.completion.events ||| 0x20#7 } }) ∧
  (∀ (n m : Nat) (set : List Nat), m ∈ insertAsc n set ↔ m = n ∨ m ∈ set) ∧
  (∀ (m : Nat) (ns set : List Nat), m ∈ insertAllAsc ns set ↔ m ∈ ns ∨ m ∈ set) ∧
  ∀ ns set : List Nat, set.Pairwise (· < ·) → (insertAllAsc ns set).Pairwise (· < ·)

/-- A code that names no command is recorded as written and has no other effect. -/
def Obligations.BadCommandIsRecorded : Prop :=
  ∀ (code : BitVec 8) (s : State), code.toNat = 0 ∨ 10 < code.toNat → commandTaken s →
    exec (.badCommand code) s = .next (recorded code .badCommand s)

/-- A write to CMD while ENGINE_RESET is pending sets CMD_OVERRUN and has no other effect, whatever its code. -/
def Obligations.CommandOverrunsWhilePending : Prop :=
  ∀ (c : Instr) (s : State), (cmdCode c).isSome = true → c.wellFormed = true → s.rst = false → s.cmd.pending = true →
    exec c s = .next (overrun s)

/-! ### Load session -/

/-- OPEN_LOAD: its checks in their order, and the opened session. -/
def Obligations.OpenLoadOutcomes : Prop :=
  ∀ s : State, commandTaken s →
    let id := s.cmd.args[0].toNat
    let x := s.cmd.args[1]
    let k := x.toNat % 256
    let range := x.toNat / 1024 % 4
    let badHeader := k = 0 ∨ 64 < k ∨ range = 3
    (s.load.state = .opened → exec .openLoad s = .next (recorded 0x01#8 .sessionBusy s)) ∧
    (s.load.state ≠ .opened → 32 ≤ id → exec .openLoad s = .next (recorded 0x01#8 .badArgument s)) ∧
    (s.load.state ≠ .opened → id < 32 → badHeader → exec .openLoad s = .next (recorded 0x01#8 .badHeader s)) ∧
    (∀ c : Fin 32, s.load.state ≠ .opened → id = c.val → ¬badHeader →
      ((curveEntry s c).state ≠ .empty → exec .openLoad s = .next (recorded 0x01#8 .curveBusy s)) ∧
      ((curveEntry s c).state = .empty →
        exec .openLoad s = .next
          (recorded 0x01#8 .done
            { s with
              curves :=
                s.curves.set c
                  { curveEntry s c with
                    state := .loading
                    header :=
                      some
                        { format := if x.getLsbD 8 then .w else .n
                          segments := k
                          origin := if x.getLsbD 9 then .offset else .absolute
                          range := if range = 0 then .clamp else if range = 1 then .extend else .reject
                          underflow := if x.getLsbD 12 then .fault else .flush } }
              load :=
                { state := .opened, curve := c
                  cursor := { phase := .breakpoints, segment := 0, remaining := k + 1, lowHalf := none }
                  wordIndex := 0, failure := none } })))

/-- COMMIT_LOAD by the state of the session and of its cursor. -/
def Obligations.CommitLoadOutcomes : Prop :=
  ∀ s : State, commandTaken s →
    (s.load.state = .idle → exec .commitLoad s = .next (recorded 0x02#8 .noSession s)) ∧
    (s.load.state = .failed → exec .commitLoad s = .next (recorded 0x02#8 .sessionFailed s)) ∧
    (s.load.state = .opened → s.load.cursor.phase ≠ .complete →
      exec .commitLoad s = .next (recorded 0x02#8 .incomplete s)) ∧
    (s.load.state = .opened → s.load.cursor.phase = .complete →
      exec .commitLoad s = .next
        (recorded 0x02#8 .done
          { s with
            curves :=
              s.curves.set s.load.curve
                { curveEntry s s.load.curve with
                  state := .ready, generation := (curveEntry s s.load.curve).generation + 1 }
            load := { s.load with state := .idle } }))

/-- CANCEL_LOAD by the state of the session. -/
def Obligations.CancelLoadOutcomes : Prop :=
  ∀ s : State, commandTaken s →
    (s.load.state = .idle → exec .cancelLoad s = .next (recorded 0x03#8 .noSession s)) ∧
    (s.load.state = .failed →
      exec .cancelLoad s = .next (recorded 0x03#8 .done { s with load := { s.load with state := .idle } })) ∧
    (s.load.state = .opened →
      exec .cancelLoad s = .next
        (recorded 0x03#8 .done
          { emptied s.load.curve s with
            load := { s.load with state := .idle, cursor := { s.load.cursor with lowHalf := none } } }))

/-- A word written to LOAD_DATA with no OPEN session is discarded and sets LOAD_DISCARD, also while ENGINE_RESET is
pending. -/
def Obligations.LoadDataDiscarded : Prop :=
  ∀ (x : Word) (s : State), s.rst = false → s.load.state ≠ .opened →
    exec (.loadData x) s = .next
      { s with answer := .ack, completion := { s.completion with events := s.completion.events ||| 0x40#7 } }

/-- The words of an OPEN session that store nothing. The first word of a W value becomes the held low half, with no
check. The words that fail the session, each with its reason: a word after the last, a degree above 15, the invalid
marker, a breakpoint not above the one before it, and a value that finds no free block. -/
def Obligations.LoadDataHeldOrRefused : Prop :=
  ∀ (x : Word) (h : CurveHeader) (s : State), s.rst = false → s.load.state = .opened →
    (curveEntry s s.load.curve).header = some h →
    let blocks := (curveEntry s s.load.curve).blocks
    (h.format = .w → s.load.cursor.lowHalf = none →
      (s.load.cursor.phase = .breakpoints ∨ s.load.cursor.phase = .terms) →
      exec (.loadData x) s = .next
        { s with
          answer := .ack
          load :=
            { s.load with
              cursor := { s.load.cursor with lowHalf := some x }, wordIndex := s.load.wordIndex + 1 } }) ∧
    (s.load.cursor.phase = .complete → exec (.loadData x) s = .next (failedLoad .overrun s)) ∧
    (s.load.cursor.phase = .degree → 15 < x.toNat → exec (.loadData x) s = .next (failedLoad .badDegree s)) ∧
    (∀ v, completed h.format s.load.cursor.lowHalf x = some v → isMarker v = true →
      (s.load.cursor.phase = .breakpoints ∨ s.load.cursor.phase = .terms) →
      exec (.loadData x) s = .next (failedLoad .badValue s)) ∧
    (∀ v, completed h.format s.load.cursor.lowHalf x = some v → isMarker v = false →
      s.load.cursor.phase = .breakpoints → storedWords s.load ≠ 0 →
      valueLt (curveValue s.store blocks h.format (storedWords s.load - formatWords h.format)) v = false →
      exec (.loadData x) s = .next (failedLoad .badOrder s)) ∧
    (∀ ws cur, AcceptsWord s h x ws cur → 32 * blocks.length < storedWords s.load + ws.length → s.store.free = [] →
      exec (.loadData x) s = .next (failedLoad .storeFull s))

/-- A word that completes a value which passes its checks: the lowest free block is taken when one is needed, the words
are stored at the next curve words, every other word of the store keeps its value, the cursor and the word index go on.
The words stored are those of the word index but for a held low half.
The count of values remaining is the model's in phases DEGREE and COMPLETE (log 16). -/
def Obligations.LoadDataStoresAValue : Prop :=
  (∀ l : LoadSession, storedWords l = l.wordIndex - if l.cursor.lowHalf.isSome then 1 else 0) ∧
  ∀ (x : Word) (h : CurveHeader) (ws : List Word) (cur : Cursor) (s : State), s.rst = false → s.load.state = .opened →
    (curveEntry s s.load.curve).header = some h → AcceptsWord s h x ws cur → StoreLaw s →
    let e := curveEntry s s.load.curve
    let n := storedWords s.load
    let load' : LoadSession := { s.load with cursor := cur, wordIndex := s.load.wordIndex + 1 }
    let stored := fun (blocks : List Nat) (words : List (Nat × Word)) =>
      (∀ i, i < ws.length → readCell words (curveWordAddress blocks (n + i)) = ws.getD i 0) ∧
      (∀ a, (∀ i, i < ws.length → a ≠ curveWordAddress blocks (n + i)) →
        readCell words a = readCell s.store.words a)
    (n + ws.length ≤ 32 * e.blocks.length →
      ∃ words, stored e.blocks words ∧
        exec (.loadData x) s = .next
          { s with answer := .ack, load := load', store := { s.store with words := words } }) ∧
    (∀ b rest, 32 * e.blocks.length < n + ws.length → s.store.free = b :: rest →
      ∃ words, stored (e.blocks ++ [b]) words ∧
        exec (.loadData x) s = .next
          { s with
            answer := .ack
            load := load'
            store := { words := words, free := rest }
            curves := s.curves.set s.load.curve { e with blocks := e.blocks ++ [b] } })

/-! ### Curve directory -/

/-- RETIRE by the state and the reference count of the named curve; it overruns while ENGINE_RESET is pending. -/
def Obligations.RetireOutcomes : Prop :=
  ∀ s : State, s.rst = false →
    (s.cmd.pending = true → exec .retire s = .next (overrun s)) ∧
    (s.cmd.pending = false →
      (32 ≤ s.cmd.args[0].toNat → exec .retire s = .next (recorded 0x04#8 .badArgument s)) ∧
      ∀ c : Fin 32, s.cmd.args[0].toNat = c.val →
        ((curveEntry s c).state = .empty → exec .retire s = .next (recorded 0x04#8 .noCurve s)) ∧
        ((curveEntry s c).state = .loading → exec .retire s = .next (recorded 0x04#8 .curveBusy s)) ∧
        ((curveEntry s c).state = .retiring → exec .retire s = .next (recorded 0x04#8 .alreadyRetiring s)) ∧
        ((curveEntry s c).state = .ready → (curveEntry s c).refCount = 0 →
          exec .retire s = .next (recorded 0x04#8 .done (emptied c s))) ∧
        ((curveEntry s c).state = .ready → (curveEntry s c).refCount ≠ 0 →
          exec .retire s = .next
            (recorded 0x04#8 .deferred
              { s with curves := s.curves.set c { curveEntry s c with state := .retiring } })))

/-- QUERY_CURVE copies the entry into the query registers and changes nothing else. -/
def Obligations.QueryCurveShowsTheEntry : Prop :=
  ∀ s : State, s.rst = false →
    (s.cmd.pending = true → exec .queryCurve s = .next (overrun s)) ∧
    (s.cmd.pending = false →
      (32 ≤ s.cmd.args[0].toNat → exec .queryCurve s = .next (recorded 0x05#8 .badArgument s)) ∧
      ∀ c : Fin 32, s.cmd.args[0].toNat = c.val →
        let e := curveEntry s c
        ∃ q0 q1 q2 : Word,
          exec .queryCurve s = .next
            (recorded 0x05#8 .done { s with cmd := { s.cmd with query := #v[q0, q1, q2, 0] } }) ∧
          q0.toNat =
            (match e.state with | .empty => 0 | .loading => 1 | .ready => 2 | .retiring => 3)
              + 16 * (if e.header.isSome then 1 else 0) ∧
          (e.header = none → q1 = 0) ∧
          (∀ h, e.header = some h → h.segments < 256 →
            q1.toNat =
              h.segments + 256 * (match h.format with | .n => 0 | .w => 1)
                + 512 * (match h.origin with | .absolute => 0 | .offset => 1)
                + 1024 * (match h.range with | .clamp => 0 | .extend => 1 | .reject => 2)
                + 4096 * (match h.underflow with | .flush => 0 | .fault => 1)) ∧
          (e.refCount < 256 → e.blocks.length < 256 →
            q2.toNat = e.generation.toNat + 256 * e.refCount + 65536 * e.blocks.length))

/-! ### Jobs -/

/-- The descriptor checks on the staging area, in their order, and the descriptor copy that passes them. -/
def Obligations.DescriptorChecksInOrder : Prop :=
  ∀ s : State,
    let x := s.intake.stage[0]
    let kind := x.toNat % 4
    let policy := x.toNat / 512 % 4
    let argFormat : Format := if x.getLsbD 7 then .w else .n
    let resFormat : Format := if x.getLsbD 8 then .w else .n
    let n := s.intake.stage[2].toNat % 65536
    let argBase := s.intake.stage[3]
    let argStride := s.intake.stage[4].truncate 16
    let resBase := s.intake.stage[5]
    let resStride := s.intake.stage[6].truncate 16
    let argBytes := if x.getLsbD 7 then 8 else 4
    let resBytes := if x.getLsbD 8 then 8 else 4
    let badKind := 2 ≤ kind ∨ policy = 3
    let misaligned := argBase.toNat % 4 ≠ 0 ∨ resBase.toNat % 4 ≠ 0
    let badStride := argStride.toNat % 4 ≠ 0 ∨ resStride.toNat % 4 ≠ 0 ∨ resStride.toNat < resBytes
    let outside :=
      2 ^ 32 ≤ argBase.toNat + (n - 1) * argStride.toNat + argBytes - 1 ∨
        2 ^ 32 ≤ resBase.toNat + (n - 1) * resStride.toNat + resBytes - 1
    let copy := fun (body : JobBody) =>
      ({ curve := ⟨x.toNat / 4 % 32, Nat.mod_lt _ (by decide)⟩, argFormat := argFormat, resFormat := resFormat,
         policy := if policy = 0 then .mark else if policy = 1 then .stop else .hold
         notify := x.getLsbD 11, cookie := s.intake.stage[1].truncate 16, body := body } : Descriptor)
    (badKind → stagedDescriptor s = .error .kind) ∧
    (¬badKind → kind = 0 →
      stagedDescriptor s =
        .ok (copy (.single
          (if x.getLsbD 7 then .wide s.intake.stage[3] s.intake.stage[2] else .narrow s.intake.stage[2])))) ∧
    (¬badKind → kind = 1 → n = 0 → stagedDescriptor s = .error .count) ∧
    (¬badKind → kind = 1 → n ≠ 0 → misaligned → stagedDescriptor s = .error .align) ∧
    (¬badKind → kind = 1 → n ≠ 0 → ¬misaligned → badStride → stagedDescriptor s = .error .stride) ∧
    (¬badKind → kind = 1 → n ≠ 0 → ¬misaligned → ¬badStride → outside → stagedDescriptor s = .error .range) ∧
    (¬badKind → kind = 1 → n ≠ 0 → ¬misaligned → ¬badStride → ¬outside →
      stagedDescriptor s = .ok (copy (.batch n argBase argStride resBase resStride)))

/-- A SUBMIT read: its checks in their order, the word each answer is, and the acceptance. The dispatcher reacts to the
new source at the event of the acceptance (log 24). -/
def Obligations.SubmitOutcomes : Prop :=
  ∀ (l : Fin 4) (s : State), s.rst = false →
    let refusal := fun (word : Word) => exec (.submit l) s = .next { s with answer := .ackData word }
    (s.cmd.pending = true → refusal 0x00000002#32) ∧
    (s.cmd.pending = false →
      (∀ r, stagedDescriptor s = .error r →
        refusal
          (match r with
            | .kind => 0x00010003#32
            | .count => 0x00020003#32
            | .align => 0x00030003#32
            | .stride => 0x00040003#32
            | .range => 0x00050003#32)) ∧
      ∀ d, stagedDescriptor s = .ok d →
        let ready := (curveEntry s d.curve).state = .ready
        (¬ready → refusal 0x00000004#32) ∧
        (ready → 8 ≤ (queueOf s l).length → refusal 0x00000005#32) ∧
        (ready → (queueOf s l).length < 8 → s.intake.freeTags = [] → refusal 0x00000006#32) ∧
        (∀ tag rest, ready → (queueOf s l).length < 8 → s.intake.freeTags = tag :: rest →
          exec (.submit l) s = .next
            { reactToSources
                { s with
                  curves :=
                    s.curves.set d.curve
                      { curveEntry s d.curve with refCount := (curveEntry s d.curve).refCount + 1 }
                  intake :=
                    { s.intake with
                      freeTags := rest
                      queues :=
                        s.intake.queues.set l
                          (queueOf s l ++
                            [{ tag := tag, level := l, desc := d, index := 0, done := 0, excCount := 0,
                               first := none }]) } } with
              answer := .ackData (BitVec.ofNat 32 (1 + 256 * (tag % 256))) }))

/-- Where each tag is: the free pool, one queue entry, the engine, one context slot, the hold slot or one record. -/
def Obligations.PlaceOfATagIsWhereItIs : Prop :=
  ∀ s : State, TagLaw s →
    (∀ l, ∀ j ∈ queueOf s l, placeOf s j.tag = .queued l j) ∧
    (∀ r, s.engine.running = some r → placeOf s r.job.tag = .running r) ∧
    (∀ l x, slotOf s l = some x → placeOf s x.job.tag = .suspended l x) ∧
    (∀ h, s.hold = some h → placeOf s h.job.tag = .held h) ∧
    (∀ r ∈ s.completion.records, placeOf s r.tag = .finished r) ∧
    (∀ tag ∈ s.intake.freeTags, placeOf s tag = .free) ∧
    (∀ tag, tag < 48 →
      tag ∈ s.intake.freeTags ∨ tag ∈ (liveJobs s).map (·.tag) ∨ tag ∈ s.completion.records.map (·.tag))

/-- QUERY_JOB copies the job's state into the query registers and changes nothing else. -/
def Obligations.QueryJobShowsTheJob : Prop :=
  ∀ s : State, s.rst = false →
    (s.cmd.pending = true → exec .queryJob s = .next (overrun s)) ∧
    (s.cmd.pending = false →
      (48 ≤ s.cmd.args[0].toNat → exec .queryJob s = .next (recorded 0x06#8 .badArgument s)) ∧
      (s.cmd.args[0].toNat < 48 →
        ∃ q0 q1 : Word,
          exec .queryJob s = .next
            (recorded 0x06#8 .done { s with cmd := { s.cmd with query := #v[q0, q1, 0, 0] } }) ∧
          let shows := fun (code : Nat) (level : Fin 4) (curve : Fin 32) (done excCount : Nat) =>
            q0.toNat = code + 16 * level.val + 256 * curve.val ∧
              q1.toNat = done % 65536 + 65536 * (excCount % 65536)
          match placeOf s s.cmd.args[0].toNat with
          | .free => q0 = 0 ∧ q1 = 0
          | .queued _ j => shows 1 j.level j.desc.curve j.done j.excCount
          | .running r => shows 2 r.job.level r.job.desc.curve r.job.done r.job.excCount
          | .suspended _ x => shows 3 x.job.level x.job.desc.curve x.job.done x.job.excCount
          | .held h => shows (if h.action.isSome then 5 else 4) h.job.level h.job.desc.curve h.job.done h.job.excCount
          | .finished r => shows 6 r.level r.curve r.done r.excCount))

/-- CONTINUE: its checks in their order, and the pending action an accepted one sets. -/
def Obligations.ContinueOutcomes : Prop :=
  ∀ s : State, s.rst = false →
    (s.cmd.pending = true → exec .continueHeld s = .next (overrun s)) ∧
    (s.cmd.pending = false →
      let tag := s.cmd.args[0].toNat % 256
      let action := s.cmd.args[0].toNat / 256 % 4
      (48 ≤ tag ∨ action = 3 → exec .continueHeld s = .next (recorded 0x07#8 .badArgument s)) ∧
      (tag < 48 → action ≠ 3 → (∀ h, s.hold = some h → h.action.isSome = true ∨ h.job.tag ≠ tag) →
        exec .continueHeld s = .next (recorded 0x07#8 .notHeld s)) ∧
      (∀ h, tag < 48 → action ≠ 3 → s.hold = some h → h.action = none → h.job.tag = tag →
        (action = 2 → descKind h.job.desc = .single →
          exec .continueHeld s = .next (recorded 0x07#8 .notApplicable s)) ∧
        (¬(action = 2 ∧ descKind h.job.desc = .single) →
          exec .continueHeld s = .next
            (recorded 0x07#8 .done
              (reactToSources
                { s with
                  hold :=
                    some
                      { h with
                        action :=
                          some
                            (if action = 0 then .skipMark
                              else if action = 1 then
                                .substitute
                                  (match h.job.desc.resFormat with
                                    | .n => .narrow s.cmd.args[1]
                                    | .w => .wide s.cmd.args[2] s.cmd.args[1])
                              else .retry) } })))))

/-- ABORT by the place of the tag. A waiting job is ended where it waits, its record posted. The running job is ended at
once at the standing boundary, and marked with an operation or transfer of its own in flight; a mark that is set already
stays set. -/
def Obligations.AbortOutcomes : Prop :=
  ∀ s : State, commandTaken s →
    let tag := s.cmd.args[0].toNat
    let answers := fun (result : CmdResult) (t : State) => exec .abort s = .next (recorded 0x08#8 result t)
    (48 ≤ tag → answers .badArgument s) ∧
    (tag < 48 →
      (placeOf s tag = .free → answers .unknownTag s) ∧
      (∀ r, placeOf s tag = .finished r → answers .tooLate s) ∧
      (∀ l j, placeOf s tag = .queued l j →
        answers .aborted
          (reactToSources
            (postJob j .aborted none none
              { s with
                intake :=
                  { s.intake with
                    queues :=
                      s.intake.queues.set l ((queueOf s l).eraseP fun k => decide (k.tag = j.tag)) } }))) ∧
      (∀ l x, placeOf s tag = .suspended l x →
        answers .aborted (reactToSources (postJob x.job .aborted none none (setSlot l none s)))) ∧
      (∀ h, placeOf s tag = .held h →
        answers .aborted (reactToSources (postJob h.job .aborted none none { s with hold := none }))) ∧
      (∀ r, placeOf s tag = .running r → Lawful s →
        (s.engine.state = .fetch → demandUnderWay s = false →
          answers .aborted (reactToSources (endRunning r .aborted none s))) ∧
        (s.engine.state ≠ .fetch ∨ demandUnderWay s = true →
          answers .abortPending
            { s with engine := { s.engine with running := some { r with abortMark := true } } })))

/-- FLUSH_LEVEL ends every live job of the level but a running one with an operation or transfer in flight, which it
marks: the records posted in their order, each curve's count lowered by its ended jobs, a RETIRING curve without a job
emptied, the level's places empty, and the report in the query registers. A running job of another level, the other
slots and queues are as they were, but for the yield request set afresh. -/
def Obligations.FlushLevelEndsTheLevel : Prop :=
  ∀ s : State, commandTaken s →
    (4 ≤ s.cmd.args[0].toNat → exec .flushLevel s = .next (recorded 0x09#8 .badArgument s)) ∧
    ∀ l : Fin 4, s.cmd.args[0].toNat = l.val →
      let running := s.engine.running.toList.filter fun r => decide (r.job.level = l)
      let atOnce := decide (s.engine.state = .fetch) && !demandUnderWay s
      let endedRunning := if atOnce then running else []
      let waiting :=
        (slotOf s l).toList.map (·.job) ++
          (s.hold.toList.map (·.job)).filter (fun j => decide (j.level = l)) ++ queueOf s l
      let ended := endedRunning.map (·.job) ++ waiting
      let marked := !atOnce && !running.isEmpty
      let record := fun (job : Job) (result : Option Value) =>
        ({ tag := job.tag, level := job.level, kind := descKind job.desc, status := .aborted, cookie := job.desc.cookie,
           curve := job.desc.curve, generation := (curveEntry s job.desc.curve).generation, done := job.done,
           excCount := job.excCount, first := if job.excCount = 0 then none else job.first, result := result,
           busErr := none } : Record)
      let fewer := fun (c : Fin 32) => ended.countP fun j => decide (j.desc.curve = c)
      let empties := fun (c : Fin 32) =>
        (curveEntry s c).state = .retiring ∧ 0 < fewer c ∧ (curveEntry s c).refCount ≤ fewer c
      ∃ (curves : Vector CurveEntry 32) (free : List Nat),
        (∀ c : Fin 32,
          (empties c →
            curves[c] = { curveEntry s c with state := .empty, header := none, refCount := 0, blocks := [] }) ∧
          (¬empties c →
            curves[c] = { curveEntry s c with refCount := (curveEntry s c).refCount - fewer c })) ∧
        (∀ b, b ∈ free ↔ b ∈ s.store.free ∨ ∃ c, empties c ∧ b ∈ (curveEntry s c).blocks) ∧
        (s.store.free.Pairwise (· < ·) → free.Pairwise (· < ·)) ∧
        let flushed : State :=
          { setSlot l none s with
            curves := curves
            store := { s.store with free := free }
            intake := { s.intake with queues := s.intake.queues.set l [] }
            hold := s.hold.filter fun h => decide (h.job.level ≠ l)
            engine :=
              if endedRunning ≠ [] then { s.engine with state := .idle, running := none }
              else if marked then
                { s.engine with running := s.engine.running.map fun r => { r with abortMark := true } }
              else s.engine
            bus := if endedRunning ≠ [] then discardJobWork s.bus else s.bus
            completion :=
              { s.completion with
                records :=
                  s.completion.records ++
                    endedRunning.map (fun r =>
                      record r.job (if descKind r.job.desc = .single ∧ r.job.done = 1 then r.result else none)) ++
                    waiting.map (fun j => record j none)
                events :=
                  if ended.any (·.desc.notify) then s.completion.events ||| 0x01#7 else s.completion.events } }
        exec .flushLevel s = .next
          { reactToSources flushed with
            answer := .ack
            cmd :=
              { s.cmd with
                lastCommand := some 0x09#8
                lastResult := .done
                query := #v[BitVec.ofNat 32 (ended.length % 16 + if marked then 256 else 0), 0, 0, 0] } }

/-! ### Engine reset -/

/-- ENGINE_RESET taken: FROZEN, the bus master's work discarded, and completed at the same event when no value is under
way; a value under way is carried on, a prefetch read as DROPPED, and the reset is PENDING. The list of operations cut
off from their job is the model's own (log 8). -/
def Obligations.EngineResetTaken : Prop :=
  ∀ s : State, commandTaken s →
    let taken : State :=
      { s with
        answer := .ack
        cmd := { s.cmd with pending := true, lastCommand := some 0x0A#8, lastResult := .none }
        engine :=
          { s.engine with
            state := .frozen
            abandoned :=
              s.engine.abandoned ++
                match s.engine.state, s.engine.running with
                | .setup, some _ => [.setup]
                | .terms, some _ => [.terms]
                | .store, some r => if r.result = none then [.conversion] else []
                | _, _ => [] } }
    (s.bus.underWay = none → exec .engineReset s = .next (resetDone taken)) ∧
    (∀ u, s.bus.underWay = some u → s.bus.state = .owner →
      exec .engineReset s = .next
        { taken with
          bus :=
            { s.bus with
              underWay :=
                some (if u.kind = .prefetchRead then { u with kind := .dropped, lowRead := none } else u)
              waitingWrite := none, waitingRead := none, buffer := [], prefetch := none } })

/-- The end of the value under way completes a pending ENGINE_RESET; its outcome is discarded. The completing event is
this end itself: ENGINE_RESET_COMPLETION completes a reset that is still pending and finds nothing to do otherwise (the
model's choice, log 11). -/
def Obligations.EngineResetCompletes : Prop :=
  (∀ (u : UnderWay) (s : State), s.cmd.pending = true → s.bus.underWay = some u →
    let done := resetDone { s with bus := { s.bus with underWay := none } }
    (u.kind = .demandRead → exec (.demandReadEnd .berr) s = .next done ∧
      (u.size ≤ u.ended + 1 → ∀ data, exec (.demandReadEnd (.ack data)) s = .next done)) ∧
    (u.kind = .resultWrite → exec (.resultWriteEnd .berr) s = .next done ∧
      (u.size ≤ u.ended + 1 → exec (.resultWriteEnd .ack) s = .next done)) ∧
    (u.kind = .dropped → exec (.droppedValueEnd .berr) s = .next done ∧
      (u.size ≤ u.ended + 1 → exec (.droppedValueEnd .ack) s = .next done))) ∧
  (∀ s : State, s.cmd.pending = true → exec .engineResetCompletion s = .next (resetDone s)) ∧
  (∀ (f : CurveEntry → CurveEntry) (v : Vector CurveEntry 32) (c : Fin 32), (mapCurves f v)[c] = f v[c]) ∧
  ∀ s : State, s.cmd.pending = false → exec .engineResetCompletion s = .next s

/-! ### Bus master -/

/-- BGNT: in REQUESTING the grant is taken and the first choice made at the same event; in IDLE it is released at once;
RST asserted answers none; in OWNER it has no effect (the model's choice, log 13). BGNT_REMOVED: the value under way is
carried on and its end releases the bus; outside OWNER it has no effect (log 13). -/
def Obligations.GrantAndItsRemoval : Prop :=
  ∀ s : State,
    (s.rst = false → s.bus.state = .requesting →
      exec .bgnt s = .next
        (choicePoint { s with bus := { s.bus with state := .owner, tenureCount := 0, grantRemoved := false } })) ∧
    (s.rst = true ∨ s.bus.state ≠ .requesting → exec .bgnt s = .next s) ∧
    (s.bus.state = .owner → s.bus.underWay.isSome = true →
      exec .bgntRemoved s = .next { s with bus := { s.bus with grantRemoved := true } }) ∧
    (s.bus.state = .owner → s.bus.underWay = none → exec .bgntRemoved s = .next (releaseBus s)) ∧
    (s.bus.state ≠ .owner → exec .bgntRemoved s = .next s)

/-- A choice point: with the grant removed, nothing pending, or the chosen value beyond the tenure limit, the bus is
released and requested again if work is pending; else the first of the waiting write, the waiting read and the prefetch
read begins, and its first transfer counts. The first value of a tenure always fits. A release removes BREQ, so that a
tenure with work left after it shows BREQ fall and rise; and STB falls at the end of a transfer, and rises again for the
value that begins at the choice point. -/
def Obligations.ChoicePointOrder : Prop :=
  ∀ s : State,
    let released : State :=
      { s with
        bus := { s.bus with state := if busPending s then .requesting else .idle, grantRemoved := false } }
    let fits := fun (transfers : Nat) =>
      s.bus.tenureCount = 0 ∨ s.bus.tenureCount + transfers ≤ s.control.toNat / 256 % 16 + 1
    let begun := fun (kind : ValueKind) (addr : Word) (size : Nat) (b : BusMaster) =>
      { s with
        bus :=
          { b with
            tenureCount := s.bus.tenureCount + 1
            underWay := some { kind := kind, addr := addr, size := size, ended := 0, lowRead := none } } }
    releaseBus s = released ∧ breq (endTenure s) = false ∧
    (∀ t : State, breq t = true ↔ t.bus.state ≠ .idle) ∧
    (∀ t : State, s.bus.state = .owner → t.bus.state = .requesting → breqLevels s t = [false, true]) ∧
    (∀ t : State, s.bus.state ≠ .owner ∨ t.bus.state ≠ .requesting → breqLevels s t = [breq t]) ∧
    (∀ before : State, before.bus.underWay.isSome = true → before.bus.tenureCount = s.bus.tenureCount →
      s.bus.underWay = none →
      masterStbLevels before (choicePoint s) =
        if (choicePoint s).bus.underWay.isSome then [false, true] else [false]) ∧
    (formatWords .n = 1 ∧ formatWords .w = 2 ∧ (∀ x, valueFormat (.narrow x) = .n) ∧
      ∀ hi lo, valueFormat (.wide hi lo) = .w) ∧
    (s.bus.grantRemoved = true → choicePoint s = released) ∧
    (s.bus.grantRemoved = false →
      (busPending s = false → choicePoint s = released) ∧
      (∀ w, s.bus.waitingWrite = some w →
        (fits (formatWords (valueFormat w.value)) →
          choicePoint s =
            begun .resultWrite w.addr (formatWords (valueFormat w.value)) { s.bus with waitingWrite := none }) ∧
        (¬fits (formatWords (valueFormat w.value)) → choicePoint s = released)) ∧
      (∀ r run, s.bus.waitingWrite = none → s.bus.waitingRead = some r → s.engine.running = some run →
        (fits (formatWords run.job.desc.argFormat) →
          choicePoint s =
            begun .demandRead r.addr (formatWords run.job.desc.argFormat) { s.bus with waitingRead := none }) ∧
        (¬fits (formatWords run.job.desc.argFormat) → choicePoint s = released)) ∧
      (∀ run pf, s.bus.waitingWrite = none → s.bus.waitingRead = none → prefetchPending s = true →
        s.engine.running = some run → s.bus.prefetch = some pf →
        (fits (formatWords run.job.desc.argFormat) →
          choicePoint s =
            begun .prefetchRead (argAddress run.job.desc pf.p) (formatWords run.job.desc.argFormat)
              { s.bus with
                buffer := s.bus.buffer ++ [{ element := pf.p, value := none }]
                prefetch := some { pf with p := pf.p + 1 } }) ∧
        (¬fits (formatWords run.job.desc.argFormat) → choicePoint s = released)))

/-- The low half of a W value ends with ACK: the high half begins in the same tenure and counts, and a read that still
has an owner holds the low word. Without a half to come there is no such event (log 3). What the part drives in OWNER:
the address of the value, plus 4 in its high half, all four byte lanes, and for a result write the low and then the high
word of the result in hand; a read drives no data. STB is asserted for each transfer and removed between two. In a
lawful state the value is one of the running job's. -/
def Obligations.LowHalfEndBeginsTheHighHalf : Prop :=
  (∀ (data : Word) (u : UnderWay) (s : State), s.bus.underWay = some u →
    (u.ended + 1 < u.size →
      exec (.wLowHalfEnd data) s = .next
        { s with
          bus :=
            { s.bus with
              tenureCount := s.bus.tenureCount + 1
              underWay :=
                some
                  { u with
                    ended := 1
                    lowRead := if u.kind = .demandRead ∨ u.kind = .prefetchRead then some data else none } } }) ∧
    (u.size ≤ u.ended + 1 → exec (.wLowHalfEnd data) s = .fault .noSuchEvent)) ∧
  (∀ (data : Word) (s : State), s.bus.underWay = none → exec (.wLowHalfEnd data) s = .fault .noSuchEvent) ∧
  (∀ s : State, masterStb s = true ↔ s.bus.underWay.isSome = true) ∧
  (∀ (data : Word) (s t : State), exec (.wLowHalfEnd data) s = .next t → masterStbLevels s t = [false, true]) ∧
  (∀ s : State, s.bus.underWay = none → drivenTransfer s = none) ∧
  (∀ (u : UnderWay) (s : State), s.bus.underWay = some u → u.kind ≠ .resultWrite →
    drivenTransfer s =
      some
        { addr := u.addr + BitVec.ofNat 32 (4 * u.ended), lanes := 0xF#4, write := false, data := none, stb := true }) ∧
  ∀ (u : UnderWay) (s : State), Lawful s → s.bus.underWay = some u →
    (u.kind = .resultWrite → ∃ (r : RunningJob) (v : Value), s.engine.running = some r ∧ r.result = some v ∧
      drivenTransfer s = some
        { addr := resAddress r.job.desc r.job.index + BitVec.ofNat 32 (4 * u.ended)
          lanes := 0xF#4
          write := true
          data := some (match v with | .narrow x => x | .wide hi lo => if u.ended = 0 then lo else hi)
          stb := true }) ∧
    (u.kind = .demandRead → ∃ r : RunningJob, s.engine.running = some r ∧
      u.addr = argAddress r.job.desc r.job.index ∧ u.size = formatWords r.job.desc.argFormat) ∧
    (u.kind = .prefetchRead → ∃ (r : RunningJob) (i : Nat), s.engine.running = some r ∧
      i < elementCount r.job.desc ∧ u.addr = argAddress r.job.desc i ∧ u.size = formatWords r.job.desc.argFormat) ∧
    (u.lowRead.isSome = true ↔ u.ended = 1 ∧ (u.kind = .demandRead ∨ u.kind = .prefetchRead))

/-- The end of a demand read with no reset pending: the failure ends the job BUS_ERROR with the failed transfer's
address and the tenure with it; a value read lets prefetch go on and is examined at the boundary, abort first, then
yield, and becomes the argument in hand otherwise; the choice point follows. -/
def Obligations.DemandReadEnds : Prop :=
  ∀ (u : UnderWay) (r : RunningJob) (s : State), s.cmd.pending = false → s.bus.underWay = some u →
    u.kind = .demandRead → s.engine.state = .fetch → s.engine.running = some r →
    let idle : State := { s with bus := { s.bus with underWay := none } }
    let addr := u.addr + BitVec.ofNat 32 (4 * u.ended)
    (r.abortMark = true →
      exec (.demandReadEnd .berr) s = .next (releaseBus (endRunning r .aborted none idle))) ∧
    (r.abortMark = false →
      exec (.demandReadEnd .berr) s = .next
        (releaseBus (endRunning r .busError (some { addr := addr, dir := .read }) idle))) ∧
    (u.size ≤ u.ended + 1 → ∀ data : Word,
      let read : State :=
        { s with
          bus :=
            { s.bus with
              underWay := none, prefetch := s.bus.prefetch.map fun pf => { pf with stopped := false } } }
      let value : Value := match u.lowRead with | some lo => .wide data lo | none => .narrow data
      (r.abortMark = true →
        exec (.demandReadEnd (.ack data)) s = .next (choicePoint (endRunning r .aborted none read))) ∧
      (r.abortMark = false → s.yieldRequest = true → r.job.level.val < 3 →
        exec (.demandReadEnd (.ack data)) s = .next (choicePoint (suspend r none read))) ∧
      (r.abortMark = false → s.yieldRequest = false ∨ r.job.level = 3 →
        exec (.demandReadEnd (.ack data)) s = .next
          (choicePoint
            { read with
              engine := { s.engine with state := .setup, running := some { r with arg := some value } } })))

/-- The end of a result write with no reset pending: the failure ends the job BUS_ERROR, the element uncounted; an
acknowledged write counts the element, and then the abort mark, the last element, the yield request and the next element
decide in this order; the choice point follows. -/
def Obligations.ResultWriteEnds : Prop :=
  ∀ (u : UnderWay) (r : RunningJob) (s : State), s.cmd.pending = false → s.bus.underWay = some u →
    u.kind = .resultWrite → s.engine.state = .store → s.engine.running = some r →
    let idle : State := { s with bus := { s.bus with underWay := none } }
    let addr := u.addr + BitVec.ofNat 32 (4 * u.ended)
    let counted : RunningJob :=
      { r with job := { r.job with done := r.job.done + 1 }, arg := none, work := none, result := none }
    let next : RunningJob := { counted with job := { counted.job with index := r.job.index + 1 } }
    let last := elementCount r.job.desc ≤ r.job.index + 1
    (r.abortMark = true →
      exec (.resultWriteEnd .berr) s = .next (releaseBus (endRunning r .aborted none idle))) ∧
    (r.abortMark = false →
      exec (.resultWriteEnd .berr) s = .next
        (releaseBus (endRunning r .busError (some { addr := addr, dir := .write }) idle))) ∧
    (u.size ≤ u.ended + 1 →
      (r.abortMark = true →
        exec (.resultWriteEnd .ack) s = .next (choicePoint (endRunning counted .aborted none idle))) ∧
      (r.abortMark = false → last → r.job.excCount = 0 →
        exec (.resultWriteEnd .ack) s = .next (choicePoint (endRunning counted .complete none idle))) ∧
      (r.abortMark = false → last → r.job.excCount ≠ 0 →
        exec (.resultWriteEnd .ack) s = .next (choicePoint (endRunning counted .completeMarked none idle))) ∧
      (r.abortMark = false → ¬last → s.yieldRequest = true → r.job.level.val < 3 →
        exec (.resultWriteEnd .ack) s = .next (choicePoint (suspend next none idle))) ∧
      (r.abortMark = false → ¬last → s.yieldRequest = false ∨ r.job.level = 3 →
        exec (.resultWriteEnd .ack) s = .next (choicePoint (enterFetch next idle))))

/-- The end of a prefetch read with no reset pending: its entry becomes READY with the value read, or is dropped with
prefetch stopped at its element; an engine in FETCH that waits for it looks into the buffer again. A DROPPED value's
data and failure go to no one. -/
def Obligations.PrefetchReadsAndDroppedValuesEnd : Prop :=
  (∀ (u : UnderWay) (s : State), s.cmd.pending = false → s.bus.underWay = some u → u.kind = .dropped →
    let idle : State := { s with bus := { s.bus with underWay := none } }
    exec (.droppedValueEnd .berr) s = .next (releaseBus idle) ∧
    (u.size ≤ u.ended + 1 → exec (.droppedValueEnd .ack) s = .next (choicePoint idle))) ∧
  ∀ (u : UnderWay) (s : State), s.cmd.pending = false → s.bus.underWay = some u → u.kind = .prefetchRead →
    let waits := fun (r : RunningJob) =>
      s.engine.state = .fetch ∧ s.engine.running = some r ∧ s.bus.waitingRead = none
    (u.size ≤ u.ended + 1 → ∀ data : Word,
      let value : Value := match u.lowRead with | some lo => .wide data lo | none => .narrow data
      let ready : State :=
        { s with
          bus :=
            { s.bus with
              underWay := none
              buffer := s.bus.buffer.map fun e => if e.value = none then { e with value := some value } else e } }
      ((∀ r, ¬waits r) → exec (.prefetchReadEnd data) s = .next (choicePoint ready)) ∧
      (∀ r, waits r → exec (.prefetchReadEnd data) s = .next (choicePoint (enterFetch r ready)))) ∧
    (∀ e, s.bus.buffer.find? (fun e => e.value.isNone) = some e →
      let dropped : State :=
        { s with
          bus :=
            { s.bus with
              underWay := none
              buffer := s.bus.buffer.filter fun e => e.value.isSome
              prefetch := s.bus.prefetch.map fun _ => { p := e.element, stopped := true } } }
      ((∀ r, ¬waits r) → exec .prefetchReadFailure s = .next (releaseBus dropped)) ∧
      (∀ r, waits r → exec .prefetchReadFailure s = .next (releaseBus (enterFetch r dropped))))

/-- Entering FETCH: a READY entry is taken and SETUP begins, an IN_FLIGHT entry is waited for, and without an entry a
demand read is requested. What a descriptor says of its elements: their number, and the address of each argument. -/
def Obligations.FetchAsksTheBuffer : Prop :=
  (∀ (d : Descriptor) (arg : Value), d.body = .single arg → elementCount d = 1 ∧ descKind d = .single) ∧
  (∀ (d : Descriptor) (n : Nat) (argBase : Word) (argStride : BitVec 16) (resBase : Word) (resStride : BitVec 16),
    d.body = .batch n argBase argStride resBase resStride →
    elementCount d = n ∧ descKind d = .batch ∧
      ∀ i, argAddress d i = BitVec.ofNat 32 (argBase.toNat + i * argStride.toNat)) ∧
  ∀ (r : RunningJob) (s : State),
    let entry := s.bus.buffer.find? fun e => decide (e.element = r.job.index)
    (∀ e v, entry = some e → e.value = some v →
      enterFetch r s =
        { s with
          engine := { s.engine with state := .setup, running := some { r with arg := some v } }
          bus := { s.bus with buffer := s.bus.buffer.filter fun e => decide (e.element ≠ r.job.index) } }) ∧
    (∀ e, entry = some e → e.value = none →
      enterFetch r s = { s with engine := { s.engine with state := .fetch, running := some r } }) ∧
    (entry = none →
      enterFetch r s =
        { s with
          engine := { s.engine with state := .fetch, running := some r }
          bus :=
            { s.bus with
              waitingRead := some { element := r.job.index, addr := argAddress r.job.desc r.job.index }
              prefetch := s.bus.prefetch.map fun pf => { pf with p := r.job.index + 1 } } })

/-! ### Engine -/

/-- How a curve's words stand in its blocks: the breakpoints, then for each segment its degree word and its terms, the
low word of a W value first. The SETUP operation on them: its stages in their order, and the working values it leaves.
The zero of a working value is canonical (log 18). -/
def Obligations.SetupStagesInOrder : Prop :=
  (∀ (st : CoeffStore) (blocks : List Nat) (h : CurveHeader),
    let words := match h.format with | .n => 1 | .w => 2
    let word := fun (n : Nat) => readCell st.words (32 * blocks.getD (n / 32) 0 + n % 32)
    let value := fun (n : Nat) =>
      match h.format with | .n => Value.narrow (word n) | .w => .wide (word (n + 1)) (word n)
    (∀ n, curveWordAddress blocks n = 32 * blocks.getD (n / 32) 0 + n % 32) ∧
    (∀ n, curveValue st blocks h.format n = value n) ∧
    (∀ i, breakpoint st blocks h i = value (i * words)) ∧
    segmentOffset st blocks h 0 = (h.segments + 1) * words ∧
    (∀ i, segmentOffset st blocks h (i + 1) =
      segmentOffset st blocks h i + 1 + (segmentDegree st blocks h i + 1) * words) ∧
    (∀ i, segmentDegree st blocks h i = (word (segmentOffset st blocks h i)).toNat) ∧
    ∀ i j, segmentTerm st blocks h i j = value (segmentOffset st blocks h i + 1 + j * words)) ∧
  ∀ (st : CoeffStore) (blocks : List Nat) (h : CurveHeader) (arg : Value),
    let setup := evalSetup st blocks h arg
    let low := breakpoint st blocks h 0
    let high := breakpoint st blocks h h.segments
    let placed := fun (x : Value) =>
      let i := selectSegment st blocks h x (h.segments - 1)
      let d := segmentDegree st blocks h i
      let loaded := fun (t : Value) =>
        OpOutcome.working
          { segment := i, t := canonical t, acc := canonical (segmentTerm st blocks h i d)
            nextTerm := if d = 0 then none else some (d - 1) }
      match h.origin with
      | .absolute => loaded x
      | .offset =>
        match originSub h.format h.underflow x (breakpoint st blocks h i) with
        | .value t => loaded t
        | .exception k => .exception { kind := k, stage := .origin }
    (isMarker arg = true → setup = .exception { kind := .invalid, stage := .argument }) ∧
    (isMarker arg = false →
      (∀ k, convert h.format h.underflow arg = .exception k →
        setup = .exception { kind := k, stage := .argument }) ∧
      ∀ x, convert h.format h.underflow arg = .value x →
        (valueLt x low = false → valueLt high x = false → setup = placed x) ∧
        (valueLt x low = true ∨ valueLt high x = true →
          (h.range = .clamp → setup = placed (if valueLt x low then low else high)) ∧
          (h.range = .extend → setup = placed x) ∧
          (h.range = .reject → setup = .exception { kind := .range, stage := .range })))

/-- Segment selection gives the one segment whose bounds enclose the argument, on strictly ascending breakpoints; the
last one for the upper bound itself; and for an argument that EXTEND keeps out of range, segment 0 below it and the last
one above it. -/
def Obligations.SegmentSelectionFindsTheSegment : Prop :=
  ∀ (st : CoeffStore) (blocks : List Nat) (h : CurveHeader) (x : Value), 1 ≤ h.segments →
    (∀ i j, i < j → j ≤ h.segments →
      valueLt (breakpoint st blocks h i) (breakpoint st blocks h j) = true) →
    let i := selectSegment st blocks h x (h.segments - 1)
    (valueLe (breakpoint st blocks h 0) x = true → valueLe x (breakpoint st blocks h h.segments) = true →
      i < h.segments ∧ valueLe (breakpoint st blocks h i) x = true ∧
        (valueLt x (breakpoint st blocks h (i + 1)) = true ∨ i + 1 = h.segments)) ∧
    (valueLt x (breakpoint st blocks h 0) = true → i = 0) ∧
    (valueLt (breakpoint st blocks h h.segments) x = true → i = h.segments - 1)

/-- The completion of the running job's SETUP is a boundary: the abort mark, then an exception, then the yield request
are examined; else the engine goes on with TERMS, or with STORE when no term remains. -/
def Obligations.SetupCompletes : Prop :=
  ∀ (r : RunningJob) (arg : Value) (h : CurveHeader) (s : State), s.engine.state = .setup →
    s.engine.running = some r → r.arg = some arg → (curveEntry s r.job.desc.curve).header = some h →
    let e := curveEntry s r.job.desc.curve
    let completes := fun (t : State) => exec (.setupCompletion .current) s = .next (settleRequest t)
    (r.abortMark = true → completes (endRunning r .aborted none s)) ∧
    (r.abortMark = false →
      (∀ x, evalSetup s.store e.blocks h arg = .exception x → completes (applyException r x arg s)) ∧
      ∀ w, evalSetup s.store e.blocks h arg = .working w →
        (s.yieldRequest = true → r.job.level.val < 3 → completes (suspend r none s)) ∧
        (s.yieldRequest = false ∨ r.job.level = 3 →
          completes
            { s with
              engine :=
                { s.engine with
                  state := if w.nextTerm.isSome then .terms else .store
                  running := some { r with work := some w } } }))

/-- A TERMS iteration is the fused step on the next term. Its completion is a boundary examined as SETUP's, where a
suspension saves the partial part. -/
def Obligations.TermsIterationCompletes : Prop :=
  ∀ (r : RunningJob) (arg : Value) (w : Working) (j : Nat) (h : CurveHeader) (s : State), s.engine.state = .terms →
    s.engine.running = some r → r.arg = some arg → r.work = some w → w.nextTerm = some j →
    (curveEntry s r.job.desc.curve).header = some h →
    let e := curveEntry s r.job.desc.curve
    let fused := fusedStep h.format h.underflow w.acc w.t (segmentTerm s.store e.blocks h w.segment j)
    let completes := fun (t : State) => exec (.termsCompletion .current) s = .next (settleRequest t)
    (r.abortMark = true → completes (endRunning r .aborted none s)) ∧
    (r.abortMark = false →
      (∀ k, fused = .exception k → completes (applyException r { kind := k, stage := .term j } arg s)) ∧
      ∀ v, fused = .value v →
        let w' : Working := { w with acc := v, nextTerm := if j = 0 then none else some (j - 1) }
        (s.yieldRequest = true → r.job.level.val < 3 →
          completes (suspend r (some { work := w', arg := arg }) s)) ∧
        (s.yieldRequest = false ∨ r.job.level = 3 →
          completes
            { s with
              engine :=
                { s.engine with
                  state := if j = 0 then .store else .terms
                  running := some { r with work := some w' } } }))

/-- The completion of the result conversion: a batch element's write to its result slot is requested, whatever the abort
mark and the yield request; a single job's result is captured and the job ends; an exception is
examined as at any boundary but for the yield request. -/
def Obligations.ResultConversionCompletes : Prop :=
  (∀ (d : Descriptor) (n : Nat) (argBase : Word) (argStride : BitVec 16) (resBase : Word) (resStride : BitVec 16),
    d.body = .batch n argBase argStride resBase resStride →
    ∀ i, resAddress d i = BitVec.ofNat 32 (resBase.toNat + i * resStride.toNat)) ∧
  ∀ (r : RunningJob) (arg : Value) (w : Working) (h : CurveHeader) (s : State), s.engine.state = .store →
    s.engine.running = some r → r.arg = some arg → r.work = some w → r.result = none →
    (curveEntry s r.job.desc.curve).header = some h →
    let converted := convert r.job.desc.resFormat h.underflow w.acc
    let completes := fun (t : State) => exec (.conversionCompletion .current) s = .next (settleRequest t)
    (∀ v, converted = .value v → descKind r.job.desc = .batch →
      completes
        { s with
          engine := { s.engine with state := .store, running := some { r with result := some v } }
          bus :=
            { s.bus with
              waitingWrite :=
                some { element := r.job.index, addr := resAddress r.job.desc r.job.index, value := v } } }) ∧
    (∀ v, converted = .value v → descKind r.job.desc = .single →
      completes
        (endRunning { r with result := some v, job := { r.job with done := 1 } }
          (if r.abortMark then .aborted else if r.job.excCount = 0 then .complete else .completeMarked) none s)) ∧
    (∀ k, converted = .exception k →
      (r.abortMark = true → completes (endRunning r .aborted none s)) ∧
      (r.abortMark = false → completes (applyException r { kind := k, stage := .result } arg s)))

/-- An exception is counted, up to 65535, fills the first exception if that is absent, and the policy acts: MARK writes
or captures the marker, STOP ends the job, HOLD offers it to the hold slot. -/
def Obligations.ExceptionPoliciesAct : Prop :=
  ∀ (r : RunningJob) (x : Exc) (arg : Value) (s : State),
    let job : Job :=
      { r.job with
        excCount := min (r.job.excCount + 1) 65535
        first := if r.job.first = none then some { element := r.job.index, exc := x } else r.job.first }
    let r' : RunningJob := { r with job := job, work := none, result := none }
    let marker : Value :=
      match r.job.desc.resFormat with
      | .n => .narrow 0xFFFFFFFF#32
      | .w => .wide 0xFFFFFFFF#32 0xFFFFFFFF#32
    (r.job.desc.policy = .mark → descKind r.job.desc = .batch →
      applyException r x arg s =
        { s with
          engine := { s.engine with state := .store, running := some { r' with result := some marker } }
          bus :=
            { s.bus with
              waitingWrite :=
                some { element := r.job.index, addr := resAddress r.job.desc r.job.index, value := marker } } }) ∧
    (r.job.desc.policy = .mark → descKind r.job.desc = .single →
      applyException r x arg s =
        endRunning { r' with result := some marker, job := { job with done := 1 } } .completeMarked none s) ∧
    (r.job.desc.policy = .stop → applyException r x arg s = endRunning r' .stopped none s) ∧
    (r.job.desc.policy = .hold → s.hold.isSome = true →
      applyException r x arg s = endRunning r' .holdUnavailable none s) ∧
    (r.job.desc.policy = .hold → s.hold = none →
      applyException r x arg s =
        { s with
          hold := some { job := job, exc := x, arg := arg, action := none }
          engine := { s.engine with state := .idle, running := none }
          bus := discardJobWork s.bus
          yieldRequest := false
          completion := { s.completion with events := s.completion.events ||| 0x02#7 } })

/-- Posting a record: the record of the job at the tail of the queue, its generation as it stands; one reference fewer,
and a RETIRING curve without one emptied; COMPLETION for notify yes. The engine leaves its job at the same event. -/
def Obligations.EndingPostsTheRecord : Prop :=
  (∀ (job : Job) (status : JobStatus) (result : Option Value) (err : Option BusErr) (s : State),
    let e := curveEntry s job.desc.curve
    let record : Record :=
      { tag := job.tag, level := job.level, kind := descKind job.desc, status := status, cookie := job.desc.cookie,
        curve := job.desc.curve, generation := e.generation, done := job.done, excCount := job.excCount,
        first := if job.excCount = 0 then none else job.first, result := result, busErr := err }
    let events := if job.desc.notify then s.completion.events ||| 0x01#7 else s.completion.events
    let completion : Completion :=
      { s.completion with records := s.completion.records ++ [record], events := events }
    (e.state = .retiring → e.refCount ≤ 1 →
      postJob job status result err s = { emptied job.desc.curve s with completion := completion }) ∧
    (¬(e.state = .retiring ∧ e.refCount ≤ 1) →
      postJob job status result err s =
        { s with
          curves := s.curves.set job.desc.curve { e with refCount := e.refCount - 1 }
          completion := completion })) ∧
  ∀ (r : RunningJob) (status : JobStatus) (err : Option BusErr) (s : State),
    endRunning r status err s =
      { postJob r.job status (if descKind r.job.desc = .single ∧ r.job.done = 1 then r.result else none) err s with
        engine := { s.engine with state := .idle, running := none }
        bus := discardJobWork s.bus
        yieldRequest := false }

/-- Leaving the engine discards the job's bus work but for a value under way, which is DROPPED if it is a prefetch read.
A suspension fills the context slot of the job's level with the job as it stands and leaves the others; level 3 has no
slot. -/
def Obligations.SuspensionSavesTheJob : Prop :=
  (∀ b : BusMaster,
    discardJobWork b =
      { b with
        underWay :=
          b.underWay.map fun u => if u.kind = .prefetchRead then { u with kind := .dropped, lowRead := none } else u
        waitingRead := none, buffer := [], prefetch := none }) ∧
  (∀ (l k : Fin 4) (x : Option Suspended) (s : State),
    slotOf (setSlot l x s) k = (if k = l ∧ l.val < 3 then x else slotOf s k)) ∧
  (∀ (l : Fin 4) (x : Option Suspended) (s : State), ∃ slots, setSlot l x s = { s with slots := slots }) ∧
  (∀ s : State, slotOf s 3 = none ∧ ∀ l, queueOf s l = s.intake.queues[l]) ∧
  ∀ (r : RunningJob) (part : Option PartialPart) (s : State) (h : r.job.level.val < 3),
    suspend r part s =
      { s with
        slots := s.slots.set r.job.level.val (some { job := r.job, part := part }) h
        engine := { s.engine with state := .idle, running := none }
        bus := discardJobWork s.bus
        yieldRequest := false }

/-- The winner: the first source of the highest enabled level that has one, in the order context slot, hold slot when
CONTINUING at the level, queue head. -/
def Obligations.DispatchRanksTheSources : Prop :=
  (∀ (s : State) (src : Source), winner s = some src ↔
    ∃ l : Fin 4, levelEnabled s l = true ∧ sourceAt s l = some src ∧
      ∀ k : Fin 4, l < k → levelEnabled s k = true → sourceAt s k = none) ∧
  ∀ (s : State) (l : Fin 4),
    (∀ x, slotOf s l = some x → sourceAt s l = some (.contextSlot l x)) ∧
    (slotOf s l = none →
      (∀ h act, s.hold = some h → h.action = some act → h.job.level = l →
        sourceAt s l = some (.holdSlot h act)) ∧
      ((∀ h, s.hold = some h → h.action = none ∨ h.job.level ≠ l) →
        (∀ j rest, queueOf s l = j :: rest → sourceAt s l = some (.queueHead l j rest)) ∧
        (queueOf s l = [] → sourceAt s l = none)))

/-- DISPATCH hands the winner to an IDLE engine: the source is emptied, the prefetch part is fresh for a batch job, the
yield request is lowered, and the engine enters the state the source calls for. With no eligible source, or an engine
that is not IDLE, no job is handed over (log 12). -/
def Obligations.DispatchHandsOverTheWinner : Prop :=
  ∀ s : State,
    let taken := fun (job : Job) =>
      ({ job := job, abortMark := false, arg := none, work := none, result := none } : RunningJob)
    let admitted := fun (job : Job) (u : State) =>
      { u with
        yieldRequest := false
        bus :=
          { u.bus with
            buffer := []
            prefetch :=
              if descKind job.desc = .batch then some { p := job.index + 1, stopped := false } else none } }
    let begins := fun (job : Job) (u : State) =>
      match job.desc.body with
      | .single arg =>
        { u with engine := { u.engine with state := .setup, running := some { taken job with arg := some arg } } }
      | .batch _ _ _ _ _ => enterFetch (taken job) u
    let delivers := fun (job : Job) (v : Value) (u : State) =>
      if descKind job.desc = .batch then
        { u with
          engine := { u.engine with state := .store, running := some { taken job with result := some v } }
          bus :=
            { u.bus with
              waitingWrite :=
                some { element := job.index, addr := resAddress job.desc job.index, value := v } } }
      else endRunning { taken { job with done := 1 } with result := some v } .completeMarked none u
    let dispatches := fun (t : State) => exec .dispatch s = .next (settleRequest t)
    (s.engine.state ≠ .idle → exec .dispatch s = .next s) ∧
    (winner s = none → exec .dispatch s = .next s) ∧
    (s.engine.state = .idle →
      (∀ l j rest, winner s = some (.queueHead l j rest) →
        dispatches
          (begins j
            (admitted j { s with intake := { s.intake with queues := s.intake.queues.set l rest } }))) ∧
      (∀ l x, winner s = some (.contextSlot l x) →
        (x.part = none → dispatches (begins x.job (admitted x.job (setSlot l none s)))) ∧
        (∀ p, x.part = some p →
          dispatches
            (let u := admitted x.job (setSlot l none s)
             { u with
               engine :=
                 { u.engine with
                   state := if p.work.nextTerm.isSome then .terms else .store
                   running := some { taken x.job with arg := some p.arg, work := some p.work } } }))) ∧
      (∀ h act, winner s = some (.holdSlot h act) →
        let u := admitted h.job { s with hold := none }
        (act = .retry → dispatches (begins h.job u)) ∧
        (act = .skipMark → h.job.desc.resFormat = .n → dispatches (delivers h.job (.narrow 0xFFFFFFFF#32) u)) ∧
        (act = .skipMark → h.job.desc.resFormat = .w →
          dispatches (delivers h.job (.wide 0xFFFFFFFF#32 0xFFFFFFFF#32) u)) ∧
        (∀ v, act = .substitute v → dispatches (delivers h.job v u))))

/-- The outcome of an operation that a reset has cut off from its job is discarded whenever it completes (log 8). -/
def Obligations.AbandonedOutcomesAreDiscarded : Prop :=
  ∀ s : State,
    let discarded := fun (op : ArithOp) =>
      Host.Outcome.next { s with engine := { s.engine with abandoned := s.engine.abandoned.erase op } }
    (.setup ∈ s.engine.abandoned → exec (.setupCompletion .abandoned) s = discarded .setup) ∧
    (.terms ∈ s.engine.abandoned → exec (.termsCompletion .abandoned) s = discarded .terms) ∧
    (.conversion ∈ s.engine.abandoned → exec (.conversionCompletion .abandoned) s = discarded .conversion)

/-! ### What the registers show -/

/-- STATUS and CMD show the state of the part, each field at its bits; QUERY0 to QUERY3 show the query registers, and
IDENT its constant. -/
def Obligations.StatusAndCmdShowTheState : Prop :=
  (∀ s : State, s.rst = false →
    windowRead s 0x00#8 = some 0xC8802030#32 ∧
    windowRead s 0x24#8 = some s.cmd.query[0] ∧ windowRead s 0x28#8 = some s.cmd.query[1] ∧
    windowRead s 0x2C#8 = some s.cmd.query[2] ∧ windowRead s 0x30#8 = some s.cmd.query[3]) ∧
  ∀ s : State, s.rst = false → TagLaw s → PlaceLaw s →
    (∃ w, windowRead s 0x04#8 = some w ∧
      w.toNat =
        (match s.engine.state with
          | .idle => 0 | .fetch => 1 | .setup => 2 | .terms => 3 | .store => 4 | .frozen => 5)
        + 8 * (match s.bus.state with | .idle => 0 | .requesting => 1 | .owner => 2)
        + 32 * s.intake.freeTags.length
        + 2048 * (if (slotOf s 0).isSome then 1 else 0) + 4096 * (if (slotOf s 1).isSome then 1 else 0)
        + 8192 * (if (slotOf s 2).isSome then 1 else 0)
        + 16384 * (match s.hold with | none => 0 | some h => if h.action.isSome then 2 else 1)
        + 2 ^ 16 * (queueOf s 0).length + 2 ^ 20 * (queueOf s 1).length + 2 ^ 24 * (queueOf s 2).length
        + 2 ^ 28 * (queueOf s 3).length) ∧
    ∃ w, windowRead s 0x14#8 = some w ∧
      w.toNat =
        (match s.cmd.lastCommand with | none => 0 | some c => c.toNat)
        + 256 *
          (match s.cmd.lastResult with
            | .none => 0x00 | .done => 0x01 | .deferred => 0x02 | .alreadyRetiring => 0x03 | .noCurve => 0x04
            | .curveBusy => 0x05 | .badHeader => 0x06 | .sessionBusy => 0x07 | .incomplete => 0x08
            | .sessionFailed => 0x09 | .noSession => 0x0A | .notHeld => 0x0B | .notApplicable => 0x0C
            | .aborted => 0x0D | .abortPending => 0x0E | .tooLate => 0x0F | .unknownTag => 0x10
            | .badArgument => 0x11 | .badCommand => 0x12)
        + 65536 * (if s.cmd.pending then 1 else 0) + 131072 * (if s.cmd.lastCommand.isSome then 1 else 0)

/-- CREC0 to CREC5 and CCOUNT show the oldest record and the number of records, and 0 while there is none. The term
index of a stage that has none is shown as 0, the model's choice (log 30), and the bits of an absent part of CREC3 as 0,
which is deduced (log 32). -/
def Obligations.RecordRegistersShowTheOldest : Prop :=
  ∀ s : State, s.rst = false →
    (∀ r rest, s.completion.records = r :: rest →
      ∃ w0 w1 w2 w3 : Word,
        windowRead s 0x80#8 = some w0 ∧ windowRead s 0x84#8 = some w1 ∧ windowRead s 0x88#8 = some w2 ∧
        windowRead s 0x8C#8 = some w3 ∧
        w0.toNat =
          r.tag % 64 + 64 * r.level.val + 256 * (match r.kind with | .single => 0 | .batch => 1)
          + 512 *
            (match r.status with
              | .complete => 1 | .completeMarked => 2 | .stopped => 3 | .holdUnavailable => 4 | .aborted => 5
              | .busError => 6)
          + 4096 * (if r.first.isSome then 1 else 0) + 8192 * (if r.result.isSome then 1 else 0)
          + 16384 * (if r.busErr.isSome then 1 else 0) + 32768 * r.curve.val + 2 ^ 20 * r.generation.toNat ∧
        w1.toNat = r.cookie.toNat + 65536 * (r.done % 65536) ∧
        w2.toNat =
          r.excCount % 65536
          + (match r.first with
              | none => 0
              | some f =>
                65536 *
                    (match f.exc.kind with | .invalid => 1 | .range => 2 | .overflow => 3 | .underflow => 4)
                  + 2 ^ 19 *
                    (match f.exc.stage with
                      | .argument => 1 | .range => 2 | .origin => 3 | .term _ => 4 | .result => 5)
                  + 2 ^ 22 * (match f.exc.stage with | .term j => j % 16 | _ => 0)) ∧
        w3.toNat =
          (match r.first with | none => 0 | some f => f.element % 65536)
          + 65536 * (match r.busErr with | some { addr := _, dir := .write } => 1 | _ => 0) ∧
        (∀ x, r.result = some (.narrow x) → windowRead s 0x90#8 = some x ∧ windowRead s 0x94#8 = some 0) ∧
        (∀ hi lo, r.result = some (.wide hi lo) →
          windowRead s 0x90#8 = some lo ∧ windowRead s 0x94#8 = some hi) ∧
        (∀ e, r.result = none → r.busErr = some e →
          windowRead s 0x90#8 = some e.addr ∧ windowRead s 0x94#8 = some 0) ∧
        (r.result = none → r.busErr = none → windowRead s 0x90#8 = some 0 ∧ windowRead s 0x94#8 = some 0)) ∧
    (s.completion.records = [] →
      ∀ o ∈ [0x80#8, 0x84#8, 0x88#8, 0x8C#8, 0x90#8, 0x94#8], windowRead s o = some 0) ∧
    windowRead s 0xA4#8 = some (BitVec.ofNat 32 (s.completion.records.length % 64))

/-- HOLD0 to HOLD5 show the hold record, and 0 while the slot is EMPTY; LOAD_STATUS shows the load session and
STORE_STATUS the free pool. The model's choices in it: the lowest free block of an empty pool is shown as 0 (log 29),
and so are the term index of a stage that has none (log 30) and the action while none is pending (log 31). -/
def Obligations.HoldAndLoadRegistersShowTheState : Prop :=
  ∀ s : State, s.rst = false →
    (∀ h, s.hold = some h →
      ∃ w0 w1 w3 : Word,
        windowRead s 0xB0#8 = some w0 ∧ windowRead s 0xB4#8 = some w1 ∧
        windowRead s 0xB8#8 = some (BitVec.ofNat 32 (h.job.index % 65536)) ∧ windowRead s 0xBC#8 = some w3 ∧
        w0.toNat =
          (if h.action.isSome then 2 else 1) + 4 * (h.job.tag % 64) + 256 * h.job.level.val
          + 1024 * (match h.job.desc.body with | .single _ => 0 | .batch _ _ _ _ _ => 1)
          + 2048 * (if h.action.isSome then 1 else 0)
          + 4096 *
            (match h.action with | some (.substitute _) => 1 | some .retry => 2 | some .skipMark => 0 | none => 0) ∧
        w1.toNat =
          h.job.desc.curve.val + 32 * (match h.job.desc.argFormat with | .n => 0 | .w => 1)
          + 64 * (match h.job.desc.resFormat with | .n => 0 | .w => 1)
          + 256 * (match h.exc.kind with | .invalid => 1 | .range => 2 | .overflow => 3 | .underflow => 4)
          + 2048 *
            (match h.exc.stage with
              | .argument => 1 | .range => 2 | .origin => 3 | .term _ => 4 | .result => 5)
          + 16384 * (match h.exc.stage with | .term j => j % 16 | _ => 0) ∧
        w3.toNat = h.job.done % 65536 + 65536 * (h.job.excCount % 65536) ∧
        (∀ x, h.arg = .narrow x → windowRead s 0xC0#8 = some x ∧ windowRead s 0xC4#8 = some 0) ∧
        (∀ hi lo, h.arg = .wide hi lo → windowRead s 0xC0#8 = some lo ∧ windowRead s 0xC4#8 = some hi)) ∧
    (s.hold = none →
      ∀ o ∈ [0xB0#8, 0xB4#8, 0xB8#8, 0xBC#8, 0xC0#8, 0xC4#8], windowRead s o = some 0) ∧
    (∃ w, windowRead s 0x74#8 = some w ∧
      w.toNat =
        (match s.load.state with | .idle => 0 | .opened => 1 | .failed => 2) + 4 * s.load.curve.val
        + 128 * (match s.load.cursor.phase with | .breakpoints => 0 | .degree => 1 | .terms => 2 | .complete => 3)
        + 512 * (s.load.cursor.segment % 64) + 32768 * (if s.load.cursor.lowHalf.isSome then 1 else 0)
        + 65536 * (s.load.wordIndex % 4096)
        + 2 ^ 28 *
          (match s.load.failure.map (·.reason) with
            | none => 0
            | some .badValue => 1
            | some .badOrder => 2
            | some .badDegree => 3
            | some .storeFull => 4
            | some .overrun => 5)) ∧
    ∃ w, windowRead s 0x78#8 = some w ∧
      w.toNat =
        s.store.free.length % 256
        + (match s.store.free with | [] => 0 | b :: _ => 256 * (b % 128) + 32768)

/-! ### Arithmetic -/

/-- A magnitude `mag × 2^e` rounded to `p` significant bits: a number that fits stays exact; else the nearest multiple
`q` of the last place is taken, the greater one of two equally near, renormalized when it reaches the next power of
two. -/
def Obligations.RoundingIsToNearestTiesAway : Prop :=
  ∀ (p mag : Nat) (e : Int), 1 ≤ p → mag ≠ 0 →
    let l := Nat.log2 mag
    (l < p → roundMagnitude p mag e = (mag * 2 ^ (p - 1 - l), (l : Int) + e)) ∧
    (p ≤ l →
      let unit := 2 ^ (l + 1 - p)
      ∃ q : Nat, 2 * q * unit ≤ 2 * mag + unit ∧ 2 * mag < (2 * q + 1) * unit ∧ 2 ^ (p - 1) ≤ q ∧ q ≤ 2 ^ p ∧
        (q < 2 ^ p → roundMagnitude p mag e = (q, (l : Int) + e)) ∧
        (q = 2 ^ p → roundMagnitude p mag e = (2 ^ (p - 1), (l : Int) + e + 1)))

/-- Each step forms its exact number, the fused step acc × t + c, the origin subtraction x − b, the conversion to the
narrow format the number itself, and delivers that number rounded once and tested; comparison is by the numbers. The
number of the marker plays no part (log 21). The tests of a rounded number and what a step delivers: 0 is zero under
either policy; an exponent above the format's is OVERFLOW, always an exception; one below it is UNDERFLOW, zero under
FLUSH and an exception under FAULT; every other number is the encoding of its format with that sign, significand and
exponent. -/
def Obligations.RoundedNumbersAreTested : Prop :=
  (∀ v : Value, isMarker v = false → dyadicNumber (valueNum v) = numberOf v) ∧
  (∀ a b : Value, isMarker a = false → isMarker b = false →
    (valueLt a b = true ↔ numberOf a < numberOf b) ∧ (valueLe a b = true ↔ numberOf a ≤ numberOf b)) ∧
  (∀ (f : Format) (pol : UnderflowPolicy) (acc t c : Value), isMarker acc = false → isMarker t = false →
    isMarker c = false → ∃ d, dyadicNumber d = numberOf acc * numberOf t + numberOf c ∧
      fusedStep f pol acc t c = deliver f pol (roundTo f d)) ∧
  (∀ (f : Format) (pol : UnderflowPolicy) (x b : Value), isMarker x = false → isMarker b = false →
    ∃ d, dyadicNumber d = numberOf x - numberOf b ∧ originSub f pol x b = deliver f pol (roundTo f d)) ∧
  (∀ (pol : UnderflowPolicy) (hi lo : Word), isMarker (.wide hi lo) = false →
    ∃ d, dyadicNumber d = numberOf (.wide hi lo) ∧ convert .n pol (.wide hi lo) = deliver .n pol (roundTo .n d)) ∧
  ∀ (f : Format) (pol : UnderflowPolicy) (m e : Int),
    let v : Sys2Proof.Dyadic := { m := m, e := e }
    let frac := match f with | .n => 23 | .w => 52
    let top : Int := match f with | .n => 126 | .w => 1022
    let bottom : Int := match f with | .n => -127 | .w => -1023
    let zero : Value := match f with | .n => .narrow 0 | .w => .wide 0 0
    let r := roundMagnitude (frac + 1) m.natAbs e
    (m = 0 → deliver f pol (roundTo f v) = .value zero) ∧
    (m ≠ 0 → top < r.2 → deliver f pol (roundTo f v) = .exception .overflow) ∧
    (m ≠ 0 → r.2 < bottom →
      deliver f pol (roundTo f v) = match pol with | .flush => .value zero | .fault => .exception .underflow) ∧
    (m ≠ 0 → bottom ≤ r.2 → r.2 ≤ top →
      ∃ x, deliver f pol (roundTo f v) = .value x ∧ valueFormat x = f ∧ isMarker x = false ∧ isZero x = false ∧
        valueNum x = { m := if m < 0 then -(r.1 : Int) else r.1, e := r.2 - frac })

/-- Zero and the marker are told by the exponent field alone, and a zero in canonical form is all zeros. The steps that
change no value: a value of the format rounds to itself, in canonical form; a conversion to the same or
to the wide format keeps the number, a zero of any encoding as the canonical zero; and a fused step with a zero operand delivers the term. -/
def Obligations.ExactStepsKeepTheValue : Prop :=
  (∀ x : Word,
    (isZero (.narrow x) = true ↔ x.toNat / 2 ^ 23 % 2 ^ 8 = 0) ∧
    (isMarker (.narrow x) = true ↔ x.toNat / 2 ^ 23 % 2 ^ 8 = 255) ∧
    canonical (.narrow x) = .narrow (if x.toNat / 2 ^ 23 % 2 ^ 8 = 0 then 0 else x)) ∧
  (∀ hi lo : Word,
    (isZero (.wide hi lo) = true ↔ hi.toNat / 2 ^ 20 % 2 ^ 11 = 0) ∧
    (isMarker (.wide hi lo) = true ↔ hi.toNat / 2 ^ 20 % 2 ^ 11 = 2047) ∧
    canonical (.wide hi lo) = if hi.toNat / 2 ^ 20 % 2 ^ 11 = 0 then .wide 0 0 else .wide hi lo) ∧
  (∀ v : Value, isMarker v = false → roundTo (valueFormat v) (valueNum v) = .value (canonical v)) ∧
  (∀ (pol : UnderflowPolicy) (v : Value), convert (valueFormat v) pol v = .value (canonical v)) ∧
  (∀ (pol : UnderflowPolicy) (x : Word), isMarker (.narrow x) = false → isZero (.narrow x) = false →
    ∃ v, convert .w pol (.narrow x) = .value v ∧ valueFormat v = .w ∧
      valueNum v = { m := (valueNum (.narrow x)).m * 2 ^ 29, e := (valueNum (.narrow x)).e - 29 }) ∧
  (∀ (pol : UnderflowPolicy) (x : Word), isZero (.narrow x) = true → convert .w pol (.narrow x) = .value (.wide 0 0)) ∧
  ∀ (pol : UnderflowPolicy) (acc t c : Value), isMarker c = false → isZero acc = true ∨ isZero t = true →
    fusedStep (valueFormat c) pol acc t c = .value (canonical c)

/-! ### Laws of every moment -/

/-- Every law holds after hard reset, whatever commands wait. -/
def Obligations.LawsHoldAtReset : Prop := ∀ commands : List Instr, Lawful { State.reset with pending := commands }

/-- Every step keeps the law of the store: each block is in exactly one place and the words are in canonical form. -/
def Obligations.StoreLawIsKept : Prop := ∀ s t : State, StoreLaw s → step s = .next t → StoreLaw t

/-- Every step keeps every law. -/
def Obligations.LawsAreKept : Prop := ∀ s t : State, Lawful s → step s = .next t → Lawful t

/-- Every state a run reaches is lawful: each tag and each block in exactly one place, each reference counted, every
queue and slot with jobs of its level, the bus, its transfers and the prefetch buffer in order. -/
def Obligations.ReachableStatesAreLawful : Prop := ∀ s : State, Reachable s → Lawful s
end

