-- ==== Sys2Proof/Laws/State.lean ====
section
/-! SUPPORT. What each update of the state leaves alone and what it puts: one lemma per update for the fields it keeps
and one for the fields it writes, so that no later proof unfolds a record update -/

namespace Sys2Proof.Machine

/-- `setEvent` changes only completion. -/
@[simp] theorem setEvent_frame (f : EventFlag) (s : State) :
    (setEvent f s).rst = s.rst ∧ (setEvent f s).answer = s.answer ∧ (setEvent f s).cmd = s.cmd ∧
    (setEvent f s).curves = s.curves ∧ (setEvent f s).store = s.store ∧ (setEvent f s).load = s.load ∧
    (setEvent f s).intake = s.intake ∧ (setEvent f s).control = s.control ∧ (setEvent f s).slots = s.slots ∧
    (setEvent f s).yieldRequest = s.yieldRequest ∧ (setEvent f s).engine = s.engine ∧
    (setEvent f s).hold = s.hold ∧ (setEvent f s).bus = s.bus ∧ (setEvent f s).pending = s.pending := by
  simp [setEvent]

/-- What `setEvent` puts there. -/
@[simp] theorem setEvent_value (f : EventFlag) (s : State) :
    (setEvent f s).completion = { s.completion with events := s.completion.events ||| eventMask f } :=
  rfl

/-- `clearEvents` changes only completion. -/
@[simp] theorem clearEvents_frame (m : BitVec 7) (s : State) :
    (clearEvents m s).rst = s.rst ∧ (clearEvents m s).answer = s.answer ∧ (clearEvents m s).cmd = s.cmd ∧
    (clearEvents m s).curves = s.curves ∧ (clearEvents m s).store = s.store ∧ (clearEvents m s).load = s.load ∧
    (clearEvents m s).intake = s.intake ∧ (clearEvents m s).control = s.control ∧
    (clearEvents m s).slots = s.slots ∧ (clearEvents m s).yieldRequest = s.yieldRequest ∧
    (clearEvents m s).engine = s.engine ∧ (clearEvents m s).hold = s.hold ∧ (clearEvents m s).bus = s.bus ∧
    (clearEvents m s).pending = s.pending := by
  simp [clearEvents]

/-- What `clearEvents` puts there. -/
@[simp] theorem clearEvents_value (m : BitVec 7) (s : State) :
    (clearEvents m s).completion = { s.completion with events := s.completion.events &&& ~~~m } :=
  rfl

/-- `setCurve` changes only curves. -/
@[simp] theorem setCurve_frame (c : Fin 32) (e : CurveEntry) (s : State) :
    (setCurve c e s).rst = s.rst ∧ (setCurve c e s).answer = s.answer ∧ (setCurve c e s).cmd = s.cmd ∧
    (setCurve c e s).store = s.store ∧ (setCurve c e s).load = s.load ∧ (setCurve c e s).intake = s.intake ∧
    (setCurve c e s).control = s.control ∧ (setCurve c e s).slots = s.slots ∧
    (setCurve c e s).yieldRequest = s.yieldRequest ∧ (setCurve c e s).engine = s.engine ∧
    (setCurve c e s).hold = s.hold ∧ (setCurve c e s).bus = s.bus ∧ (setCurve c e s).completion = s.completion ∧
    (setCurve c e s).pending = s.pending := by
  simp [setCurve]

/-- What `setCurve` puts there. -/
@[simp] theorem setCurve_value (c : Fin 32) (e : CurveEntry) (s : State) :
    (setCurve c e s).curves = s.curves.set c e :=
  rfl

/-- `emptyCurve` changes only curves, store. -/
@[simp] theorem emptyCurve_frame (c : Fin 32) (s : State) :
    (emptyCurve c s).rst = s.rst ∧ (emptyCurve c s).answer = s.answer ∧ (emptyCurve c s).cmd = s.cmd ∧
    (emptyCurve c s).load = s.load ∧ (emptyCurve c s).intake = s.intake ∧ (emptyCurve c s).control = s.control ∧
    (emptyCurve c s).slots = s.slots ∧ (emptyCurve c s).yieldRequest = s.yieldRequest ∧
    (emptyCurve c s).engine = s.engine ∧ (emptyCurve c s).hold = s.hold ∧ (emptyCurve c s).bus = s.bus ∧
    (emptyCurve c s).completion = s.completion ∧ (emptyCurve c s).pending = s.pending := by
  simp [emptyCurve]

/-- What `emptyCurve` puts there. -/
@[simp] theorem emptyCurve_value (c : Fin 32) (s : State) :
    (emptyCurve c s).curves = s.curves.set c (emptiedEntry (curveEntry s c)) ∧
    (emptyCurve c s).store =
      { s.store with free := insertAllAsc (curveEntry s c).blocks s.store.free } :=
  ⟨rfl, rfl⟩

/-- `appendRecord` changes only completion. -/
@[simp] theorem appendRecord_frame (r : Record) (s : State) :
    (appendRecord r s).rst = s.rst ∧ (appendRecord r s).answer = s.answer ∧ (appendRecord r s).cmd = s.cmd ∧
    (appendRecord r s).curves = s.curves ∧ (appendRecord r s).store = s.store ∧ (appendRecord r s).load = s.load ∧
    (appendRecord r s).intake = s.intake ∧ (appendRecord r s).control = s.control ∧
    (appendRecord r s).slots = s.slots ∧ (appendRecord r s).yieldRequest = s.yieldRequest ∧
    (appendRecord r s).engine = s.engine ∧ (appendRecord r s).hold = s.hold ∧ (appendRecord r s).bus = s.bus ∧
    (appendRecord r s).pending = s.pending := by
  simp [appendRecord]

/-- What `appendRecord` puts there. -/
@[simp] theorem appendRecord_value (r : Record) (s : State) :
    (appendRecord r s).completion = { s.completion with records := s.completion.records ++ [r] } :=
  rfl

/-- `setQueue` changes only intake. -/
@[simp] theorem setQueue_frame (l : Fin 4) (q : List Job) (s : State) :
    (setQueue l q s).rst = s.rst ∧ (setQueue l q s).answer = s.answer ∧ (setQueue l q s).cmd = s.cmd ∧
    (setQueue l q s).curves = s.curves ∧ (setQueue l q s).store = s.store ∧ (setQueue l q s).load = s.load ∧
    (setQueue l q s).control = s.control ∧ (setQueue l q s).slots = s.slots ∧
    (setQueue l q s).yieldRequest = s.yieldRequest ∧ (setQueue l q s).engine = s.engine ∧
    (setQueue l q s).hold = s.hold ∧ (setQueue l q s).bus = s.bus ∧ (setQueue l q s).completion = s.completion ∧
    (setQueue l q s).pending = s.pending := by
  simp [setQueue]

/-- What `setQueue` puts there. -/
@[simp] theorem setQueue_value (l : Fin 4) (q : List Job) (s : State) :
    (setQueue l q s).intake = { s.intake with queues := s.intake.queues.set l q } :=
  rfl

/-- `refreshYield` changes only yieldRequest. -/
@[simp] theorem refreshYield_frame (s : State) :
    (refreshYield s).rst = s.rst ∧ (refreshYield s).answer = s.answer ∧ (refreshYield s).cmd = s.cmd ∧
    (refreshYield s).curves = s.curves ∧ (refreshYield s).store = s.store ∧ (refreshYield s).load = s.load ∧
    (refreshYield s).intake = s.intake ∧ (refreshYield s).control = s.control ∧ (refreshYield s).slots = s.slots ∧
    (refreshYield s).engine = s.engine ∧ (refreshYield s).hold = s.hold ∧ (refreshYield s).bus = s.bus ∧
    (refreshYield s).completion = s.completion ∧ (refreshYield s).pending = s.pending := by
  simp [refreshYield]

/-- What `refreshYield` puts there. -/
@[simp] theorem refreshYield_value (s : State) :
    (refreshYield s).yieldRequest = yieldDue s :=
  rfl

/-- A release with its request after it, written out: pending work does not depend on the bus state. -/
theorem releaseBus_eq (s : State) :
    releaseBus s =
      { s with
        bus := { s.bus with state := if busPending s then .requesting else .idle, grantRemoved := false } } := by
  have h : busPending (endTenure s) = busPending s := rfl
  unfold releaseBus settleRequest
  rw [h]
  cases busPending s <;> rfl

/-- `releaseBus` changes only bus. -/
@[simp] theorem releaseBus_frame (s : State) :
    (releaseBus s).rst = s.rst ∧ (releaseBus s).answer = s.answer ∧ (releaseBus s).cmd = s.cmd ∧
    (releaseBus s).curves = s.curves ∧ (releaseBus s).store = s.store ∧ (releaseBus s).load = s.load ∧
    (releaseBus s).intake = s.intake ∧ (releaseBus s).control = s.control ∧ (releaseBus s).slots = s.slots ∧
    (releaseBus s).yieldRequest = s.yieldRequest ∧ (releaseBus s).engine = s.engine ∧
    (releaseBus s).hold = s.hold ∧ (releaseBus s).completion = s.completion ∧ (releaseBus s).pending = s.pending := by
  simp [releaseBus_eq]

/-- What `releaseBus` puts there. -/
@[simp] theorem releaseBus_value (s : State) :
    (releaseBus s).bus =
      { s.bus with state := if busPending s then .requesting else .idle, grantRemoved := false } := by
  rw [releaseBus_eq]

/-- `endValue` changes only bus. -/
@[simp] theorem endValue_frame (s : State) :
    (endValue s).rst = s.rst ∧ (endValue s).answer = s.answer ∧ (endValue s).cmd = s.cmd ∧
    (endValue s).curves = s.curves ∧ (endValue s).store = s.store ∧ (endValue s).load = s.load ∧
    (endValue s).intake = s.intake ∧ (endValue s).control = s.control ∧ (endValue s).slots = s.slots ∧
    (endValue s).yieldRequest = s.yieldRequest ∧ (endValue s).engine = s.engine ∧ (endValue s).hold = s.hold ∧
    (endValue s).completion = s.completion ∧ (endValue s).pending = s.pending := by
  simp [endValue]

/-- What `endValue` puts there. -/
@[simp] theorem endValue_value (s : State) :
    (endValue s).bus = { s.bus with underWay := none } :=
  rfl

/-- `leaveEngine` changes only yieldRequest, engine, bus. -/
@[simp] theorem leaveEngine_frame (s : State) :
    (leaveEngine s).rst = s.rst ∧ (leaveEngine s).answer = s.answer ∧ (leaveEngine s).cmd = s.cmd ∧
    (leaveEngine s).curves = s.curves ∧ (leaveEngine s).store = s.store ∧ (leaveEngine s).load = s.load ∧
    (leaveEngine s).intake = s.intake ∧ (leaveEngine s).control = s.control ∧ (leaveEngine s).slots = s.slots ∧
    (leaveEngine s).hold = s.hold ∧ (leaveEngine s).completion = s.completion ∧ (leaveEngine s).pending = s.pending := by
  simp [leaveEngine]

/-- What `leaveEngine` puts there. -/
@[simp] theorem leaveEngine_value (s : State) :
    (leaveEngine s).engine = { s.engine with state := .idle, running := none } ∧
    (leaveEngine s).bus = discardJobWork s.bus ∧ (leaveEngine s).yieldRequest = false :=
  ⟨rfl, rfl, rfl⟩

/-- `setEngine` changes only engine. -/
@[simp] theorem setEngine_frame (st : EngineState) (r : RunningJob) (s : State) :
    (setEngine st r s).rst = s.rst ∧ (setEngine st r s).answer = s.answer ∧ (setEngine st r s).cmd = s.cmd ∧
    (setEngine st r s).curves = s.curves ∧ (setEngine st r s).store = s.store ∧ (setEngine st r s).load = s.load ∧
    (setEngine st r s).intake = s.intake ∧ (setEngine st r s).control = s.control ∧
    (setEngine st r s).slots = s.slots ∧ (setEngine st r s).yieldRequest = s.yieldRequest ∧
    (setEngine st r s).hold = s.hold ∧ (setEngine st r s).bus = s.bus ∧
    (setEngine st r s).completion = s.completion ∧ (setEngine st r s).pending = s.pending := by
  simp [setEngine]

/-- What `setEngine` puts there. -/
@[simp] theorem setEngine_value (st : EngineState) (r : RunningJob) (s : State) :
    (setEngine st r s).engine = { s.engine with state := st, running := some r } :=
  rfl

/-- `requestWrite` changes only bus. -/
@[simp] theorem requestWrite_frame (r : RunningJob) (v : Value) (s : State) :
    (requestWrite r v s).rst = s.rst ∧ (requestWrite r v s).answer = s.answer ∧ (requestWrite r v s).cmd = s.cmd ∧
    (requestWrite r v s).curves = s.curves ∧ (requestWrite r v s).store = s.store ∧
    (requestWrite r v s).load = s.load ∧ (requestWrite r v s).intake = s.intake ∧
    (requestWrite r v s).control = s.control ∧ (requestWrite r v s).slots = s.slots ∧
    (requestWrite r v s).yieldRequest = s.yieldRequest ∧ (requestWrite r v s).engine = s.engine ∧
    (requestWrite r v s).hold = s.hold ∧ (requestWrite r v s).completion = s.completion ∧
    (requestWrite r v s).pending = s.pending := by
  simp [requestWrite]

/-- What `requestWrite` puts there. -/
@[simp] theorem requestWrite_value (r : RunningJob) (v : Value) (s : State) :
    (requestWrite r v s).bus =
      { s.bus with
        waitingWrite :=
          some { element := r.job.index, addr := resAddress r.job.desc r.job.index, value := v } } :=
  rfl

/-- `admitJob` changes only yieldRequest, bus. -/
@[simp] theorem admit_frame (j : Job) (s : State) :
    (admitJob j s).rst = s.rst ∧ (admitJob j s).answer = s.answer ∧ (admitJob j s).cmd = s.cmd ∧
    (admitJob j s).curves = s.curves ∧ (admitJob j s).store = s.store ∧ (admitJob j s).load = s.load ∧
    (admitJob j s).intake = s.intake ∧ (admitJob j s).control = s.control ∧ (admitJob j s).slots = s.slots ∧
    (admitJob j s).engine = s.engine ∧ (admitJob j s).hold = s.hold ∧ (admitJob j s).completion = s.completion ∧
    (admitJob j s).pending = s.pending := by
  simp [admitJob]

/-- What `admitJob` puts there. -/
@[simp] theorem admit_value (j : Job) (s : State) :
    (admitJob j s).bus = freshPrefetch j s.bus ∧ (admitJob j s).yieldRequest = false :=
  ⟨rfl, rfl⟩

/-- `markRunning` changes only engine. -/
@[simp] theorem markRunning_frame (r : RunningJob) (s : State) :
    (markRunning r s).rst = s.rst ∧ (markRunning r s).answer = s.answer ∧ (markRunning r s).cmd = s.cmd ∧
    (markRunning r s).curves = s.curves ∧ (markRunning r s).store = s.store ∧ (markRunning r s).load = s.load ∧
    (markRunning r s).intake = s.intake ∧ (markRunning r s).control = s.control ∧
    (markRunning r s).slots = s.slots ∧ (markRunning r s).yieldRequest = s.yieldRequest ∧
    (markRunning r s).hold = s.hold ∧ (markRunning r s).bus = s.bus ∧ (markRunning r s).completion = s.completion ∧
    (markRunning r s).pending = s.pending := by
  simp [markRunning]

/-- What `markRunning` puts there. -/
@[simp] theorem markRunning_value (r : RunningJob) (s : State) :
    (markRunning r s).engine = { s.engine with running := some { r with abortMark := true } } :=
  rfl

/-- `recordCommand` changes only cmd. -/
@[simp] theorem recordCommand_frame (c : BitVec 8) (r : CmdResult) (s : State) :
    (recordCommand c r s).rst = s.rst ∧ (recordCommand c r s).answer = s.answer ∧
    (recordCommand c r s).curves = s.curves ∧ (recordCommand c r s).store = s.store ∧
    (recordCommand c r s).load = s.load ∧ (recordCommand c r s).intake = s.intake ∧
    (recordCommand c r s).control = s.control ∧ (recordCommand c r s).slots = s.slots ∧
    (recordCommand c r s).yieldRequest = s.yieldRequest ∧ (recordCommand c r s).engine = s.engine ∧
    (recordCommand c r s).hold = s.hold ∧ (recordCommand c r s).bus = s.bus ∧
    (recordCommand c r s).completion = s.completion ∧ (recordCommand c r s).pending = s.pending := by
  simp [recordCommand]

/-- What `recordCommand` puts there. -/
@[simp] theorem recordCommand_value (c : BitVec 8) (r : CmdResult) (s : State) :
    (recordCommand c r s).cmd = { s.cmd with lastCommand := some c, lastResult := r } :=
  rfl

/-- `fillQuery` changes only cmd. -/
@[simp] theorem fillQuery_frame (a b c d : Word) (s : State) :
    (fillQuery a b c d s).rst = s.rst ∧ (fillQuery a b c d s).answer = s.answer ∧
    (fillQuery a b c d s).curves = s.curves ∧ (fillQuery a b c d s).store = s.store ∧
    (fillQuery a b c d s).load = s.load ∧ (fillQuery a b c d s).intake = s.intake ∧
    (fillQuery a b c d s).control = s.control ∧ (fillQuery a b c d s).slots = s.slots ∧
    (fillQuery a b c d s).yieldRequest = s.yieldRequest ∧ (fillQuery a b c d s).engine = s.engine ∧
    (fillQuery a b c d s).hold = s.hold ∧ (fillQuery a b c d s).bus = s.bus ∧
    (fillQuery a b c d s).completion = s.completion ∧ (fillQuery a b c d s).pending = s.pending := by
  simp [fillQuery]

/-- What `fillQuery` puts there. -/
@[simp] theorem fillQuery_value (a b c d : Word) (s : State) :
    (fillQuery a b c d s).cmd = { s.cmd with query := #v[a, b, c, d] } :=
  rfl

end Sys2Proof.Machine
end

