-- ==== Sys2Proof/Laws/Frames.lean ====
section
/-! SUPPORT. What the composed operations leave alone: one lemma per operation -/

namespace Sys2Proof.Machine

/-- `releaseReference` changes only curves, store. -/
@[simp] theorem releaseReference_frame (c : Fin 32) (s : State) :
    (releaseReference c s).rst = s.rst ∧ (releaseReference c s).answer = s.answer ∧
    (releaseReference c s).cmd = s.cmd ∧ (releaseReference c s).load = s.load ∧
    (releaseReference c s).intake = s.intake ∧ (releaseReference c s).control = s.control ∧
    (releaseReference c s).slots = s.slots ∧ (releaseReference c s).yieldRequest = s.yieldRequest ∧
    (releaseReference c s).engine = s.engine ∧ (releaseReference c s).hold = s.hold ∧
    (releaseReference c s).bus = s.bus ∧ (releaseReference c s).completion = s.completion ∧
    (releaseReference c s).pending = s.pending := by
  unfold releaseReference
  (repeat' split) <;> simp

/-- `postJob` changes only curves, store, completion. -/
@[simp] theorem postJob_frame (j : Job) (st : JobStatus) (v : Option Value) (e : Option BusErr) (s : State) :
    (postJob j st v e s).rst = s.rst ∧ (postJob j st v e s).answer = s.answer ∧ (postJob j st v e s).cmd = s.cmd ∧
    (postJob j st v e s).load = s.load ∧ (postJob j st v e s).intake = s.intake ∧
    (postJob j st v e s).control = s.control ∧ (postJob j st v e s).slots = s.slots ∧
    (postJob j st v e s).yieldRequest = s.yieldRequest ∧ (postJob j st v e s).engine = s.engine ∧
    (postJob j st v e s).hold = s.hold ∧ (postJob j st v e s).bus = s.bus ∧ (postJob j st v e s).pending = s.pending := by
  unfold postJob
  (repeat' split) <;> simp

/-- `setSlot` changes only slots. -/
@[simp] theorem setSlot_frame (l : Fin 4) (x : Option Suspended) (s : State) :
    (setSlot l x s).rst = s.rst ∧ (setSlot l x s).answer = s.answer ∧ (setSlot l x s).cmd = s.cmd ∧
    (setSlot l x s).curves = s.curves ∧ (setSlot l x s).store = s.store ∧ (setSlot l x s).load = s.load ∧
    (setSlot l x s).intake = s.intake ∧ (setSlot l x s).control = s.control ∧
    (setSlot l x s).yieldRequest = s.yieldRequest ∧ (setSlot l x s).engine = s.engine ∧
    (setSlot l x s).hold = s.hold ∧ (setSlot l x s).bus = s.bus ∧ (setSlot l x s).completion = s.completion ∧
    (setSlot l x s).pending = s.pending := by
  unfold setSlot
  (repeat' split) <;> simp

/-- `settleRequest` changes only bus. -/
@[simp] theorem settleRequest_frame (s : State) :
    (settleRequest s).rst = s.rst ∧ (settleRequest s).answer = s.answer ∧ (settleRequest s).cmd = s.cmd ∧
    (settleRequest s).curves = s.curves ∧ (settleRequest s).store = s.store ∧ (settleRequest s).load = s.load ∧
    (settleRequest s).intake = s.intake ∧ (settleRequest s).control = s.control ∧
    (settleRequest s).slots = s.slots ∧ (settleRequest s).yieldRequest = s.yieldRequest ∧
    (settleRequest s).engine = s.engine ∧ (settleRequest s).hold = s.hold ∧
    (settleRequest s).completion = s.completion ∧ (settleRequest s).pending = s.pending := by
  unfold settleRequest
  (repeat' split) <;> simp

/-- `beginValue` changes only bus. -/
@[simp] theorem beginValue_frame (c : Choice) (s : State) :
    (beginValue c s).rst = s.rst ∧ (beginValue c s).answer = s.answer ∧ (beginValue c s).cmd = s.cmd ∧
    (beginValue c s).curves = s.curves ∧ (beginValue c s).store = s.store ∧ (beginValue c s).load = s.load ∧
    (beginValue c s).intake = s.intake ∧ (beginValue c s).control = s.control ∧ (beginValue c s).slots = s.slots ∧
    (beginValue c s).yieldRequest = s.yieldRequest ∧ (beginValue c s).engine = s.engine ∧
    (beginValue c s).hold = s.hold ∧ (beginValue c s).completion = s.completion ∧
    (beginValue c s).pending = s.pending := by
  unfold beginValue
  (repeat' split) <;> simp

/-- `choicePoint` changes only bus. -/
@[simp] theorem choicePoint_frame (s : State) :
    (choicePoint s).rst = s.rst ∧ (choicePoint s).answer = s.answer ∧ (choicePoint s).cmd = s.cmd ∧
    (choicePoint s).curves = s.curves ∧ (choicePoint s).store = s.store ∧ (choicePoint s).load = s.load ∧
    (choicePoint s).intake = s.intake ∧ (choicePoint s).control = s.control ∧ (choicePoint s).slots = s.slots ∧
    (choicePoint s).yieldRequest = s.yieldRequest ∧ (choicePoint s).engine = s.engine ∧
    (choicePoint s).hold = s.hold ∧ (choicePoint s).completion = s.completion ∧ (choicePoint s).pending = s.pending := by
  unfold choicePoint
  (repeat' split) <;> simp

/-- `endRunning` changes only curves, store, yieldRequest, engine, bus, completion. -/
@[simp] theorem endRunning_frame (r : RunningJob) (st : JobStatus) (e : Option BusErr) (s : State) :
    (endRunning r st e s).rst = s.rst ∧ (endRunning r st e s).answer = s.answer ∧
    (endRunning r st e s).cmd = s.cmd ∧ (endRunning r st e s).load = s.load ∧
    (endRunning r st e s).intake = s.intake ∧ (endRunning r st e s).control = s.control ∧
    (endRunning r st e s).slots = s.slots ∧ (endRunning r st e s).hold = s.hold ∧
    (endRunning r st e s).pending = s.pending := by
  simp [endRunning]

/-- What `endRunning` puts there. -/
@[simp] theorem endRunning_value (r : RunningJob) (st : JobStatus) (e : Option BusErr) (s : State) :
    (endRunning r st e s).engine = { s.engine with state := .idle, running := none } ∧
    (endRunning r st e s).yieldRequest = false :=
  by simp [endRunning]

/-- `suspend` changes only slots, yieldRequest, engine, bus. -/
@[simp] theorem suspend_frame (r : RunningJob) (p : Option PartialPart) (s : State) :
    (suspend r p s).rst = s.rst ∧ (suspend r p s).answer = s.answer ∧ (suspend r p s).cmd = s.cmd ∧
    (suspend r p s).curves = s.curves ∧ (suspend r p s).store = s.store ∧ (suspend r p s).load = s.load ∧
    (suspend r p s).intake = s.intake ∧ (suspend r p s).control = s.control ∧ (suspend r p s).hold = s.hold ∧
    (suspend r p s).completion = s.completion ∧ (suspend r p s).pending = s.pending := by
  simp [suspend]

/-- What `suspend` puts there. -/
@[simp] theorem suspend_value (r : RunningJob) (p : Option PartialPart) (s : State) :
    (suspend r p s).engine = { s.engine with state := .idle, running := none } ∧
    (suspend r p s).yieldRequest = false :=
  by simp [suspend]

/-- `suspendIfStanding` changes only slots, yieldRequest, engine, bus. -/
@[simp] theorem suspendIfStanding_frame (s : State) :
    (suspendIfStanding s).rst = s.rst ∧ (suspendIfStanding s).answer = s.answer ∧
    (suspendIfStanding s).cmd = s.cmd ∧ (suspendIfStanding s).curves = s.curves ∧
    (suspendIfStanding s).store = s.store ∧ (suspendIfStanding s).load = s.load ∧
    (suspendIfStanding s).intake = s.intake ∧ (suspendIfStanding s).control = s.control ∧
    (suspendIfStanding s).hold = s.hold ∧ (suspendIfStanding s).completion = s.completion ∧
    (suspendIfStanding s).pending = s.pending := by
  unfold suspendIfStanding
  (repeat' split) <;> simp

/-- `reactToSources` changes only slots, yieldRequest, engine, bus. -/
@[simp] theorem reactToSources_frame (s : State) :
    (reactToSources s).rst = s.rst ∧ (reactToSources s).answer = s.answer ∧ (reactToSources s).cmd = s.cmd ∧
    (reactToSources s).curves = s.curves ∧ (reactToSources s).store = s.store ∧ (reactToSources s).load = s.load ∧
    (reactToSources s).intake = s.intake ∧ (reactToSources s).control = s.control ∧
    (reactToSources s).hold = s.hold ∧ (reactToSources s).completion = s.completion ∧
    (reactToSources s).pending = s.pending := by
  simp [reactToSources]

/-- `enterFetch` changes only engine, bus. -/
@[simp] theorem enterFetch_frame (r : RunningJob) (s : State) :
    (enterFetch r s).rst = s.rst ∧ (enterFetch r s).answer = s.answer ∧ (enterFetch r s).cmd = s.cmd ∧
    (enterFetch r s).curves = s.curves ∧ (enterFetch r s).store = s.store ∧ (enterFetch r s).load = s.load ∧
    (enterFetch r s).intake = s.intake ∧ (enterFetch r s).control = s.control ∧ (enterFetch r s).slots = s.slots ∧
    (enterFetch r s).yieldRequest = s.yieldRequest ∧ (enterFetch r s).hold = s.hold ∧
    (enterFetch r s).completion = s.completion ∧ (enterFetch r s).pending = s.pending := by
  unfold enterFetch
  (repeat' split) <;> simp

/-- `storeResult` changes only engine, bus. -/
@[simp] theorem storeResult_frame (r : RunningJob) (v : Value) (s : State) :
    (storeResult r v s).rst = s.rst ∧ (storeResult r v s).answer = s.answer ∧ (storeResult r v s).cmd = s.cmd ∧
    (storeResult r v s).curves = s.curves ∧ (storeResult r v s).store = s.store ∧
    (storeResult r v s).load = s.load ∧ (storeResult r v s).intake = s.intake ∧
    (storeResult r v s).control = s.control ∧ (storeResult r v s).slots = s.slots ∧
    (storeResult r v s).yieldRequest = s.yieldRequest ∧ (storeResult r v s).hold = s.hold ∧
    (storeResult r v s).completion = s.completion ∧ (storeResult r v s).pending = s.pending := by
  simp [storeResult]

/-- What `storeResult` puts there. -/
@[simp] theorem storeResult_value (r : RunningJob) (v : Value) (s : State) :
    (storeResult r v s).engine =
      { s.engine with state := .store, running := some { r with result := some v } } :=
  by simp [storeResult]

/-- `applyMark` changes only curves, store, yieldRequest, engine, bus, completion. -/
@[simp] theorem applyMark_frame (r : RunningJob) (s : State) :
    (applyMark r s).rst = s.rst ∧ (applyMark r s).answer = s.answer ∧ (applyMark r s).cmd = s.cmd ∧
    (applyMark r s).load = s.load ∧ (applyMark r s).intake = s.intake ∧ (applyMark r s).control = s.control ∧
    (applyMark r s).slots = s.slots ∧ (applyMark r s).hold = s.hold ∧ (applyMark r s).pending = s.pending := by
  unfold applyMark
  (repeat' split) <;> simp

/-- `applyHold` changes only curves, store, yieldRequest, engine, hold, bus, completion. -/
@[simp] theorem applyHold_frame (r : RunningJob) (e : Exc) (a : Value) (s : State) :
    (applyHold r e a s).rst = s.rst ∧ (applyHold r e a s).answer = s.answer ∧ (applyHold r e a s).cmd = s.cmd ∧
    (applyHold r e a s).load = s.load ∧ (applyHold r e a s).intake = s.intake ∧
    (applyHold r e a s).control = s.control ∧ (applyHold r e a s).slots = s.slots ∧
    (applyHold r e a s).pending = s.pending := by
  unfold applyHold
  (repeat' split) <;> simp

/-- `applyException` changes only curves, store, yieldRequest, engine, hold, bus, completion. -/
@[simp] theorem applyException_frame (r : RunningJob) (e : Exc) (a : Value) (s : State) :
    (applyException r e a s).rst = s.rst ∧ (applyException r e a s).answer = s.answer ∧
    (applyException r e a s).cmd = s.cmd ∧ (applyException r e a s).load = s.load ∧
    (applyException r e a s).intake = s.intake ∧ (applyException r e a s).control = s.control ∧
    (applyException r e a s).slots = s.slots ∧ (applyException r e a s).pending = s.pending := by
  unfold applyException
  (repeat' split) <;> simp

/-- `startElement` changes only engine, bus. -/
@[simp] theorem startElement_frame (j : Job) (s : State) :
    (startElement j s).rst = s.rst ∧ (startElement j s).answer = s.answer ∧ (startElement j s).cmd = s.cmd ∧
    (startElement j s).curves = s.curves ∧ (startElement j s).store = s.store ∧ (startElement j s).load = s.load ∧
    (startElement j s).intake = s.intake ∧ (startElement j s).control = s.control ∧
    (startElement j s).slots = s.slots ∧ (startElement j s).yieldRequest = s.yieldRequest ∧
    (startElement j s).hold = s.hold ∧ (startElement j s).completion = s.completion ∧
    (startElement j s).pending = s.pending := by
  unfold startElement
  (repeat' split) <;> simp

/-- `resumePart` changes only engine. -/
@[simp] theorem resumePart_frame (j : Job) (p : PartialPart) (s : State) :
    (resumePart j p s).rst = s.rst ∧ (resumePart j p s).answer = s.answer ∧ (resumePart j p s).cmd = s.cmd ∧
    (resumePart j p s).curves = s.curves ∧ (resumePart j p s).store = s.store ∧ (resumePart j p s).load = s.load ∧
    (resumePart j p s).intake = s.intake ∧ (resumePart j p s).control = s.control ∧
    (resumePart j p s).slots = s.slots ∧ (resumePart j p s).yieldRequest = s.yieldRequest ∧
    (resumePart j p s).hold = s.hold ∧ (resumePart j p s).bus = s.bus ∧
    (resumePart j p s).completion = s.completion ∧ (resumePart j p s).pending = s.pending := by
  unfold resumePart
  (repeat' split) <;> simp

/-- `deliverContinuation` changes only curves, store, yieldRequest, engine, bus, completion. -/
@[simp] theorem deliverContinuation_frame (j : Job) (v : Value) (s : State) :
    (deliverContinuation j v s).rst = s.rst ∧ (deliverContinuation j v s).answer = s.answer ∧
    (deliverContinuation j v s).cmd = s.cmd ∧ (deliverContinuation j v s).load = s.load ∧
    (deliverContinuation j v s).intake = s.intake ∧ (deliverContinuation j v s).control = s.control ∧
    (deliverContinuation j v s).slots = s.slots ∧ (deliverContinuation j v s).hold = s.hold ∧
    (deliverContinuation j v s).pending = s.pending := by
  unfold deliverContinuation
  (repeat' split) <;> simp

/-- `startContinuation` changes only curves, store, yieldRequest, engine, bus, completion. -/
@[simp] theorem startContinuation_frame (j : Job) (a : HoldAction) (s : State) :
    (startContinuation j a s).rst = s.rst ∧ (startContinuation j a s).answer = s.answer ∧
    (startContinuation j a s).cmd = s.cmd ∧ (startContinuation j a s).load = s.load ∧
    (startContinuation j a s).intake = s.intake ∧ (startContinuation j a s).control = s.control ∧
    (startContinuation j a s).slots = s.slots ∧ (startContinuation j a s).hold = s.hold ∧
    (startContinuation j a s).pending = s.pending := by
  unfold startContinuation
  (repeat' split) <;> simp

/-- `handOver` changes only curves, store, intake, slots, yieldRequest, engine, hold, bus, completion. -/
@[simp] theorem handOver_frame (src : Source) (s : State) :
    (handOver src s).rst = s.rst ∧ (handOver src s).answer = s.answer ∧ (handOver src s).cmd = s.cmd ∧
    (handOver src s).load = s.load ∧ (handOver src s).control = s.control ∧ (handOver src s).pending = s.pending := by
  unfold handOver
  (repeat' split) <;> simp

/-- `postAborted` changes only curves, store, completion. -/
@[simp] theorem postAborted_frame (j : Job) (s : State) :
    (postAborted j s).rst = s.rst ∧ (postAborted j s).answer = s.answer ∧ (postAborted j s).cmd = s.cmd ∧
    (postAborted j s).load = s.load ∧ (postAborted j s).intake = s.intake ∧ (postAborted j s).control = s.control ∧
    (postAborted j s).slots = s.slots ∧ (postAborted j s).yieldRequest = s.yieldRequest ∧
    (postAborted j s).engine = s.engine ∧ (postAborted j s).hold = s.hold ∧ (postAborted j s).bus = s.bus ∧
    (postAborted j s).pending = s.pending := by
  simp [postAborted]

/-- `removeQueued` changes only intake. -/
@[simp] theorem removeQueued_frame (l : Fin 4) (t : Nat) (s : State) :
    (removeQueued l t s).rst = s.rst ∧ (removeQueued l t s).answer = s.answer ∧ (removeQueued l t s).cmd = s.cmd ∧
    (removeQueued l t s).curves = s.curves ∧ (removeQueued l t s).store = s.store ∧
    (removeQueued l t s).load = s.load ∧ (removeQueued l t s).control = s.control ∧
    (removeQueued l t s).slots = s.slots ∧ (removeQueued l t s).yieldRequest = s.yieldRequest ∧
    (removeQueued l t s).engine = s.engine ∧ (removeQueued l t s).hold = s.hold ∧
    (removeQueued l t s).bus = s.bus ∧ (removeQueued l t s).completion = s.completion ∧
    (removeQueued l t s).pending = s.pending := by
  simp [removeQueued]

end Sys2Proof.Machine
end

