-- ==== Sys2Proof/Laws/Store.lean ====
section
/-! SUPPORT. The store's word cells and the ascending lists: every operation keeps the canonical form, a word
written reads back, every other word stays, and an insertion is a permutation. -/

namespace Sys2Proof.Machine

/-! ### Word cells -/

/-- The canonical form of a nonempty list of cells. -/
theorem cellsWf_cons (c : Nat × Word) (rest : List (Nat × Word)) :
    cellsWf (c :: rest) = true ↔
      c.2 ≠ unlistedWord ∧ (∀ d ∈ rest, c.1 < d.1) ∧ cellsWf rest = true := by
  simp [cellsWf, and_assoc]

/-- Erasing a cell lists nothing new. -/
theorem mem_of_mem_eraseCell {a : Nat} {d : Nat × Word} :
    ∀ {cells : List (Nat × Word)}, d ∈ eraseCell a cells → d ∈ cells
  | [], h => h
  | (b, x) :: rest, h => by
    unfold eraseCell at h
    split at h
    · exact List.mem_cons_of_mem _ h
    · rcases List.mem_cons.mp h with h | h
      · exact h ▸ List.mem_cons_self
      · exact List.mem_cons_of_mem _ (mem_of_mem_eraseCell h)

/-- Inserting a cell lists that cell and nothing else new. -/
theorem mem_of_mem_insertCell {a : Nat} {v : Word} {d : Nat × Word} :
    ∀ {cells : List (Nat × Word)}, d ∈ insertCell a v cells → d = (a, v) ∨ d ∈ cells
  | [], h => by simpa [insertCell] using h
  | (b, x) :: rest, h => by
    unfold insertCell at h
    split at h
    · simpa using h
    · split at h
      · rcases List.mem_cons.mp h with h | h
        · exact Or.inl h
        · exact Or.inr (List.mem_cons_of_mem _ h)
      · rcases List.mem_cons.mp h with h | h
        · exact Or.inr (h ▸ List.mem_cons_self)
        · exact (mem_of_mem_insertCell h).imp id (List.mem_cons_of_mem _)

/-- Erasing a cell keeps the canonical form. -/
theorem eraseCell_wf (a : Nat) :
    ∀ {cells : List (Nat × Word)}, cellsWf cells = true → cellsWf (eraseCell a cells) = true
  | [], h => h
  | (b, x) :: rest, h => by
    obtain ⟨hx, hb, hr⟩ := (cellsWf_cons _ _).mp h
    unfold eraseCell
    split
    · exact hr
    · exact (cellsWf_cons _ _).mpr ⟨hx, fun d hd => hb d (mem_of_mem_eraseCell hd), eraseCell_wf a hr⟩

/-- Inserting a cell of a word that is not the unlisted one keeps the canonical form. -/
theorem insertCell_wf (a : Nat) {v : Word} (hv : v ≠ unlistedWord) :
    ∀ {cells : List (Nat × Word)}, cellsWf cells = true → cellsWf (insertCell a v cells) = true
  | [], _ => by simp [insertCell, cellsWf, hv]
  | (b, x) :: rest, h => by
    obtain ⟨hx, hb, hr⟩ := (cellsWf_cons _ _).mp h
    unfold insertCell
    split
    · rename_i hab
      refine (cellsWf_cons _ _).mpr ⟨hv, fun d hd => ?_, h⟩
      rcases List.mem_cons.mp hd with hd | hd
      · exact hd ▸ hab
      · exact Nat.lt_trans hab (hb d hd)
    · split
      · rename_i hab
        exact (cellsWf_cons _ _).mpr ⟨hv, fun d hd => hab ▸ hb d hd, hr⟩
      · rename_i hlt hne
        refine (cellsWf_cons _ _).mpr ⟨hx, fun d hd => ?_, insertCell_wf a hv hr⟩
        rcases mem_of_mem_insertCell hd with hd | hd
        · subst hd; simp only at hlt hne ⊢; omega
        · exact hb d hd

/-- Every write keeps the canonical form. -/
theorem writeCell_wf (a : Nat) (v : Word) {cells : List (Nat × Word)} (h : cellsWf cells = true) :
    cellsWf (writeCell a v cells) = true := by
  unfold writeCell
  split
  · exact eraseCell_wf a h
  · rename_i hv; exact insertCell_wf a hv h

/-- Every write of curve words keeps the canonical form. -/
theorem writeCurveWords_wf (blocks : List Nat) :
    ∀ (ws : List Word) (n : Nat) {cells : List (Nat × Word)}, cellsWf cells = true →
      cellsWf (writeCurveWords blocks n ws cells) = true
  | [], _, _, h => h
  | x :: rest, n, _, h => writeCurveWords_wf blocks rest (n + 1) (writeCell_wf _ x h)

/-- An address below every listed one reads as the unlisted word. -/
theorem readCell_of_lt {a : Nat} :
    ∀ {cells : List (Nat × Word)}, (∀ d ∈ cells, a < d.1) → readCell cells a = unlistedWord
  | [], _ => rfl
  | (b, x) :: rest, h => by
    have hb : a < b := h (b, x) List.mem_cons_self
    simp only [readCell, if_neg (Nat.ne_of_lt hb)]
    exact readCell_of_lt fun d hd => h d (List.mem_cons_of_mem _ hd)

/-- An erased cell reads as the unlisted word. -/
theorem readCell_eraseCell_same (a : Nat) :
    ∀ {cells : List (Nat × Word)}, cellsWf cells = true → readCell (eraseCell a cells) a = unlistedWord
  | [], _ => rfl
  | (b, x) :: rest, h => by
    obtain ⟨_, hb, hr⟩ := (cellsWf_cons _ _).mp h
    unfold eraseCell
    split
    · rename_i hab; exact readCell_of_lt fun d hd => hab ▸ hb d hd
    · rename_i hab; simpa only [readCell, if_neg hab] using readCell_eraseCell_same a hr

/-- Erasing a cell leaves every other address alone. -/
theorem readCell_eraseCell_of_ne {a b : Nat} (hab : b ≠ a) :
    ∀ (cells : List (Nat × Word)), readCell (eraseCell a cells) b = readCell cells b
  | [] => rfl
  | (c, x) :: rest => by
    unfold eraseCell
    split
    · rename_i hac; subst hac; simp only [readCell, if_neg hab]
    · simp only [readCell, readCell_eraseCell_of_ne hab rest]

/-- An inserted cell reads back. -/
theorem readCell_insertCell_same (a : Nat) (v : Word) :
    ∀ (cells : List (Nat × Word)), readCell (insertCell a v cells) a = v
  | [] => by simp [insertCell, readCell]
  | (b, x) :: rest => by
    unfold insertCell
    split
    · simp [readCell]
    · split
      · simp [readCell]
      · rename_i hne
        simpa only [readCell, if_neg hne] using readCell_insertCell_same a v rest

/-- Inserting a cell leaves every other address alone. -/
theorem readCell_insertCell_of_ne {a b : Nat} (v : Word) (hab : b ≠ a) :
    ∀ (cells : List (Nat × Word)), readCell (insertCell a v cells) b = readCell cells b
  | [] => by simp [insertCell, readCell, hab]
  | (c, x) :: rest => by
    unfold insertCell
    split
    · simp [readCell, hab]
    · split
      · rename_i hac; subst hac; simp [readCell, hab]
      · simp only [readCell, readCell_insertCell_of_ne v hab rest]

/-- A read after a write to the same address gives the word written. -/
theorem readCell_writeCell_same (a : Nat) (v : Word) {cells : List (Nat × Word)} (h : cellsWf cells = true) :
    readCell (writeCell a v cells) a = v := by
  unfold writeCell
  split
  · rename_i hv; rw [readCell_eraseCell_same a h, hv]
  · exact readCell_insertCell_same a v cells

/-- A write leaves every other address alone. -/
theorem readCell_writeCell_of_ne {a b : Nat} (v : Word) (hab : b ≠ a) (cells : List (Nat × Word)) :
    readCell (writeCell a v cells) b = readCell cells b := by
  unfold writeCell
  split
  · exact readCell_eraseCell_of_ne hab cells
  · exact readCell_insertCell_of_ne v hab cells

/-- Writing curve words lists only addresses of words of the curve. -/
theorem readCell_writeCurveWords_of_forall_ne (blocks : List Nat) {b : Nat} :
    ∀ (ws : List Word) (n : Nat) (cells : List (Nat × Word)),
      (∀ i, i < ws.length → b ≠ curveWordAddress blocks (n + i)) →
        readCell (writeCurveWords blocks n ws cells) b = readCell cells b
  | [], _, _, _ => rfl
  | x :: rest, n, cells, h => by
    have h0 : b ≠ curveWordAddress blocks n := h 0 (by simp)
    rw [writeCurveWords, readCell_writeCurveWords_of_forall_ne blocks rest (n + 1) _ fun i hi => by
      have := h (i + 1) (by simpa using hi)
      rwa [show n + (i + 1) = n + 1 + i by omega] at this]
    exact readCell_writeCell_of_ne x h0 cells

/-! ### Ascending lists -/

/-- Insertion adds the number and nothing else. -/
theorem mem_insertAsc {n x : Nat} : ∀ {set : List Nat}, x ∈ insertAsc n set ↔ x = n ∨ x ∈ set
  | [] => by simp [insertAsc]
  | m :: rest => by
    unfold insertAsc
    split
    · simp
    · split
      · rename_i h; subst h; simp
      · simp only [List.mem_cons, mem_insertAsc]; tauto

/-- Inserting a number that is not there permutes the list with the number in front. -/
theorem insertAsc_perm {n : Nat} : ∀ {set : List Nat}, n ∉ set → (insertAsc n set).Perm (n :: set)
  | [], _ => by simp [insertAsc]
  | m :: rest, h => by
    have hne : n ≠ m := fun e => h (e ▸ List.mem_cons_self)
    have hr : n ∉ rest := fun e => h (List.mem_cons_of_mem _ e)
    unfold insertAsc
    rw [if_neg hne]
    split
    · exact List.Perm.refl _
    · exact ((insertAsc_perm hr).cons m).trans (List.Perm.swap n m rest)

/-- Insertion keeps a list strictly ascending. -/
theorem insertAsc_ascending {n : Nat} :
    ∀ {set : List Nat}, set.Pairwise (· < ·) → (insertAsc n set).Pairwise (· < ·)
  | [], _ => by simp [insertAsc]
  | m :: rest, h => by
    obtain ⟨hm, hr⟩ := List.pairwise_cons.mp h
    unfold insertAsc
    split
    · rename_i hlt
      exact List.pairwise_cons.mpr ⟨fun x hx => by
        rcases List.mem_cons.mp hx with hx | hx
        · exact hx ▸ hlt
        · exact Nat.lt_trans hlt (hm x hx), h⟩
    · split
      · exact h
      · rename_i hlt hne
        refine List.pairwise_cons.mpr ⟨fun x hx => ?_, insertAsc_ascending hr⟩
        rcases mem_insertAsc.mp hx with hx | hx
        · omega
        · exact hm x hx

/-- What inserting every number of a list puts there. -/
theorem mem_insertAllAsc {m : Nat} : ∀ {ns set : List Nat}, m ∈ insertAllAsc ns set ↔ m ∈ ns ∨ m ∈ set
  | [], set => by simp [insertAllAsc]
  | n :: ns, set => by
    rw [show insertAllAsc (n :: ns) set = insertAllAsc ns (insertAsc n set) from rfl, mem_insertAllAsc, mem_insertAsc,
      List.mem_cons]
    tauto

/-- Inserting distinct numbers that are not there permutes the list with the numbers in front. -/
theorem insertAllAsc_perm : ∀ {ns set : List Nat}, (ns ++ set).Nodup → (insertAllAsc ns set).Perm (ns ++ set)
  | [], _, _ => List.Perm.refl _
  | n :: ns, set, h => by
    have hcons : (n :: (ns ++ set)).Nodup := h
    obtain ⟨hn, hrest⟩ := List.nodup_cons.mp hcons
    have hset : n ∉ set := fun e => hn (List.mem_append_right _ e)
    have hp : (ns ++ insertAsc n set).Perm (n :: (ns ++ set)) :=
      ((insertAsc_perm hset).append_left ns).trans List.perm_middle
    exact (insertAllAsc_perm (hp.nodup_iff.mpr hcons)).trans hp

/-- Inserting numbers keeps a list strictly ascending. -/
theorem insertAllAsc_ascending :
    ∀ {ns set : List Nat}, set.Pairwise (· < ·) → (insertAllAsc ns set).Pairwise (· < ·)
  | [], _, h => h
  | n :: ns, set, h => insertAllAsc_ascending (ns := ns) (set := insertAsc n set) (insertAsc_ascending h)

end Sys2Proof.Machine
end

