-- ==== Sys2Proof/Laws/StoreLaw.lean ====
section
/-! SUPPORT. The law of the store (R33) under the shared operations: the blocks of the free pool and of the block
lists stay a partition, and the words stay in canonical form. -/

namespace Sys2Proof.Machine

/-! ### Directory entries -/

/-- The entry just written, and every other one unchanged. -/
theorem curveEntry_setCurve (c d : Fin 32) (e : CurveEntry) (s : State) :
    curveEntry (setCurve c e s) d = if c = d then e else curveEntry s d := by
  simp [curveEntry, Vector.getElem_set, Fin.ext_iff]

/-- The entry just emptied, and every other one unchanged. -/
theorem curveEntry_emptyCurve (c d : Fin 32) (s : State) :
    curveEntry (emptyCurve c s) d = if c = d then emptiedEntry (curveEntry s c) else curveEntry s d := by
  simp [curveEntry, emptyCurve, Vector.getElem_set, Fin.ext_iff]

/-- Replacing one entry of a list replaces that entry's part of a collected list. -/
theorem exists_flatMap_set {α β : Type} (f : α → List β) :
    ∀ (l : List α) (i : Nat) (h : i < l.length), ∃ others : List β,
      (l.flatMap f).Perm (f l[i] ++ others) ∧ ∀ e, ((l.set i e).flatMap f).Perm (f e ++ others)
  | a :: l, 0, _ => ⟨l.flatMap f, by simp, fun e => by simp⟩
  | a :: l, i + 1, h => by
    have hi : i < l.length := by simpa using h
    obtain ⟨others, h1, h2⟩ := exists_flatMap_set f l i hi
    refine ⟨f a ++ others, ?_, fun e => ?_⟩
    · simpa using (h1.append_left (f a)).trans (by
        simpa [List.append_assoc] using (List.perm_append_comm (l₁ := f a) (l₂ := f (l[i]'hi))).append_right others)
    · simpa using ((h2 e).append_left (f a)).trans (by
        simpa [List.append_assoc] using (List.perm_append_comm (l₁ := f a) (l₂ := f e)).append_right others)

/-- The blocks of one curve and those of all others. -/
theorem exists_heldBlocks (s : State) (c : Fin 32) : ∃ others : List Nat,
    (heldBlocks s).Perm ((curveEntry s c).blocks ++ others) ∧
      ∀ t : State, ∀ e, t.curves = s.curves.set c e → (heldBlocks t).Perm (e.blocks ++ others) := by
  obtain ⟨others, h1, h2⟩ := exists_flatMap_set (fun e : CurveEntry => e.blocks) s.curves.toList c.val (by simp)
  refine ⟨others, by simpa [heldBlocks, curveEntry] using h1, fun t e ht => ?_⟩
  have := h2 e
  simpa [heldBlocks, ht, Vector.toList_set] using this

/-! ### The law under updates -/

/-- The law looks at the store and the directory only. -/
theorem StoreLaw.congr {s t : State} (h : StoreLaw s) (hs : t.store = s.store) (hc : t.curves = s.curves) :
    StoreLaw t := by
  refine ⟨hs ▸ h.canonical, hs ▸ h.bounded, hs ▸ h.ascending, ?_⟩
  simpa only [heldBlocks, hs, hc] using h.partition

/-- A directory entry changed without its blocks keeps the law. -/
theorem StoreLaw.set_entry {s t : State} (h : StoreLaw s) {c : Fin 32} {e : CurveEntry}
    (hc : t.curves = s.curves.set c e) (hs : t.store = s.store) (hb : e.blocks = (curveEntry s c).blocks) :
    StoreLaw t := by
  obtain ⟨others, h1, h2⟩ := exists_heldBlocks s c
  refine ⟨hs ▸ h.canonical, hs ▸ h.bounded, hs ▸ h.ascending, ?_⟩
  rw [hs]
  exact ((((h2 t e hc).trans (hb ▸ h1.symm)).append_left _).trans h.partition)

/-- No block is in two places. -/
theorem StoreLaw.nodup {s : State} (h : StoreLaw s) : (s.store.free ++ heldBlocks s).Nodup :=
  h.partition.nodup_iff.mpr List.nodup_range

/-- The blocks of a curve are numbers of blocks. -/
theorem StoreLaw.block_lt {s : State} (h : StoreLaw s) {c : Fin 32} {b : Nat}
    (hb : b ∈ (curveEntry s c).blocks) : b < Config.blockCount := by
  obtain ⟨others, h1, _⟩ := exists_heldBlocks s c
  have hm : b ∈ s.store.free ++ heldBlocks s :=
    List.mem_append_right _ (h1.mem_iff.mpr (List.mem_append_left _ hb))
  exact List.mem_range.mp (h.partition.mem_iff.mp hm)

/-- R23: emptying a curve keeps the law. -/
theorem StoreLaw.emptyCurve {s : State} (h : StoreLaw s) (c : Fin 32) : StoreLaw (emptyCurve c s) := by
  obtain ⟨others, h1, h2⟩ := exists_heldBlocks s c
  have hheld : (heldBlocks (Machine.emptyCurve c s)).Perm others := by
    simpa [emptiedEntry] using h2 _ (emptiedEntry (curveEntry s c)) (emptyCurve_value c s).1
  have hall : (s.store.free ++ heldBlocks s).Perm ((curveEntry s c).blocks ++ s.store.free ++ others) :=
    (h1.append_left _).trans (by
      simpa [List.append_assoc] using
        (List.perm_append_comm (l₁ := s.store.free) (l₂ := (curveEntry s c).blocks)).append_right others)
  have hnd : ((curveEntry s c).blocks ++ s.store.free).Nodup :=
    (List.nodup_append.mp (hall.nodup_iff.mp h.nodup)).1
  refine ⟨by simpa using h.canonical, by simpa using h.bounded, ?_, ?_⟩
  · simpa using insertAllAsc_ascending h.ascending
  · rw [(emptyCurve_value c s).2]
    exact (((insertAllAsc_perm hnd).append hheld).trans hall.symm).trans h.partition

/-- R27: releasing a reference keeps the law. -/
theorem StoreLaw.releaseReference {s : State} (h : StoreLaw s) (c : Fin 32) : StoreLaw (releaseReference c s) := by
  unfold Machine.releaseReference
  split
  · exact h.emptyCurve c
  · exact h.set_entry (c := c) rfl rfl rfl

/-- R151: posting a record keeps the law. -/
theorem StoreLaw.postJob {s : State} (h : StoreLaw s) (j : Job) (st : JobStatus) (v : Option Value)
    (e : Option BusErr) : StoreLaw (postJob j st v e s) := by
  have hp : StoreLaw (Machine.releaseReference j.desc.curve
      (appendRecord (buildRecord s j st v e) s)) :=
    (h.congr (t := appendRecord (buildRecord s j st v e) s) (by simp) (by simp)).releaseReference _
  unfold Machine.postJob
  simp only
  split
  · exact hp.congr (by simp) (by simp)
  · exact hp

/-- R94: ending the running job keeps the law. -/
theorem StoreLaw.endRunning {s : State} (h : StoreLaw s) (r : RunningJob) (st : JobStatus) (e : Option BusErr) :
    StoreLaw (endRunning r st e s) :=
  (h.postJob r.job st (recordResult r) e).congr (by simp [Machine.endRunning]) (by simp [Machine.endRunning])

/-- R89, R91: applying an exception policy keeps the law. -/
theorem StoreLaw.applyException {s : State} (h : StoreLaw s) (r : RunningJob) (e : Exc) (a : Value) :
    StoreLaw (applyException r e a s) := by
  unfold Machine.applyException
  split
  · unfold applyMark
    dsimp only
    split
    · exact h.congr (by simp) (by simp)
    · exact h.endRunning _ _ _
  · exact h.endRunning _ _ _
  · unfold applyHold
    split
    · exact h.congr (by simp) (by simp)
    · exact h.endRunning _ _ _

/-- R125: a continuation keeps the law. -/
theorem StoreLaw.startContinuation {s : State} (h : StoreLaw s) (j : Job) (a : HoldAction) :
    StoreLaw (startContinuation j a s) := by
  unfold Machine.startContinuation deliverContinuation
  repeat' split
  all_goals first
    | exact h.endRunning _ _ _
    | exact h.congr (by simp) (by simp)

/-- R101: a hand-over keeps the law. -/
theorem StoreLaw.handOver {s : State} (h : StoreLaw s) (src : Source) : StoreLaw (handOver src s) := by
  unfold Machine.handOver
  repeat' split
  all_goals first
    | exact StoreLaw.startContinuation (h.congr (by simp) (by simp)) _ _
    | exact h.congr (by simp) (by simp)

/-! ### Taking words (R34, R42) -/

/-- The address of a curve word lies within the store. -/
theorem curveWordAddress_lt {blocks : List Nat} (h : ∀ b ∈ blocks, b < Config.blockCount) (n : Nat) :
    curveWordAddress blocks n < Config.blockCount * Config.blockWords := by
  have hb : blocks.getD (n / Config.blockWords) 0 < Config.blockCount := by
    rw [List.getD_eq_getElem?_getD]
    cases hg : blocks[n / Config.blockWords]? with
    | none => exact by decide
    | some b => exact h b (List.mem_of_getElem? hg)
  have hn : n % Config.blockWords < Config.blockWords := Nat.mod_lt _ (by decide)
  unfold curveWordAddress
  simp only [Config.blockWords, Config.blockCount] at *
  omega

/-- A write lists no address but its own. -/
theorem writeCell_bounded {a m : Nat} (v : Word) (ha : a < m) {cells : List (Nat × Word)}
    (h : ∀ c ∈ cells, c.1 < m) : ∀ c ∈ writeCell a v cells, c.1 < m := by
  intro c hc
  unfold writeCell at hc
  split at hc
  · exact h c (mem_of_mem_eraseCell hc)
  · rcases mem_of_mem_insertCell hc with hc | hc
    · exact hc ▸ ha
    · exact h c hc

/-- Writing curve words lists only addresses of the store. -/
theorem writeCurveWords_bounded {blocks : List Nat} (hb : ∀ b ∈ blocks, b < Config.blockCount) :
    ∀ (ws : List Word) (n : Nat) {cells : List (Nat × Word)},
      (∀ c ∈ cells, c.1 < Config.blockCount * Config.blockWords) →
        ∀ c ∈ writeCurveWords blocks n ws cells, c.1 < Config.blockCount * Config.blockWords
  | [], _, _, h => h
  | x :: rest, n, _, h =>
    writeCurveWords_bounded hb rest (n + 1) (writeCell_bounded x (curveWordAddress_lt hb n) h)

/-- R42, step 3: storing a value keeps the law. -/
theorem StoreLaw.storeWords {s : State} (h : StoreLaw s) {blocks : List Nat}
    (hb : ∀ b ∈ blocks, b < Config.blockCount) (ws : List Word) (cur : Cursor) :
    StoreLaw (storeWords blocks ws cur s) :=
  ⟨writeCurveWords_wf _ _ _ h.canonical, writeCurveWords_bounded hb ws _ h.bounded, h.ascending, h.partition⟩

/-- R34: taking the lowest free block keeps the law. -/
theorem StoreLaw.takeBlock {s : State} (h : StoreLaw s) {b : Nat} {rest : List Nat}
    (hf : s.store.free = b :: rest) : StoreLaw (takeBlock b rest s) := by
  obtain ⟨others, h1, h2⟩ := exists_heldBlocks s s.load.curve
  have hheld := h2 (Machine.takeBlock b rest s)
    { curveEntry s s.load.curve with blocks := (curveEntry s s.load.curve).blocks ++ [b] } rfl
  refine ⟨h.canonical, h.bounded, ?_, ?_⟩
  · have ha := h.ascending
    rw [hf] at ha
    exact (List.pairwise_cons.mp ha).2
  · refine List.Perm.trans ?_ h.partition
    rw [hf]
    show (rest ++ heldBlocks (Machine.takeBlock b rest s)).Perm _
    rw [List.perm_iff_count] at *
    intro a
    have ha := h1 a
    have hb := hheld a
    simp only [List.count_append, List.count_cons, List.count_nil] at *
    omega

/-- R46: a failure of the session keeps the law. -/
theorem StoreLaw.failSession {s : State} (h : StoreLaw s) (reason : LoadReason) : StoreLaw (failSession reason s) :=
  StoreLaw.congr (s := Machine.emptyCurve s.load.curve _)
    (StoreLaw.emptyCurve (h.congr rfl rfl) s.load.curve) (by simp [Machine.failSession]; rfl)
    (by simp [Machine.failSession]; rfl)

/-- R42: placing a value keeps the law. -/
theorem StoreLaw.placeValue {s : State} (h : StoreLaw s) (ws : List Word) (cur : Cursor) :
    StoreLaw (placeValue ws cur s) := by
  unfold Machine.placeValue
  split
  · split
    · exact h.failSession _
    · rename_i b rest hf
      refine StoreLaw.storeWords (h.takeBlock hf) (fun x hx => ?_) ws cur
      rcases List.mem_append.mp hx with hx | hx
      · exact h.block_lt hx
      · have hx : x = b := by simpa using hx
        have hm : b ∈ s.store.free ++ heldBlocks s := by simp [hf]
        exact hx ▸ List.mem_range.mp (h.partition.mem_iff.mp hm)
  · exact h.storeWords (fun x hx => h.block_lt hx) ws cur

/-- R41 to R46: a word taken by the cursor keeps the law. -/
theorem StoreLaw.takeLoadWord {s : State} (h : StoreLaw s) (x : Word) : StoreLaw (takeLoadWord x s) := by
  unfold Machine.takeLoadWord takeHalf takeValue completeValue
  simp only
  repeat' split
  all_goals first
    | exact h.failSession _
    | exact h.placeValue _ _
    | exact h.congr rfl rfl

/-! ### Resets -/

/-- The blocks of an entry are those it returns at the completion of ENGINE_RESET and those it keeps. -/
theorem resetEntry_blocks (e : CurveEntry) : resetFreed e ++ (resetEntry e).blocks = e.blocks := by
  unfold resetFreed resetEntry emptiedEntry
  split <;> simp_all

/-- The blocks of all entries are those returned at the completion of ENGINE_RESET and those kept. -/
theorem flatMap_resetEntry_perm :
    ∀ l : List CurveEntry,
      (l.flatMap resetFreed ++ (l.map resetEntry).flatMap (·.blocks)).Perm (l.flatMap (·.blocks))
  | [] => List.Perm.refl _
  | e :: l => by
    have ih := flatMap_resetEntry_perm l
    have he := resetEntry_blocks e
    rw [List.perm_iff_count] at *
    intro a
    have ha := ih a
    have hb := congrArg (List.count a) he
    simp only [List.flatMap_cons, List.map_cons, List.count_append] at *
    omega

/-- R31: the completion of ENGINE_RESET keeps the law. -/
theorem StoreLaw.completeReset {s : State} (h : StoreLaw s) : StoreLaw (completeReset s) := by
  have hperm := flatMap_resetEntry_perm s.curves.toArray.toList
  have hheld : heldBlocks (Machine.completeReset s) =
      (s.curves.toArray.toList.map resetEntry).flatMap (·.blocks) := by
    simp [heldBlocks, Machine.completeReset, setEvent, clearEvents, mapCurves]
  have hfree : (Machine.completeReset s).store.free =
      insertAllAsc (s.curves.toArray.toList.flatMap resetFreed) s.store.free := rfl
  have hall : (s.store.free ++ heldBlocks s).Perm
      (s.curves.toArray.toList.flatMap resetFreed ++ s.store.free ++
        (s.curves.toArray.toList.map resetEntry).flatMap (·.blocks)) := by
    have hh : heldBlocks s = s.curves.toArray.toList.flatMap (·.blocks) := rfl
    rw [hh]
    rw [List.perm_iff_count] at *
    intro a
    have ha := hperm a
    simp only [List.count_append] at *
    omega
  refine ⟨h.canonical, h.bounded, ?_, ?_⟩
  · rw [hfree]; exact insertAllAsc_ascending h.ascending
  · rw [hfree, hheld]
    have hnd := (List.nodup_append.mp (hall.nodup_iff.mp h.nodup)).1
    exact (((insertAllAsc_perm hnd).append_right _).trans hall.symm).trans h.partition

/-- A state whose curves hold no block and whose pool is full satisfies the law. -/
theorem StoreLaw.of_empty {s : State} (hw : s.store.words = []) (hf : s.store.free = List.range Config.blockCount)
    (hh : heldBlocks s = []) : StoreLaw s :=
  ⟨by rw [hw]; rfl, by simp [hw], by rw [hf]; exact List.pairwise_lt_range, by simp [hf, hh]⟩

/-- Memory after hard reset satisfies the law. -/
theorem StoreLaw.reset : StoreLaw State.reset := StoreLaw.of_empty rfl rfl (by decide)

end Sys2Proof.Machine
end

