-- ==== Sys2Proof/Laws/Places.lean ====
section
/-! SUPPORT. The places of the jobs (R62): how each shared operation moves a job, counted by tag and curve. -/

namespace Sys2Proof.Machine

/-! ### Queues and slots -/

/-- The queue just replaced, and every other one unchanged. -/
@[simp] theorem queueOf_setQueue (l k : Fin 4) (q : List Job) (s : State) :
    queueOf (setQueue l q s) k = if l = k then q else queueOf s k := by
  simp [queueOf, Vector.getElem_set, Fin.ext_iff]

/-- The slot just replaced, and every other one unchanged; level 3 has none. -/
@[simp] theorem slotOf_setSlot (l k : Fin 4) (x : Option Suspended) (s : State) :
    slotOf (setSlot l x s) k = if l = k ∧ k.val < 3 then x else slotOf s k := by
  unfold slotOf setSlot
  by_cases hl : l.val < 3
  · simp only [hl, dif_pos]
    by_cases hk : k.val < 3
    · simp [hk, Vector.getElem_set, Fin.ext_iff]
    · simp [hk]
  · by_cases hk : k.val < 3
    · have : l ≠ k := fun e => hl (e ▸ hk)
      simp [hl, hk, this]
    · simp [hk]

/-- Level 3 has no context slot (R98). -/
@[simp] theorem slotOf_three (s : State) : slotOf s 3 = none := by simp [slotOf]

/-- Queues depend on intake only. -/
theorem queueOf_congr {s t : State} (h : t.intake = s.intake) (l : Fin 4) : queueOf t l = queueOf s l := by
  simp [queueOf, h]

/-- Slots depend on the slots only. -/
theorem slotOf_congr {s t : State} (h : t.slots = s.slots) (l : Fin 4) : slotOf t l = slotOf s l := by
  simp [slotOf, h]

/-! ### Counting live jobs -/

/-- How many of the jobs have a tag and a curve that satisfy `q`. -/
def jobCount (q : Nat → Fin 32 → Bool) (jobs : List Job) : Nat := jobs.countP fun j => q j.tag j.desc.curve

/-- How many live jobs have a tag and a curve that satisfy `q`. -/
def liveCount (q : Nat → Fin 32 → Bool) (s : State) : Nat := jobCount q (liveJobs s)

@[simp] theorem jobCount_nil (q : Nat → Fin 32 → Bool) : jobCount q [] = 0 := rfl

@[simp] theorem jobCount_cons (q : Nat → Fin 32 → Bool) (j : Job) (js : List Job) :
    jobCount q (j :: js) = jobCount q js + (q j.tag j.desc.curve).toNat := by
  cases h : q j.tag j.desc.curve <;> simp [jobCount, h]

@[simp] theorem jobCount_append (q : Nat → Fin 32 → Bool) (js ks : List Job) :
    jobCount q (js ++ ks) = jobCount q js + jobCount q ks := by
  simp [jobCount]

/-- The part of the count in the queues. -/
def queueCount (q : Nat → Fin 32 → Bool) (s : State) : Nat :=
  jobCount q (queueOf s 3) + jobCount q (queueOf s 2) + jobCount q (queueOf s 1) + jobCount q (queueOf s 0)

/-- The part of the count in the engine. -/
def engineCount (q : Nat → Fin 32 → Bool) (s : State) : Nat :=
  jobCount q (s.engine.running.map (·.job)).toList

/-- The part of the count in the context slots. -/
def slotCount (q : Nat → Fin 32 → Bool) (s : State) : Nat :=
  jobCount q ((slotOf s 2).map (·.job)).toList + jobCount q ((slotOf s 1).map (·.job)).toList
    + jobCount q ((slotOf s 0).map (·.job)).toList

/-- The part of the count in the hold slot. -/
def holdCount (q : Nat → Fin 32 → Bool) (s : State) : Nat := jobCount q (s.hold.map (·.job)).toList

/-- The live jobs are those of the four kinds of place. -/
theorem liveCount_eq (q : Nat → Fin 32 → Bool) (s : State) :
    liveCount q s = queueCount q s + engineCount q s + slotCount q s + holdCount q s := by
  simp [liveCount, liveJobs, queueCount, engineCount, slotCount, holdCount, levelsDown]
  omega

/-- The places of two states agree. -/
theorem liveCount_congr (q : Nat → Fin 32 → Bool) {s t : State} (hi : t.intake.queues = s.intake.queues)
    (hr : t.engine.running = s.engine.running) (hs : t.slots = s.slots) (hh : t.hold = s.hold) :
    liveCount q t = liveCount q s := by
  have hq : queueOf t = queueOf s := funext fun l => by simp [queueOf, hi]
  have hsl : slotOf t = slotOf s := funext fun l => by simp [slotOf, hs]
  simp [liveCount, liveJobs, hq, hsl, hr, hh]

/-- Replacing a queue. -/
theorem queueCount_setQueue (q : Nat → Fin 32 → Bool) (l : Fin 4) (js : List Job) (s : State) :
    queueCount q (setQueue l js s) + jobCount q (queueOf s l) = queueCount q s + jobCount q js := by
  unfold queueCount
  fin_cases l <;> simp <;> omega

/-- Replacing a slot of a level below 3. -/
theorem slotCount_setSlot (q : Nat → Fin 32 → Bool) (l : Fin 4) (x : Option Suspended) (s : State)
    (hl : l.val < 3) :
    slotCount q (setSlot l x s) + jobCount q ((slotOf s l).map (·.job)).toList =
      slotCount q s + jobCount q (x.map (·.job)).toList := by
  unfold slotCount
  fin_cases l <;> first | (simp; omega) | simp at hl

/-- Removing a slot's content, of any level. -/
theorem slotCount_clearSlot (q : Nat → Fin 32 → Bool) (l : Fin 4) (s : State) :
    slotCount q (setSlot l none s) + jobCount q ((slotOf s l).map (·.job)).toList = slotCount q s := by
  unfold slotCount
  fin_cases l <;> simp <;> omega

/-! ### Tag law and count law by counting -/

/-- R62 by counting: each tag below 48 is in one place, every other tag in none. -/
theorem tagPartition_iff (s : State) :
    (s.intake.freeTags ++ (liveJobs s).map (·.tag) ++ recordTags s).Perm (List.range Config.tagCount) ↔
      ∀ t, s.intake.freeTags.count t + liveCount (fun a _ => decide (a = t)) s + (recordTags s).count t =
        (List.range Config.tagCount).count t := by
  rw [List.perm_iff_count]
  refine forall_congr' fun t => ?_
  have : List.count t ((liveJobs s).map (·.tag)) = liveCount (fun a _ => decide (a = t)) s := by
    simp only [liveCount, jobCount, List.count, List.countP_map]
    congr 1
  simp only [List.count_append, this]

/-- R27 by counting. -/
theorem countLaw_iff (s : State) :
    CountLaw s ↔ ∀ c, (curveEntry s c).refCount = liveCount (fun _ d => decide (d = c)) s := Iff.rfl

/-! ### Posting -/

/-- R27: a posting lowers the count of the job's curve by one and changes no other count. -/
theorem refCount_releaseReference (c d : Fin 32) (s : State) :
    (curveEntry (releaseReference c s) d).refCount =
      if c = d then (curveEntry s d).refCount - 1 else (curveEntry s d).refCount := by
  unfold releaseReference
  split
  · rename_i h
    rw [curveEntry_emptyCurve]
    split
    · rename_i hcd; subst hcd; simp only [emptiedEntry]; omega
    · rfl
  · rw [curveEntry_setCurve]
    split
    · rename_i hcd; subst hcd; rfl
    · rfl

/-- A directory entry depends on the directory only. -/
theorem curveEntry_congr {s t : State} (h : t.curves = s.curves) (c : Fin 32) : curveEntry t c = curveEntry s c := by
  simp [curveEntry, h]

/-- R27, R151: the counts after a posting. -/
theorem refCount_postJob (j : Job) (st : JobStatus) (v : Option Value) (e : Option BusErr) (s : State)
    (d : Fin 32) :
    (curveEntry (postJob j st v e s) d).refCount =
      if j.desc.curve = d then (curveEntry s d).refCount - 1 else (curveEntry s d).refCount := by
  have h := refCount_releaseReference j.desc.curve d (appendRecord (buildRecord s j st v e) s)
  have ha : ∀ c, curveEntry (appendRecord (buildRecord s j st v e) s) c = curveEntry s c :=
    fun c => curveEntry_congr (by simp) c
  rw [ha] at h
  unfold postJob
  dsimp only
  split
  · exact (congrArg (·.refCount) (curveEntry_congr (setEvent_frame _ _).2.2.2.1 d)).trans h
  · exact h

/-- R151: the queue after a posting ends with the job's record. -/
theorem records_postJob (j : Job) (st : JobStatus) (v : Option Value) (e : Option BusErr) (s : State) :
    (postJob j st v e s).completion.records = s.completion.records ++ [buildRecord s j st v e] := by
  unfold postJob
  dsimp only
  split <;> simp

/-- R151: the tag of the posted record is the job's. -/
theorem recordTags_postJob (j : Job) (st : JobStatus) (v : Option Value) (e : Option BusErr) (s : State) :
    recordTags (postJob j st v e s) = recordTags s ++ [j.tag] := by
  simp [recordTags, records_postJob, buildRecord]

/-- A posting moves no job. -/
theorem liveCount_postJob (q : Nat → Fin 32 → Bool) (j : Job) (st : JobStatus) (v : Option Value)
    (e : Option BusErr) (s : State) : liveCount q (postJob j st v e s) = liveCount q s :=
  liveCount_congr q (by simp) (by simp) (by simp) (by simp)

/-! ### Leaving the engine -/

/-- A job that leaves the engine leaves the count. -/
theorem liveCount_leaveEngine (q : Nat → Fin 32 → Bool) (s : State) :
    liveCount q (leaveEngine s) + engineCount q s = liveCount q s := by
  have h1 : queueCount q (leaveEngine s) = queueCount q s := by simp [queueCount, queueOf]
  have h2 : slotCount q (leaveEngine s) = slotCount q s := by simp [slotCount, slotOf]
  have h3 : holdCount q (leaveEngine s) = holdCount q s := by simp [holdCount]
  have h4 : engineCount q (leaveEngine s) = 0 := by simp [engineCount]
  rw [liveCount_eq, liveCount_eq q s, h1, h2, h3, h4]
  omega

/-- The count in the engine while it holds a job. -/
theorem engineCount_of_running {q : Nat → Fin 32 → Bool} {s : State} {r : RunningJob}
    (h : s.engine.running = some r) :
    engineCount q s = (q r.job.tag r.job.desc.curve).toNat := by
  simp [engineCount, h]

/-- R94: the end of the running job takes it out of the count. -/
theorem liveCount_endRunning (q : Nat → Fin 32 → Bool) (r : RunningJob) (st : JobStatus) (e : Option BusErr)
    (s : State) : liveCount q (endRunning r st e s) + engineCount q s = liveCount q s := by
  have h := liveCount_leaveEngine q (postJob r.job st (recordResult r) e s)
  rw [liveCount_postJob] at h
  have he : engineCount q (postJob r.job st (recordResult r) e s) = engineCount q s := by simp [engineCount]
  rw [he] at h
  exact h

/-- R86, R110: a suspension keeps the count, the slot of the job's level being EMPTY. -/
theorem liveCount_suspend (q : Nat → Fin 32 → Bool) {r r' : RunningJob} {s : State} (p : Option PartialPart)
    (hr : s.engine.running = some r') (ht : r.job.tag = r'.job.tag) (hc : r.job.desc.curve = r'.job.desc.curve)
    (hl : r.job.level.val < 3) (hs : slotOf s r.job.level = none) :
    liveCount q (suspend r p s) = liveCount q s := by
  have hv := liveCount_leaveEngine q s
  have hslot := slotCount_setSlot q r.job.level (some { job := r.job, part := p }) (leaveEngine s) hl
  have hs' : slotOf (leaveEngine s) r.job.level = none := by rw [slotOf_congr (s := s) (by simp), hs]
  rw [engineCount_of_running hr] at hv
  rw [hs'] at hslot
  have h1 : queueCount q (suspend r p s) = queueCount q (leaveEngine s) := by simp [queueCount, queueOf, suspend]
  have h2 : holdCount q (suspend r p s) = holdCount q (leaveEngine s) := by simp [holdCount, suspend]
  have h3 : engineCount q (suspend r p s) = engineCount q (leaveEngine s) := by simp [engineCount, suspend]
  have h4 : slotCount q (suspend r p s) = slotCount q (setSlot r.job.level (some { job := r.job, part := p })
    (leaveEngine s)) := rfl
  rw [liveCount_eq, h1, h2, h3, h4]
  rw [liveCount_eq] at hv
  simp only [Option.map_some, Option.map_none, Option.toList_some, Option.toList_none, jobCount_cons, jobCount_nil,
    ht, hc] at hslot
  omega

/-! ### Places -/

/-- The law of places looks at the queues, the slots and the engine only. -/
theorem PlaceLaw.congr {s t : State} (h : PlaceLaw s) (hi : t.intake.queues = s.intake.queues)
    (hs : t.slots = s.slots) (hst : t.engine.state = s.engine.state) (hr : t.engine.running = s.engine.running) :
    PlaceLaw t := by
  have hq : ∀ l, queueOf t l = queueOf s l := fun l => by simp [queueOf, hi]
  have hsl : ∀ l, slotOf t l = slotOf s l := fun l => slotOf_congr hs l
  refine ⟨fun l => hq l ▸ h.queueLevel l, fun l => hq l ▸ h.queueLength l, fun l => hsl l ▸ h.slotLevel l,
    fun r hr' => ?_, fun h1 => ?_, fun h1 h2 => ?_⟩
  · rw [hsl]; exact h.slotFree r (hr ▸ hr')
  · rw [hr]; exact h.idle (hst ▸ h1)
  · rw [hr]; exact h.working (hst ▸ h1) (hst ▸ h2)

/-- An engine that goes on with the job of the same level keeps the law of places. -/
theorem PlaceLaw.go_on {s t : State} {r r' : RunningJob} (h : PlaceLaw s) (hr : s.engine.running = some r)
    (hi : t.intake.queues = s.intake.queues) (hs : t.slots = s.slots) (ht : t.engine.running = some r')
    (hl : r'.job.level = r.job.level) (hst : t.engine.state ≠ .idle) : PlaceLaw t := by
  have hq : ∀ l, queueOf t l = queueOf s l := fun l => by simp [queueOf, hi]
  have hsl : ∀ l, slotOf t l = slotOf s l := fun l => slotOf_congr hs l
  refine ⟨fun l => hq l ▸ h.queueLevel l, fun l => hq l ▸ h.queueLength l, fun l => hsl l ▸ h.slotLevel l,
    fun x hx => ?_, fun h1 => absurd h1 hst, fun _ _ => by simp [ht]⟩
  have hxr : x = r' := by rw [ht] at hx; exact (Option.some.inj hx).symm
  rw [hsl, hxr, hl]
  exact h.slotFree r hr

/-- An engine that has become IDLE keeps the law of places. -/
theorem PlaceLaw.go_idle {s t : State} (h : PlaceLaw s) (hi : t.intake.queues = s.intake.queues)
    (hs : t.slots = s.slots) (hst : t.engine.state = .idle) (hr : t.engine.running = none) : PlaceLaw t := by
  have hq : ∀ l, queueOf t l = queueOf s l := fun l => by simp [queueOf, hi]
  have hsl : ∀ l, slotOf t l = slotOf s l := fun l => slotOf_congr hs l
  refine ⟨fun l => hq l ▸ h.queueLevel l, fun l => hq l ▸ h.queueLength l, fun l => hsl l ▸ h.slotLevel l,
    fun r hr' => ?_, fun _ => hr, fun h1 => absurd hst h1⟩
  rw [hr] at hr'; exact absurd hr' (by simp)

/-- R94: the end of the running job keeps the law of places. -/
theorem PlaceLaw.endRunning {s : State} (h : PlaceLaw s) (r : RunningJob) (st : JobStatus) (e : Option BusErr) :
    PlaceLaw (endRunning r st e s) :=
  h.go_idle (by simp) (by simp) (by simp [Machine.endRunning]) (by simp [Machine.endRunning])

/-- R110, R111: a suspension keeps the law of places. -/
theorem PlaceLaw.suspend {s : State} (h : PlaceLaw s) (r : RunningJob) (p : Option PartialPart) :
    PlaceLaw (suspend r p s) := by
  have hq : ∀ l, queueOf (Machine.suspend r p s) l = queueOf s l := fun l => queueOf_congr (by simp) l
  have hsl : ∀ l, slotOf (Machine.suspend r p s) l =
      if r.job.level = l ∧ l.val < 3 then some { job := r.job, part := p } else slotOf s l := fun l => by
    unfold Machine.suspend
    rw [slotOf_setSlot, slotOf_congr (s := s) (t := leaveEngine s) (by simp)]
  refine ⟨fun l => hq l ▸ h.queueLevel l, fun l => hq l ▸ h.queueLength l, fun l x hx => ?_, fun x hx => ?_,
    fun _ => by simp [Machine.suspend], fun h1 => absurd (by simp [Machine.suspend]) h1⟩
  · rw [hsl] at hx
    split at hx
    · rename_i hl
      have := Option.some.inj hx
      subst this; exact hl.1
    · exact h.slotLevel l x hx
  · simp [Machine.suspend] at hx

/-! ### The yield request -/

/-- What the yield request should be depends on CONTROL, the sources and the running job's level only. -/
theorem yieldDue_congr {s t : State} (hc : t.control = s.control) (hi : t.intake.queues = s.intake.queues)
    (hs : t.slots = s.slots) (hh : t.hold = s.hold)
    (hr : t.engine.running.map (fun r => r.job.level) = s.engine.running.map (fun r => r.job.level)) :
    yieldDue t = yieldDue s := by
  have he : ∀ l, eligibleSource t l = eligibleSource s l := fun l => by
    have hq : queueOf t l = queueOf s l := by simp [queueOf, hi]
    unfold eligibleSource levelEnabled sourceAt holdSource queueSource
    rw [hc, hh, hq, slotOf_congr hs]
  unfold yieldDue
  cases ht : t.engine.running <;> cases hs' : s.engine.running <;> simp_all [higherSource]

/-- The law of the yield request looks at its inputs only. -/
theorem YieldLaw.congr {s t : State} (h : YieldLaw s) (hy : t.yieldRequest = s.yieldRequest)
    (hc : t.control = s.control) (hi : t.intake.queues = s.intake.queues)
    (hs : t.slots = s.slots) (hh : t.hold = s.hold)
    (hr : t.engine.running.map (fun r => r.job.level) = s.engine.running.map (fun r => r.job.level)) :
    YieldLaw t := by
  unfold YieldLaw at *
  rw [hy, h, yieldDue_congr hc hi hs hh hr]

/-- Without a running job the request is lowered. -/
theorem YieldLaw.of_empty {s : State} (hy : s.yieldRequest = false) (hr : s.engine.running = none) :
    YieldLaw s := by
  simp [YieldLaw, yieldDue, hy, hr]

/-- R105: the request set afresh. -/
theorem YieldLaw.refreshYield (s : State) : YieldLaw (refreshYield s) := by
  have h : yieldDue (Machine.refreshYield s) = yieldDue s :=
    yieldDue_congr (by simp) (by simp) (by simp) (by simp) (by simp)
  simp [YieldLaw, h]

end Sys2Proof.Machine
end

