-- ==== Sys2Proof/Laws/JobLaw.lean ====
section
/-! SUPPORT. The laws of the job set (R27, R62, R105, R111) under the shared operations: each keeps them together. -/

namespace Sys2Proof.Machine

/-- The laws of the job set but for the yield request. -/
structure JobSetLaw (s : State) : Prop where
  place : PlaceLaw s
  tag : TagLaw s
  count : CountLaw s

/-- The laws of the job set. -/
structure JobLaw (s : State) : Prop extends JobSetLaw s where
  yield : YieldLaw s

/-- The tag law from the counts. -/
theorem TagLaw.of_counts {s t : State} (h : TagLaw s) (ha : t.intake.freeTags.Pairwise (· < ·))
    (hc : ∀ n, t.intake.freeTags.count n + liveCount (fun a _ => decide (a = n)) t + (recordTags t).count n =
      s.intake.freeTags.count n + liveCount (fun a _ => decide (a = n)) s + (recordTags s).count n) : TagLaw t :=
  ⟨ha, (tagPartition_iff t).mpr fun n => (hc n).trans ((tagPartition_iff s).mp h.partition n)⟩

/-- A change that touches no place, no record, no free tag and no count. -/
theorem JobSetLaw.congr {s t : State} (h : JobSetLaw s) (hi : t.intake.queues = s.intake.queues)
    (hf : t.intake.freeTags = s.intake.freeTags) (hs : t.slots = s.slots)
    (hst : t.engine.state = s.engine.state) (hr : t.engine.running = s.engine.running) (hh : t.hold = s.hold)
    (hrec : recordTags t = recordTags s)
    (hcnt : ∀ c, (curveEntry t c).refCount = (curveEntry s c).refCount) : JobSetLaw t := by
  refine ⟨h.place.congr hi hs hst hr, h.tag.of_counts (hf ▸ h.tag.ascending) fun n => ?_, fun c => ?_⟩
  · rw [liveCount_congr _ hi hr hs hh, hf, hrec]
  · rw [hcnt, h.count c]
    exact (liveCount_congr (fun _ d => decide (d = c)) hi hr hs hh).symm

/-- A change that touches no place, no record, no free tag, no count and no input of the yield request. -/
theorem JobLaw.congr {s t : State} (h : JobLaw s) (hi : t.intake.queues = s.intake.queues)
    (hf : t.intake.freeTags = s.intake.freeTags) (hs : t.slots = s.slots)
    (hst : t.engine.state = s.engine.state) (hr : t.engine.running = s.engine.running) (hh : t.hold = s.hold)
    (hrec : recordTags t = recordTags s)
    (hcnt : ∀ c, (curveEntry t c).refCount = (curveEntry s c).refCount)
    (hy : t.yieldRequest = s.yieldRequest) (hct : t.control = s.control) : JobLaw t :=
  ⟨h.toJobSetLaw.congr hi hf hs hst hr hh hrec hcnt, h.yield.congr hy hct hi hs hh (by rw [hr])⟩

/-- The running job goes on: its tag, its curve and its level stay, whatever else of it changes. -/
theorem JobLaw.go_on {s t : State} {r r' : RunningJob} (h : JobLaw s) (hr : s.engine.running = some r)
    (ht : t.engine.running = some r') (htag : r'.job.tag = r.job.tag)
    (hcur : r'.job.desc.curve = r.job.desc.curve) (hl : r'.job.level = r.job.level)
    (hst : t.engine.state ≠ .idle) (hi : t.intake = s.intake) (hs : t.slots = s.slots) (hh : t.hold = s.hold)
    (hrec : recordTags t = recordTags s) (hc : t.curves = s.curves) (hy : t.yieldRequest = s.yieldRequest)
    (hct : t.control = s.control) : JobLaw t := by
  have hlive : ∀ q, liveCount q t = liveCount q s := fun q => by
    rw [liveCount_eq, liveCount_eq q s]
    simp [queueCount, queueOf, slotCount, slotOf, holdCount, engineCount, hi, hs, hh, ht, hr, htag, hcur]
  refine ⟨⟨h.place.go_on hr (by rw [hi]) hs ht hl hst, h.tag.of_counts (hi ▸ h.tag.ascending) fun n => ?_,
    fun c => ?_⟩, h.yield.congr hy hct (by rw [hi]) hs hh (by simp [ht, hr, hl])⟩
  · rw [hlive, hi, hrec]
  · rw [curveEntry_congr hc, h.count c]
    exact (hlive fun _ d => decide (d = c)).symm

/-- A posted record whose job has left its place: the laws hold of the state in which it has left. -/
theorem JobSetLaw.of_posted {s t : State} (h : JobSetLaw s) (j : Job) (hp : PlaceLaw t)
    (hf : t.intake.freeTags = s.intake.freeTags) (hrec : recordTags t = recordTags s ++ [j.tag])
    (hcnt : ∀ c, (curveEntry t c).refCount =
      if j.desc.curve = c then (curveEntry s c).refCount - 1 else (curveEntry s c).refCount)
    (hlive : ∀ q : Nat → Fin 32 → Bool,
      liveCount q t + (q j.tag j.desc.curve).toNat = liveCount q s) : JobSetLaw t := by
  refine ⟨hp, h.tag.of_counts (hf ▸ h.tag.ascending) fun n => ?_, fun c => ?_⟩
  · have hl := hlive fun a _ => decide (a = n)
    rw [hf, hrec, List.count_append, List.count_singleton]
    by_cases hn : j.tag = n <;> simp [hn] at hl ⊢ <;> omega
  · have hl := hlive fun _ d => decide (d = c)
    have hc := h.count c
    rw [hcnt]
    show _ = liveCount (fun _ d => decide (d = c)) t
    change _ = liveCount (fun _ d => decide (d = c)) s at hc
    by_cases hn : j.desc.curve = c <;> simp [hn] at hl ⊢ <;> omega

/-- R94: the end of the running job keeps the laws. -/
theorem JobLaw.endRunning {s : State} (h : JobLaw s) {r r' : RunningJob} (hr : s.engine.running = some r')
    (htag : r.job.tag = r'.job.tag) (hcur : r.job.desc.curve = r'.job.desc.curve) (st : JobStatus)
    (e : Option BusErr) : JobLaw (endRunning r st e s) := by
  refine ⟨h.toJobSetLaw.of_posted r.job (h.place.endRunning r st e) (by simp) ?_ (fun c => ?_) fun q => ?_,
    YieldLaw.of_empty (by simp [Machine.endRunning]) (by simp [Machine.endRunning])⟩
  · have := recordTags_postJob r.job st (recordResult r) e s
    simpa [recordTags, Machine.endRunning] using this
  · have := refCount_postJob r.job st (recordResult r) e s c
    rw [← this]
    exact congrArg _ (curveEntry_congr (by simp [Machine.endRunning]) c)
  · have := liveCount_endRunning q r st e s
    rw [engineCount_of_running hr] at this
    rw [htag, hcur]
    exact this

/-- R86, R110: a suspension keeps the laws. -/
theorem JobSetLaw.suspend {s : State} (h : JobSetLaw s) {r r' : RunningJob} (hr : s.engine.running = some r')
    (htag : r.job.tag = r'.job.tag) (hcur : r.job.desc.curve = r'.job.desc.curve)
    (hl : r.job.level = r'.job.level) (h3 : r.job.level.val < 3) (p : Option PartialPart) :
    JobLaw (suspend r p s) := by
  have hlive : ∀ q, liveCount q (Machine.suspend r p s) = liveCount q s := fun q =>
    liveCount_suspend q p hr htag hcur h3 (hl ▸ h.place.slotFree r' hr)
  refine ⟨⟨h.place.suspend r p, h.tag.of_counts (by simpa using h.tag.ascending) fun n => ?_, fun c => ?_⟩,
    YieldLaw.of_empty (by simp [Machine.suspend]) (by simp [Machine.suspend])⟩
  · rw [hlive]; simp [recordTags]
  · rw [curveEntry_congr (s := s) (by simp), h.count c]
    exact (hlive fun _ d => decide (d = c)).symm

/-- R86, R105: a raised yield request is of a job below level 3. -/
theorem level_lt_of_yieldRaised {s : State} {r : RunningJob} (h : yieldRaised s r = true) : r.job.level.val < 3 := by
  simp only [yieldRaised, Bool.and_eq_true, decide_eq_true_eq] at h
  exact h.2

/-- R105, R76: the dispatcher's reaction restores the law of the yield request. -/
theorem JobSetLaw.reactToSources {s : State} (h : JobSetLaw s) : JobLaw (reactToSources s) := by
  have hb : JobLaw (Machine.refreshYield s) :=
    ⟨h.congr (by simp) (by simp) (by simp) (by simp) (by simp) (by simp) (by simp [recordTags])
      (fun c => by rw [curveEntry_congr (s := s) (by simp)]), YieldLaw.refreshYield s⟩
  have hs : JobLaw (suspendIfStanding (Machine.refreshYield s)) := by
    unfold suspendIfStanding
    split
    · rename_i r hr
      split
      · rename_i hy
        simp only [Bool.and_eq_true] at hy
        exact hb.toJobSetLaw.suspend hr rfl rfl rfl (level_lt_of_yieldRaised hy.2) none
      · exact hb
    · exact hb
  exact hs.congr (by simp [Machine.reactToSources]) (by simp [Machine.reactToSources])
    (by simp [Machine.reactToSources]) (by simp [Machine.reactToSources]) (by simp [Machine.reactToSources])
    (by simp [Machine.reactToSources]) (by simp [Machine.reactToSources, recordTags])
    (fun c => by rw [Machine.reactToSources, curveEntry_congr (s := suspendIfStanding (refreshYield s)) (by simp)])
    (by simp [Machine.reactToSources]) (by simp [Machine.reactToSources])

/-- R88 to R91: applying an exception policy keeps the laws. -/
theorem JobLaw.applyException {s : State} (h : JobLaw s) {r : RunningJob} (hr : s.engine.running = some r)
    (e : Exc) (a : Value) : JobLaw (applyException r e a s) := by
  unfold Machine.applyException
  split
  · unfold applyMark
    dsimp only
    split
    · refine h.go_on (r := r) hr (r' := ?_) ?_ ?_ ?_ ?_ ?_ (by simp) (by simp) (by simp) (by simp [recordTags])
        (by simp) (by simp) (by simp)
      rotate_left
      · simp only [storeResult_value]; rfl
      all_goals simp [countException]
    · refine h.endRunning hr ?_ ?_ _ _ <;> rfl
  · refine h.endRunning hr ?_ ?_ _ _ <;> rfl
  · unfold applyHold
    split
    · rename_i hh
      refine ⟨⟨h.place.go_idle (by simp) (by simp) (by simp) (by simp),
        h.tag.of_counts (by simpa using h.tag.ascending) fun n => ?_, fun c => ?_⟩,
        YieldLaw.of_empty (by simp) (by simp)⟩
      · have hl := liveCount_leaveEngine (fun x _ => decide (x = n)) s
        rw [engineCount_of_running hr, liveCount_eq] at hl
        rw [liveCount_eq]
        simp [queueCount, queueOf, slotCount, slotOf, holdCount, engineCount, recordTags, hh, countException] at hl ⊢
        omega
      · have hl := liveCount_leaveEngine (fun _ d => decide (d = c)) s
        rw [engineCount_of_running hr, liveCount_eq] at hl
        rw [curveEntry_congr (s := s) (by simp), h.count c]
        show liveCount (fun _ d => decide (d = c)) s = liveCount (fun _ d => decide (d = c)) _
        rw [liveCount_eq (fun _ d => decide (d = c)) (setEvent _ _)]
        simp [queueCount, queueOf, slotCount, slotOf, holdCount, engineCount, hh, countException] at hl ⊢
        omega
    · refine h.endRunning hr ?_ ?_ _ _ <;> rfl

end Sys2Proof.Machine
end

