-- ==== Sys2Proof/Laws/Dispatch.lean ====
section
/-! SUPPORT. The choice of the winner (R98, R99) and its hand-over (R101): what the winner is, what its source is
left as, and that a hand-over keeps the laws of the job set. -/

namespace Sys2Proof.Machine

/-! ### The winner -/

/-- R99: the winner is the first source of its level, its level is enabled, and no higher level has an eligible
source. -/
theorem winner_spec {s : State} {src : Source} (h : winner s = some src) :
    ∃ l, levelEnabled s l = true ∧ sourceAt s l = some src ∧ ∀ k, l < k → eligibleSource s k = none := by
  have hin : ∀ l, eligibleSource s l = some src → levelEnabled s l = true ∧ sourceAt s l = some src := by
    intro l hl
    unfold eligibleSource at hl
    split at hl
    · rename_i he; exact ⟨he, hl⟩
    · exact absurd hl (by simp)
  simp only [winner, levelsDown, List.findSome?_cons, List.findSome?_nil] at h
  split at h
  · rename_i x hx
    have := Option.some.inj h; subst this
    exact ⟨3, (hin 3 hx).1, (hin 3 hx).2, fun k hk => absurd hk (by omega)⟩
  · rename_i h3
    split at h
    · rename_i x hx
      have := Option.some.inj h; subst this
      refine ⟨2, (hin 2 hx).1, (hin 2 hx).2, fun k hk => ?_⟩
      have : k = 3 := by omega
      exact this ▸ h3
    · rename_i h2
      split at h
      · rename_i x hx
        have := Option.some.inj h; subst this
        refine ⟨1, (hin 1 hx).1, (hin 1 hx).2, fun k hk => ?_⟩
        have : k = 3 ∨ k = 2 := by omega
        rcases this with e | e
        · exact e ▸ h3
        · exact e ▸ h2
      · rename_i h1
        split at h
        · rename_i x hx
          have := Option.some.inj h; subst this
          refine ⟨0, (hin 0 hx).1, (hin 0 hx).2, fun k hk => ?_⟩
          have : k = 3 ∨ k = 2 ∨ k = 1 := by omega
          rcases this with e | e | e
          · exact e ▸ h3
          · exact e ▸ h2
          · exact e ▸ h1
        · exact absurd h (by simp)

/-- R98, R99: what the first source of a level is. -/
theorem sourceAt_spec {s : State} {l : Fin 4} {src : Source} (h : sourceAt s l = some src) :
    (∃ x, src = .contextSlot l x ∧ slotOf s l = some x) ∨
    (slotOf s l = none ∧ ∃ r a, src = .holdSlot r a ∧ s.hold = some r ∧ r.action = some a ∧ r.job.level = l) ∨
    (slotOf s l = none ∧ ∃ j rest, src = .queueHead l j rest ∧ queueOf s l = j :: rest) := by
  unfold sourceAt at h
  split at h
  · rename_i x hx
    exact Or.inl ⟨x, (Option.some.inj h).symm, hx⟩
  · rename_i hslot
    split at h
    · rename_i y hy
      have := Option.some.inj h; subst this
      unfold holdSource at hy
      split at hy
      · rename_i r hr
        split at hy
        · rename_i a ha
          split at hy
          · rename_i hl
            exact Or.inr (Or.inl ⟨hslot, r, a, (Option.some.inj hy).symm, hr, ha, hl⟩)
          · exact absurd hy (by simp)
        · exact absurd hy (by simp)
      · exact absurd hy (by simp)
    · unfold queueSource at h
      split at h
      · rename_i j rest hq
        exact Or.inr (Or.inr ⟨hslot, j, rest, (Option.some.inj h).symm, hq⟩)
      · exact absurd h (by simp)

/-- A level with no source: its slot is EMPTY, the hold slot is no source of it, its queue is empty. -/
theorem sourceAt_none {s : State} {l : Fin 4} :
    sourceAt s l = none ↔ slotOf s l = none ∧ holdSource s l = none ∧ queueOf s l = [] := by
  unfold sourceAt
  cases hs : slotOf s l <;> cases hh : holdSource s l <;> cases hq : queueOf s l <;> simp [queueSource, hq]

/-! ### The source after the dispatch -/

/-- The job of a source. -/
def sourceJob : Source → Job
  | .contextSlot _ x => x.job
  | .holdSlot r _ => r.job
  | .queueHead _ j _ => j

/-- R101: the state with the winner removed from its source. -/
def removeSource : Source → State → State
  | .contextSlot l _, s => setSlot l none s
  | .holdSlot _ _, s => { s with hold := none }
  | .queueHead l _ rest, s => setQueue l rest s

/-- R101: the winner's removal takes its job out of the count, leaves its level's slot EMPTY, and leaves no higher
eligible source. -/
structure Removed (s t : State) (j : Job) : Prop where
  count : ∀ q, liveCount q t + (q j.tag j.desc.curve).toNat = liveCount q s
  place : PlaceLaw t
  slot : slotOf t j.level = none
  higher : ∀ k, j.level < k → eligibleSource t k = none

/-- An eligible source lost by removing another level's entry or the hold record. -/
theorem eligibleSource_none_of {s t : State} {k : Fin 4} (h : eligibleSource s k = none)
    (hc : t.control = s.control) (hs : slotOf t k = slotOf s k) (hq : queueOf t k = queueOf s k)
    (hh : t.hold = s.hold ∨ t.hold = none) : eligibleSource t k = none := by
  unfold eligibleSource levelEnabled at *
  rw [hc]
  split
  · rename_i he
    rw [if_pos he] at h
    obtain ⟨h1, h2, h3⟩ := sourceAt_none.mp h
    refine sourceAt_none.mpr ⟨hs ▸ h1, ?_, hq ▸ h3⟩
    rcases hh with hh | hh
    · unfold holdSource at *; rw [hh]; exact h2
    · unfold holdSource; rw [hh]
  · rfl

/-- R101: the winner's removal. -/
theorem removed_of_winner {s : State} {src : Source} (h : JobSetLaw s) (hidle : s.engine.state = .idle)
    (hw : winner s = some src) : Removed s (removeSource src s) (sourceJob src) := by
  obtain ⟨l, _, hsrc, hhigh⟩ := winner_spec hw
  have hrun := h.place.idle hidle
  rcases sourceAt_spec hsrc with ⟨x, rfl, hx⟩ | ⟨hslot, r, a, rfl, hr, ha, hl⟩ | ⟨hslot, j, rest, rfl, hq⟩
  · have hl : x.job.level = l := h.place.slotLevel l x hx
    have hl3 : l.val < 3 := by
      by_contra hn
      have : slotOf s l = none := by simp [slotOf, hn]
      rw [this] at hx; exact absurd hx (by simp)
    refine ⟨fun q => ?_, ?_, ?_, fun k hk => ?_⟩
    · have hc := slotCount_clearSlot q l s
      rw [hx] at hc
      rw [liveCount_eq, liveCount_eq q s]
      simp [removeSource, sourceJob, queueCount, queueOf, engineCount, holdCount] at hc ⊢
      omega
    · refine ⟨fun k => ?_, fun k => ?_, fun k y hy => ?_, fun y hy => ?_, fun h1 => ?_, fun h1 => ?_⟩
      · simpa [removeSource, queueOf] using h.place.queueLevel k
      · simpa [removeSource, queueOf] using h.place.queueLength k
      · simp only [removeSource, slotOf_setSlot] at hy
        split at hy
        · exact absurd hy (by simp)
        · exact h.place.slotLevel k y hy
      · simp [removeSource, hrun] at hy
      · simp [removeSource, hrun]
      · simp [removeSource, hidle] at h1
    · simp [removeSource, sourceJob, hl, hl3]
    · have hk' : l < k := hl ▸ hk
      refine eligibleSource_none_of (hhigh k hk') (by simp [removeSource]) ?_ (by simp [removeSource, queueOf])
        (Or.inl (by simp [removeSource]))
      simp [removeSource, (ne_of_lt hk')]
  · refine ⟨fun q => ?_, h.place.congr rfl rfl rfl rfl, ?_, fun k hk => ?_⟩
    · rw [liveCount_eq, liveCount_eq q s]
      simp [removeSource, sourceJob, queueCount, queueOf, engineCount, slotCount, slotOf, holdCount, hr]
    · simp only [sourceJob, hl]; exact hslot
    · exact eligibleSource_none_of (hhigh k (hl ▸ hk)) rfl rfl rfl (Or.inr rfl)
  · have hl : j.level = l := h.place.queueLevel l j (by simp [hq])
    have hs' : ∀ k, slotOf (removeSource (.queueHead l j rest) s) k = slotOf s k :=
      fun k => slotOf_congr (by simp [removeSource]) k
    refine ⟨fun q => ?_, ?_, ?_, fun k hk => ?_⟩
    · have hc := queueCount_setQueue q l rest s
      rw [hq] at hc
      rw [liveCount_eq, liveCount_eq q s]
      simp [removeSource, sourceJob, engineCount, slotCount, slotOf, holdCount] at hc ⊢
      omega
    · refine ⟨fun k x hx => ?_, fun k => ?_, fun k y hy => ?_, fun y hy => ?_, fun h1 => ?_, fun h1 => ?_⟩
      · simp only [removeSource, queueOf_setQueue] at hx
        split at hx
        · rename_i e; subst e
          exact h.place.queueLevel _ x (by rw [hq]; exact List.mem_cons_of_mem _ hx)
        · exact h.place.queueLevel k x hx
      · simp only [removeSource, queueOf_setQueue]
        split
        · rename_i e; subst e
          have := h.place.queueLength l
          rw [hq] at this
          simp only [List.length_cons] at this
          omega
        · exact h.place.queueLength k
      · exact h.place.slotLevel k y (hs' k ▸ hy)
      · simp [removeSource, hrun] at hy
      · simp [removeSource, hrun]
      · simp [removeSource, hidle] at h1
    · simp only [sourceJob, hl, hs']; exact hslot
    · have hk' : l < k := hl ▸ hk
      refine eligibleSource_none_of (hhigh k hk') (by simp [removeSource]) (hs' k) ?_ (Or.inl (by simp [removeSource]))
      simp [removeSource, (ne_of_lt hk')]

/-! ### The hand-over keeps the laws -/

/-- The engine has taken a job that had been removed from its place. -/
theorem JobSetLaw.take {s u t : State} (h : JobSetLaw s) {j : Job} {r : RunningJob} (hu : Removed s u j)
    (ht : t.engine.running = some r) (hst : t.engine.state ≠ .idle) (htag : r.job.tag = j.tag)
    (hcur : r.job.desc.curve = j.desc.curve) (hl : r.job.level = j.level)
    (hidle : u.engine.running = none) (hi : t.intake = u.intake) (hs : t.slots = u.slots) (hh : t.hold = u.hold)
    (hct : t.control = u.control) (hy : t.yieldRequest = false)
    (hf : t.intake.freeTags = s.intake.freeTags) (hrec : recordTags t = recordTags s)
    (hcv : t.curves = s.curves) : JobLaw t := by
  have hq : ∀ l, queueOf t l = queueOf u l := fun l => queueOf_congr hi l
  have hsl : ∀ l, slotOf t l = slotOf u l := fun l => slotOf_congr hs l
  have hlive : ∀ q, liveCount q t = liveCount q s := fun q => by
    have := hu.count q
    rw [liveCount_eq] at this ⊢
    simp [queueCount, slotCount, holdCount, engineCount, hq, hsl, hh, ht, htag, hcur, hidle] at this ⊢
    omega
  refine ⟨⟨⟨fun l => hq l ▸ hu.place.queueLevel l, fun l => hq l ▸ hu.place.queueLength l,
    fun l => hsl l ▸ hu.place.slotLevel l, fun x hx => ?_, fun h1 => absurd h1 hst, fun _ _ => by simp [ht]⟩,
    h.tag.of_counts (hf ▸ h.tag.ascending) fun n => ?_, fun c => ?_⟩, ?_⟩
  · have : x = r := by rw [ht] at hx; exact (Option.some.inj hx).symm
    rw [hsl, this, hl]; exact hu.slot
  · rw [hlive, hf, hrec]
  · rw [curveEntry_congr hcv, h.count c]
    exact (hlive fun _ d => decide (d = c)).symm
  · have hno : ∀ k, r.job.level < k → eligibleSource t k = none := fun k hk =>
      eligibleSource_none_of (hu.higher k (hl ▸ hk)) hct (hsl k) (hq k) (Or.inl hh)
    unfold YieldLaw yieldDue
    rw [hy, ht]
    symm
    simp only [higherSource, List.any_eq_false, Bool.and_eq_true, decide_eq_true_eq, not_and]
    intro k _ hk
    simp [hno k hk]

/-- The job entering FETCH with the laws of what else it holds. -/
theorem enterFetch_running (r : RunningJob) (s : State) :
    ∃ a, (enterFetch r s).engine.running = some { r with arg := a } ∧
      ((enterFetch r s).engine.state = .fetch ∨ (enterFetch r s).engine.state = .setup) := by
  unfold enterFetch
  split
  · exact ⟨_, rfl, Or.inr rfl⟩
  · exact ⟨r.arg, rfl, Or.inl rfl⟩
  · exact ⟨r.arg, rfl, Or.inl rfl⟩

/-- R71, R101, R125: a hand-over keeps the laws. -/
theorem JobLaw.handOver {s : State} (h : JobLaw s) (hidle : s.engine.state = .idle) {src : Source}
    (hw : winner s = some src) : JobLaw (handOver src s) := by
  have hrem := removed_of_winner h.toJobSetLaw hidle hw
  have hrun : (removeSource src s).engine.running = none := by
    have := h.place.idle hidle
    cases src <;> simpa [removeSource] using this
  have hcurves : (removeSource src s).curves = s.curves := by cases src <;> simp [removeSource]
  have hrecs : recordTags (removeSource src s) = recordTags s := by cases src <;> simp [removeSource, recordTags]
  have hfree : (removeSource src s).intake.freeTags = s.intake.freeTags := by
    cases src <;> simp [removeSource]
  -- the job goes into the engine
  have take : ∀ t : State, ∀ r : RunningJob, t.engine.running = some r → t.engine.state ≠ .idle →
      r.job = sourceJob src → t.intake = (removeSource src s).intake → t.slots = (removeSource src s).slots →
      t.hold = (removeSource src s).hold → t.control = (removeSource src s).control → t.yieldRequest = false →
      t.completion = (removeSource src s).completion → t.curves = (removeSource src s).curves → JobLaw t := by
    intro t r h1 h2 h3 h4 h5 h6 h7 h8 h9 h10
    refine h.toJobSetLaw.take hrem h1 h2 (by rw [h3]) (by rw [h3]) (by rw [h3]) hrun h4 h5 h6 h7 h8
      (by rw [h4, hfree]) ?_ (h10.trans hcurves)
    rw [← hrecs]; simp [recordTags, h9]
  have start : ∀ j, j = sourceJob src → JobLaw (startElement j (admitJob j (removeSource src s))) := by
    intro j hj
    unfold startElement
    split
    · exact take _ _ (by simp; rfl) (by simp) (by simp [takenJob, hj]) (by simp) (by simp) (by simp) (by simp)
        (by simp) (by simp) (by simp)
    · obtain ⟨a, h1, h2⟩ := enterFetch_running (takenJob j) (admitJob j (removeSource src s))
      exact take _ _ h1 (by rcases h2 with h2 | h2 <;> rw [h2] <;> simp) (by simp [takenJob, hj]) (by simp)
        (by simp) (by simp) (by simp) (by simp) (by simp) (by simp)
  have deliver : ∀ j v, j = sourceJob src → JobLaw (deliverContinuation j v (admitJob j (removeSource src s))) := by
    intro j v hj
    unfold deliverContinuation
    split
    · exact take _ _ (by simp; rfl) (by simp) (by simp [takenJob, hj]) (by simp) (by simp) (by simp) (by simp)
        (by simp) (by simp) (by simp)
    · have hlive : ∀ q, liveCount q (Machine.endRunning (captured (takenJob j) v) .completeMarked none
          (admitJob j (removeSource src s))) = liveCount q (removeSource src s) := fun q => by
        have := liveCount_endRunning q (captured (takenJob j) v) .completeMarked none
          (admitJob j (removeSource src s))
        have he : engineCount q (admitJob j (removeSource src s)) = 0 := by simp [engineCount, hrun]
        have ha : liveCount q (admitJob j (removeSource src s)) = liveCount q (removeSource src s) :=
          liveCount_congr q (by simp) (by simp) (by simp) (by simp)
        omega
      refine ⟨h.toJobSetLaw.of_posted j (hrem.place.go_idle (by simp) (by simp) (by simp) (by simp))
        (by simp [hfree]) ?_ (fun c => ?_) fun q => ?_, YieldLaw.of_empty (by simp) (by simp)⟩
      · have := recordTags_postJob (captured (takenJob j) v).job .completeMarked
          (recordResult (captured (takenJob j) v)) none (admitJob j (removeSource src s))
        have ha : recordTags (admitJob j (removeSource src s)) = recordTags s := by
          rw [← hrecs]; simp [recordTags]
        rw [ha] at this
        exact this
      · have := refCount_postJob (captured (takenJob j) v).job .completeMarked
          (recordResult (captured (takenJob j) v)) none (admitJob j (removeSource src s)) c
        rw [curveEntry_congr (s := s) (t := admitJob j (removeSource src s)) (by simp [hcurves])] at this
        exact this
      · rw [hlive, hj]; exact hrem.count q
  cases src with
  | contextSlot l x =>
    simp only [Machine.handOver]
    split
    · rename_i pp _
      refine take _ _ (by simp [resumePart]; rfl) ?_ (by simp [takenJob, sourceJob]) (by simp [removeSource])
        (by simp [removeSource]) (by simp [removeSource]) (by simp [removeSource]) (by simp) (by simp [removeSource])
        (by simp [removeSource])
      simp only [resumePart, setEngine_value]
      split <;> simp
    · exact start x.job rfl
  | holdSlot r a =>
    simp only [Machine.handOver, startContinuation]
    split
    · exact deliver r.job _ rfl
    · exact deliver r.job _ rfl
    · exact start r.job rfl
  | queueHead l j rest => exact start j rfl

end Sys2Proof.Machine
end

