-- ==== Sys2Proof/Laws/Ending.lean ====
section
/-! SUPPORT. Acceptance, the ending of waiting jobs, the pop and the resets (R59, R167, R170, R154, R174): each keeps
the laws of the job set. -/

namespace Sys2Proof.Machine

/-! ### Jobs removed from their places whose records are not posted yet -/

/-- The laws of the job set but for jobs that have left their places and whose records are still to be posted. -/
structure Owing (js : List Job) (s : State) : Prop where
  place : PlaceLaw s
  ascending : s.intake.freeTags.Pairwise (· < ·)
  tags : ∀ n, s.intake.freeTags.count n + liveCount (fun a _ => decide (a = n)) s
    + jobCount (fun a _ => decide (a = n)) js + (recordTags s).count n = (List.range Config.tagCount).count n
  counts : ∀ c, (curveEntry s c).refCount =
    liveCount (fun _ d => decide (d = c)) s + jobCount (fun _ d => decide (d = c)) js

/-- Owing nothing is the law. -/
theorem owing_nil_iff (s : State) : Owing [] s ↔ JobSetLaw s := by
  constructor
  · intro h
    exact ⟨h.place, ⟨h.ascending, (tagPartition_iff s).mpr fun n => by simpa using h.tags n⟩,
      fun c => by have := h.counts c; simp only [jobCount_nil, Nat.add_zero] at this; exact this⟩
  · intro h
    exact ⟨h.place, h.tag.ascending, fun n => by simpa using (tagPartition_iff s).mp h.tag.partition n,
      fun c => by simp only [jobCount_nil, Nat.add_zero]; exact h.count c⟩

/-- A state that agrees on every place, record, free tag and count owes the same. -/
theorem Owing.congr {js : List Job} {s t : State} (h : Owing js s) (hi : t.intake = s.intake)
    (hs : t.slots = s.slots) (he : t.engine = s.engine) (hh : t.hold = s.hold) (hr : recordTags t = recordTags s)
    (hc : t.curves = s.curves) : Owing js t := by
  have hl : ∀ q, liveCount q t = liveCount q s := fun q =>
    liveCount_congr q (by rw [hi]) (by rw [he]) hs hh
  exact ⟨h.place.congr (by rw [hi]) hs (by rw [he]) (by rw [he]), hi ▸ h.ascending,
    fun n => by rw [hl, hi, hr]; exact h.tags n, fun c => by rw [hl, curveEntry_congr hc]; exact h.counts c⟩

/-- R167: posting an owed record. -/
theorem Owing.postAborted {j : Job} {js : List Job} {s : State} (h : Owing (j :: js) s) :
    Owing js (postAborted j s) := by
  have hl : ∀ q, liveCount q (Machine.postAborted j s) = liveCount q s := fun q =>
    liveCount_congr q (by simp) (by simp) (by simp) (by simp)
  refine ⟨h.place.congr (by simp) (by simp) (by simp) (by simp), by simpa using h.ascending, fun n => ?_,
    fun c => ?_⟩
  · have hr : recordTags (Machine.postAborted j s) = recordTags s ++ [j.tag] :=
      recordTags_postJob j .aborted none none s
    have ht := h.tags n
    rw [hl, hr, List.count_append, List.count_singleton]
    rw [jobCount_cons] at ht
    simp only [postAborted_frame] at *
    by_cases hn : j.tag = n <;> simp [hn] at ht ⊢ <;> omega
  · have hr := refCount_postJob j .aborted none none s c
    have hc := h.counts c
    rw [hl]
    show (curveEntry (postJob j .aborted none none s) c).refCount = _
    rw [hr]
    rw [jobCount_cons] at hc
    by_cases hn : j.desc.curve = c <;> simp [hn] at hc ⊢ <;> omega

/-- R170: posting the owed records of a queue one after another. -/
theorem Owing.postAll : ∀ {js : List Job} {s : State}, Owing js s →
    JobSetLaw (js.foldl (fun acc j => Machine.postAborted j acc) s)
  | [], s, h => (owing_nil_iff s).mp h
  | j :: js, s, h => Owing.postAll (js := js) (s := Machine.postAborted j s) h.postAborted

/-! ### Leaving a place -/

/-- Removing the first job of a tag takes that job out of the count. -/
theorem jobCount_eraseP (q : Nat → Fin 32 → Bool) (tag : Nat) {j : Job} :
    ∀ {js : List Job}, (js.find? fun x => decide (x.tag = tag)) = some j →
      jobCount q (js.eraseP fun x => decide (x.tag = tag)) + (q j.tag j.desc.curve).toNat = jobCount q js
  | [], h => absurd h (by simp)
  | a :: js, h => by
    by_cases ha : a.tag = tag
    · have : a = j := by simpa [ha] using h
      subst this
      simp [ha]
    · have hf : (js.find? fun x => decide (x.tag = tag)) = some j := by simpa [ha] using h
      have := jobCount_eraseP q tag hf
      simp [ha]
      omega

/-- A queue with a job removed still satisfies the law of places. -/
theorem PlaceLaw.shrink_queue {s : State} (h : PlaceLaw s) {l : Fin 4} {js : List Job}
    (hsub : List.Sublist js (queueOf s l)) : PlaceLaw (setQueue l js s) := by
  have hs : ∀ k, slotOf (setQueue l js s) k = slotOf s k := fun k => slotOf_congr (by simp) k
  refine ⟨fun k x hx => ?_, fun k => ?_, fun k => hs k ▸ h.slotLevel k, fun r hr => ?_, fun h1 => ?_,
    fun h1 h2 => ?_⟩
  · rw [queueOf_setQueue] at hx
    split at hx
    · rename_i e; subst e
      exact h.queueLevel _ x (hsub.subset hx)
    · exact h.queueLevel k x hx
  · rw [queueOf_setQueue]
    split
    · rename_i e; subst e
      exact Nat.le_trans hsub.length_le (h.queueLength _)
    · exact h.queueLength k
  · rw [hs]; exact h.slotFree r (by simpa using hr)
  · simpa using h.idle (by simpa using h1)
  · simpa using h.working (by simpa using h1) (by simpa using h2)

/-- R167: a queued job that has been removed is owed its record. -/
theorem JobSetLaw.removeQueued {s : State} (h : JobSetLaw s) {l : Fin 4} {tag : Nat} {j : Job}
    (hj : ((queueOf s l).find? fun x => decide (x.tag = tag)) = some j) : Owing [j] (removeQueued l tag s) := by
  have hl : ∀ q, liveCount q (Machine.removeQueued l tag s) + (q j.tag j.desc.curve).toNat = liveCount q s := by
    intro q
    have h1 := queueCount_setQueue q l ((queueOf s l).eraseP fun x => decide (x.tag = tag)) s
    have h2 := jobCount_eraseP q tag hj
    rw [liveCount_eq, liveCount_eq q s]
    simp [Machine.removeQueued, engineCount, slotCount, slotOf, holdCount] at h1 h2 ⊢
    omega
  have hp := h.place.shrink_queue (l := l)
    (List.eraseP_sublist (p := fun x => decide (x.tag = tag)) (l := queueOf s l))
  refine ⟨hp, by simpa [Machine.removeQueued] using h.tag.ascending, fun n => ?_, fun c => ?_⟩
  · have ht := (tagPartition_iff s).mp h.tag.partition n
    have hq := hl fun a _ => decide (a = n)
    have hr : recordTags (Machine.removeQueued l tag s) = recordTags s := by simp [recordTags]
    have hf : (Machine.removeQueued l tag s).intake.freeTags = s.intake.freeTags := by simp [Machine.removeQueued]
    rw [hr, hf]
    simp only [jobCount_cons, jobCount_nil]
    omega
  · have hc := h.count c
    have hq := hl fun _ d => decide (d = c)
    rw [curveEntry_congr (s := s) (by simp)]
    change _ = liveCount (fun _ d => decide (d = c)) s at hc
    simp only [jobCount_cons, jobCount_nil]
    omega

/-- R170: the jobs of a queue that has been emptied are owed their records. -/
theorem JobSetLaw.emptyQueue {s : State} (h : JobSetLaw s) (l : Fin 4) :
    Owing (queueOf s l) (setQueue l [] s) := by
  have hl : ∀ q, liveCount q (setQueue l [] s) + jobCount q (queueOf s l) = liveCount q s := by
    intro q
    have h1 := queueCount_setQueue q l [] s
    rw [liveCount_eq, liveCount_eq q s]
    simp [engineCount, slotCount, slotOf, holdCount] at h1 ⊢
    omega
  refine ⟨h.place.shrink_queue (List.nil_sublist _), by simpa using h.tag.ascending, fun n => ?_, fun c => ?_⟩
  · have ht := (tagPartition_iff s).mp h.tag.partition n
    have hq := hl fun a _ => decide (a = n)
    have hr : recordTags (setQueue l [] s) = recordTags s := by simp [recordTags]
    have hf : (setQueue l [] s).intake.freeTags = s.intake.freeTags := by simp
    rw [hr, hf]
    omega
  · have hc := h.count c
    have hq := hl fun _ d => decide (d = c)
    rw [curveEntry_congr (s := s) (by simp)]
    change _ = liveCount (fun _ d => decide (d = c)) s at hc
    omega

/-- R167: a suspended job that has been removed is owed its record. -/
theorem JobSetLaw.clearSlot {s : State} (h : JobSetLaw s) {l : Fin 4} {x : Suspended} (hx : slotOf s l = some x) :
    Owing [x.job] (setSlot l none s) := by
  have hl : ∀ q, liveCount q (setSlot l none s) + (q x.job.tag x.job.desc.curve).toNat = liveCount q s := by
    intro q
    have h1 := slotCount_clearSlot q l s
    rw [hx] at h1
    rw [liveCount_eq, liveCount_eq q s]
    simp [engineCount, queueCount, queueOf, holdCount] at h1 ⊢
    omega
  refine ⟨⟨fun k => ?_, fun k => ?_, fun k y hy => ?_, fun r hr => ?_, fun h1 => ?_, fun h1 h2 => ?_⟩,
    by simpa using h.tag.ascending, fun n => ?_, fun c => ?_⟩
  · simpa [queueOf] using h.place.queueLevel k
  · simpa [queueOf] using h.place.queueLength k
  · rw [slotOf_setSlot] at hy
    split at hy
    · exact absurd hy (by simp)
    · exact h.place.slotLevel k y hy
  · rw [slotOf_setSlot]
    split
    · rfl
    · exact h.place.slotFree r (by simpa using hr)
  · simpa using h.place.idle (by simpa using h1)
  · simpa using h.place.working (by simpa using h1) (by simpa using h2)
  · have ht := (tagPartition_iff s).mp h.tag.partition n
    have hq := hl fun a _ => decide (a = n)
    have hr : recordTags (setSlot l none s) = recordTags s := by simp [recordTags]
    have hf : (setSlot l none s).intake.freeTags = s.intake.freeTags := by simp
    rw [hr, hf]
    simp only [jobCount_cons, jobCount_nil]
    omega
  · have hc := h.count c
    have hq := hl fun _ d => decide (d = c)
    rw [curveEntry_congr (s := s) (by simp)]
    change _ = liveCount (fun _ d => decide (d = c)) s at hc
    simp only [jobCount_cons, jobCount_nil]
    omega

/-- R167: a held or continuing job that has been removed is owed its record. -/
theorem JobSetLaw.clearHold {s : State} (h : JobSetLaw s) {r : HoldRecord} (hr : s.hold = some r) :
    Owing [r.job] { s with hold := none } := by
  have hl : ∀ q, liveCount q { s with hold := none } + (q r.job.tag r.job.desc.curve).toNat = liveCount q s := by
    intro q
    rw [liveCount_eq, liveCount_eq q s]
    simp [engineCount, queueCount, queueOf, slotCount, slotOf, holdCount, hr]
  refine ⟨h.place.congr rfl rfl rfl rfl, h.tag.ascending, fun n => ?_, fun c => ?_⟩
  · have ht := (tagPartition_iff s).mp h.tag.partition n
    have hq := hl fun a _ => decide (a = n)
    have hrec : recordTags { s with hold := none } = recordTags s := rfl
    rw [hrec]
    simp only [jobCount_cons, jobCount_nil]
    omega
  · have hc := h.count c
    have hq := hl fun _ d => decide (d = c)
    have hcv : curveEntry { s with hold := none } c = curveEntry s c := rfl
    rw [hcv]
    change _ = liveCount (fun _ d => decide (d = c)) s at hc
    simp only [jobCount_cons, jobCount_nil]
    omega

/-! ### Acceptance (R59) and the pop (R154) -/

/-- R59: acceptance keeps the laws. -/
theorem JobSetLaw.acceptJob {s : State} (h : JobSetLaw s) {tag : Nat} {rest : List Nat} {l : Fin 4}
    {d : Descriptor} (hf : s.intake.freeTags = tag :: rest) (hq : (queueOf s l).length < Config.queueDepth) :
    JobLaw (acceptJob tag rest l d s) := by
  refine JobSetLaw.reactToSources ?_
  generalize ht : setQueue l (queueOf s l ++ [newJob tag l d])
    (addReference d.curve { s with intake := { s.intake with freeTags := rest } }) = t
  have hl : ∀ q, liveCount q t = liveCount q s + (q tag d.curve).toNat := by
    intro q
    have h1 := queueCount_setQueue q l (queueOf s l ++ [newJob tag l d])
      (addReference d.curve { s with intake := { s.intake with freeTags := rest } })
    have h2 : queueCount q (addReference d.curve { s with intake := { s.intake with freeTags := rest } }) =
        queueCount q s := by simp [queueCount, queueOf, addReference]
    have h3 : queueOf (addReference d.curve { s with intake := { s.intake with freeTags := rest } }) l =
        queueOf s l := by simp [queueOf, addReference]
    rw [h2, h3, ht] at h1
    rw [liveCount_eq, liveCount_eq q s]
    have h4 : engineCount q t = engineCount q s := by simp [← ht, engineCount, addReference]
    have h5 : slotCount q t = slotCount q s := by simp [← ht, slotCount, slotOf, addReference]
    have h6 : holdCount q t = holdCount q s := by simp [← ht, holdCount, addReference]
    simp [newJob] at h1
    omega
  have hqt : ∀ k, queueOf t k = if l = k then queueOf s l ++ [newJob tag l d] else queueOf s k := by
    intro k; rw [← ht, queueOf_setQueue]; simp [queueOf, addReference]
  have hst : ∀ k, slotOf t k = slotOf s k := fun k => slotOf_congr (by simp [← ht, addReference]) k
  have het : t.engine = s.engine := by simp [← ht, addReference]
  refine ⟨⟨fun k x hx => ?_, fun k => ?_, fun k => hst k ▸ h.place.slotLevel k, fun r hr => ?_,
    fun h1 => het ▸ h.place.idle (het ▸ h1), fun h1 h2 => het ▸ h.place.working (het ▸ h1) (het ▸ h2)⟩,
    h.tag.of_counts ?_ fun n => ?_, fun c => ?_⟩
  · rw [hqt] at hx
    split at hx
    · rename_i e; subst e
      rcases List.mem_append.mp hx with hx | hx
      · exact h.place.queueLevel _ x hx
      · have : x = newJob tag l d := by simpa using hx
        rw [this]; rfl
    · exact h.place.queueLevel k x hx
  · rw [hqt]
    split
    · simp only [List.length_append, List.length_singleton]; omega
    · exact h.place.queueLength k
  · rw [hst]; exact h.place.slotFree r (het ▸ hr)
  · have ha := h.tag.ascending
    rw [hf] at ha
    simpa [← ht, addReference] using (List.pairwise_cons.mp ha).2
  · have hft : t.intake.freeTags = rest := by simp [← ht, addReference]
    have hrt : recordTags t = recordTags s := by simp [← ht, recordTags, addReference]
    have hq' := hl fun a _ => decide (a = n)
    rw [hft, hrt, hf, List.count_cons]
    by_cases hn : tag = n <;> simp [hn] at hq' ⊢ <;> omega
  · have hq' := hl fun _ e => decide (e = c)
    have hc := h.count c
    change _ = liveCount (fun _ e => decide (e = c)) t
    change _ = liveCount (fun _ e => decide (e = c)) s at hc
    have hct : (curveEntry t c).refCount =
        if d.curve = c then (curveEntry s c).refCount + 1 else (curveEntry s c).refCount := by
      have : curveEntry t c = curveEntry (addReference d.curve
          { s with intake := { s.intake with freeTags := rest } }) c := curveEntry_congr (by simp [← ht]) c
      rw [this, addReference, curveEntry_setCurve]
      split
      · rename_i e; subst e; rfl
      · rfl
    rw [hct]
    by_cases hn : d.curve = c <;> simp [hn] at hq' ⊢ <;> omega

/-- R154: the pop keeps the laws. -/
theorem JobLaw.popRecord {s : State} (h : JobLaw s) {r : Record} {rest : List Record}
    (hr : s.completion.records = r :: rest) : JobLaw (popRecord r rest s) := by
  have hcnt := (tagPartition_iff s).mp h.tag.partition
  have hmem : r.tag ∉ s.intake.freeTags := by
    intro hm
    have h1 := hcnt r.tag
    have h2 : 0 < s.intake.freeTags.count r.tag := List.count_pos_iff.mpr hm
    have h3 : 0 < (recordTags s).count r.tag := by
      simp [recordTags, hr]
    have h4 : (List.range Config.tagCount).count r.tag ≤ 1 :=
      List.nodup_iff_count_le_one.mp List.nodup_range r.tag
    omega
  refine ⟨⟨h.place.congr rfl rfl rfl rfl, h.tag.of_counts (insertAsc_ascending h.tag.ascending) fun n => ?_,
    h.count⟩, h.yield.congr rfl rfl rfl rfl rfl rfl⟩
  have hp := List.perm_iff_count.mp (insertAsc_perm hmem) n
  have hl : liveCount (fun a _ => decide (a = n)) (Machine.popRecord r rest s) =
      liveCount (fun a _ => decide (a = n)) s := liveCount_congr _ rfl rfl rfl rfl
  rw [hl]
  show (insertAsc r.tag s.intake.freeTags).count n + _ + (rest.map (·.tag)).count n = _
  rw [hp]
  simp only [recordTags, hr, List.map_cons, List.count_cons]
  omega

/-! ### Resets (R174, R176) -/

/-- A state without jobs, without records, with every tag free and every count 0 satisfies the laws. -/
theorem JobLaw.of_empty {s : State} (hq : ∀ l, queueOf s l = []) (hs : ∀ l, slotOf s l = none)
    (hst : s.engine.state = .idle) (hr : s.engine.running = none) (hh : s.hold = none)
    (hrec : s.completion.records = []) (hf : s.intake.freeTags = List.range Config.tagCount)
    (hc : ∀ c, (curveEntry s c).refCount = 0) (hy : s.yieldRequest = false) : JobLaw s := by
  have hl : ∀ q, liveCount q s = 0 := fun q => by
    simp [liveCount_eq, queueCount, engineCount, slotCount, holdCount, hq, hs, hr, hh]
  refine ⟨⟨⟨fun l => by simp [hq], fun l => by simp [hq], fun l => by simp [hs], fun r hr' => ?_, fun _ => hr,
    fun h1 => absurd hst h1⟩, ⟨by rw [hf]; exact List.pairwise_lt_range, (tagPartition_iff s).mpr fun n => ?_⟩,
    fun c => (hc c).trans (hl fun _ d => decide (d = c)).symm⟩, YieldLaw.of_empty hy hr⟩
  · rw [hr] at hr'; exact absurd hr' (by simp)
  · rw [hl, hf]; simp [recordTags, hrec]

/-- R31: after the completion of ENGINE_RESET every count is 0. -/
theorem refCount_completeReset (s : State) (c : Fin 32) : (curveEntry (completeReset s) c).refCount = 0 := by
  have : curveEntry (completeReset s) c = resetEntry (curveEntry s c) := by
    simp [curveEntry, completeReset, setEvent, clearEvents, mapCurves, Vector.getElem_mk]
  rw [this, resetEntry]
  split <;> rfl

/-- R174: the completion of ENGINE_RESET establishes the laws. -/
theorem JobLaw.completeReset (s : State) : JobLaw (completeReset s) :=
  JobLaw.of_empty (fun l => by simp [queueOf, Machine.completeReset, setEvent, clearEvents])
    (fun l => by simp [slotOf, Machine.completeReset, setEvent, clearEvents]) rfl rfl rfl rfl rfl
    (refCount_completeReset s) rfl

/-- R176: hard reset establishes the laws. -/
theorem JobLaw.reset : JobLaw State.reset :=
  JobLaw.of_empty (fun l => by simp [queueOf, State.reset]) (fun l => by simp [slotOf, State.reset]) rfl rfl rfl rfl
    rfl (fun c => by simp [curveEntry, State.reset, CurveEntry.reset]) rfl

end Sys2Proof.Machine
end

