-- ==== Sys2Proof/Laws/Access.lean ====
section
/-! SUPPORT. Window accesses and commands (R162, R165, R176, R177): what each wrapper of a meaning can do, and where a
tag is found (R62). -/

namespace Sys2Proof.Machine

/-! ### Wrappers -/

/-- R176, R177: a window write is not answered while RST is asserted, and otherwise taken and acknowledged. -/
theorem windowWrite_eq (f : State → State) (s : State) :
    windowWrite f s = if s.rst then { s with answer := .unanswered } else { f s with answer := .ack } := rfl

/-- R162, R165: a command overruns while ENGINE_RESET is pending, and is otherwise taken. -/
theorem takeCommand_eq (take : State → State) (s : State) :
    takeCommand take s =
      if s.rst then { s with answer := .unanswered }
      else if s.cmd.pending then { setEvent .cmdOverrun s with answer := .ack }
      else { take s with answer := .ack } := by
  unfold takeCommand
  rw [windowWrite_eq]
  split
  · rfl
  · split <;> rfl

/-- R162: a command taken at the write. -/
theorem immediate_eq_of_taken {code : BitVec 8} {body : State → State × CmdResult} {s : State}
    (h : commandTaken s) : immediate code body s = recorded code (body s).2 (body s).1 := by
  simp [immediate, takeCommand_eq, h.1, h.2, recorded, recordCommand]

/-- R165: a command written while ENGINE_RESET is pending. -/
theorem immediate_eq_of_pending {code : BitVec 8} {body : State → State × CmdResult} {s : State}
    (hr : s.rst = false) (hp : s.cmd.pending = true) :
    immediate code body s = { setEvent .cmdOverrun s with answer := .ack } := by
  simp [immediate, takeCommand_eq, hr, hp]

/-- A property that no answer and no window access without effect can change. -/
theorem windowWrite_keeps {P : State → Prop} (hans : ∀ s a, P s → P { s with answer := a }) {f : State → State}
    {s : State} (h : P s) (hf : s.rst = false → P (f s)) : P (windowWrite f s) := by
  rw [windowWrite_eq]
  split
  · exact hans s _ h
  · rename_i hr; exact hans _ _ (hf (by simpa using hr))

/-- A property that a command keeps when it is taken. -/
theorem takeCommand_keeps {P : State → Prop} (hans : ∀ s a, P s → P { s with answer := a })
    (hev : ∀ s, P s → P (setEvent .cmdOverrun s)) {f : State → State} {s : State} (h : P s)
    (hf : commandTaken s → P (f s)) : P (takeCommand f s) := by
  refine windowWrite_keeps hans h fun hr => ?_
  split
  · exact hev s h
  · rename_i hp; exact hf ⟨hr, by simpa using hp⟩

/-- A property that a command carried out at the write keeps. -/
theorem immediate_keeps {P : State → Prop} (hans : ∀ s a, P s → P { s with answer := a })
    (hev : ∀ s, P s → P (setEvent .cmdOverrun s)) (hrec : ∀ s c r, P s → P (recordCommand c r s))
    {code : BitVec 8} {body : State → State × CmdResult} {s : State} (h : P s)
    (hf : commandTaken s → P (body s).1) : P (immediate code body s) :=
  takeCommand_keeps hans hev h fun ht => hrec _ _ _ (hf ht)

/-! ### Where a tag is (R62) -/

/-- Where a tag is found is where it is. -/
theorem placeOf_spec (s : State) (tag : Nat) :
    match placeOf s tag with
    | .queued l j => ((queueOf s l).find? fun x => decide (x.tag = tag)) = some j
    | .running r => s.engine.running = some r ∧ r.job.tag = tag
    | .suspended l x => slotOf s l = some x ∧ x.job.tag = tag
    | .held h => s.hold = some h ∧ h.job.tag = tag
    | .finished r => r ∈ s.completion.records ∧ r.tag = tag
    | .free => True := by
  have hq : ∀ p, levelsDown.findSome? (findQueued s tag) = some p →
      ∃ l j, p = .queued l j ∧ ((queueOf s l).find? fun x => decide (x.tag = tag)) = some j := by
    intro p hp
    obtain ⟨l, _, hl⟩ := List.exists_of_findSome?_eq_some hp
    obtain ⟨j, hj, rfl⟩ := Option.map_eq_some_iff.mp hl
    exact ⟨l, j, rfl, hj⟩
  have hr : ∀ p, findRunning s tag = some p →
      ∃ r, p = .running r ∧ s.engine.running = some r ∧ r.job.tag = tag := by
    intro p hp
    unfold findRunning at hp
    split at hp
    · rename_i r hr
      split at hp
      · rename_i ht; exact ⟨r, (Option.some.inj hp).symm, hr, ht⟩
      · exact absurd hp (by simp)
    · exact absurd hp (by simp)
  have hs : ∀ p, levelsDown.findSome? (findSuspended s tag) = some p →
      ∃ l x, p = .suspended l x ∧ slotOf s l = some x ∧ x.job.tag = tag := by
    intro p hp
    obtain ⟨l, _, hl⟩ := List.exists_of_findSome?_eq_some hp
    unfold findSuspended at hl
    split at hl
    · rename_i x hx
      split at hl
      · rename_i ht; exact ⟨l, x, (Option.some.inj hl).symm, hx, ht⟩
      · exact absurd hl (by simp)
    · exact absurd hl (by simp)
  have hh : ∀ p, findHeld s tag = some p → ∃ r, p = .held r ∧ s.hold = some r ∧ r.job.tag = tag := by
    intro p hp
    unfold findHeld at hp
    split at hp
    · rename_i r hr
      split at hp
      · rename_i ht; exact ⟨r, (Option.some.inj hp).symm, hr, ht⟩
      · exact absurd hp (by simp)
    · exact absurd hp (by simp)
  have hf : ∀ p, findFinished s tag = some p → ∃ r, p = .finished r ∧ r ∈ s.completion.records ∧ r.tag = tag := by
    intro p hp
    obtain ⟨r, hr, rfl⟩ := Option.map_eq_some_iff.mp hp
    exact ⟨r, rfl, List.mem_of_find?_eq_some hr, by simpa using List.find?_some hr⟩
  unfold placeOf
  cases h1 : levelsDown.findSome? (findQueued s tag) with
  | some p => obtain ⟨l, j, rfl, h⟩ := hq p h1; simpa using h
  | none =>
    cases h2 : findRunning s tag with
    | some p => obtain ⟨r, rfl, h⟩ := hr p h2; simpa using h
    | none =>
      cases h3 : levelsDown.findSome? (findSuspended s tag) with
      | some p => obtain ⟨l, x, rfl, h⟩ := hs p h3; simpa using h
      | none =>
        cases h4 : findHeld s tag with
        | some p => obtain ⟨r, rfl, h⟩ := hh p h4; simpa using h
        | none =>
          cases h5 : findFinished s tag with
          | some p => obtain ⟨r, rfl, h⟩ := hf p h5; simpa using h
          | none => simp

end Sys2Proof.Machine
end

