-- ==== Sys2Proof/Laws/JobSteps.lean ====
section
/-! SUPPORT. The laws of the job set (R27, R62, R105, R111) under the operations of the load unit, of the engine's
boundaries and of the window's commands: each keeps them. -/

namespace Sys2Proof.Machine

/-- A change that touches nothing the laws look at. -/
theorem JobLaw.of_eq {s t : State} (h : JobLaw s) (hi : t.intake.queues = s.intake.queues :=
    by first | (simp; done) | rfl)
    (hf : t.intake.freeTags = s.intake.freeTags := by first | (simp; done) | rfl) (hs : t.slots = s.slots :=
        by first | (simp; done) | rfl)
    (hst : t.engine.state = s.engine.state := by first | (simp; done) | rfl) (hr : t.engine.running =
        s.engine.running := by first | (simp; done) | rfl)
    (hh : t.hold = s.hold := by first | (simp; done) | rfl) (hrec : t.completion.records =
        s.completion.records := by first | (simp; done) | rfl)
    (hc : t.curves = s.curves := by first | (simp; done) | rfl) (hy : t.yieldRequest = s.yieldRequest :=
        by first | (simp; done) | rfl)
    (hct : t.control = s.control := by first | (simp; done) | rfl) : JobLaw t :=
  h.congr hi hf hs hst hr hh (by simp [recordTags, hrec]) (fun c => by rw [curveEntry_congr hc]) hy hct

/-- A change that touches nothing the laws look at. -/
theorem JobSetLaw.of_eq {s t : State} (h : JobSetLaw s) (hi : t.intake.queues = s.intake.queues :=
    by first | (simp; done) | rfl)
    (hf : t.intake.freeTags = s.intake.freeTags := by first | (simp; done) | rfl) (hs : t.slots = s.slots :=
        by first | (simp; done) | rfl)
    (hst : t.engine.state = s.engine.state := by first | (simp; done) | rfl) (hr : t.engine.running =
        s.engine.running := by first | (simp; done) | rfl)
    (hh : t.hold = s.hold := by first | (simp; done) | rfl) (hrec : t.completion.records =
        s.completion.records := by first | (simp; done) | rfl)
    (hc : t.curves = s.curves := by first | (simp; done) | rfl) : JobSetLaw t :=
  h.congr hi hf hs hst hr hh (by simp [recordTags, hrec]) (fun c => by rw [curveEntry_congr hc])

/-- Directory entries changed with their counts kept. -/
theorem JobLaw.of_curves {s t : State} (h : JobLaw s) (hcnt : ∀ c, (curveEntry t c).refCount =
    (curveEntry s c).refCount)
    (hi : t.intake.queues = s.intake.queues := by first | (simp; done) | rfl)
    (hf : t.intake.freeTags = s.intake.freeTags := by first | (simp; done) | rfl) (hs : t.slots = s.slots :=
        by first | (simp; done) | rfl)
    (hst : t.engine.state = s.engine.state := by first | (simp; done) | rfl) (hr : t.engine.running =
        s.engine.running := by first | (simp; done) | rfl)
    (hh : t.hold = s.hold := by first | (simp; done) | rfl) (hrec : t.completion.records =
        s.completion.records := by first | (simp; done) | rfl)
    (hy : t.yieldRequest = s.yieldRequest := by first | (simp; done) | rfl)
    (hct : t.control = s.control := by first | (simp; done) | rfl) : JobLaw t :=
  h.congr hi hf hs hst hr hh (by simp [recordTags, hrec]) hcnt hy hct

/-- An entry replaced by one of the same count keeps every count. -/
theorem refCount_set {s t : State} {c : Fin 32} {e : CurveEntry} (hs : t.curves = s.curves.set c e)
    (he : e.refCount = (curveEntry s c).refCount) (d : Fin 32) : (curveEntry t d).refCount =
        (curveEntry s d).refCount := by
  have : curveEntry t d = if c = d then e else curveEntry s d := by
    rw [← curveEntry_setCurve]; exact curveEntry_congr hs d
  rw [this]; split <;> simp_all

/-- R23: emptying a curve without references keeps the laws. -/
theorem JobLaw.emptyCurve {s : State} (h : JobLaw s) {c : Fin 32} (h0 : (curveEntry s c).refCount = 0) :
    JobLaw (emptyCurve c s) :=
  h.of_curves (refCount_set (c := c) rfl (by simp [emptiedEntry, h0]))

/-- R22: the session's curve is LOADING and has no references while the session is OPEN. -/
theorem CurveLaw.session {s : State} (h : CurveLaw s) (ho : s.load.state = .opened) :
    (curveEntry s s.load.curve).state = .loading ∧ (curveEntry s s.load.curve).refCount = 0 := by
  have := (h.loading s.load.curve).mpr ⟨ho, rfl⟩
  exact ⟨this, h.unreferenced _ (Or.inr this)⟩

/-- R168: an abort of the running job keeps the laws. -/
theorem jobLaw_abortRunning {s : State} (h : JobLaw s) {r : RunningJob} (hr : s.engine.running = some r) :
    JobLaw (abortRunning r s) := by
  unfold abortRunning
  split
  · exact h.endRunning hr (by rfl) (by rfl) _ _
  · have hne : s.engine.state ≠ .idle := fun hi => by have := h.place.idle hi; rw [hr] at this; cases this
    refine h.go_on (t := markRunning r s) (r' := { r with abortMark := true })
        hr rfl rfl rfl rfl hne rfl rfl rfl rfl rfl rfl rfl

/-- R46: the failure of a session keeps the laws. -/
theorem jobLaw_failSession {s : State} (h : JobLaw s) (hc : CurveLaw s) (ho : s.load.state = .opened) (reason :
    LoadReason) :
    JobLaw (failSession reason s) := by
  refine h.of_curves (fun d => ?_)
  exact refCount_set (s := s) (c := s.load.curve) rfl (by simp only [emptiedEntry]; exact
      (hc.session ho).2.symm) d

/-- R42: placing a value keeps the laws. -/
theorem jobLaw_placeValue {s : State} (h : JobLaw s) (hc : CurveLaw s) (ho : s.load.state = .opened) (ws :
    List Word) (cur : Cursor) :
    JobLaw (placeValue ws cur s) := by
  unfold placeValue
  split
  · split
    · exact jobLaw_failSession h hc ho _
    · refine h.of_curves (fun d => ?_)
      exact refCount_set (s := s) (c := s.load.curve) rfl (by rfl) d
  · exact h.of_eq rfl rfl rfl rfl rfl rfl rfl rfl rfl rfl

/-- R41: a word of LOAD_DATA keeps the laws. -/
theorem jobLaw_takeLoadWord {s : State} (h : JobLaw s) (hc : CurveLaw s) (ho : s.load.state = .opened) (x :
    Word) :
    JobLaw (takeLoadWord x s) := by
  unfold takeLoadWord takeHalf takeValue completeValue
  simp only
  repeat' split
  all_goals first
    | exact jobLaw_failSession h hc ho _
    | exact jobLaw_placeValue h hc ho _ _
    | exact h.of_eq rfl rfl rfl rfl rfl rfl rfl rfl rfl rfl

/-- R174: the completion of ENGINE_RESET establishes the laws. -/
theorem jobLaw_quietReset (s : State) : JobLaw (quietReset s) := JobLaw.completeReset _

/-- The engine goes on with the job, whatever else of the running job changes. -/
theorem jobLaw_goOn {s t : State} {r r' : RunningJob} (h : JobLaw s) (hr : s.engine.running = some r)
    (ht : t.engine.running = some r')
    (hj : r'.job.tag = r.job.tag ∧ r'.job.desc.curve = r.job.desc.curve ∧ r'.job.level = r.job.level)
    (hst : t.engine.state ≠ .idle) (hi : t.intake = s.intake := by first | (simp; done) | rfl) (hs : t.slots =
        s.slots := by first | (simp; done) | rfl) (hh : t.hold = s.hold := by first | (simp; done) | rfl)
    (hrec : t.completion.records = s.completion.records := by first | (simp; done) | rfl) (hc : t.curves =
        s.curves := by first | (simp; done) | rfl) (hy : t.yieldRequest = s.yieldRequest :=
        by first | (simp; done) | rfl)
    (hct : t.control = s.control := by first | (simp; done) | rfl) : JobLaw t :=
  h.go_on hr ht hj.1 hj.2.1 hj.2.2 hst hi hs hh (by simp [recordTags, hrec]) hc hy hct

/-- R75: entering FETCH keeps the laws. -/
theorem jobLaw_enterFetch {s : State} (h : JobLaw s) {r r' : RunningJob} (hr : s.engine.running = some r')
    (hj : r.job.tag = r'.job.tag ∧ r.job.desc.curve = r'.job.desc.curve ∧ r.job.level = r'.job.level) :
    JobLaw (enterFetch r s) := by
  obtain ⟨a, h1, h2⟩ := enterFetch_running r s
  exact jobLaw_goOn h hr h1 hj (by rcases h2 with h2 | h2 <;> simp [h2])

/-- R75: an engine that looks into the buffer again keeps the laws. -/
theorem jobLaw_wakeFetch {s : State} (h : JobLaw s) : JobLaw (wakeFetch s) := by
  unfold wakeFetch
  split
  · split
    · exact h
    · rename_i hr _; exact jobLaw_enterFetch h hr ⟨by rfl, by rfl, by rfl⟩
  · exact h

/-- R86: a suspension for a raised yield request keeps the laws. -/
theorem jobLaw_suspend {s : State} (h : JobLaw s) {r r' : RunningJob} (hr : s.engine.running = some r')
    (hj : r.job.tag = r'.job.tag ∧ r.job.desc.curve = r'.job.desc.curve ∧ r.job.level = r'.job.level)
    (hy : yieldRaised s r = true) (p : Option PartialPart) :
    JobLaw (suspend r p s) := h.toJobSetLaw.suspend hr hj.1 hj.2.1 hj.2.2 (level_lt_of_yieldRaised hy) p

/-- A change of the engine's state keeps the laws. -/
theorem jobLaw_setEngine {s : State} (h : JobLaw s) {r r' : RunningJob} (hr : s.engine.running = some r')
    (hj : r.job.tag = r'.job.tag ∧ r.job.desc.curve = r'.job.desc.curve ∧ r.job.level = r'.job.level) {st :
        EngineState} (hst : st ≠ .idle) :
    JobLaw (setEngine st r s) := jobLaw_goOn (t := setEngine st r s) h hr (r' := r) rfl hj (by simpa using hst)

/-- R80: a result whose write is requested keeps the laws. -/
theorem jobLaw_storeResult {s : State} (h : JobLaw s) {r r' : RunningJob} (hr : s.engine.running = some r')
    (hj : r.job.tag = r'.job.tag ∧ r.job.desc.curve = r'.job.desc.curve ∧ r.job.level = r'.job.level) (v :
        Value) :
    JobLaw (storeResult r v s) := jobLaw_goOn (t := storeResult r v s) h hr (r' := { r with result := some v })
        rfl hj (by simp)

end Sys2Proof.Machine
end

