-- ==== Sys2Proof/Laws/CurveLaw.lean ====
section
/-! SUPPORT. The law of the curve directory (R22, R27) under the shared operations: each keeps it. -/

namespace Sys2Proof.Machine

/-- The law of one directory entry (R27). -/
structure EntryLaw (e : CurveEntry) : Prop where
  unreferenced : e.state = .empty ∨ e.state = .loading → e.refCount = 0
  emptied : e.state = .empty → e.blocks = []
  header : e.header.isSome = true ↔ e.state ≠ .empty
  retiring : e.state = .retiring → 0 < e.refCount

/-- The law of curves says the law of each entry. -/
theorem CurveLaw.entry {s : State} (h : CurveLaw s) (c : Fin 32) : EntryLaw (curveEntry s c) :=
  ⟨h.unreferenced c, h.emptied c, h.header c, h.retiring c⟩

/-- The law of curves from the law of each entry and of LOADING. -/
theorem CurveLaw.of_entries {s : State} (h : ∀ c, EntryLaw (curveEntry s c))
    (hl : ∀ c, (curveEntry s c).state = .loading ↔ s.load.state = .opened ∧ s.load.curve = c) : CurveLaw s :=
  ⟨hl, fun c => (h c).unreferenced, fun c => (h c).emptied, fun c => (h c).header, fun c => (h c).retiring⟩

/-- A change that touches neither the directory nor the session. -/
theorem CurveLaw.of_eq {s t : State} (h : CurveLaw s) (hc : t.curves = s.curves :=
    by first | (simp; done) | rfl)
    (hs : t.load.state = s.load.state := by first | (simp; done) | rfl) (hl : t.load.curve = s.load.curve :=
        by first | (simp; done) | rfl) : CurveLaw t := by
  refine CurveLaw.of_entries (fun c => curveEntry_congr hc c ▸ h.entry c) fun c => ?_
  rw [curveEntry_congr hc, hs, hl]; exact h.loading c

/-- R23: an emptied entry satisfies the law. -/
theorem emptiedEntry_law (e : CurveEntry) : EntryLaw (emptiedEntry e) := by
  constructor <;> simp [emptiedEntry]

/-- One entry replaced, and LOADING given as it stands afterwards. -/
theorem CurveLaw.set {s t : State} (h : CurveLaw s) {c : Fin 32} {e : CurveEntry} (he : EntryLaw e)
    (hl : e.state = .loading ↔ t.load.state = .opened ∧ t.load.curve = c)
    (ho : ∀ d, d ≠ c → (s.load.state = .opened ∧ s.load.curve = d ↔ t.load.state = .opened ∧ t.load.curve = d))
    (hc : t.curves = s.curves.set c e := by first | (simp; done) | rfl) : CurveLaw t := by
  have hce : ∀ d, curveEntry t d = if c = d then e else curveEntry s d := fun d => by
    rw [← curveEntry_setCurve]; exact curveEntry_congr hc d
  refine CurveLaw.of_entries (fun d => ?_) fun d => ?_
  · rw [hce]; split
    · exact he
    · exact h.entry d
  · rw [hce]; split
    · rename_i hcd; subst hcd; exact hl
    · rename_i hcd; rw [h.loading d, ho d (fun hd => hcd hd.symm)]

/-- R23: emptying a curve that is not LOADING keeps the law. -/
theorem CurveLaw.emptyCurve {s : State} (h : CurveLaw s) {c : Fin 32} (hn : (curveEntry s c).state ≠ .loading) :
    CurveLaw (emptyCurve c s) := by
  refine h.set (c := c) (emptiedEntry_law (curveEntry s c)) ?_ (fun d _ => Iff.rfl)
  refine ⟨fun hh => absurd hh (by simp [emptiedEntry]), fun hh => absurd ((h.loading c).mpr hh) hn⟩

/-- R46, R49: emptying the session's curve as the session closes keeps the law. -/
theorem CurveLaw.closeSession {s t : State} (h : CurveLaw s) (_ : s.load.state = .opened)
    (hts : t.load.state ≠ .opened) (hc : t.curves = s.curves.set s.load.curve (emptiedEntry
        (curveEntry s s.load.curve)) := by first | (simp; done) | rfl) : CurveLaw t := by
  refine h.set (c := s.load.curve) (emptiedEntry_law _) ?_ (fun d hd => ?_) hc
  · exact ⟨fun hh => absurd hh (by simp [emptiedEntry]), fun hh => absurd hh.1 hts⟩
  · exact ⟨fun hh => absurd hh.2.symm hd, fun hh => absurd hh.1 hts⟩

/-- One entry replaced, LOADING exactly if it was. -/
theorem CurveLaw.set_same {s t : State} (h : CurveLaw s) {c : Fin 32} {e : CurveEntry} (he : EntryLaw e)
    (hst : e.state = .loading ↔ (curveEntry s c).state = .loading)
    (hc : t.curves = s.curves.set c e := by first | (simp; done) | rfl)
    (hs : t.load.state = s.load.state := by first | (simp; done) | rfl) (hl : t.load.curve = s.load.curve :=
        by first | (simp; done) | rfl) :
    CurveLaw t := by
  refine h.set (c := c) he ?_ (fun d _ => by rw [hs, hl]) hc
  rw [hst, hs, hl]; exact h.loading c

/-- R27: the release of a reference keeps the law. -/
theorem CurveLaw.releaseReference {s : State} (h : CurveLaw s) (c : Fin 32) : CurveLaw (releaseReference c s)
    := by
  unfold Machine.releaseReference
  split
  · rename_i hr; exact h.emptyCurve (by rw [hr.1]; simp)
  · rename_i hr
    have he := h.entry c
    refine h.set_same (c := c) (e := { curveEntry s c with refCount := (curveEntry s c).refCount - 1 }) ⟨?_,
        ?_, ?_, ?_⟩ Iff.rfl
    · intro hh; have := he.unreferenced hh; simp [this]
    · exact he.emptied
    · exact he.header
    · intro hh
      simp only at hh
      have : ¬ (curveEntry s c).refCount ≤ 1 := fun h2 => hr ⟨hh, h2⟩
      simp only; omega

/-- R151: a posting keeps the law. -/
theorem CurveLaw.postJob {s : State} (h : CurveLaw s) (j : Job) (st : JobStatus) (v : Option Value) (e :
    Option BusErr) :
    CurveLaw (postJob j st v e s) := by
  have h1 : CurveLaw (Machine.releaseReference j.desc.curve (appendRecord (buildRecord s j st v e) s)) :=
    (h.of_eq (t := appendRecord (buildRecord s j st v e) s)).releaseReference _
  unfold Machine.postJob
  dsimp only
  split
  · exact h1.of_eq
  · exact h1

/-- R94: the end of the running job keeps the law. -/
theorem CurveLaw.endRunning {s : State} (h : CurveLaw s) (r : RunningJob) (st : JobStatus) (e : Option BusErr) :
    CurveLaw (Machine.endRunning r st e s) :=
  CurveLaw.of_eq (s := Machine.postJob r.job st (recordResult r) e s) (h.postJob _ _ _ _)
      (by simp [Machine.endRunning]) (by simp [Machine.endRunning]) (by simp [Machine.endRunning])

/-- R88: an exception keeps the law. -/
theorem CurveLaw.applyException {s : State} (h : CurveLaw s) (r : RunningJob) (e : Exc) (a : Value) :
    CurveLaw (applyException r e a s) := by
  unfold Machine.applyException
  split
  · unfold applyMark
    dsimp only
    split
    · exact h.of_eq
    · exact h.endRunning _ _ _
  · exact h.endRunning _ _ _
  · unfold applyHold
    split
    · exact h.of_eq
    · exact h.endRunning _ _ _

/-- R125: a continuation keeps the law. -/
theorem CurveLaw.startContinuation {s : State} (h : CurveLaw s) (j : Job) (a : HoldAction) :
    CurveLaw (startContinuation j a s) := by
  unfold Machine.startContinuation deliverContinuation
  repeat' split
  all_goals first
    | exact h.endRunning _ _ _
    | exact h.of_eq

/-- R101: a hand-over keeps the law. -/
theorem CurveLaw.handOver {s : State} (h : CurveLaw s) (src : Source) : CurveLaw (handOver src s) := by
  unfold Machine.handOver
  repeat' split
  all_goals first
    | exact CurveLaw.startContinuation h.of_eq _ _
    | exact h.of_eq

/-- R46: the failure of a session keeps the law. -/
theorem CurveLaw.failSession {s : State} (h : CurveLaw s) (ho : s.load.state = .opened) (reason : LoadReason) :
    CurveLaw (failSession reason s) := h.closeSession ho (by simp [Machine.failSession])

/-- R42: placing a value keeps the law. -/
theorem CurveLaw.placeValue {s : State} (h : CurveLaw s) (ho : s.load.state = .opened) (ws : List Word) (cur :
    Cursor) :
    CurveLaw (placeValue ws cur s) := by
  unfold Machine.placeValue
  split
  · split
    · exact h.failSession ho _
    · rename_i b rest _
      have he := h.entry s.load.curve
      have hst := (h.session ho).1
      refine h.set_same (c := s.load.curve) (e := { curveEntry s s.load.curve with blocks :=
          (curveEntry s s.load.curve).blocks ++ [b] }) ⟨he.unreferenced, fun hh => ?_, he.header, he.retiring⟩
          Iff.rfl
      simp only at hh; rw [hst] at hh; cases hh
  · exact h.of_eq

/-- R41: a word of LOAD_DATA keeps the law. -/
theorem CurveLaw.takeLoadWord {s : State} (h : CurveLaw s) (ho : s.load.state = .opened) (x : Word) :
    CurveLaw (takeLoadWord x s) := by
  unfold Machine.takeLoadWord takeHalf takeValue completeValue
  simp only
  repeat' split
  all_goals first
    | exact h.failSession ho _
    | exact h.placeValue ho _ _
    | exact h.of_eq

/-- R31, R174: the completion of ENGINE_RESET keeps the law. -/
theorem CurveLaw.completeReset {s : State} (h : CurveLaw s) : CurveLaw (completeReset s) := by
  have hce : ∀ c, curveEntry (Machine.completeReset s) c = resetEntry (curveEntry s c) := fun c => by
    simp [curveEntry, Machine.completeReset, setEvent, clearEvents, mapCurves, Vector.getElem_mk]
  refine CurveLaw.of_entries (fun c => ?_) fun c => ?_
  · rw [hce]; have he := h.entry c
    unfold resetEntry; split
    · exact emptiedEntry_law _
    · rename_i hr; exact ⟨fun _ => rfl, he.emptied, he.header, fun hh => absurd hh hr⟩
  · rw [hce]
    have := h.loading c
    unfold resetEntry; split
    · rename_i hr
      rw [hr] at this
      simp only [emptiedEntry]
      constructor
      · intro hh; cases hh
      · intro hh; have := this.mpr hh; cases this
    · exact this

end Sys2Proof.Machine
end

