-- ==== Sys2Proof/Laws/BusLaw.lean ====
section
/-! SUPPORT. The law of the bus master (R130 to R135) under the shared operations: each keeps it, or keeps its core and
a choice point, a release or a settled request restores it. -/

namespace Sys2Proof.Machine

/-- The law of the bus but for the bus state. -/
structure BusCore (s : State) : Prop where
  write : s.bus.waitingWrite.isSome = true →
    s.engine.state = .store ∧ ∃ r, s.engine.running = some r ∧ r.result.isSome = true
  read : s.bus.waitingRead.isSome = true → s.engine.state = .fetch
  reading : ∀ u, s.bus.underWay = some u → u.kind = .demandRead →
    s.engine.state = .frozen ∨ (s.engine.state = .fetch ∧ s.bus.waitingRead = none)
  writing : ∀ u, s.bus.underWay = some u → u.kind = .resultWrite →
    s.engine.state = .frozen ∨ (s.engine.state = .store ∧ s.bus.waitingWrite = none ∧
      ∃ r, s.engine.running = some r ∧ r.result.isSome = true)
  transfers : ∀ u, s.bus.underWay = some u → u.ended < u.size ∧ u.size ≤ 2
  buffered : s.bus.buffer.length ≤ Config.prefetchDepth

/-- The law of the bus but for the bus state. -/
theorem BusLaw.core {s : State} (h : BusLaw s) : BusCore s := ⟨h.write, h.read, h.reading, h.writing,
    h.transfers, h.buffered⟩

/-- The law of the bus from its core and the two clauses on the bus state. -/
theorem BusCore.law {s : State} (h : BusCore s) (ho : s.bus.state = .owner ↔ s.bus.underWay.isSome = true)
    (hr : s.bus.state ≠ .owner → (s.bus.state = .requesting ↔ busPending s = true)) : BusLaw s :=
  ⟨ho, hr, h.write, h.read, h.reading, h.writing, h.transfers, h.buffered⟩

/-- The core looks at the waiting work, the value under way, the buffer and the engine only. -/
theorem BusCore.congr {s t : State} (h : BusCore s) (hw : t.bus.waitingWrite = s.bus.waitingWrite :=
    by first | (simp; done) | rfl)
    (hr : t.bus.waitingRead = s.bus.waitingRead := by first | (simp; done) | rfl)
    (hu : t.bus.underWay = s.bus.underWay := by first | (simp; done) | rfl)
    (hb : t.bus.buffer = s.bus.buffer := by first | (simp; done) | rfl)
    (hst : t.engine.state = s.engine.state := by first | (simp; done) | rfl)
    (hru : t.engine.running = s.engine.running := by first | (simp; done) | rfl) : BusCore t := by
  refine ⟨?_, ?_, ?_, ?_, ?_, ?_⟩
  · rw [hw, hst, hru]; exact h.write
  · rw [hr, hst]; exact h.read
  · rw [hu, hst, hr]; exact h.reading
  · rw [hu, hst, hw, hru]; exact h.writing
  · rw [hu]; exact h.transfers
  · rw [hb]; exact h.buffered

/-- Pending work depends on the bus master, the engine and CONTROL only. -/
theorem busPending_congr {s t : State} (hbus : t.bus = s.bus) (he : t.engine = s.engine)
    (hc : t.control = s.control) : busPending t = busPending s := by
  unfold busPending prefetchPending prefetchEnabled
  rw [hbus, he, hc]

/-- A change that touches neither the bus master, the engine nor CONTROL. -/
theorem BusLaw.of_eq {s t : State} (h : BusLaw s) (hbus : t.bus = s.bus := by first | (simp; done) | rfl)
    (he : t.engine = s.engine := by first | (simp; done) | rfl)
    (hc : t.control = s.control := by first | (simp; done) | rfl) : BusLaw t :=
  BusCore.law (h.core.congr (by rw [hbus]) (by rw [hbus]) (by rw [hbus]) (by rw [hbus]) (by rw [he])
      (by rw [he]))
    (by rw [hbus]; exact h.owner) (by rw [hbus, busPending_congr hbus he hc]; exact h.requested)

/-- The clause on OWNER alone. -/
def OwnerLaw (s : State) : Prop := s.bus.state = .owner ↔ s.bus.underWay.isSome = true

/-- R133, R135: the request settled restores the law. -/
theorem BusCore.settle {s : State} (h : BusCore s) (ho : OwnerLaw s) : BusLaw (settleRequest s) := by
  unfold settleRequest OwnerLaw at *
  split
  · rename_i hb
    rw [hb] at ho
    split
    · rename_i hp
      refine BusCore.law h.congr ?_ ?_
      · simpa using ho
      · intro _; simp only [true_iff]; exact hp
    · rename_i hp
      refine BusCore.law h ?_ ?_
      · rw [hb]; exact ho
      · intro _; rw [hb]; simpa using hp
  · rename_i hb
    rw [hb] at ho
    split
    · rename_i hp
      refine BusCore.law h ?_ ?_
      · rw [hb]; exact ho
      · intro _; rw [hb]; simpa using hp
    · rename_i hp
      refine BusCore.law h.congr ?_ ?_
      · simpa using ho
      · intro _
        have : busPending { s with bus := { s.bus with state := .idle } } = busPending s := rfl
        rw [this]; simpa using hp
  · rename_i hb
    refine BusCore.law h ?_ ?_
    · exact ho
    · intro hn; exact absurd hb hn

/-- R134: a release restores the law. -/
theorem BusCore.release {s : State} (h : BusCore s) (hu : s.bus.underWay = none) : BusLaw (releaseBus s) := by
  rw [releaseBus_eq]
  refine BusCore.law h.congr ?_ ?_
  · simp only [hu]; split <;> simp
  · intro _
    have : busPending { s with bus := { s.bus with state := if busPending s =
        true then BusState.requesting else BusState.idle, grantRemoved := false } } = busPending s := rfl
    rw [this]
    cases hp : busPending s <;> simp

/-- R132: an argument is one or two transfers. -/
theorem argSize_bounds (s : State) : 1 ≤ argSize s ∧ argSize s ≤ 2 := by
  unfold argSize
  split
  · rename_i d _; cases d.argFormat <;> simp [formatWords]
  · simp

/-- R132: a chosen value is one or two transfers. -/
theorem choiceSize_bounds (s : State) (c : Choice) : 1 ≤ choiceSize s c ∧ choiceSize s c ≤ 2 := by
  cases c with
  | write w => simp only [choiceSize]; cases valueFormat w.value <;> simp [formatWords]
  | read r => exact argSize_bounds s
  | prefetch q a => exact argSize_bounds s

/-- R134: what is chosen is pending, and nothing before it in the order is. -/
theorem busChoice_spec {s : State} {c : Choice} (h : busChoice s = some c) :
    (∃ w, c = .write w ∧ s.bus.waitingWrite = some w) ∨
    (∃ r, c = .read r ∧ s.bus.waitingWrite = none ∧ s.bus.waitingRead = some r) ∨
    (∃ q a, c = .prefetch q a ∧ s.bus.waitingWrite = none ∧ s.bus.waitingRead = none ∧ prefetchPending s =
        true) := by
  unfold busChoice at h
  split at h
  · rename_i w hw; cases h; exact Or.inl ⟨w, rfl, hw⟩
  · rename_i hw
    split at h
    · rename_i r hr; cases h; exact Or.inr (Or.inl ⟨r, rfl, hw, hr⟩)
    · rename_i hr
      unfold prefetchChoice at h
      split at h
      · rename_i hp
        split at h
        · cases h; exact Or.inr (Or.inr ⟨_, _, rfl, hw, hr, hp⟩)
        · cases h
      · cases h

/-- R140: a pending prefetch read finds a place in the buffer. -/
theorem prefetchPending_length {s : State} (h : prefetchPending s = true) :
    s.bus.buffer.length < Config.prefetchDepth := by
  unfold prefetchPending at h
  split at h
  · simp only [Bool.and_eq_true, decide_eq_true_eq] at h; exact h.2
  · cases h

/-- R134: a chosen value that begins keeps the law. -/
theorem BusCore.begin {s : State} (h : BusCore s) (ho : s.bus.state = .owner) {c : Choice} (hc : busChoice s =
    some c) :
    BusLaw (beginValue c s) := by
  have hsz := choiceSize_bounds s c
  rcases busChoice_spec hc with ⟨w, rfl, hw⟩ | ⟨r, rfl, hw, hr⟩ | ⟨q, a, rfl, hw, hr, hp⟩
  · have hwr := h.write (by simp [hw])
    refine ⟨by simp [beginValue, ho], by simp [beginValue, ho], by simp [beginValue], h.read, ?_, ?_, ?_,
        h.buffered⟩
    · intro u hu hk; simp [beginValue, beginning] at hu; subst hu; cases hk
    · intro u hu hk; exact Or.inr ⟨hwr.1, rfl, hwr.2⟩
    · intro u hu; simp [beginValue, beginning] at hu; subst hu; simp only; omega
  · have hrd := h.read (by simp [hr])
    refine ⟨by simp [beginValue, ho], by simp [beginValue, ho], h.write, by simp [beginValue], ?_, ?_, ?_,
        h.buffered⟩
    · intro u hu hk; exact Or.inr ⟨hrd, rfl⟩
    · intro u hu hk; simp [beginValue, beginning] at hu; subst hu; cases hk
    · intro u hu; simp [beginValue, beginning] at hu; subst hu; simp only; omega
  · have hlen := prefetchPending_length hp
    refine ⟨by simp [beginValue, ho], by simp [beginValue, ho], h.write, h.read, ?_, ?_, ?_, ?_⟩
    · intro u hu hk; simp [beginValue, beginning] at hu; subst hu; cases hk
    · intro u hu hk; simp [beginValue, beginning] at hu; subst hu; cases hk
    · intro u hu; simp [beginValue, beginning] at hu; subst hu; simp only; omega
    · simp [beginValue]; omega

/-- R134: a choice point restores the law. -/
theorem BusCore.choice {s : State} (h : BusCore s) (ho : s.bus.state = .owner) (hu : s.bus.underWay = none) :
    BusLaw (choicePoint s) := by
  unfold choicePoint
  split
  · exact h.release hu
  · split
    · exact h.release hu
    · rename_i hc
      split
      · exact h.begin ho hc
      · exact h.release hu

/-- No write waits, and no demand read or result write is under way: the job may leave the engine. -/
structure Quiet (s : State) : Prop where
  write : s.bus.waitingWrite = none
  reading : ∀ u, s.bus.underWay = some u → u.kind ≠ .demandRead
  writing : ∀ u, s.bus.underWay = some u → u.kind ≠ .resultWrite

/-- Quiet looks at the waiting write and the value under way only. -/
theorem Quiet.congr {s t : State} (h : Quiet s) (hw : t.bus.waitingWrite = s.bus.waitingWrite :=
    by first | (simp; done) | rfl)
    (hu : t.bus.underWay = s.bus.underWay := by first | (simp; done) | rfl) : Quiet t :=
  ⟨hw.trans h.write, by rw [hu]; exact h.reading, by rw [hu]; exact h.writing⟩

/-- R144: a job that leaves a quiet engine keeps the core. -/
theorem BusCore.leave {s : State} (h : BusCore s) (hq : Quiet s) : BusCore (leaveEngine s) := by
  have hd : ∀ u, (leaveEngine s).bus.underWay = some u → ∃ v, s.bus.underWay = some v ∧ u =
      dropPrefetchRead v := by
    intro u hu
    simp only [leaveEngine_value, discardJobWork] at hu
    obtain ⟨v, hv, rfl⟩ := Option.map_eq_some_iff.mp hu
    exact ⟨v, hv, rfl⟩
  refine ⟨?_, ?_, ?_, ?_, ?_, ?_⟩
  · intro hw; simp [discardJobWork, hq.write] at hw
  · intro hw; simp [discardJobWork] at hw
  · intro u hu hk
    obtain ⟨v, hv, rfl⟩ := hd u hu
    unfold dropPrefetchRead at hk
    split at hk
    · cases hk
    · exact absurd hk (hq.reading v hv)
  · intro u hu hk
    obtain ⟨v, hv, rfl⟩ := hd u hu
    unfold dropPrefetchRead at hk
    split at hk
    · cases hk
    · exact absurd hk (hq.writing v hv)
  · intro u hu
    obtain ⟨v, hv, rfl⟩ := hd u hu
    have := h.transfers v hv
    unfold dropPrefetchRead; split <;> exact this
  · simp [discardJobWork]

/-- R94: the end of the running job keeps the core. -/
theorem BusCore.endRunning {s : State} (h : BusCore s) (hq : Quiet s) (r : RunningJob) (st : JobStatus) (e :
    Option BusErr) :
    BusCore (endRunning r st e s) := by
  unfold Machine.endRunning
  exact BusCore.leave h.congr hq.congr

/-- R86: a suspension keeps the core. -/
theorem BusCore.suspend {s : State} (h : BusCore s) (hq : Quiet s) (r : RunningJob) (p : Option PartialPart) :
    BusCore (suspend r p s) := by
  unfold Machine.suspend
  exact (h.leave hq).congr

/-- A quiet engine without a waiting read changes its state and keeps the core. -/
theorem BusCore.setEngine {s : State} (h : BusCore s) (hq : Quiet s) (hr : s.bus.waitingRead = none) (st :
    EngineState) (r : RunningJob) :
    BusCore (setEngine st r s) := by
  refine ⟨fun hw => ?_, fun hw => ?_, fun u hu hk => absurd hk (hq.reading u hu), fun u hu hk => absurd hk
      (hq.writing u hu), h.transfers, h.buffered⟩
  · simp [hq.write] at hw
  · simp [hr] at hw

/-- R80: the request of a result write keeps the core. -/
theorem BusCore.storeResult {s : State} (h : BusCore s) (hq : Quiet s) (hr : s.bus.waitingRead = none) (r :
    RunningJob) (v : Value) :
    BusCore (storeResult r v s) := by
  refine ⟨fun _ => ⟨by simp, _, by simp; rfl, rfl⟩, fun hw => ?_, fun u hu hk => absurd hk (hq.reading u hu),
      fun u hu hk => absurd hk (hq.writing u hu), h.transfers, h.buffered⟩
  simp [Machine.storeResult, requestWrite, hr] at hw

/-- R75: entering FETCH keeps the core. -/
theorem BusCore.enterFetch {s : State} (h : BusCore s) (hq : Quiet s) (hr : s.bus.waitingRead = none) (r :
    RunningJob) :
    BusCore (enterFetch r s) := by
  unfold Machine.enterFetch
  split
  · refine BusCore.setEngine (s := { s with bus := removeEntry r.job.index s.bus }) ⟨fun hw => ?_, fun hw =>
      ?_, fun u hu hk => absurd hk (hq.reading u hu), fun u hu hk => absurd hk (hq.writing u hu), h.transfers,
      ?_⟩ hq.congr hr _ _
    · simp [removeEntry, hq.write] at hw
    · simp [removeEntry, hr] at hw
    · exact (List.length_filter_le _ _).trans h.buffered
  · exact h.setEngine hq hr _ _
  · refine ⟨fun hw => ?_, fun _ => rfl, fun u hu hk => absurd hk (hq.reading u hu), fun u hu hk => absurd hk
      (hq.writing u hu), h.transfers, h.buffered⟩
    simp [requestDemandRead, hq.write] at hw

/-- R88: an exception keeps the core. -/
theorem BusCore.applyException {s : State} (h : BusCore s) (hq : Quiet s) (hr : s.bus.waitingRead = none) (r :
    RunningJob) (e : Exc) (a : Value) :
    BusCore (applyException r e a s) := by
  unfold Machine.applyException
  split
  · unfold applyMark
    dsimp only
    split
    · exact h.storeResult hq hr _ _
    · exact h.endRunning hq _ _ _
  · exact h.endRunning hq _ _ _
  · unfold applyHold
    split
    · exact (h.leave hq).congr
    · exact h.endRunning hq _ _ _

/-- R71: the start of an element keeps the core. -/
theorem BusCore.startElement {s : State} (h : BusCore s) (hq : Quiet s) (hr : s.bus.waitingRead = none) (j :
    Job) :
    BusCore (startElement j s) := by
  unfold Machine.startElement
  split
  · exact h.setEngine hq hr _ _
  · exact h.enterFetch hq hr _

/-- R145: admitting a job keeps the core. -/
theorem BusCore.admitJob {s : State} (h : BusCore s) (j : Job) :
    BusCore (admitJob j s) := by
  refine ⟨h.write, h.read, h.reading, h.writing, h.transfers, ?_⟩
  simp [Machine.admitJob, freshPrefetch]

/-- R101: a hand-over to a quiet engine keeps the core. -/
theorem BusCore.handOver {s : State} (h : BusCore s) (hq : Quiet s) (hr : s.bus.waitingRead = none) (src :
    Source) :
    BusCore (handOver src s) := by
  have key : ∀ (t : State) (j : Job), t.bus = s.bus → t.engine = s.engine → BusCore (Machine.admitJob j t) ∧ Quiet
      (Machine.admitJob j t) ∧ (Machine.admitJob j t).bus.waitingRead = none := by
    intro t j hb he
    have ht : BusCore t := h.congr (by rw [hb]) (by rw [hb]) (by rw [hb]) (by rw [hb]) (by rw [he]) (by rw [he])
    refine ⟨ht.admitJob j, ⟨?_, ?_, ?_⟩, ?_⟩
    · simp [Machine.admitJob, freshPrefetch, hb, hq.write]
    · simp [Machine.admitJob, freshPrefetch, hb]; exact hq.reading
    · simp [Machine.admitJob, freshPrefetch, hb]; exact hq.writing
    · simp [Machine.admitJob, freshPrefetch, hb, hr]
  have cont : ∀ (t : State) (j : Job) a, t.bus = s.bus → t.engine = s.engine → BusCore (startContinuation j a
      (Machine.admitJob j t)) := by
    intro t j a hb he
    obtain ⟨h1, h2, h3⟩ := key t j hb he
    unfold startContinuation deliverContinuation
    repeat' split
    all_goals first
      | exact h1.storeResult h2 h3 _ _
      | exact h1.endRunning h2 _ _ _
      | exact h1.startElement h2 h3 _
  cases src with
  | contextSlot l x =>
    obtain ⟨h1, h2, h3⟩ := key (setSlot l none s) x.job (by simp) (by simp)
    simp only [Machine.handOver]
    split
    · unfold resumePart
      exact h1.setEngine h2 h3 _ _
    · exact h1.startElement h2 h3 _
  | holdSlot r act => exact cont { s with hold := none } _ _ rfl rfl
  | queueHead l j rest =>
    obtain ⟨h1, h2, h3⟩ := key (setQueue l rest s) j (by simp) (by simp)
    exact h1.startElement h2 h3 _

/-- The clause on OWNER looks at the bus state and the value under way only. -/
theorem OwnerLaw.congr {s t : State} (h : OwnerLaw s) (hst : t.bus.state = s.bus.state :=
    by first | (simp; done) | rfl)
    (hu : t.bus.underWay.isSome = s.bus.underWay.isSome :=
        by first | (simp; done) | (simp [discardJobWork]; done) | rfl) : OwnerLaw t := by
  unfold OwnerLaw at *; rw [hst, hu]; exact h

/-- Outside FETCH with a demand read under way and STORE with a result in hand the engine is quiet. -/
theorem BusLaw.quiet {s : State} (h : BusLaw s) (hz : s.engine.state ≠ .frozen) (hw : s.engine.state = .store →
    ∃ r, s.engine.running = some r ∧ r.result = none)
    (hf : s.engine.state = .fetch → demandUnderWay s = false) : Quiet s := by
  have hnw : ¬ (s.engine.state = .store ∧ ∃ r, s.engine.running = some r ∧ r.result.isSome = true) := by
    rintro ⟨h1, r, h2, h3⟩
    obtain ⟨r', h4, h5⟩ := hw h1
    rw [h2] at h4; cases h4; simp [h5] at h3
  refine ⟨?_, fun u hu hk => ?_, fun u hu hk => ?_⟩
  · cases hx : s.bus.waitingWrite with
    | none => rfl
    | some w => exact absurd (h.write (by simp [hx])) hnw
  · rcases h.reading u hu hk with h1 | ⟨h1, _⟩
    · exact hz h1
    · have := hf h1; simp [demandUnderWay, hu, hk] at this
  · rcases h.writing u hu hk with h1 | ⟨h1, _, h2⟩
    · exact hz h1
    · exact hnw ⟨h1, h2⟩

/-- Only an engine in FETCH has a demand read waiting. -/
theorem BusCore.waitingRead_none {s : State} (h : BusCore s) (hf : s.engine.state ≠ .fetch) :
    s.bus.waitingRead = none := by
  cases hx : s.bus.waitingRead with
  | none => rfl
  | some w => exact absurd (h.read (by simp [hx])) hf

/-- R75: what the standing boundary is. -/
theorem standing_spec {s : State} (h : standing s = true) : s.engine.state = .fetch ∧ demandUnderWay s =
    false := by
  simpa [standing] using h

/-- R75: an engine at the standing boundary is quiet. -/
theorem BusCore.quiet_of_standing {s : State} (h : BusCore s) (hs : standing s = true) : Quiet s := by
  obtain ⟨h1, h2⟩ := standing_spec hs
  refine ⟨?_, fun u hu hk => ?_, fun u hu hk => ?_⟩
  · cases hx : s.bus.waitingWrite with
    | none => rfl
    | some w => have := (h.write (by simp [hx])).1; rw [h1] at this; cases this
  · simp [demandUnderWay, hu, hk] at h2
  · rcases h.writing u hu hk with h3 | ⟨h3, _⟩ <;> rw [h1] at h3 <;> cases h3

/-- R76: the suspension at the standing boundary keeps the core. -/
theorem BusCore.suspendIfStanding {s : State} (h : BusCore s) : BusCore (suspendIfStanding s) := by
  unfold Machine.suspendIfStanding
  split
  · split
    · rename_i hh
      simp only [Bool.and_eq_true] at hh
      exact h.suspend (h.quiet_of_standing hh.1) _ _
    · exact h
  · exact h

/-- R144: a job that leaves the engine changes nothing about OWNER. -/
theorem OwnerLaw.leave {s : State} (h : OwnerLaw s) : OwnerLaw (leaveEngine s) := by
  unfold OwnerLaw at *; simpa [discardJobWork] using h

/-- R105: the dispatcher's reaction restores the law. -/
theorem BusCore.react {s : State} (h : BusCore s) (ho : OwnerLaw s) : BusLaw (reactToSources s) := by
  unfold reactToSources
  refine BusCore.settle (BusCore.suspendIfStanding h.congr) ?_
  unfold Machine.suspendIfStanding
  repeat' split
  all_goals first
    | exact ho.congr
    | (unfold Machine.suspend; exact OwnerLaw.congr (OwnerLaw.leave ho.congr))

/-- R174: the completion of ENGINE_RESET establishes the law. -/
theorem BusLaw.completeReset (s : State) : BusLaw (completeReset s) := by
  refine ⟨?_, ?_, ?_, ?_, ?_, ?_, ?_, ?_⟩ <;> simp [Machine.completeReset, setEvent, clearEvents,
      BusMaster.reset, busPending, prefetchPending]

/-- R168: an abort of the running job keeps the core. -/
theorem busCore_abortRunning {s : State} (h : BusCore s) (r : RunningJob) (hr : s.engine.running = some r)
    (ho : OwnerLaw s) :
    BusCore (abortRunning r s) ∧ OwnerLaw (abortRunning r s) := by
  unfold abortRunning
  split
  · rename_i hs
    refine ⟨h.endRunning (h.quiet_of_standing hs) _ _ _, ?_⟩
    unfold Machine.endRunning
    exact OwnerLaw.leave ho.congr
  · refine ⟨⟨fun hw => ?_, h.read, h.reading, fun u hu hk => ?_, h.transfers, h.buffered⟩, ho⟩
    · obtain ⟨h1, r', h2, h3⟩ := h.write hw
      rw [hr] at h2; cases h2
      exact ⟨h1, _, rfl, h3⟩
    · rcases h.writing u hu hk with h1 | ⟨h1, h2, r', h3, h4⟩
      · exact Or.inl h1
      · rw [hr] at h3; cases h3
        exact Or.inr ⟨h1, h2, _, rfl, h4⟩

/-- The end of the value under way keeps the core. -/
theorem busCore_endValue {s : State} (h : BusCore s) (hb : s.bus.buffer.length ≤ Config.prefetchDepth) :
    BusCore (endValue s) :=
  ⟨h.write, h.read, fun u hu _ => by simp [endValue] at hu, fun u hu _ => by simp [endValue] at hu,
      fun u hu => by simp [endValue] at hu, hb⟩

end Sys2Proof.Machine
end

