-- ==== Sys2Proof/Laws/ResetLaw.lean ====
section
/-! SUPPORT. The law of a pending ENGINE_RESET (R172, R174) under the shared operations. -/

namespace Sys2Proof.Machine

/-- A change that touches nothing the law looks at. -/
theorem ResetLaw.of_eq {s t : State} (h : ResetLaw s) (he : t.engine.state = s.engine.state :=
    by first | (simp; done) | rfl)
    (hc : t.cmd.pending = s.cmd.pending := by first | (simp; done) | rfl)
    (hu : t.bus.underWay.isSome = s.bus.underWay.isSome := by first | (simp; done) | rfl) : ResetLaw t := by
  refine ⟨by rw [he, hc]; exact h.frozen, by rw [hc, hu]; exact h.waiting⟩

/-- Without a reset pending and an engine FROZEN the law holds. -/
theorem ResetLaw.free {t : State} (he : t.engine.state ≠ .frozen) (hc : t.cmd.pending = false) : ResetLaw t :=
    by
  refine ⟨⟨fun h => absurd h he, fun h => by rw [hc] at h; cases h⟩, fun h => by rw [hc] at h; cases h⟩

/-- R174: the completion of ENGINE_RESET establishes the law. -/
theorem ResetLaw.completeReset (s : State) : ResetLaw (completeReset s) :=
  ResetLaw.free (by simp [Machine.completeReset, setEvent, clearEvents]) (by simp [Machine.completeReset,
      setEvent, clearEvents])

/-- No reset is pending and the engine is not FROZEN. -/
def Thawed (s : State) : Prop := s.engine.state ≠ .frozen ∧ s.cmd.pending = false

/-- A thawed state satisfies the law. -/
theorem Thawed.law {s : State} (h : Thawed s) : ResetLaw s := ResetLaw.free h.1 h.2

/-- Thawed looks at the engine state and the command state only. -/
theorem Thawed.congr {s t : State} (h : Thawed s) (he : t.engine.state = s.engine.state :=
    by first | (simp; done) | rfl)
    (hc : t.cmd = s.cmd := by first | (simp; done) | rfl) : Thawed t := ⟨by rw [he]; exact h.1,
        by rw [hc]; exact h.2⟩

/-- A change of the engine's state to one that is not FROZEN. -/
theorem Thawed.to {s t : State} (h : Thawed s) (he : t.engine.state ≠ .frozen)
    (hc : t.cmd = s.cmd := by first | (simp; done) | rfl) : Thawed t := ⟨he, by rw [hc]; exact h.2⟩

/-- R94: the end of the running job thaws nothing and freezes nothing. -/
theorem Thawed.endRunning {s : State} (h : Thawed s) (r : RunningJob) (st : JobStatus) (e : Option BusErr) :
    Thawed (endRunning r st e s) :=
  h.to (by simp [Machine.endRunning])

/-- R86: nor does a suspension. -/
theorem Thawed.suspend {s : State} (h : Thawed s) (r : RunningJob) (p) : Thawed (suspend r p s) :=
  h.to (by simp [Machine.suspend])

/-- R75: nor does entering FETCH. -/
theorem Thawed.enterFetch {s : State} (h : Thawed s) (r : RunningJob) : Thawed (enterFetch r s) := by
  obtain ⟨a, _, h2⟩ := enterFetch_running r s
  exact h.to (by rcases h2 with h2 | h2 <;> simp [h2])

/-- R71: nor does the start of an element. -/
theorem Thawed.startElement {s : State} (h : Thawed s) (j : Job) : Thawed (startElement j s) := by
  unfold Machine.startElement
  split
  · exact h.to (by simp)
  · exact h.enterFetch _

/-- R88: nor does an exception. -/
theorem Thawed.applyException {s : State} (h : Thawed s) (r : RunningJob) (e : Exc) (a : Value) : Thawed
    (applyException r e a s) := by
  unfold Machine.applyException
  split
  · unfold applyMark
    dsimp only
    split
    · exact h.to (by simp)
    · exact h.endRunning _ _ _
  · exact h.endRunning _ _ _
  · unfold applyHold
    split
    · exact h.to (by simp)
    · exact h.endRunning _ _ _

/-- R133: nor does a request settled. -/
theorem Thawed.settle {s : State} (h : Thawed s) : Thawed (settleRequest s) := h.congr

/-- R134: nor does a choice point. -/
theorem Thawed.choice {s : State} (h : Thawed s) : Thawed (choicePoint s) := h.congr

/-- R134: nor does a release. -/
theorem Thawed.release {s : State} (h : Thawed s) : Thawed (releaseBus s) := h.congr

/-- R105: nor does the dispatcher's reaction. -/
theorem Thawed.react {s : State} (h : Thawed s) : Thawed (reactToSources s) := by
  unfold reactToSources
  refine Thawed.settle ?_
  have h' : Thawed (refreshYield s) := h.congr
  unfold suspendIfStanding
  repeat' split
  all_goals first
    | exact h'
    | exact h'.suspend _ _

/-- R101: nor does a hand-over. -/
theorem Thawed.handOver {s : State} (h : Thawed s) (src : Source) : Thawed (handOver src s) := by
  have hadm : ∀ (t : State) j, t.engine = s.engine → t.cmd = s.cmd → Thawed (admitJob j t) :=
      fun t j he hc => h.to (by simp [he, h.1]) (by simp [hc])
  have hcont : ∀ (t : State) j v, Thawed t → Thawed (deliverContinuation j v t) := by
    intro t j v ht
    unfold deliverContinuation
    split
    · exact ht.to (by simp)
    · exact ht.endRunning _ _ _
  cases src with
  | contextSlot l x =>
    simp only [Machine.handOver]
    split
    · refine Thawed.to (hadm (setSlot l none s) x.job (by simp) (by simp)) ?_ ?_
      · simp only [resumePart, setEngine_value]; split <;> simp
      · simp [resumePart]
    · exact (hadm (setSlot l none s) x.job (by simp) (by simp)).startElement _
  | holdSlot r act =>
    simp only [Machine.handOver, startContinuation]
    split
    · exact hcont _ _ _ (hadm _ _ rfl rfl)
    · exact hcont _ _ _ (hadm _ _ rfl rfl)
    · exact Thawed.startElement (hadm { s with hold := none } _ rfl rfl) _
  | queueHead l j rest => exact (hadm (setQueue l rest s) j (by simp) (by simp)).startElement _

/-- R105, R172: the dispatcher's reaction does not move a FROZEN engine nor the value under way. -/
theorem frozen_react {s : State} (h : s.engine.state = .frozen) : (reactToSources s).engine.state = .frozen ∧
    (reactToSources s).bus.underWay = s.bus.underWay := by
  unfold reactToSources suspendIfStanding
  have : standing (refreshYield s) = false := by simp [standing, h]
  simp only [this, Bool.false_and]
  split <;> simp [h] <;> (unfold settleRequest; repeat' split) <;> simp

/-- R105: the dispatcher's reaction keeps the law. -/
theorem ResetLaw.react {s : State} (h : ResetLaw s) : ResetLaw (reactToSources s) := by
  cases hp : s.cmd.pending with
  | true =>
    have hf := h.frozen.mpr hp
    obtain ⟨h1, h2⟩ := frozen_react hf
    exact h.of_eq (by rw [h1, hf]) (by simp) (by rw [h2])
  | false =>
    have hf : s.engine.state ≠ .frozen := fun hh => by have := h.frozen.mp hh; rw [hp] at this; cases this
    exact (Thawed.react ⟨hf, hp⟩).law

end Sys2Proof.Machine
end

