-- ==== Sys2Proof/Laws/EngineLaw.lean ====
section
/-! SUPPORT. The law of the engine (R70 to R73) under the shared operations. -/

namespace Sys2Proof.Machine

/-- A change that touches nothing the law looks at. -/
theorem EngineLaw.of_eq {s t : State} (h : EngineLaw s) (hst : t.engine.state = s.engine.state :=
    by first | (simp; done) | rfl)
    (hr : t.engine.running = s.engine.running := by first | (simp; done) | rfl) : EngineLaw t :=
  ⟨by rw [hst, hr]; exact h.setup, by rw [hst, hr]; exact h.terms, by rw [hst, hr]; exact h.store⟩

/-- IDLE, FETCH and FROZEN need nothing in hand. -/
theorem EngineLaw.at_rest {t : State} (h : t.engine.state = .idle ∨ t.engine.state = .fetch ∨ t.engine.state =
    .frozen) : EngineLaw t := by
  refine ⟨fun hs => ?_, fun hs => ?_, fun hs => ?_⟩ <;> rcases h with h | h | h <;> rw [h] at hs <;> cases hs

/-- R144: a job that leaves the engine establishes the law. -/
theorem EngineLaw.leave (s : State) : EngineLaw (leaveEngine s) := EngineLaw.at_rest (Or.inl rfl)

/-- R94: the end of the running job establishes the law. -/
theorem EngineLaw.endRunning (r : RunningJob) (st : JobStatus) (e : Option BusErr) (s : State) : EngineLaw
    (endRunning r st e s) :=
  EngineLaw.at_rest (Or.inl rfl)

/-- R86: a suspension establishes the law. -/
theorem EngineLaw.suspend (r : RunningJob) (p) (s : State) : EngineLaw (suspend r p s) :=
  EngineLaw.at_rest (Or.inl (by simp [Machine.suspend]))

/-- R77: SETUP with an argument in hand. -/
theorem EngineLaw.setupEngine {r : RunningJob} {a : Value} (h : r.arg = some a) (s : State) : EngineLaw
    (setEngine .setup r s) :=
  ⟨fun _ => ⟨r, a, rfl, h⟩, fun hs => (by cases hs), fun hs => (by cases hs)⟩

/-- R75: entering FETCH establishes the law. -/
theorem EngineLaw.enterFetch (r : RunningJob) (s : State) : EngineLaw (enterFetch r s) := by
  unfold Machine.enterFetch
  split
  · exact EngineLaw.setupEngine rfl _
  · exact EngineLaw.at_rest (Or.inr (Or.inl rfl))
  · exact EngineLaw.at_rest (Or.inr (Or.inl rfl))

/-- R80: STORE with a result in hand. -/
theorem EngineLaw.storeResult (r : RunningJob) (v) (s : State) : EngineLaw (storeResult r v s) :=
  ⟨fun hs => (by cases hs), fun hs => (by cases hs), fun _ => ⟨{ r with result := some v }, rfl, Or.inl rfl⟩⟩

/-- R88: an exception establishes the law. -/
theorem EngineLaw.applyException (r : RunningJob) (e a) (s : State) : EngineLaw (applyException r e a s) := by
  unfold Machine.applyException
  split
  · unfold applyMark
    dsimp only
    split
    · exact EngineLaw.storeResult _ _ _
    · exact EngineLaw.endRunning _ _ _ _
  · exact EngineLaw.endRunning _ _ _ _
  · unfold applyHold
    split
    · exact EngineLaw.at_rest (Or.inl (by simp))
    · exact EngineLaw.endRunning _ _ _ _

/-- R71: the start of an element establishes the law. -/
theorem EngineLaw.startElement (j) (s : State) : EngineLaw (startElement j s) := by
  unfold Machine.startElement
  split
  · exact EngineLaw.setupEngine rfl _
  · exact EngineLaw.enterFetch _ _

/-- R78, R79: going on with working values establishes the law. -/
theorem EngineLaw.working (r : RunningJob) (w : Working) (a : Value) (h : r.arg = some a) (s : State) :
    EngineLaw (setEngine (if w.nextTerm.isSome then .terms else .store) { r with work := some w } s) := by
  cases hn : w.nextTerm with
  | none => exact ⟨fun hs => (by cases hs), fun hs => (by cases hs), fun _ => ⟨_, rfl, Or.inr ⟨a, w, h, rfl⟩⟩⟩
  | some j => exact ⟨fun hs => (by cases hs), fun _ => ⟨_, a, w, j, rfl, h, rfl, hn⟩, fun hs => (by cases hs)⟩

/-- R101: a hand-over establishes the law. -/
theorem EngineLaw.handOver (src) (s : State) : EngineLaw (handOver src s) := by
  unfold Machine.handOver startContinuation deliverContinuation
  repeat' split
  all_goals first
    | exact EngineLaw.startElement _ _
    | exact EngineLaw.storeResult _ _ _
    | exact EngineLaw.endRunning _ _ _ _
    | skip
  rename_i pp _
  unfold resumePart
  exact EngineLaw.working { takenJob _ with arg := some pp.arg } pp.work pp.arg rfl _

/-- R105: the dispatcher's reaction keeps the law. -/
theorem EngineLaw.react {s : State} (h : EngineLaw s) : EngineLaw (reactToSources s) := by
  unfold reactToSources
  refine EngineLaw.of_eq (s := suspendIfStanding (refreshYield s)) ?_
  unfold suspendIfStanding
  repeat' split
  all_goals first | exact EngineLaw.suspend _ _ _ | exact h.of_eq

/-- R168: an abort of the running job keeps the law. -/
theorem engineLaw_abortRunning {s : State} (h : EngineLaw s) {r : RunningJob} (hr : s.engine.running = some r)
    : EngineLaw (abortRunning r s) := by
  unfold abortRunning
  split
  · exact EngineLaw.endRunning _ _ _ _
  · refine ⟨fun hs => ?_, fun hs => ?_, fun hs => ?_⟩
    · obtain ⟨r', a, h1, h2⟩ := h.setup hs
      rw [hr] at h1; cases h1; exact ⟨_, a, rfl, h2⟩
    · obtain ⟨r', a, w, j, h1, h2⟩ := h.terms hs
      rw [hr] at h1; cases h1; exact ⟨_, a, w, j, rfl, h2⟩
    · obtain ⟨r', h1, h2⟩ := h.store hs
      rw [hr] at h1; cases h1; exact ⟨_, rfl, h2⟩

/-- R174: the completion of ENGINE_RESET establishes the law. -/
theorem EngineLaw.completeReset (s : State) : EngineLaw (completeReset s) :=
  EngineLaw.at_rest (Or.inl rfl)

end Sys2Proof.Machine
end

