-- ==== Sys2Proof/Laws/Fields.lean ====
section
/-! SUPPORT. The number a word made of fields shows: each field at its place, next to the fields below it. -/

namespace Sys2Proof.Machine

/-- A field alone. -/
theorem toNat_field {v lo width : Nat} (hv : v < 2 ^ width) (hw : lo + width ≤ 32) :
    (field v lo width).toNat = v * 2 ^ lo := by
  have h : v * 2 ^ lo < 2 ^ 32 :=
    calc v * 2 ^ lo < 2 ^ width * 2 ^ lo := Nat.mul_lt_mul_of_pos_right hv (Nat.two_pow_pos lo)
      _ = 2 ^ (lo + width) := by rw [← Nat.pow_add, Nat.add_comm]
      _ ≤ 2 ^ 32 := Nat.pow_le_pow_right (by decide) hw
  rw [field, BitVec.toNat_ofNat, Nat.mod_eq_of_lt hv, Nat.mod_eq_of_lt h]

/-- A field above a word that ends below it: the numbers add. -/
theorem toNat_or_field {w : Word} {v lo width : Nat} (h : w.toNat < 2 ^ lo) (hv : v < 2 ^ width)
    (hw : lo + width ≤ 32) : (w ||| field v lo width).toNat = w.toNat + v * 2 ^ lo := by
  rw [BitVec.toNat_or, toNat_field hv hw, Nat.mul_comm, Nat.lor_comm, ← Nat.two_pow_add_eq_or_of_lt h]
  omega

/-- The bound that lets the next field be put above: a word that ends below `lo`, with a field at `lo`, ends below the
field's end. -/
theorem toNat_or_field_lt {w : Word} {v lo width : Nat} (h : w.toNat < 2 ^ lo) (hv : v < 2 ^ width)
    (hw : lo + width ≤ 32) : (w ||| field v lo width).toNat < 2 ^ (lo + width) := by
  rw [toNat_or_field h hv hw, Nat.pow_add]
  calc w.toNat + v * 2 ^ lo < 2 ^ lo + v * 2 ^ lo := Nat.add_lt_add_right h _
    _ = (v + 1) * 2 ^ lo := by rw [Nat.add_mul, Nat.one_mul, Nat.add_comm]
    _ ≤ 2 ^ width * 2 ^ lo := Nat.mul_le_mul_right _ hv
    _ = 2 ^ lo * 2 ^ width := Nat.mul_comm _ _

/-- A flag alone. -/
theorem toNat_flagBit {b : Bool} {lo : Nat} (hw : lo + 1 ≤ 32) :
    (flagBit b lo).toNat = (if b then 1 else 0) * 2 ^ lo := by
  unfold flagBit
  exact toNat_field (by cases b <;> decide) hw

end Sys2Proof.Machine
end

