-- ==== Sys2Proof/Laws/Numbers.lean ====
section
/-! SUPPORT. The exact numbers behind the arithmetic (R1, R2, R5, R6): what each operation on them is as a rational
number, and the number an encoding enters a step with. -/

namespace Sys2Proof.Machine

/-- A number taken to a base not above its exponent. -/
theorem scaled_number (a : Dyadic) {base : Int} (h : base ≤ a.e) :
    (a.scaled base : ℚ) * 2 ^ base = dyadicNumber a := by
  unfold Dyadic.scaled dyadicNumber pow2
  push_cast
  rw [mul_assoc, ← zpow_natCast, ← zpow_add₀ (two_ne_zero), Int.toNat_of_nonneg (by omega)]
  congr 2
  omega

/-- The product is exact. -/
theorem dyadicNumber_mul (a b : Dyadic) : dyadicNumber (a.mul b) = dyadicNumber a * dyadicNumber b := by
  unfold Dyadic.mul dyadicNumber
  push_cast
  rw [zpow_add₀ (two_ne_zero)]
  ring

/-- The sum is exact. -/
theorem dyadicNumber_add (a b : Dyadic) : dyadicNumber (a.add b) = dyadicNumber a + dyadicNumber b := by
  rw [← scaled_number a (base := min a.e b.e) (by omega), ← scaled_number b (base := min a.e b.e) (by omega)]
  unfold Dyadic.add dyadicNumber
  push_cast
  ring

/-- The negation is exact. -/
theorem dyadicNumber_neg (a : Dyadic) : dyadicNumber a.neg = -dyadicNumber a := by
  simp [Dyadic.neg, dyadicNumber]

/-- The difference is exact. -/
theorem dyadicNumber_sub (a b : Dyadic) : dyadicNumber (a.sub b) = dyadicNumber a - dyadicNumber b := by
  rw [Dyadic.sub, dyadicNumber_add, dyadicNumber_neg, sub_eq_add_neg]

/-- A number is negative exactly with its integer. -/
theorem dyadicNumber_neg_iff (a : Dyadic) : dyadicNumber a < 0 ↔ a.m < 0 := by
  have h : (0 : ℚ) < 2 ^ a.e := zpow_pos two_pos _
  unfold dyadicNumber
  constructor
  · intro hx
    by_contra hc
    have : (0 : ℚ) ≤ a.m := by exact_mod_cast not_lt.mp hc
    have := mul_nonneg this h.le
    linarith
  · intro hx
    have : (a.m : ℚ) < 0 := by exact_mod_cast hx
    exact mul_neg_of_neg_of_pos this h

/-- A number is at most 0 exactly with its integer. -/
theorem dyadicNumber_nonpos_iff (a : Dyadic) : dyadicNumber a ≤ 0 ↔ a.m ≤ 0 := by
  have h : (0 : ℚ) < 2 ^ a.e := zpow_pos two_pos _
  unfold dyadicNumber
  constructor
  · intro hx
    by_contra hc
    have : (0 : ℚ) < a.m := by exact_mod_cast not_le.mp hc
    have := mul_pos this h
    linarith
  · intro hx
    have : (a.m : ℚ) ≤ 0 := by exact_mod_cast hx
    exact mul_nonpos_of_nonpos_of_nonneg this h.le

/-- R5: the comparison is by value. -/
theorem lt_iff_number (a b : Dyadic) : a.lt b = true ↔ dyadicNumber a < dyadicNumber b := by
  rw [Dyadic.lt, decide_eq_true_eq, ← dyadicNumber_neg_iff, dyadicNumber_sub, sub_neg]

/-- R5: the comparison is by value. -/
theorem le_iff_number (a b : Dyadic) : a.le b = true ↔ dyadicNumber a ≤ dyadicNumber b := by
  rw [Dyadic.le, decide_eq_true_eq, ← dyadicNumber_nonpos_iff, dyadicNumber_sub, sub_nonpos]

/-- R1: the number of the fields as an integer times a power of two. -/
theorem fieldsNumber_eq (frac exp fraction : Nat) (bias : Int) (neg : Bool) (h : exp ≠ 0) :
    fieldsNumber frac bias (if neg then 1 else 0) exp fraction =
      dyadicNumber
        ⟨if neg then -((2 ^ frac + fraction : Nat) : Int) else ((2 ^ frac + fraction : Nat) : Int),
          (exp : Int) - bias - frac⟩ := by
  unfold fieldsNumber dyadicNumber
  rw [if_neg h, zpow_sub₀ (two_ne_zero) _ (frac : Int), zpow_natCast]
  have hp : (2 : ℚ) ^ frac ≠ 0 := pow_ne_zero _ two_ne_zero
  cases neg <;> simp <;> field_simp

/-- The sign bit of a word as a number. -/
theorem sign_of_msb (x : Word) : x.toNat / 2 ^ 31 = if x.msb then 1 else 0 := by
  have h := x.isLt
  rw [BitVec.msb_eq_decide]
  split <;> rename_i hm <;> simp at hm <;> omega

/-- R1, R2: the number an encoding enters a step with. -/
theorem valueNum_number (v : Value) : dyadicNumber (valueNum v) = numberOf v := by
  have hz : dyadicNumber Dyadic.zero = 0 := by simp [dyadicNumber, Dyadic.zero]
  cases v with
  | narrow x =>
    simp only [valueNum, numberOf]
    rw [sign_of_msb]
    by_cases h : x.toNat / 2 ^ 23 % 2 ^ 8 = 0
    · rw [if_pos (c := isZero (.narrow x) = true) (decide_eq_true h), hz, fieldsNumber, if_pos h]
    · rw [if_neg (c := isZero (.narrow x) = true) (fun hd => h (of_decide_eq_true hd)), fieldsNumber_eq _ _ _ _ _ h]
      rfl
  | wide hi lo =>
    simp only [valueNum, numberOf]
    rw [sign_of_msb]
    by_cases h : hi.toNat / 2 ^ 20 % 2 ^ 11 = 0
    · rw [if_pos (c := isZero (.wide hi lo) = true) (decide_eq_true h), hz, fieldsNumber, if_pos h]
    · rw [if_neg (c := isZero (.wide hi lo) = true) (fun hd => h (of_decide_eq_true hd)), fieldsNumber_eq _ _ _ _ _ h]
      rfl

end Sys2Proof.Machine
end

