-- ==== Sys2Proof/Laws/PrefetchLaw.lean ====
section
/-! SUPPORT. The law of the prefetch buffer (R137, R139) under the shared operations. -/

namespace Sys2Proof.Machine

/-- The law with the lowest entry the one after the job's element. -/
structure AfterFetch (s : State) : Prop where
  present : s.bus.prefetch.isSome = true ↔
    s.engine.state ≠ .frozen ∧ ∃ r, s.engine.running = some r ∧ isBatch r.job.desc = true
  absent : s.bus.prefetch = none → s.bus.buffer = []
  consecutive : ∀ r pf, s.engine.running = some r → s.bus.prefetch = some pf →
    s.bus.buffer.map (·.element) = List.range' (r.job.index + 1) s.bus.buffer.length ∧ pf.p =
        r.job.index + 1 + s.bus.buffer.length
  inFlight : (valueOf s .prefetchRead).isSome = (inFlightEntry s.bus).isSome
  highest : ∀ e ∈ s.bus.buffer.dropLast, e.value.isSome = true

/-- R75: an engine in FETCH waits for its demand read or for its entry. -/
def Waits (s : State) : Prop := s.engine.state = .fetch → s.bus.waitingRead.isSome = true ∨ demandUnderWay s =
    true ∨
    ∃ r e, s.engine.running = some r ∧ inFlightEntry s.bus = some e ∧ e.element = r.job.index

/-- The law from its form after the fetch. -/
theorem AfterFetch.law {s : State} (h : AfterFetch s) (hw : Waits s) : PrefetchLaw s :=
  ⟨h.present, h.absent, fun r pf hr hp => ⟨r.job.index + 1, (h.consecutive r pf hr hp).1,
      (h.consecutive r pf hr hp).2, Or.inl rfl⟩,
    h.inFlight, h.highest, hw⟩

/-- Outside FETCH the form after the fetch is the law. -/
theorem AfterFetch.law_of_ne {s : State} (h : AfterFetch s) (hw : s.engine.state ≠ .fetch) : PrefetchLaw s :=
  h.law fun hf => absurd hf hw

/-- The law gives its form after the fetch unless the engine waits for an entry. -/
theorem PrefetchLaw.afterFetch {s : State} (h : PrefetchLaw s)
    (hx : s.engine.state ≠ .fetch ∨ s.bus.waitingRead ≠ none ∨ inFlightEntry s.bus = none) : AfterFetch s := by
  refine ⟨h.present, h.absent, fun r pf hr hp => ?_, h.inFlight, h.highest⟩
  obtain ⟨low, h1, h2, h3⟩ := h.consecutive r pf hr hp
  rcases h3 with h3 | ⟨_, h4, h5, _, h6⟩
  · subst h3; exact ⟨h1, h2⟩
  · rcases hx with hx | hx | hx
    · exact absurd h4 hx
    · exact absurd h5 hx
    · rw [hx] at h6; cases h6

/-- The entry in flight depends on the buffer only. -/
theorem inFlightEntry_congr {a b : BusMaster} (h : a.buffer = b.buffer) : inFlightEntry a = inFlightEntry b :=
    by
  unfold inFlightEntry; rw [h]

/-- The kind of the running job and its element index. -/
def runningElement (s : State) : Option (Bool × Nat) := s.engine.running.map fun r => (isBatch r.job.desc,
    r.job.index)

/-- The same kind and element in another state. -/
theorem runningElement_some {s t : State} (hk : runningElement t = runningElement s) {r : RunningJob} (hr :
    t.engine.running = some r) :
    ∃ r', s.engine.running = some r' ∧ isBatch r'.job.desc = isBatch r.job.desc ∧ r'.job.index = r.job.index :=
        by
  unfold runningElement at hk
  rw [hr] at hk
  simp only [Option.map_some] at hk
  obtain ⟨r', h1, h2⟩ := Option.map_eq_some_iff.mp hk.symm
  simp only [Prod.mk.injEq] at h2
  exact ⟨r', h1, h2.1, h2.2⟩

/-- The same kind in another state. -/
theorem batch_iff {s t : State} (hk : runningElement t = runningElement s) :
    (∃ r, t.engine.running = some r ∧ isBatch r.job.desc = true) ↔ ∃ r, s.engine.running = some r ∧
        isBatch r.job.desc = true := by
  constructor
  · rintro ⟨r, h1, h2⟩; obtain ⟨r', h3, h4, _⟩ := runningElement_some hk h1; exact ⟨r', h3, h4.trans h2⟩
  · rintro ⟨r, h1, h2⟩; obtain ⟨r', h3, h4, _⟩ := runningElement_some hk.symm h1; exact ⟨r', h3, h4.trans h2⟩

/-- What the form after the fetch looks at. -/
theorem AfterFetch.congr {s t : State} (h : AfterFetch s) (hp : t.bus.prefetch = s.bus.prefetch :=
    by first | (simp; done) | rfl)
    (hb : t.bus.buffer = s.bus.buffer := by first | (simp; done) | rfl)
    (hv : (valueOf t .prefetchRead).isSome = (valueOf s .prefetchRead).isSome :=
        by first | (simp [valueOf]; done) | rfl)
    (hst : t.engine.state = .frozen ↔ s.engine.state = .frozen := by first | (simp; done) | rfl)
    (hk : runningElement t = runningElement s := by first | (simp [runningElement]; done) | rfl) :
        AfterFetch t := by
  refine ⟨by rw [hp, h.present, batch_iff hk]; simp only [ne_eq, hst], by rw [hp, hb]; exact h.absent,
      fun r pf hr hpf => ?_, ?_, by rw [hb]; exact h.highest⟩
  · obtain ⟨r', h1, _, h3⟩ := runningElement_some hk hr
    rw [hb, ← h3]; exact h.consecutive r' pf h1 (hp ▸ hpf)
  · rw [hv, h.inFlight, inFlightEntry_congr hb]

/-- What the law looks at. -/
theorem PrefetchLaw.congr {s t : State} (h : PrefetchLaw s) (hp : t.bus.prefetch = s.bus.prefetch :=
    by first | (simp; done) | rfl)
    (hb : t.bus.buffer = s.bus.buffer := by first | (simp; done) | rfl)
    (hu : t.bus.underWay = s.bus.underWay := by first | (simp; done) | rfl)
    (hw : t.bus.waitingRead = s.bus.waitingRead := by first | (simp; done) | rfl)
    (hst : t.engine.state = s.engine.state := by first | (simp; done) | rfl)
    (hk : runningElement t = runningElement s := by first | (simp [runningElement]; done) | rfl) :
        PrefetchLaw t := by
  have hv : valueOf t .prefetchRead = valueOf s .prefetchRead := by unfold valueOf; rw [hu]
  refine ⟨by rw [hp, h.present, batch_iff hk, hst], by rw [hp, hb]; exact h.absent, fun r pf hr hpf => ?_, ?_,
      by rw [hb]; exact h.highest, fun hf => ?_⟩
  · obtain ⟨r', h1, _, h3⟩ := runningElement_some hk hr
    rw [hb, ← h3, hst, hw, inFlightEntry_congr hb]; exact h.consecutive r' pf h1 (hp ▸ hpf)
  · rw [hv, h.inFlight, inFlightEntry_congr hb]
  · rw [hw]
    have hd : demandUnderWay t = demandUnderWay s := by unfold demandUnderWay; rw [hu]
    rw [hd, inFlightEntry_congr hb]
    rcases h.waits (hst ▸ hf) with h1 | h1 | ⟨r, e, h1, h2, h3⟩
    · exact Or.inl h1
    · exact Or.inr (Or.inl h1)
    · obtain ⟨r', h4, _, h6⟩ := runningElement_some hk.symm h1
      exact Or.inr (Or.inr ⟨r', e, h4, h2, h3.trans h6.symm⟩)

/-- Nothing prefetched, and no job in the engine or a FROZEN one. -/
theorem AfterFetch.empty {t : State} (hp : t.bus.prefetch = none) (hb : t.bus.buffer = []) (hv :
    valueOf t .prefetchRead = none)
    (hr : t.engine.state = .frozen ∨ t.engine.running = none) : AfterFetch t := by
  refine ⟨?_, fun _ => hb, fun r pf _ h2 => (by rw [hp] at h2; cases h2),
      by rw [hv]; unfold inFlightEntry; rw [hb]; rfl, by rw [hb]; simp⟩
  rw [hp]
  constructor
  · intro h; cases h
  · rintro ⟨h1, r, h2, _⟩
    rcases hr with hr | hr
    · exact absurd hr h1
    · rw [hr] at h2; cases h2

/-- R144: a dropped prefetch read is none. -/
theorem valueOf_drop (s : State) (u : Option UnderWay) (hu : s.bus.underWay = u.map dropPrefetchRead) :
    valueOf s .prefetchRead = none := by
  unfold valueOf
  rw [hu]
  cases u with
  | none => rfl
  | some v =>
    simp only [Option.map_some]
    split
    · rename_i hx
      exfalso; revert hx; unfold dropPrefetchRead
      split
      · simp
      · assumption
    · rfl

/-- R144: a job that leaves the engine establishes the form. -/
theorem AfterFetch.leave (s : State) : AfterFetch (leaveEngine s) :=
  AfterFetch.empty rfl rfl (valueOf_drop _ s.bus.underWay rfl) (Or.inr rfl)

/-- R94: the end of the running job establishes the law. -/
theorem PrefetchLaw.endRunning (r : RunningJob) (st : JobStatus) (e : Option BusErr) (s : State) : PrefetchLaw
    (endRunning r st e s) :=
  (AfterFetch.leave _).law_of_ne (by simp)

/-- R86: a suspension establishes the law. -/
theorem PrefetchLaw.suspend (r : RunningJob) (p) (s : State) : PrefetchLaw (suspend r p s) := by
  unfold Machine.suspend
  exact AfterFetch.law_of_ne ((AfterFetch.leave s).congr) (by simp)

/-- A change of the engine's state keeps the form. -/
theorem AfterFetch.setEngine {s : State} (h : AfterFetch s) {st : EngineState} {r : RunningJob} (hk :
    runningElement s = some (isBatch r.job.desc, r.job.index))
    (hz : s.engine.state ≠ .frozen) (hst : st ≠ .frozen) : AfterFetch (setEngine st r s) :=
  h.congr rfl rfl rfl (by simp [hz, hst]) (by rw [hk]; rfl)

/-- R80: the request of a result write keeps the form. -/
theorem afterFetch_storeResult {s : State} (h : AfterFetch s) {r : RunningJob} (v) (hk : runningElement s =
    some (isBatch r.job.desc, r.job.index))
    (hz : s.engine.state ≠ .frozen) : AfterFetch (storeResult r v s) :=
  AfterFetch.congr (s := Machine.setEngine .store { r with result := some v } s) (h.setEngine (r :=
      { r with result := some v }) hk hz (by simp)) rfl rfl rfl (by simp) (by simp [runningElement])

/-- The entry of the lowest element is the first of consecutive entries. -/
theorem find_of_map {l : List PrefetchEntry} {a : Nat} (h : l.map (·.element) = List.range' a l.length) (i :
    Nat) (hi : i = a) :
    (l = [] ∧ l.find? (fun e => decide (e.element = i)) = none) ∨
    ∃ e t, l = e :: t ∧ e.element = i ∧ l.find? (fun e => decide (e.element = i)) = some e ∧ t.map (·.element)
        = List.range' (i+1) t.length := by
  cases l with
  | nil => exact Or.inl ⟨rfl, rfl⟩
  | cons e t =>
    simp only [List.map_cons, List.length_cons, List.range'_succ, List.cons.injEq] at h
    refine Or.inr ⟨e, t, rfl, by rw [hi]; exact h.1, ?_, by rw [hi]; exact h.2⟩
    simp [h.1, hi]

/-- Entries of later elements stay when an element's entry is removed. -/
theorem filter_tail {t : List PrefetchEntry} {i : Nat} (h : t.map (·.element) = List.range' (i+1) t.length) :
    t.filter (fun e => decide (e.element ≠ i)) = t := by
  rw [List.filter_eq_self]
  intro e he
  have : e.element ∈ t.map (·.element) := List.mem_map_of_mem he
  rw [h, List.mem_range'] at this
  obtain ⟨k, _, hk⟩ := this
  simp; omega

/-- The buffer as the engine looks for the job's element: empty, or the element lowest. -/
structure BeforeFetch (s : State) (r : RunningJob) : Prop where
  present : s.bus.prefetch.isSome = isBatch r.job.desc
  absent : s.bus.prefetch = none → s.bus.buffer = []
  consecutive : ∀ pf, s.bus.prefetch = some pf →
    s.bus.buffer = [] ∨ (s.bus.buffer.map (·.element) = List.range' r.job.index s.bus.buffer.length ∧ pf.p =
        r.job.index + s.bus.buffer.length)
  inFlight : (valueOf s .prefetchRead).isSome = (inFlightEntry s.bus).isSome
  highest : ∀ e ∈ s.bus.buffer.dropLast, e.value.isSome = true

/-- R75, R137, R141: entering FETCH establishes the law. -/
theorem BeforeFetch.enterFetch {s : State} {r : RunningJob} (h : BeforeFetch s r) (hw : s.bus.waitingRead =
    none) : PrefetchLaw (enterFetch r s) := by
  have hcases : s.bus.buffer = [] ∨ ∃ pf, s.bus.prefetch = some pf ∧ s.bus.buffer.map (·.element) =
      List.range' r.job.index s.bus.buffer.length ∧ pf.p = r.job.index + s.bus.buffer.length := by
    cases hp : s.bus.prefetch with
    | none => exact Or.inl (h.absent hp)
    | some pf => rcases h.consecutive pf hp with h1 | h1
                 · exact Or.inl h1
                 · exact Or.inr ⟨pf, rfl, h1⟩
  unfold Machine.enterFetch
  rcases hcases with hb | ⟨pf, hp, hb, hpp⟩
  · have hf : entryFor s.bus r.job.index = none := by unfold entryFor; rw [hb]; rfl
    rw [hf]
    simp only
    refine ⟨?_, ?_, ?_, ?_, ?_, ?_⟩
    · simp [requestDemandRead, h.present]
    · intro hh; simp only [Machine.setEngine, requestDemandRead]; exact hb
    · intro r' pf' hr hpf
      simp only [Machine.setEngine, Option.some.injEq] at hr
      subst hr
      simp only [Machine.setEngine, requestDemandRead, Option.map_eq_some_iff] at hpf
      obtain ⟨x, hx, rfl⟩ := hpf
      refine ⟨r.job.index + 1, ?_, ?_, Or.inl rfl⟩ <;> simp [Machine.setEngine, requestDemandRead, hb]
    · exact h.inFlight
    · exact h.highest
    · intro _; exact Or.inl rfl
  · rcases find_of_map hb r.job.index rfl with ⟨h1, hf⟩ | ⟨e, t, h1, h2, hf, h3⟩
    · have hf' : entryFor s.bus r.job.index = none := hf
      rw [hf']
      simp only
      refine ⟨?_, ?_, ?_, ?_, ?_, ?_⟩
      · simp [requestDemandRead, h.present]
      · intro hh; exact h1
      · intro r' pf' hr hpf
        simp only [Machine.setEngine, Option.some.injEq] at hr
        subst hr
        simp only [Machine.setEngine, requestDemandRead, Option.map_eq_some_iff] at hpf
        obtain ⟨x, hx, rfl⟩ := hpf
        refine ⟨r.job.index + 1, ?_, ?_, Or.inl rfl⟩ <;> simp [Machine.setEngine, requestDemandRead, h1]
      · exact h.inFlight
      · exact h.highest
      · intro _; exact Or.inl rfl
    · have hf' : entryFor s.bus r.job.index = some e := hf
      have hlen : s.bus.buffer.length = t.length + 1 := by rw [h1]; rfl
      rw [hf']
      obtain ⟨el, v⟩ := e
      cases v with
      | none =>
        simp only
        have ht : t = [] := by
          cases t with
          | nil => rfl
          | cons a b =>
            have := h.highest ⟨el, none⟩ (by rw [h1]; simp)
            cases this
        subst ht
        have hin : inFlightEntry s.bus = some ⟨el, none⟩ := by unfold inFlightEntry; rw [h1]; rfl
        refine ⟨?_, h.absent, ?_, h.inFlight, h.highest, ?_⟩
        · simp [h.present]
        · intro r' pf' hr hpf
          simp only [Machine.setEngine, Option.some.injEq] at hr
          subst hr
          have : pf' = pf := by simp only [Machine.setEngine] at hpf; rw [hp] at hpf; exact
              (Option.some.inj hpf).symm
          subst this
          exact ⟨r.job.index, hb, hpp, Or.inr ⟨rfl, rfl, hw, by simp [Machine.setEngine, h1], by simp [hin]⟩⟩
        · intro _
          exact Or.inr (Or.inr ⟨r, _, rfl, hin, h2⟩)
      | some v =>
        simp only
        have hrem : (removeEntry r.job.index s.bus).buffer = t := by
          simp only [removeEntry, h1]
          rw [List.filter_cons_of_neg (by simpa using h2)]
          exact filter_tail h3
        have hin : inFlightEntry (removeEntry r.job.index s.bus) = inFlightEntry s.bus := by
          unfold inFlightEntry; rw [hrem, h1]; rfl
        refine ⟨?_, ?_, ?_, ?_, ?_, ?_⟩
        · simp [removeEntry, h.present]
        · intro hh; simp only [Machine.setEngine, removeEntry] at hh; rw [hp] at hh; cases hh
        · intro r' pf' hr hpf
          simp only [Machine.setEngine, Option.some.injEq] at hr
          subst hr
          have : pf' = pf := by simp only [Machine.setEngine, removeEntry] at hpf; rw [hp] at hpf; exact
              (Option.some.inj hpf).symm
          subst this
          refine ⟨r.job.index + 1, ?_, ?_, Or.inl rfl⟩
          · simp only [Machine.setEngine, hrem]; exact h3
          · simp only [Machine.setEngine, hrem]; omega
        · show (valueOf s .prefetchRead).isSome = (inFlightEntry (removeEntry r.job.index s.bus)).isSome
          rw [hin]; exact h.inFlight
        · show ∀ e ∈ (removeEntry r.job.index s.bus).buffer.dropLast, _
          rw [hrem]
          intro e he
          refine h.highest e ?_
          rw [h1]
          cases t with
          | nil => simp at he
          | cons a b => simp only [List.dropLast_cons_cons]; exact List.mem_cons_of_mem _ he
        · intro hh; cases hh

/-- R145: the bus master right after a job has been admitted. -/
structure Admitted (j : Job) (s : State) : Prop where
  prefetch : s.bus.prefetch = if isBatch j.desc then some { p := j.index + 1, stopped := false } else none
  buffer : s.bus.buffer = []
  noRead : valueOf s .prefetchRead = none
  waiting : s.bus.waitingRead = none
  notFrozen : s.engine.state ≠ .frozen

/-- The admitted job in a state of the engine. -/
theorem Admitted.put {j : Job} {s t : State} (h : Admitted j s) {r : RunningJob} (hr : t.engine.running =
    some r)
    (hj : isBatch r.job.desc = isBatch j.desc ∧ r.job.index = j.index) (hst : t.engine.state ≠ .frozen)
    (hp : t.bus.prefetch = s.bus.prefetch := by first | (simp; done) | rfl)
    (hb : t.bus.buffer = s.bus.buffer := by first | (simp; done) | rfl)
    (hu : t.bus.underWay = s.bus.underWay := by first | (simp; done) | rfl) : AfterFetch t := by
  have hv : valueOf t .prefetchRead = none := by rw [← h.noRead]; unfold valueOf; rw [hu]
  refine ⟨?_, fun _ => hb.trans h.buffer, fun r' pf hr' hpf => ?_, ?_, ?_⟩
  · rw [hp, h.prefetch]
    constructor
    · intro hh
      refine ⟨hst, r, hr, ?_⟩
      rw [hj.1]
      by_contra hc; rw [if_neg hc] at hh; cases hh
    · rintro ⟨_, r', h1, h2⟩
      rw [hr] at h1; cases h1
      rw [hj.1] at h2; rw [if_pos h2]; rfl
  · rw [hr] at hr'; cases hr'
    rw [hp, h.prefetch] at hpf
    rw [hb, h.buffer]
    split at hpf
    · cases hpf; simp [hj.2]
    · cases hpf
  · rw [hv]; unfold inFlightEntry; rw [hb, h.buffer]; rfl
  · rw [hb, h.buffer]; simp

/-- R71: the start of the admitted job's element establishes the law. -/
theorem Admitted.startElement {j : Job} {s : State} (h : Admitted j s) : PrefetchLaw (startElement j s) := by
  unfold Machine.startElement
  split
  · exact AfterFetch.law_of_ne (h.put (r := { takenJob j with arg := some _ }) rfl ⟨rfl, rfl⟩ (by simp))
      (by simp)
  · refine BeforeFetch.enterFetch ⟨?_, fun _ => h.buffer, fun _ _ => Or.inl h.buffer, ?_,
      by rw [h.buffer]; simp⟩ h.waiting
    · rw [h.prefetch]; simp only [takenJob]; cases isBatch j.desc <;> rfl
    · rw [h.noRead]; unfold inFlightEntry; rw [h.buffer]; rfl

/-- R101: a hand-over keeps the law. -/
theorem PrefetchLaw.handOver {s : State} (h : PrefetchLaw s) (hi : s.engine.state = .idle) (hn :
    s.engine.running = none) (hw : s.bus.waitingRead = none) (src : Source) :
    PrefetchLaw (handOver src s) := by
  have hp : s.bus.prefetch = none := by
    cases hx : s.bus.prefetch with
    | none => rfl
    | some pf => obtain ⟨_, r, h1, _⟩ := h.present.mp (by simp [hx]); rw [hn] at h1; cases h1
  have hb := h.absent hp
  have hv : valueOf s .prefetchRead = none := by
    have := h.inFlight
    unfold inFlightEntry at this; rw [hb] at this
    cases hx : valueOf s .prefetchRead with
    | none => rfl
    | some u => rw [hx] at this; cases this
  have hadm : ∀ (t : State) j, t.engine = s.engine → t.bus = s.bus → Admitted j (admitJob j t) :=
      fun t j he hb' => by
    refine ⟨rfl, rfl, ?_, ?_, ?_⟩
    · rw [← hv]; unfold valueOf; simp [admitJob, freshPrefetch, hb']
    · simp [admitJob, freshPrefetch, hb', hw]
    · simp [admitJob, he, hi]
  have hcont : ∀ (t : State) j v, Admitted j t → PrefetchLaw (deliverContinuation j v t) := by
    intro t j v ht
    unfold deliverContinuation
    split
    · exact AfterFetch.law_of_ne (ht.put (r := { takenJob j with result := some v }) rfl ⟨rfl, rfl⟩ (by simp))
        (by simp)
    · exact PrefetchLaw.endRunning _ _ _ _
  cases src with
  | contextSlot l x =>
    simp only [Machine.handOver]
    split
    · rename_i pp _
      unfold resumePart
      refine AfterFetch.law_of_ne ((hadm (setSlot l none s) x.job (by simp) (by simp)).put (r :=
          { takenJob x.job with arg := some pp.arg, work := some pp.work }) rfl ⟨rfl, rfl⟩ ?_) ?_
      · simp only [setEngine_value]; split <;> simp
      · simp only [setEngine_value]; split <;> simp
    · exact (hadm (setSlot l none s) x.job (by simp) (by simp)).startElement
  | holdSlot r act =>
    simp only [Machine.handOver, startContinuation]
    split
    · exact hcont _ _ _ (hadm _ _ rfl rfl)
    · exact hcont _ _ _ (hadm _ _ rfl rfl)
    · exact Admitted.startElement (hadm { s with hold := none } _ rfl rfl)
  | queueHead l j rest => exact (hadm (setQueue l rest s) j (by simp) (by simp)).startElement

/-- R133: a request settled keeps the law. -/
theorem PrefetchLaw.settle {s : State} (h : PrefetchLaw s) : PrefetchLaw (settleRequest s) := by
  unfold settleRequest
  repeat' split
  all_goals first | exact h | exact h.congr

/-- R134: a release keeps the law. -/
theorem PrefetchLaw.release {s : State} (h : PrefetchLaw s) : PrefetchLaw (releaseBus s) := h.congr

/-- R105: the dispatcher's reaction keeps the law. -/
theorem PrefetchLaw.react {s : State} (h : PrefetchLaw s) : PrefetchLaw (reactToSources s) := by
  unfold reactToSources
  refine PrefetchLaw.settle ?_
  unfold suspendIfStanding
  repeat' split
  all_goals first | exact PrefetchLaw.suspend _ _ _ | exact h.congr

/-- R88: an exception keeps the law. -/
theorem prefetchLaw_applyException {s : State} (h : AfterFetch s) {r : RunningJob} (hr : s.engine.running =
    some r) (hz : s.engine.state ≠ .frozen) (e a) :
    PrefetchLaw (applyException r e a s) := by
  unfold Machine.applyException
  split
  · unfold applyMark
    dsimp only
    split
    · exact (afterFetch_storeResult h _ (by simp [runningElement, hr, countException]) hz).law_of_ne (by simp)
    · exact PrefetchLaw.endRunning _ _ _ _
  · exact PrefetchLaw.endRunning _ _ _ _
  · unfold applyHold
    split
    · exact AfterFetch.law_of_ne ((AfterFetch.leave s).congr) (by simp)
    · exact PrefetchLaw.endRunning _ _ _ _

/-- R168: an abort of the running job keeps the law. -/
theorem prefetchLaw_abortRunning {s : State} (h : PrefetchLaw s) {r : RunningJob} (hr : s.engine.running =
    some r) : PrefetchLaw (abortRunning r s) := by
  unfold abortRunning
  split
  · exact PrefetchLaw.endRunning _ _ _ _
  · exact h.congr rfl rfl rfl rfl rfl (by simp [runningElement, hr, markRunning])

/-- R134, R140: a choice point keeps the law. -/
theorem prefetchLaw_choice {s : State} (h : PrefetchLaw s) (hb : BusCore s) (hu : s.bus.underWay = none) :
    PrefetchLaw (choicePoint s) := by
  have hv : valueOf s .prefetchRead = none := by unfold valueOf; rw [hu]
  have hin : inFlightEntry s.bus = none := by
    have := h.inFlight; rw [hv] at this
    cases hx : inFlightEntry s.bus with
    | none => rfl
    | some e => rw [hx] at this; cases this
  have hs := h.afterFetch (Or.inr (Or.inr hin))
  have hall : ∀ e ∈ s.bus.buffer, e.value.isSome = true := by
    intro e he
    have := List.find?_eq_none.mp hin e he
    cases hx : e.value <;> simp [hx] at this ⊢
  have hwait : s.engine.state = .fetch → s.bus.waitingRead.isSome = true := by
    intro hf
    rcases h.waits hf with h1 | h1 | ⟨r, e, _, h1, _⟩
    · exact h1
    · simp [demandUnderWay, hu] at h1
    · rw [hin] at h1; cases h1
  unfold choicePoint
  split
  · exact h.release
  · split
    · exact h.release
    · rename_i c hc
      split
      · rcases busChoice_spec hc with ⟨w, rfl, hw⟩ | ⟨r, rfl, hw, hr⟩ | ⟨q, a, rfl, hw, hr, hp⟩
        · have hwr := hb.write (by simp [hw])
          refine AfterFetch.law_of_ne (hs.congr rfl rfl ?_ Iff.rfl rfl) (by simp [beginValue, hwr.1])
          rw [hv]; rfl
        · refine AfterFetch.law (hs.congr rfl rfl ?_ Iff.rfl rfl) (fun _ => Or.inr (Or.inl rfl))
          rw [hv]; rfl
        · have hch : prefetchChoice s = some (.prefetch q a) := by
            unfold busChoice at hc; rw [hw, hr] at hc; exact hc
          obtain ⟨pf, r, hpf, hrun, hq⟩ : ∃ pf r, s.bus.prefetch = some pf ∧ s.engine.running = some r ∧ q =
              pf.p := by
            unfold prefetchChoice at hch
            rw [if_pos hp] at hch
            split at hch
            · rename_i r pf h1 h2; cases hch; exact ⟨pf, r, h2, h1, rfl⟩
            · cases hch
          have hcon := hs.consecutive r pf hrun hpf
          refine AfterFetch.law ⟨?_, ?_, ?_, ?_, ?_⟩ ?_
          · simp only [beginValue, Option.isSome_map]; exact hs.present
          · intro hh; simp [beginValue, hpf] at hh
          · intro r' pf' hr' hpf'
            have : r' = r := by simp only [beginValue] at hr'; rw [hrun] at hr'; exact
                (Option.some.inj hr').symm
            subst this
            simp only [beginValue, hpf, Option.map_some, Option.some.injEq] at hpf'
            subst hpf'
            simp only [beginValue, List.map_append, List.length_append, List.map_cons, List.map_nil,
                List.length_cons, List.length_nil]
            rw [hcon.1, hq, hcon.2]
            refine ⟨?_, by omega⟩
            rw [Nat.zero_add, List.range'_concat]; simp
          · have h1 : (valueOf (beginValue (.prefetch q a) s) .prefetchRead).isSome = true := by simp [valueOf,
              beginValue, beginning]
            have h2 : (inFlightEntry (beginValue (.prefetch q a) s).bus).isSome = true := by
              simp [inFlightEntry, beginValue]
            rw [h1, h2]
          · simp only [beginValue, List.dropLast_concat]; exact hall
          · intro hf
            have := hwait hf
            rw [hr] at this; cases this
      · exact h.release

/-- The end of a value that is no prefetch read leaves the form. -/
theorem afterFetch_endValue {s : State} (h : PrefetchLaw s) {u : UnderWay} (hu : s.bus.underWay = some u) (hk :
    u.kind ≠ .prefetchRead) : AfterFetch (endValue s) := by
  have hv : valueOf s .prefetchRead = none := by unfold valueOf; rw [hu]; simp [hk]
  have hin : inFlightEntry s.bus = none := by
    have := h.inFlight; rw [hv] at this
    cases hx : inFlightEntry s.bus with
    | none => rfl
    | some e => rw [hx] at this; cases this
  refine (h.afterFetch (Or.inr (Or.inr hin))).congr rfl rfl ?_ Iff.rfl rfl
  rw [hv]; rfl

/-- R141, R142: an engine that looks again once the entry in flight is gone establishes the law. -/
theorem prefetchLaw_wake {s : State} (hst : s.engine.state ≠ .fetch ∨ s.bus.waitingRead ≠ none → AfterFetch s)
    (hlook : ∀ r, s.engine.running = some r → s.engine.state = .fetch → s.bus.waitingRead = none →
        BeforeFetch s r)
    (hex : s.engine.state = .fetch → ∃ r, s.engine.running = some r) :
    PrefetchLaw (wakeFetch s) := by
  unfold wakeFetch
  split
  · rename_i r hf hr
    split
    · rename_i hw
      exact (hst (Or.inr (by intro hn; rw [hn] at hw; cases hw))).law fun _ => Or.inl hw
    · rename_i hw
      have hn : s.bus.waitingRead = none := by simpa using hw
      exact (hlook r hr hf hn).enterFetch hn
  · rename_i hx
    have hne : s.engine.state ≠ .fetch := fun hf => by
      obtain ⟨r, hr⟩ := hex hf
      exact hx r hf hr
    exact (hst (Or.inl hne)).law_of_ne hne

/-- R139: the entry in flight is the highest. -/
theorem last_of_inFlight {l : List PrefetchEntry} (hh : ∀ e ∈ l.dropLast, e.value.isSome = true) {e :
    PrefetchEntry}
    (hf : l.find? (fun e => e.value.isNone) = some e) : l = l.dropLast ++ [e] ∧ e.value = none := by
  have hv : e.value = none := by have := List.find?_some hf; simpa using this
  have hm := List.mem_of_find?_eq_some hf
  have hne : l ≠ [] := by rintro rfl; cases hm
  have hl := List.dropLast_append_getLast hne
  refine ⟨?_, hv⟩
  have : e = l.getLast hne := by
    rw [← hl] at hm
    rcases List.mem_append.mp hm with h1 | h1
    · have := hh e h1; rw [hv] at this; cases this
    · simpa using h1
  rw [this]; exact hl.symm

/-- R174: the completion of ENGINE_RESET establishes the law. -/
theorem prefetchLaw_completeReset (s : State) : PrefetchLaw (completeReset s) :=
  (AfterFetch.empty rfl rfl rfl (Or.inr rfl)).law_of_ne (by simp [completeReset, setEvent, clearEvents])

end Sys2Proof.Machine
end

