-- ==== Sys2Proof/Laws/TransferLaw.lean ====
section
/-! SUPPORT. The law of the transfers (R132, R137, R138, R140) under the shared operations. -/

namespace Sys2Proof.Machine

/-- What the law looks at in the running job: its descriptor, its element and its result in hand. -/
def runningTransfer (s : State) : Option (Descriptor × Nat × Option Value) :=
  s.engine.running.map fun r => (r.job.desc, r.job.index, r.result)

/-- The same in another state. -/
theorem runningTransfer_some {s t : State} (hk : runningTransfer t = runningTransfer s) {r : RunningJob}
    (hr : s.engine.running = some r) : ∃ r', t.engine.running = some r' ∧ r'.job.desc = r.job.desc ∧
      r'.job.index = r.job.index ∧ r'.result = r.result := by
  unfold runningTransfer at hk
  rw [hr] at hk
  obtain ⟨r', h1, h2⟩ := Option.map_eq_some_iff.mp hk
  simp only [Prod.mk.injEq] at h2
  exact ⟨r', h1, h2⟩

/-- What the law looks at. -/
theorem TransferLaw.congr {s t : State} (h : TransferLaw s)
    (hw : t.bus.waitingWrite = s.bus.waitingWrite := by first | (simp; done) | rfl)
    (hr : t.bus.waitingRead = s.bus.waitingRead := by first | (simp; done) | rfl)
    (hu : t.bus.underWay = s.bus.underWay := by first | (simp; done) | rfl)
    (hk : runningTransfer t = runningTransfer s := by first | (simp [runningTransfer]; done) | rfl) :
    TransferLaw t := by
  refine ⟨fun w hx => ?_, fun q hx => ?_, fun u hx hy => ?_, fun u hx hy => ?_, fun u hx hy => ?_,
    fun u hx => h.lowWord u (hu ▸ hx)⟩
  · obtain ⟨r, h1, h2, h3, h4⟩ := h.writeWaits w (hw ▸ hx)
    obtain ⟨r', e1, e2, e3, e4⟩ := runningTransfer_some hk h1
    exact ⟨r', e1, by rw [e4, h2], by rw [e3, h3], by rw [e2, e3, h4]⟩
  · obtain ⟨r, h1, h2, h3⟩ := h.readWaits q (hr ▸ hx)
    obtain ⟨r', e1, e2, e3, _⟩ := runningTransfer_some hk h1
    exact ⟨r', e1, by rw [e3, h2], by rw [e2, e3, h3]⟩
  · obtain ⟨r, v, h1, h2, h3, h4⟩ := h.writing u (hu ▸ hx) hy
    obtain ⟨r', e1, e2, e3, e4⟩ := runningTransfer_some hk h1
    exact ⟨r', v, e1, by rw [e4, h2], by rw [e2, e3, h3], h4⟩
  · obtain ⟨r, h1, h2, h3⟩ := h.reading u (hu ▸ hx) hy
    obtain ⟨r', e1, e2, e3, _⟩ := runningTransfer_some hk h1
    exact ⟨r', e1, by rw [e2, e3, h2], by rw [e2, h3]⟩
  · obtain ⟨r, i, h1, h2, h3, h4⟩ := h.prefetching u (hu ▸ hx) hy
    obtain ⟨r', e1, e2, _⟩ := runningTransfer_some hk h1
    exact ⟨r', i, e1, by rw [e2]; exact h2, by rw [e2, h3], by rw [e2, h4]⟩

/-- Nothing waits and nothing is under way. -/
theorem TransferLaw.empty {t : State} (hw : t.bus.waitingWrite = none) (hr : t.bus.waitingRead = none)
    (hu : t.bus.underWay = none) : TransferLaw t := by
  refine ⟨?_, ?_, ?_, ?_, ?_, ?_⟩ <;> simp [hw, hr, hu]

/-- Nothing waits, and at most a prefetch read for the descriptor or a DROPPED value is under way. -/
structure Settled (d : Descriptor) (s : State) : Prop where
  write : s.bus.waitingWrite = none
  read : s.bus.waitingRead = none
  writing : ∀ u, s.bus.underWay = some u → u.kind ≠ .resultWrite
  reading : ∀ u, s.bus.underWay = some u → u.kind ≠ .demandRead
  prefetching : ∀ u, s.bus.underWay = some u → u.kind = .prefetchRead → ∃ i, i < elementCount d ∧
    u.addr = argAddress d i ∧ u.size = formatWords d.argFormat
  lowWord : ∀ u, s.bus.underWay = some u →
    (u.lowRead.isSome = true ↔ u.ended = 1 ∧ (u.kind = .demandRead ∨ u.kind = .prefetchRead))

/-- A quiet engine without a waiting read is settled for its job's descriptor. -/
theorem TransferLaw.settled {s : State} (h : TransferLaw s) (hq : Quiet s) (hr : s.bus.waitingRead = none)
    {r : RunningJob} (hrun : s.engine.running = some r) : Settled r.job.desc s := by
  refine ⟨hq.write, hr, hq.writing, hq.reading, fun u hu hk => ?_, h.lowWord⟩
  obtain ⟨r', i, h1, h2⟩ := h.prefetching u hu hk
  rw [hrun] at h1; cases h1
  exact ⟨i, h2⟩

/-- Without a job in the engine the bus is settled for every descriptor. -/
theorem TransferLaw.settled_of_none {s : State} (h : TransferLaw s) (hn : s.engine.running = none) (d : Descriptor) :
    Settled d s := by
  refine ⟨?_, ?_, fun u hu hk => ?_, fun u hu hk => ?_, fun u hu hk => ?_, h.lowWord⟩
  · cases hx : s.bus.waitingWrite with
    | none => rfl
    | some w => obtain ⟨r, h1, _⟩ := h.writeWaits w hx; rw [hn] at h1; cases h1
  · cases hx : s.bus.waitingRead with
    | none => rfl
    | some w => obtain ⟨r, h1, _⟩ := h.readWaits w hx; rw [hn] at h1; cases h1
  · obtain ⟨r, _, h1, _⟩ := h.writing u hu hk; rw [hn] at h1; cases h1
  · obtain ⟨r, h1, _⟩ := h.reading u hu hk; rw [hn] at h1; cases h1
  · obtain ⟨r, _, h1, _⟩ := h.prefetching u hu hk; rw [hn] at h1; cases h1

/-- What being settled looks at. -/
theorem Settled.congr {d : Descriptor} {s t : State} (h : Settled d s)
    (hw : t.bus.waitingWrite = s.bus.waitingWrite := by first | (simp; done) | rfl)
    (hr : t.bus.waitingRead = s.bus.waitingRead := by first | (simp; done) | rfl)
    (hu : t.bus.underWay = s.bus.underWay := by first | (simp; done) | rfl) : Settled d t :=
  ⟨hw.trans h.write, hr.trans h.read, by rw [hu]; exact h.writing, by rw [hu]; exact h.reading,
    by rw [hu]; exact h.prefetching, by rw [hu]; exact h.lowWord⟩

/-- A settled bus with a job of the descriptor in the engine satisfies the law. -/
theorem Settled.law {d : Descriptor} {s t : State} (h : Settled d s) {r : RunningJob}
    (hrun : t.engine.running = some r) (hd : r.job.desc = d)
    (hw : t.bus.waitingWrite = s.bus.waitingWrite := by first | (simp; done) | rfl)
    (hr : t.bus.waitingRead = s.bus.waitingRead := by first | (simp; done) | rfl)
    (hu : t.bus.underWay = s.bus.underWay := by first | (simp; done) | rfl) : TransferLaw t := by
  have h' : Settled d t := h.congr hw hr hu
  refine ⟨by simp [h'.write], by simp [h'.read], fun u hx hk => absurd hk (h'.writing u hx),
    fun u hx hk => absurd hk (h'.reading u hx), fun u hx hk => ?_, h'.lowWord⟩
  obtain ⟨i, h1⟩ := h'.prefetching u hx hk
  exact ⟨r, i, hrun, by rw [hd]; exact h1⟩

/-- R144: a job that leaves a quiet engine establishes the law. -/
theorem TransferLaw.leave {s : State} (h : TransferLaw s) (hq : Quiet s) : TransferLaw (leaveEngine s) := by
  have hk : ∀ u, (leaveEngine s).bus.underWay = some u → u.kind = .dropped ∧ u.lowRead = none := by
    intro u hu
    simp only [leaveEngine_value, discardJobWork] at hu
    obtain ⟨v, hv, rfl⟩ := Option.map_eq_some_iff.mp hu
    have hlow := h.lowWord v hv
    unfold dropPrefetchRead
    split
    · exact ⟨rfl, rfl⟩
    · rename_i hne
      cases hv' : v.kind with
      | resultWrite => exact absurd hv' (hq.writing v hv)
      | demandRead => exact absurd hv' (hq.reading v hv)
      | prefetchRead => exact absurd hv' hne
      | dropped =>
        refine ⟨rfl, ?_⟩
        rw [hv'] at hlow
        cases hx : v.lowRead with
        | none => rfl
        | some x => rw [hx] at hlow; simp at hlow
  refine ⟨?_, ?_, fun u hu hx => ?_, fun u hu hx => ?_, fun u hu hx => ?_, fun u hu => ?_⟩
  · simp [discardJobWork, hq.write]
  · simp [discardJobWork]
  · rw [(hk u hu).1] at hx; cases hx
  · rw [(hk u hu).1] at hx; cases hx
  · rw [(hk u hu).1] at hx; cases hx
  · rw [(hk u hu).1, (hk u hu).2]; simp

/-- R94: the end of the running job keeps the law. -/
theorem TransferLaw.endRunning {s : State} (h : TransferLaw s) (hq : Quiet s) (r : RunningJob) (st : JobStatus)
    (e : Option BusErr) : TransferLaw (endRunning r st e s) := by
  unfold Machine.endRunning
  exact TransferLaw.leave h.congr hq.congr

/-- R86: a suspension keeps the law. -/
theorem TransferLaw.suspend {s : State} (h : TransferLaw s) (hq : Quiet s) (r : RunningJob) (p) :
    TransferLaw (suspend r p s) := by
  unfold Machine.suspend
  exact (h.leave hq).congr

/-- R133: a request settled keeps the law. -/
theorem TransferLaw.settle {s : State} (h : TransferLaw s) : TransferLaw (settleRequest s) := by
  unfold settleRequest
  repeat' split
  all_goals first | exact h | exact h.congr

/-- R134: a release keeps the law. -/
theorem TransferLaw.release {s : State} (h : TransferLaw s) : TransferLaw (releaseBus s) := h.congr

/-- The end of the value under way keeps the law. -/
theorem TransferLaw.endValue {s : State} (h : TransferLaw s) : TransferLaw (endValue s) :=
  ⟨h.writeWaits, h.readWaits, by simp [Machine.endValue], by simp [Machine.endValue], by simp [Machine.endValue],
    by simp [Machine.endValue]⟩

/-- R140: what a chosen prefetch read is for. -/
theorem prefetchChoice_spec {s : State} {q : Nat} {a : Word} (h : prefetchChoice s = some (.prefetch q a)) :
    ∃ r, s.engine.running = some r ∧ q < elementCount r.job.desc ∧ a = argAddress r.job.desc q := by
  unfold prefetchChoice at h
  split at h
  · rename_i hp
    split at h
    · rename_i r pf h1 h2
      cases h
      refine ⟨r, h1, ?_, rfl⟩
      unfold prefetchPending at hp
      rw [h1, h2] at hp
      simp only [Bool.and_eq_true, decide_eq_true_eq] at hp
      exact hp.1.2
    · cases h
  · cases h

/-- R132, R134: a chosen value that begins keeps the law. -/
theorem TransferLaw.begin {s : State} (h : TransferLaw s) {c : Choice} (hc : busChoice s = some c) :
    TransferLaw (beginValue c s) := by
  have hsize : ∀ r, s.engine.running = some r → argSize s = formatWords r.job.desc.argFormat := by
    intro r hr; simp [argSize, runningDesc, hr]
  rcases busChoice_spec hc with ⟨w, rfl, hw⟩ | ⟨q, rfl, hw, hr⟩ | ⟨q, a, rfl, hw, hr, hp⟩
  · obtain ⟨r, h1, h2, _, h4⟩ := h.writeWaits w hw
    refine ⟨by simp [beginValue], h.readWaits, fun u hu hk => ?_, fun u hu hk => ?_, fun u hu hk => ?_, fun u hu => ?_⟩
      <;> simp only [beginValue, beginning, Option.some.injEq] at hu <;> subst hu
    · exact ⟨r, w.value, h1, h2, h4, rfl⟩
    · cases hk
    · cases hk
    · simp
  · obtain ⟨r, h1, _, h4⟩ := h.readWaits q hr
    refine ⟨h.writeWaits, by simp [beginValue], fun u hu hk => ?_, fun u hu hk => ?_, fun u hu hk => ?_, fun u hu => ?_⟩
      <;> simp only [beginValue, beginning, Option.some.injEq] at hu <;> subst hu
    · cases hk
    · exact ⟨r, h1, h4, hsize r h1⟩
    · cases hk
    · simp
  · have hch : prefetchChoice s = some (.prefetch q a) := by
      unfold busChoice at hc; rw [hw, hr] at hc; exact hc
    obtain ⟨r, h1, h2, h3⟩ := prefetchChoice_spec hch
    refine ⟨h.writeWaits, h.readWaits, fun u hu hk => ?_, fun u hu hk => ?_, fun u hu hk => ?_, fun u hu => ?_⟩
      <;> simp only [beginValue, beginning, Option.some.injEq] at hu <;> subst hu
    · cases hk
    · cases hk
    · exact ⟨r, q, h1, h2, h3, hsize r h1⟩
    · simp

/-- R134: a choice point keeps the law. -/
theorem TransferLaw.choice {s : State} (h : TransferLaw s) : TransferLaw (choicePoint s) := by
  unfold choicePoint
  split
  · exact h.release
  · split
    · exact h.release
    · rename_i hc
      split
      · exact h.begin hc
      · exact h.release

/-- R132: the high half that begins keeps the law. -/
theorem TransferLaw.highHalf {s : State} (h : TransferLaw s) {u : UnderWay} (hu : s.bus.underWay = some u)
    (data : Word) : TransferLaw (beginHighHalf u data s) := by
  refine ⟨h.writeWaits, h.readWaits, fun v hv hk => ?_, fun v hv hk => ?_, fun v hv hk => ?_, fun v hv => ?_⟩
    <;> simp only [beginHighHalf, Option.some.injEq] at hv <;> subst hv
  · exact h.writing u hu hk
  · exact h.reading u hu hk
  · exact h.prefetching u hu hk
  · simp only [heldLow]; cases u.kind <;> simp

/-- R80: the request of a result write establishes the law. -/
theorem Settled.storeResult {d : Descriptor} {s : State} (h : Settled d s) {r : RunningJob} (hd : r.job.desc = d)
    (v : Value) : TransferLaw (storeResult r v s) := by
  have hl : TransferLaw (setEngine .store { r with result := some v } s) :=
    h.law (r := { r with result := some v }) rfl hd
  refine ⟨fun w hw => ?_, hl.readWaits, hl.writing, hl.reading, hl.prefetching, hl.lowWord⟩
  simp only [Machine.storeResult, requestWrite, Option.some.injEq] at hw
  subst hw
  exact ⟨{ r with result := some v }, rfl, rfl, rfl, rfl⟩

/-- R75, R137: entering FETCH establishes the law. -/
theorem Settled.enterFetch {d : Descriptor} {s : State} (h : Settled d s) {r : RunningJob} (hd : r.job.desc = d) :
    TransferLaw (enterFetch r s) := by
  unfold Machine.enterFetch
  split
  · exact h.law (r := { r with arg := some _ }) rfl hd
  · exact h.law (r := r) rfl hd
  · have hl : TransferLaw (Machine.setEngine .fetch r s) := h.law rfl hd
    refine ⟨hl.writeWaits, fun q hq => ?_, hl.writing, hl.reading, hl.prefetching, hl.lowWord⟩
    simp only [setEngine_frame, requestDemandRead, Option.some.injEq] at hq
    subst hq
    exact ⟨r, rfl, rfl, rfl⟩

/-- R71: the start of an element establishes the law. -/
theorem Settled.startElement {j : Job} {s : State} (h : Settled j.desc s) : TransferLaw (startElement j s) := by
  unfold Machine.startElement
  split
  · exact h.law (r := { takenJob j with arg := some _ }) rfl rfl
  · exact h.enterFetch rfl

/-- R88: an exception keeps the law. -/
theorem TransferLaw.applyException {s : State} (h : TransferLaw s) (hq : Quiet s) (hr : s.bus.waitingRead = none)
    {r : RunningJob} (hrun : s.engine.running = some r) (e : Exc) (a : Value) :
    TransferLaw (applyException r e a s) := by
  unfold Machine.applyException
  split
  · unfold applyMark
    dsimp only
    split
    · exact (h.settled hq hr hrun).storeResult
        (r := { r with job := countException e r.job, work := none, result := none }) rfl _
    · exact h.endRunning hq _ _ _
  · exact h.endRunning hq _ _ _
  · unfold applyHold
    split
    · exact (h.leave hq).congr
    · exact h.endRunning hq _ _ _

/-- R101: a hand-over to an engine without a job establishes the law. -/
theorem TransferLaw.handOver {s : State} (h : TransferLaw s) (hn : s.engine.running = none) (src : Source) :
    TransferLaw (handOver src s) := by
  have key : ∀ (t : State) (j : Job), t.bus = s.bus → Settled j.desc (Machine.admitJob j t) := by
    intro t j hb
    refine (h.settled_of_none hn j.desc).congr ?_ ?_ ?_ <;> simp [Machine.admitJob, freshPrefetch, hb]
  have deliver : ∀ (t : State) (j : Job) v, t.bus = s.bus → t.engine.running = none →
      TransferLaw (deliverContinuation j v (Machine.admitJob j t)) := by
    intro t j v hb hn'
    unfold deliverContinuation
    split
    · exact (key t j hb).storeResult rfl _
    · have hs := key t j hb
      have hl : TransferLaw (Machine.admitJob j t) := h.congr (by simp [Machine.admitJob, freshPrefetch, hb])
        (by simp [Machine.admitJob, freshPrefetch, hb]) (by simp [Machine.admitJob, freshPrefetch, hb])
        (by simp [runningTransfer, Machine.admitJob, hn, hn'])
      exact hl.endRunning ⟨hs.write, hs.reading, hs.writing⟩ _ _ _
  cases src with
  | contextSlot l x =>
    simp only [Machine.handOver]
    split
    · unfold resumePart
      exact (key (setSlot l none s) x.job (by simp)).law (r := { takenJob x.job with arg := some _, work := some _ })
        rfl rfl
    · exact (key (setSlot l none s) x.job (by simp)).startElement
  | holdSlot r act =>
    simp only [Machine.handOver, startContinuation]
    split
    · exact deliver _ _ _ rfl hn
    · exact deliver _ _ _ rfl hn
    · exact (key { s with hold := none } r.job rfl).startElement
  | queueHead l j rest => exact (key (setQueue l rest s) j (by simp)).startElement

/-- R76: the suspension at the standing boundary keeps the law. -/
theorem TransferLaw.suspendIfStanding {s : State} (h : TransferLaw s) (hb : BusCore s) :
    TransferLaw (suspendIfStanding s) := by
  unfold Machine.suspendIfStanding
  split
  · split
    · rename_i hh
      simp only [Bool.and_eq_true] at hh
      exact h.suspend (hb.quiet_of_standing hh.1) _ _
    · exact h
  · exact h

/-- R105: the dispatcher's reaction keeps the law. -/
theorem TransferLaw.react {s : State} (h : TransferLaw s) (hb : BusCore s) : TransferLaw (reactToSources s) := by
  unfold reactToSources
  exact TransferLaw.settle (TransferLaw.suspendIfStanding h.congr hb.congr)

/-- R168: an abort of the running job keeps the law. -/
theorem TransferLaw.abortRunning {s : State} (h : TransferLaw s) (hb : BusCore s) {r : RunningJob}
    (hr : s.engine.running = some r) : TransferLaw (abortRunning r s) := by
  unfold Machine.abortRunning
  split
  · rename_i hs
    exact h.endRunning (hb.quiet_of_standing hs) _ _ _
  · exact h.congr rfl rfl rfl (by simp [runningTransfer, hr, markRunning])

/-- R172: the taking of ENGINE_RESET keeps the law. -/
theorem TransferLaw.takeReset {s : State} (h : TransferLaw s) : TransferLaw (takeReset s) := by
  have hd : ∀ u, (Machine.takeReset s).bus.underWay = some u →
      ∃ v, s.bus.underWay = some v ∧ u = dropPrefetchRead v := by
    intro u hu
    simp only [Machine.takeReset, resetBusWork, discardJobWork] at hu
    obtain ⟨v, hv, rfl⟩ := Option.map_eq_some_iff.mp hu
    exact ⟨v, hv, rfl⟩
  refine ⟨by simp [Machine.takeReset, resetBusWork], by simp [Machine.takeReset, resetBusWork, discardJobWork],
    fun u hu hk => ?_, fun u hu hk => ?_, fun u hu hk => ?_, fun u hu => ?_⟩ <;> obtain ⟨v, hv, rfl⟩ := hd u hu
  · unfold dropPrefetchRead at hk ⊢
    split at hk
    · cases hk
    · rename_i hne; rw [if_neg hne]; exact h.writing v hv hk
  · unfold dropPrefetchRead at hk ⊢
    split at hk
    · cases hk
    · rename_i hne; rw [if_neg hne]; exact h.reading v hv hk
  · unfold dropPrefetchRead at hk
    split at hk
    · cases hk
    · rename_i hne; exact absurd hk hne
  · unfold dropPrefetchRead
    split
    · simp
    · exact h.lowWord v hv

/-- R174: the completion of ENGINE_RESET establishes the law. -/
theorem TransferLaw.completeReset (s : State) : TransferLaw (completeReset s) :=
  TransferLaw.empty (by simp [Machine.completeReset, setEvent, clearEvents, BusMaster.reset])
    (by simp [Machine.completeReset, setEvent, clearEvents, BusMaster.reset])
    (by simp [Machine.completeReset, setEvent, clearEvents, BusMaster.reset])

/-- R75, R141, R142: an engine that looks into the buffer again keeps the law. -/
theorem TransferLaw.wakeFetch {s : State} (h : TransferLaw s) (hq : s.engine.state = .fetch → Quiet s) :
    TransferLaw (wakeFetch s) := by
  unfold Machine.wakeFetch
  split
  · split
    · exact h
    · rename_i hf hrun hw
      have hw' : s.bus.waitingRead = none := by simpa using hw
      exact (h.settled (hq hf) hw' hrun).enterFetch rfl
  · exact h

/-! ### STB -/

/-- STB is asserted exactly while a value is under way. -/
theorem masterStb_eq (s : State) : masterStb s = s.bus.underWay.isSome := by
  unfold masterStb drivenTransfer
  cases s.bus.underWay <;> rfl

/-- What a choice point does to the transfers: none goes on, or the first one of a value begins and counts. -/
theorem choicePoint_transfer {s : State} (hu : s.bus.underWay = none) :
    (choicePoint s).bus.underWay = none ∨
      ((choicePoint s).bus.underWay.isSome = true ∧ (choicePoint s).bus.tenureCount = s.bus.tenureCount + 1) := by
  have hr : (releaseBus s).bus.underWay = none := by
    unfold releaseBus settleRequest
    repeat' split
    all_goals exact hu
  unfold choicePoint
  split
  · exact .inl hr
  · split
    · exact .inl hr
    · split
      · refine .inr ?_
        unfold beginValue
        split <;> exact ⟨rfl, rfl⟩
      · exact .inl hr

end Sys2Proof.Machine
end

