-- ==== Sys2Proof/Tests/Slice0.lean ====
section
/-! SUPPORT. The model's own tests. Each is one command on one small state. The first part holds commands against words
and traces the spec gives. The second part shows, for each statement with hypotheses, states and operands that meet
them, one clause after another. -/

namespace Sys2Proof.Tests

open Sys2Proof.Machine

-- One theorem after another: each evaluation takes a thread of its own, and many at once run out of memory.
set_option Elab.async false

/-! ### States -/

/-- The words that plain reads at `offsets` show after a command. -/
def shows (c : Instr) (s : State) (offsets : List (BitVec 8)) : Option (List Word) :=
  (nextOf (exec c s)).bind fun t => offsets.mapM (windowRead t)

/-- What the window answers to a command. -/
def answerTo (c : Instr) (s : State) : Option WindowAnswer := (nextOf (exec c s)).map (·.answer)

/-- A state with the argument registers written. -/
def withArgs (a0 a1 a2 : Word) (s : State) : State := { s with cmd := { s.cmd with args := #v[a0, a1, a2] } }

/-- A state with an ENGINE_RESET pending. -/
def withPending (s : State) : State :=
  { s with cmd := { s.cmd with pending := true }, engine := { s.engine with state := .frozen } }

/-- The header of curve 5 of section 12.2. -/
def header5 : CurveHeader :=
  { format := .n, segments := 2, origin := .offset, range := .clamp, underflow := .flush }

/-- The words of curve 5; word 0 is 0 and is not listed. -/
def words5 : List (Nat × Word) :=
  [(1, 0x40800000#32), (2, 0x41000000#32), (3, 2#32), (4, 0x40000000#32), (5, 0x3F800000#32), (6, 0x3F000000#32),
    (7, 1#32), (8, 0x40C00000#32), (9, 0x40000000#32)]

/-- Curve 5 in a state and with a number of references, in block 0. -/
def withCurve (st : CurveState) (count : Nat) : State :=
  { State.reset with
    curves :=
      State.reset.curves.set 5
        { state := st, header := some header5, refCount := count, generation := 1, blocks := [0] }
    store := { words := words5, free := List.range' 1 127 } }

/-- Curve 5 READY, as section 12.2 leaves it. -/
def loaded : State := withCurve .ready 0

/-- The session on curve 5 with a cursor at a word index. -/
def session (cur : Cursor) (index : Nat) : State :=
  { withCurve .loading 0 with
    load := { state := .opened, curve := 5, cursor := cur, wordIndex := index, failure := none } }

/-- The session after word 9 of section 12.2. -/
def complete5 : State := session { phase := .complete, segment := 1, remaining := 0, lowHalf := none } 10

/-- A session that a word has failed at word index 3. -/
def failed5 : State :=
  { State.reset with
    load :=
      { state := .failed, curve := 5
        cursor := { phase := .degree, segment := 0, remaining := 1, lowHalf := none }
        wordIndex := 3, failure := some { reason := .badDegree, wordIndex := 3 } } }

/-- A SINGLE descriptor on curve 5 (section 12.3). -/
def single5 (x : Word) (policy : ExcPolicy) : Descriptor :=
  { curve := 5, argFormat := .n, resFormat := .n, policy := policy, notify := true, cookie := 0x21#16,
    body := .single (.narrow x) }

/-- A BATCH descriptor of two elements on curve 5 (section 12.4), with its formats. -/
def batch5 (argFormat resFormat : Format) (policy : ExcPolicy) : Descriptor :=
  { curve := 5, argFormat := argFormat, resFormat := resFormat, policy := policy, notify := false, cookie := 0#16,
    body := .batch 2 0x1000#32 8#16 0x2000#32 8#16 }

/-- A fresh job. -/
def fresh (tag : Nat) (level : Fin 4) (d : Descriptor) : Job :=
  { tag := tag, level := level, desc := d, index := 0, done := 0, excCount := 0, first := none }

/-- A job in the engine with what it has in hand. -/
def inEngine (j : Job) (arg : Option Value) (work : Option Working) : RunningJob :=
  { job := j, abortMark := false, arg := arg, work := work, result := none }

/-- The one live job, in the engine: tag 0 on curve 5. -/
def engineAt (st : EngineState) (r : RunningJob) : State :=
  { withCurve .ready 1 with
    intake := { State.reset.intake with freeTags := List.range' 1 47 }
    engine := { state := st, running := some r, abandoned := [] } }

/-- The BATCH job of section 12.4 at level 1. -/
def batchJob : Job := fresh 0 1 (batch5 .n .n .mark)

/-- The SINGLE job of section 12.3 at level 2. -/
def singleJob (x : Word) (policy : ExcPolicy) : Job := fresh 0 2 (single5 x policy)

/-- The same bus master in a state with a value under way. -/
def owning (u : UnderWay) (count : Nat) (s : State) : State :=
  { s with bus := { s.bus with state := .owner, tenureCount := count, underWay := some u } }

/-- The first transfer of a value of `size` words. -/
def transfer (kind : ValueKind) (addr : Word) (size : Nat) : UnderWay :=
  { kind := kind, addr := addr, size := size, ended := 0, lowRead := none }

/-- A state with the prefetch part of the job's first element. -/
def withPrefetch (p : Nat) (buffer : List PrefetchEntry) (s : State) : State :=
  { s with bus := { s.bus with buffer := buffer, prefetch := some { p := p, stopped := false } } }

/-- The batch job at the standing boundary: its demand read waits and the bus is requested. -/
def fetching : State :=
  { engineAt .fetch (inEngine batchJob none none) with
    bus :=
      { BusMaster.reset with
        state := .requesting, waitingRead := some { element := 0, addr := 0x1000#32 }
        prefetch := some { p := 1, stopped := false } } }

/-- The batch job with its demand read under way. -/
def reading : State :=
  owning (transfer .demandRead 0x1000#32 1) 1 (withPrefetch 1 [] (engineAt .fetch (inEngine batchJob none none)))

/-- The batch job in SETUP, the bus requested for its prefetch read. -/
def settingUp : State :=
  { engineAt .setup (inEngine batchJob (some (.narrow 0x40000000#32)) none) with
    bus := { BusMaster.reset with state := .requesting, prefetch := some { p := 1, stopped := false } } }

/-- The batch job in STORE with its result write under way. -/
def writing : State :=
  owning (transfer .resultWrite 0x2000#32 1) 1
    (withPrefetch 2 [{ element := 1, value := some (.narrow 0x40C00000#32) }]
      (engineAt .store
        { inEngine batchJob (some (.narrow 0x40000000#32)) none with result := some (.narrow 0x40600000#32) }))

/-- The batch job in SETUP with the prefetch read of element 1 under way. -/
def prefetching : State :=
  owning (transfer .prefetchRead 0x1008#32 1) 1
    (withPrefetch 2 [{ element := 1, value := none }]
      (engineAt .setup (inEngine batchJob (some (.narrow 0x40000000#32)) none)))

/-- A W value whose owner is gone, under way in an IDLE part. -/
def dropping : State := owning (transfer .dropped 0x1008#32 2) 1 loaded

/-- Working values of section 12.4: one term remains. -/
def working5 : Working :=
  { segment := 0, t := .narrow 0x40000000#32, acc := .narrow 0x3FC00000#32, nextTerm := some 0 }

/-- A held job of section 12.6: element 1 raised INVALID at ARGUMENT. -/
def held5 : HoldRecord :=
  { job := { fresh 0 0 (batch5 .n .n .hold) with index := 1, done := 1, excCount := 1 }
    exc := { kind := .invalid, stage := .argument }, arg := .narrow 0x7F800001#32, action := none }

/-- A part whose only live job is held. -/
def holding (h : HoldRecord) : State :=
  { withCurve .ready 1 with intake := { State.reset.intake with freeTags := List.range' 1 47 }, hold := some h }

/-- The record of section 12.3. -/
def record5 : Record :=
  { tag := 0, level := 2, kind := .single, status := .complete, cookie := 0x21#16, curve := 5, generation := 1#8
    done := 1, excCount := 0, first := none, result := some (.narrow 0x40600000#32), busErr := none }

/-- A part with one record in its completion queue. -/
def recordedOne : State :=
  { loaded with
    intake := { State.reset.intake with freeTags := List.range' 1 47 }
    completion := { records := [record5], events := 0x01#7, enables := 0x01#7 } }

/-- A part with the staging area of section 12.3. -/
def staged : State :=
  { loaded with
    intake := { State.reset.intake with stage := #v[0x00000814#32, 0x21#32, 0x40000000#32, 0, 0, 0, 0] } }

/-- A staging area. -/
def withStage (stage : Vector Word 7) (s : State) : State := { s with intake := { s.intake with stage := stage } }

/-! ### Words of the spec -/

/-- Sections 1.2 and 11.6: encodings and the numbers they are. -/
theorem test_numbers :
    valueNum (.narrow 0x40000000#32) = { m := 2 ^ 23, e := -23 } ∧
      valueNum (.narrow 0xBFC00000#32) = { m := -(3 * 2 ^ 22), e := -24 } ∧
      isMarker (.narrow 0x7F800001#32) = true ∧ isMarker (.narrow 0xFFFFFFFF#32) = true ∧
      isMarker (.wide 0xFFFFFFFF#32 0xFFFFFFFF#32) = true ∧ isMarker (.narrow 0x7F7FFFFF#32) = false ∧
      isZero (.narrow 0x00000000#32) = true := by decide +kernel

/-- Chapter 11: the words that command accesses write, and the commands they are. -/
theorem test_accesses :
    accessCommand { write := true, offset := 0x14#8, lanes := 0xF#4, data := 0x00000501#32 } = some .openLoad ∧
      accessCommand { write := true, offset := 0x14#8, lanes := 0xF#4, data := 0x0B#32 } = some (.badCommand 0x0B#8) ∧
      accessCommand { write := false, offset := 0x6C#8, lanes := 0xF#4, data := 0 } = some (.submit 3) ∧
      accessCommand { write := false, offset := 0x04#8, lanes := 0xF#4, data := 0 } = none := by decide +kernel

/-- R177: a plain read is answered at once, and not while RST is asserted. -/
theorem test_plainRead :
    (plainRead 0x00#8 loaded).answer = .ackData 0xC8802030#32 ∧
      (nextOf (takeAccess { write := false, offset := 0x04#8, lanes := 0xF#4, data := 0 } loaded)).map (·.answer) =
        some (.ackData 0x00000600#32) ∧
      (plainRead 0x00#8 { loaded with rst := true }).answer = .unanswered ∧
      windowRead { loaded with rst := true } 0x04#8 = none := by decide +kernel

/-- Section 11.4: the header 0x00000202 of section 12.2. -/
theorem test_header : decodeHeader 0x00000202#32 = some header5 ∧ headerWord header5 = 0x00000202#32 := by
  decide +kernel

/-- Section 11.4: the staging area of section 12.3 is its descriptor. -/
theorem test_descriptor :
    (stagedDescriptor staged).toOption = some (single5 0x40000000#32 .mark) := by decide +kernel

/-- Section 12.3: SETUP of x = 1, its two iterations, and the value at a tie (R6). -/
theorem test_arithmetic :
    evalSetup loaded.store [0] header5 (.narrow 0x40000000#32) =
        .working
          { segment := 0, t := .narrow 0x40000000#32, acc := .narrow 0x3F000000#32, nextTerm := some 1 } ∧
      fusedStep .n .flush (.narrow 0x3F000000#32) (.narrow 0x40000000#32) (.narrow 0x3F800000#32) =
        .value (.narrow 0x3FC00000#32) ∧
      roundMagnitude 2 5 0 = (3, 2) ∧ roundMagnitude 2 7 0 = (2, 3) := by decide +kernel

/-- Section 1.6: a fused step against a rounded product, and both ends of the range. -/
theorem test_workedExamples :
    fusedStep .n .flush (.narrow 0x40000800#32) (.narrow 0x40000800#32) (.narrow 0xC0001000#32) =
        .value (.narrow 0x34000000#32) ∧
      fusedStep .n .flush (.narrow 0x72000000#32) (.narrow 0x4F000000#32) (.narrow 0) = .exception .overflow ∧
      fusedStep .n .flush (.narrow 0x7EFFFFFF#32) (.narrow 0x407FFFFF#32) (.narrow 0) =
        .value (.narrow 0x7F7FFFFE#32) ∧
      fusedStep .n .flush (.narrow 0x0E000000#32) (.narrow 0x31000000#32) (.narrow 0) = .value (.narrow 0) ∧
      fusedStep .n .fault (.narrow 0x0E000000#32) (.narrow 0x31000000#32) (.narrow 0) = .exception .underflow ∧
      convert .n .flush (.wide 0x40000000#32 0x10000000#32) = .value (.narrow 0x40000001#32) ∧
      convert .n .fault (.wide 0x37E00000#32 0) = .exception .underflow ∧
      convert .n .flush (.wide 0x4C800000#32 0) = .exception .overflow ∧
      convert .w .flush (.narrow 0x40600000#32) = .value (.wide 0x400C0000#32 0) := by decide +kernel

/-! ### Commands that do not exist -/

/-- BAD_COMMAND with a code that names a command. -/
theorem test_illFormed_badCommand :
    (Instr.badCommand 0x04#8).wellFormed = false ∧
      exec (.badCommand 0x04#8) State.reset = .refused .illFormed := ⟨by decide +kernel, rfl⟩

/-- WINDOW_ACCESS_ERROR for an access that is not in error. -/
theorem test_illFormed_windowAccessError :
    (Instr.windowAccessError { write := false, offset := 0x04#8, lanes := 0xF#4, data := 0 }).wellFormed = false ∧
      exec (.windowAccessError { write := false, offset := 0x04#8, lanes := 0xF#4, data := 0 }) State.reset =
        .refused .illFormed := ⟨by decide +kernel, rfl⟩

/-! ### One command each -/

/-- Section 12.2: the session opened on curve 5. -/
theorem test_openLoad :
    shows .openLoad (withArgs 5 0x202#32 0 State.reset) [0x14#8, 0x74#8] =
      some [0x00020101#32, 0x00000015#32] := by decide +kernel

/-- Section 12.2: the words around the commit. -/
theorem test_commitLoad :
    windowRead complete5 0x74#8 = some 0x000A0395#32 ∧
      shows .commitLoad complete5 [0x14#8, 0x74#8, 0x78#8] =
        some [0x00020102#32, 0x000A0394#32, 0x0000817F#32] := by decide +kernel

theorem test_cancelLoad :
    shows .cancelLoad complete5 [0x14#8, 0x78#8] = some [0x00020103#32, 0x00008080#32] := by decide +kernel

theorem test_loadData :
    shows (.loadData 0x40800000#32)
        (session { phase := .breakpoints, segment := 0, remaining := 2, lowHalf := none } 1) [0x74#8] =
      some [0x00020015#32] := by decide +kernel

/-- Section 12.2: an eleventh word fails the session with OVERRUN at word index 10. -/
theorem test_loadData_overrun :
    shows (.loadData 0) complete5 [0x74#8, 0x78#8, 0x08#8] =
      some [0x500A0396#32, 0x00008080#32, 0x08#32] := by decide +kernel

theorem test_retire :
    shows .retire (withArgs 5 0 0 loaded) [0x14#8, 0x78#8] = some [0x00020104#32, 0x00008080#32] := by decide +kernel

/-- Section 12.2: READY, header present, generation 1, count 0, one block. -/
theorem test_queryCurve :
    shows .queryCurve (withArgs 5 0 0 loaded) [0x24#8, 0x28#8, 0x2C#8, 0x30#8] =
      some [0x12#32, 0x202#32, 0x00010001#32, 0] := by decide +kernel

theorem test_queryJob :
    shows .queryJob (withArgs 0 0 0 settingUp) [0x24#8, 0x28#8] = some [0x00000512#32, 0] := by decide +kernel

/-- Section 12.6: HOLD0 while HELD and after the CONTINUE. -/
theorem test_continueHeld :
    windowRead (holding held5) 0xB0#8 = some 0x00000401#32 ∧
      shows .continueHeld (withArgs 0x100#32 0x40A00000#32 0 (holding held5)) [0xB0#8, 0x14#8] =
        some [0x00001C02#32, 0x00020107#32] := by decide +kernel

theorem test_abort :
    shows .abort (withArgs 0 0 0 settingUp) [0x14#8] = some [0x00020E08#32] ∧
      shows .abort (withArgs 0 0 0 fetching) [0x14#8, 0x04#8, 0x80#8] =
        some [0x00020D08#32, 0x000005E0#32, 0x00128B40#32] := by decide +kernel

theorem test_flushLevel :
    shows .flushLevel (withArgs 1 0 0 settingUp) [0x24#8] = some [0x100#32] ∧
      shows .flushLevel (withArgs 1 0 0 fetching) [0x24#8] = some [0x001#32] := by decide +kernel

theorem test_engineReset :
    shows .engineReset settingUp [0x14#8, 0x04#8, 0x08#8] = some [0x0002010A#32, 0x00000600#32, 0x04#32] ∧
      shows .engineReset reading [0x14#8] = some [0x0003000A#32] := by decide +kernel

theorem test_badCommand : shows (.badCommand 0x0B#8) State.reset [0x14#8] = some [0x0002120B#32] := by decide +kernel

/-- Section 12.3: tag 0 is bound, 47 tags stay free, queue 2 holds one job. -/
theorem test_submit :
    answerTo (.submit 2) staged = some (.ackData 0x00000001#32) ∧
      shows (.submit 2) staged [0x04#8] = some [0x010005E0#32] := by decide +kernel

/-- Section 12.3: the words of the record, and its pop. -/
theorem test_cpop :
    [0x80#8, 0x84#8, 0x88#8, 0x8C#8, 0x90#8, 0x94#8].mapM (windowRead recordedOne) =
        some [0x0012A280#32, 0x00010021#32, 0, 0, 0x40600000#32, 0] ∧
      shows .cpop recordedOne [0xA4#8, 0x04#8, 0x08#8] = some [0, 0x00000600#32, 0x01#32] ∧
      shows .cpop loaded [0x08#8] = some [0x20#32] := by decide +kernel

theorem test_events :
    irq recordedOne = true ∧ shows (.eventsWrite 0x01#32) recordedOne [0x08#8] = some [0] ∧
      shows (.eventEnableWrite 0xFFFFFFFF#32) loaded [0x0C#8] = some [0x7F#32] := by decide +kernel

theorem test_registers :
    shows (.controlWrite 0xFFFFFFFF#32) State.reset [0x10#8] = some [0x00000F1F#32] ∧
      shows (.registerWrite (.stage 6) 0x12345678#32) State.reset [0x58#8] = some [0x12345678#32] ∧
      shows (.registerWrite (.cmdArg 2) 0x9ABCDEF0#32) State.reset [0x20#8] = some [0x9ABCDEF0#32] ∧
      answerTo (.windowAccessError { write := true, offset := 0x04#8, lanes := 0xF#4, data := 0 }) State.reset =
        some .berr := by decide +kernel

theorem test_rst :
    (nextOf (exec .rstAssert settingUp)).map breq = some false ∧
      shows .rstRelease { settingUp with rst := true } [0x04#8, 0x78#8] =
        some [0x00000600#32, 0x00008080#32] := by decide +kernel

/-- Section 12.4: the grant begins the demand read; its end begins the prefetch read. -/
theorem test_bgnt :
    (nextOf (exec .bgnt fetching)).bind drivenTransfer =
        some { addr := 0x1000#32, lanes := 0xF#4, write := false, data := none, stb := true } ∧
      (nextOf (exec (.demandReadEnd (.ack 0x40000000#32)) reading)).bind drivenTransfer =
        some { addr := 0x1008#32, lanes := 0xF#4, write := false, data := none, stb := true } ∧
      (nextOf (exec .bgntRemoved reading)).map (·.bus.grantRemoved) = some true := by decide +kernel

/-- Section 12.4: the write ends, element 0 is counted and the READY entry is taken. -/
theorem test_resultWriteEnd :
    drivenTransfer writing =
        some { addr := 0x2000#32, lanes := 0xF#4, write := true, data := some 0x40600000#32, stb := true } ∧
      (nextOf (exec (.resultWriteEnd .ack) writing)).bind (·.engine.running) =
        some
          (inEngine { batchJob with index := 1, done := 1 } (some (.narrow 0x40C00000#32)) none) ∧
      shows (.resultWriteEnd .berr) writing [0x80#8, 0x8C#8, 0x90#8] =
        some [0x0012CD40#32, 0x00010000#32, 0x2000#32] := by decide +kernel

theorem test_prefetch :
    (nextOf (exec (.prefetchReadEnd 0x40C00000#32) prefetching)).map (·.bus.buffer) =
        some [{ element := 1, value := some (.narrow 0x40C00000#32) }] ∧
      (nextOf (exec .prefetchReadFailure prefetching)).map (fun t => (t.bus.buffer, t.bus.prefetch, t.bus.state)) =
        some ([], some { p := 1, stopped := true }, .idle) := by decide +kernel

theorem test_dropped :
    (nextOf (exec (.wLowHalfEnd 7#32) dropping)).bind drivenTransfer =
        some { addr := 0x100C#32, lanes := 0xF#4, write := false, data := none, stb := true } ∧
      (nextOf (exec (.droppedValueEnd .berr) dropping)).map (·.bus.state) = some .idle := by decide +kernel

/-- Section 12.4: SETUP leaves acc 0.25 with term 1 next, and the iteration for term 0 gives 1.75. -/
theorem test_engine :
    (nextOf (exec (.setupCompletion .current) settingUp)).map (·.engine.state) = some .terms ∧
      ((nextOf
          (exec (.termsCompletion .current)
            (engineAt .terms (inEngine (singleJob 0x40000000#32 .mark) (some (.narrow 0x40000000#32))
              (some { working5 with nextTerm := some 0 }))))).bind (·.engine.running)).bind (·.work) =
        some { working5 with acc := .narrow 0x40600000#32, nextTerm := none } ∧
      shows (.conversionCompletion .current)
          (engineAt .store (inEngine (singleJob 0x40000000#32 .mark) (some (.narrow 0x40000000#32))
            (some { working5 with acc := .narrow 0x40600000#32, nextTerm := none })))
          [0x80#8, 0x84#8, 0x90#8] = some [0x0012A280#32, 0x00010021#32, 0x40600000#32] := by decide +kernel

theorem test_dispatch :
    (nextOf (exec .dispatch { loaded with
        intake := { State.reset.intake with queues := #v[[], [batchJob], [], []] } })).map
        (fun t => (t.engine.state, t.bus.state, t.bus.waitingRead)) =
      some (.fetch, .requesting, some { element := 0, addr := 0x1000#32 }) := by decide +kernel

theorem test_engineResetCompletion :
    shows .engineResetCompletion (withPending settingUp) [0x14#8, 0x04#8] =
      some [0x00000100#32, 0x00000600#32] := by decide +kernel

/-- An event with nothing to end. -/
theorem test_noSuchEvent :
    exec (.demandReadEnd .berr) State.reset = .fault .noSuchEvent ∧
      exec .rstRelease State.reset = .fault .noSuchEvent := ⟨rfl, rfl⟩

/-! ### Hypotheses that are met: queue, reset line, window -/

theorem test_witness_StepTakesFrontCommand : State.reset.pending = [] := rfl

theorem test_witness_ExecKeepsTheQueue :
    (nextOf (exec .cpop { recordedOne with pending := [.cpop] })).isSome = true := by
  decide +kernel

theorem test_witness_HardReset :
    { loaded with rst := true }.rst = true ∧
      ∀ c ∈ [Instr.openLoad, .badCommand 0x0B#8, .submit 3, .cpop, .registerWrite (.stage 0) 1,
        .windowAccessError { write := true, offset := 0x04#8, lanes := 0xF#4, data := 0 }],
        isWindowAccess c = true ∧ c.wellFormed = true := by decide +kernel

/-- No register between 0x30 and 0x40 or above 0xC4, a byte offset, three lanes, a write to a register that is only
read, a read of one that is only written. -/
theorem test_witness_AccessErrorChangesNothing :
    loaded.rst = false ∧
      ∀ a ∈ [(false, 0x34, 15), (false, 0xC8, 15), (false, 0x05, 15), (false, 0x04, 7), (true, 0x04, 15),
        (true, 0x60, 15), (false, 0x70, 15), (false, 0xA0, 15)],
        ({ write := a.1, offset := BitVec.ofNat 8 a.2.1, lanes := BitVec.ofNat 4 a.2.2, data := 0 } :
          WindowAccess).erroneous = true := by
  decide +kernel

theorem test_witness_EveryAccessIsDecided :
    ({ write := true, offset := 0x34#8, lanes := 0xF#4, data := 0 } : WindowAccess).erroneous = true ∧
      (∀ a ∈ [(true, 0x14), (true, 0xA0), (false, 0x00), (false, 0x6C), (false, 0xC4)],
        ({ write := a.1, offset := BitVec.ofNat 8 a.2, lanes := 0xF#4, data := 0 } : WindowAccess).erroneous =
          false) ∧
      (∀ o ∈ [0x00, 0xC4],
        let a : WindowAccess := { write := false, offset := BitVec.ofNat 8 o, lanes := 0xF#4, data := 0 }
        a.erroneous = false ∧ accessCommand a = none) ∧
      loaded.rst = false ∧ { loaded with rst := true }.rst = true ∧
      accessCommand { write := true, offset := 0xA0#8, lanes := 0xF#4, data := 0 } = some .cpop := by
  decide +kernel

/-- RST released, for the plain writes of the window: RegisterWriteHoldsTheWord, EventsWriteClearsOnes,
EventEnablesGateTheInterrupt, ControlWriteReacts. -/
theorem test_witness_WindowWrites : recordedOne.rst = false ∧ (withPending reading).rst = false := ⟨rfl, rfl⟩

/-- The batch job of level 1 and a queued job of level 3 above it. -/
def overtaken (s : State) : State :=
  { s with
    intake :=
      { s.intake with
        freeTags := List.range' 2 46, queues := #v[[], [], [], [fresh 1 3 (single5 0x40C00000#32 .mark)]] } }

theorem test_witness_YieldRequestIsSetAfresh :
    (∃ r, (overtaken fetching).engine.running = some r) ∧ (overtaken fetching).engine.state = .fetch ∧
      demandUnderWay (overtaken fetching) = false ∧ yieldDue (overtaken fetching) = true ∧
      loaded.engine.running = none ∧ settingUp.engine.state ≠ .fetch ∧ demandUnderWay reading = true ∧
      yieldDue fetching = false := by
  refine ⟨⟨_, rfl⟩, ?_⟩
  decide +kernel

theorem test_witness_RequestFollowsPendingWork :
    (let s : State := { fetching with bus := { fetching.bus with state := .idle } };
      s.bus.state = .idle ∧ busPending s = true) ∧
      (let s : State := { loaded with bus := { loaded.bus with state := .requesting } };
        s.bus.state = .requesting ∧ busPending s = false) ∧
      reading.bus.state = .owner ∧ (fetching.bus.state = .requesting ∧ busPending fetching = true) ∧
      (loaded.bus.state = .idle ∧ busPending loaded = false) := by decide +kernel

theorem test_witness_CpopRemovesTheOldestRecord :
    recordedOne.rst = false ∧ recordedOne.completion.records = record5 :: [] ∧
      loaded.rst = false ∧ loaded.completion.records = [] := by decide +kernel

theorem test_witness_BadCommandIsRecorded :
    commandTaken loaded ∧ ∀ code ∈ [0x00, 0x0B, 0xFF],
      (BitVec.ofNat 8 code).toNat = 0 ∨ 10 < (BitVec.ofNat 8 code).toNat := by
  unfold commandTaken; decide +kernel

theorem test_witness_CommandOverrunsWhilePending :
    (withPending reading).rst = false ∧ (withPending reading).cmd.pending = true ∧
      ∀ c ∈ [Instr.openLoad, .commitLoad, .cancelLoad, .retire, .queryCurve, .queryJob, .continueHeld, .abort,
        .flushLevel, .engineReset, .badCommand 0x00#8, .badCommand 0xFF#8],
        (cmdCode c).isSome = true ∧ c.wellFormed = true := by decide +kernel

/-! ### Load session -/

/-- Curve 31 and 32, segment counts 0, 1, 64 and 65, range policy codes 2 and 3, an EMPTY curve and one that is not. -/
theorem test_witness_OpenLoadOutcomes :
    (let s := withArgs 5 1 0 complete5; commandTaken s ∧ s.load.state = .opened) ∧
      (let s := withArgs 32 1 0 loaded; commandTaken s ∧ s.load.state ≠ .opened ∧ 32 ≤ s.cmd.args[0].toNat) ∧
      (∀ n ∈ [0x000, 0x041, 0xC01],
        let s := withArgs 31 (BitVec.ofNat 32 n) 0 loaded
        let x := s.cmd.args[1]
        commandTaken s ∧ s.load.state ≠ .opened ∧ s.cmd.args[0].toNat < 32 ∧
          (x.toNat % 256 = 0 ∨ 64 < x.toNat % 256 ∨ x.toNat / 1024 % 4 = 3)) ∧
      (∀ n ∈ [0x001, 0x040, 0x840],
        ∀ c ∈ [(0 : Fin 32), 5, 31],
          let s := withArgs (BitVec.ofNat 32 c.val) (BitVec.ofNat 32 n) 0 loaded
          let x := s.cmd.args[1]
          commandTaken s ∧ s.load.state ≠ .opened ∧ s.cmd.args[0].toNat = c.val ∧
            ¬(x.toNat % 256 = 0 ∨ 64 < x.toNat % 256 ∨ x.toNat / 1024 % 4 = 3) ∧
            ((curveEntry s c).state = .empty ↔ c ≠ 5)) := by
  unfold commandTaken; decide +kernel

theorem test_witness_CommitLoadOutcomes :
    (∀ s ∈ [loaded, failed5, complete5], s.rst = false ∧ s.cmd.pending = false) ∧ loaded.load.state = .idle ∧
      failed5.load.state = .failed ∧ complete5.load.state = .opened ∧ complete5.load.cursor.phase = .complete ∧
      ∀ p ∈ [Phase.breakpoints, .degree, .terms],
        (session { phase := p, segment := 0, remaining := 1, lowHalf := none } 0).load.cursor.phase ≠ .complete := by
  decide +kernel

theorem test_witness_CancelLoadOutcomes :
    commandTaken loaded ∧ commandTaken failed5 ∧ commandTaken complete5 ∧ loaded.load.state = .idle ∧
      failed5.load.state = .failed ∧ complete5.load.state = .opened := by
  unfold commandTaken; decide +kernel

theorem test_witness_LoadDataDiscarded :
    (withPending loaded).rst = false ∧ (withPending loaded).load.state ≠ .opened ∧
      failed5.load.state ≠ .opened := by decide +kernel

/-- A session on curve 5 in the other format. -/
def wideSession (cur : Cursor) (index : Nat) : State :=
  let s := session cur index
  { s with curves := s.curves.set 5 { curveEntry s 5 with header := some { header5 with format := .w } } }

theorem test_witness_LoadDataHeldOrRefused :
    (∀ p ∈ [Phase.breakpoints, .terms],
      let s := wideSession { phase := p, segment := 0, remaining := 1, lowHalf := none } 0
      s.rst = false ∧ s.load.state = .opened ∧
        (curveEntry s s.load.curve).header = some { header5 with format := .w } ∧ s.load.cursor.lowHalf = none) ∧
      (complete5.load.cursor.phase = .complete ∧ (curveEntry complete5 complete5.load.curve).header = some header5) ∧
      (session { phase := .degree, segment := 0, remaining := 1, lowHalf := none } 3).load.cursor.phase = .degree ∧
      15 < (16#32).toNat ∧
      (let s := session { phase := .breakpoints, segment := 0, remaining := 1, lowHalf := none } 2;
        completed .n s.load.cursor.lowHalf 0xFFFFFFFF#32 = some (.narrow 0xFFFFFFFF#32) ∧
          isMarker (.narrow 0xFFFFFFFF#32) = true ∧ s.load.cursor.phase = .breakpoints) ∧
      (let s := wideSession { phase := .terms, segment := 0, remaining := 1, lowHalf := some 7#32 } 8;
        completed .w s.load.cursor.lowHalf 0x7FF00000#32 = some (.wide 0x7FF00000#32 7#32) ∧
          isMarker (.wide 0x7FF00000#32 7#32) = true ∧ s.load.cursor.phase = .terms) ∧
      (let s := session { phase := .breakpoints, segment := 0, remaining := 1, lowHalf := none } 2;
        s.load.cursor.phase = .breakpoints ∧ storedWords s.load ≠ 0 ∧
          completed .n s.load.cursor.lowHalf 0x40800000#32 = some (.narrow 0x40800000#32) ∧
          isMarker (.narrow 0x40800000#32) = false ∧
          valueLt (curveValue s.store (curveEntry s s.load.curve).blocks .n (storedWords s.load - formatWords .n))
            (.narrow 0x40800000#32) = false) := by decide +kernel

/-- The word that finds no free block: the 33rd word of a curve that holds one block, with the pool empty. -/
theorem test_witness_LoadDataHeldOrRefused_storeFull :
    let s : State :=
      { session { phase := .terms, segment := 0, remaining := 2, lowHalf := none } 32 with
        store := { words := words5, free := [] } }
    AcceptsWord s header5 0x40000000#32 [0x40000000#32]
        { phase := .terms, segment := 0, remaining := 1, lowHalf := none } ∧
      32 * (curveEntry s s.load.curve).blocks.length < storedWords s.load + 1 ∧ s.store.free = [] :=
  ⟨.term (.narrow 0x40000000#32) rfl rfl (by decide +kernel), by decide +kernel, rfl⟩

/-- The laws of the store of curve 5. -/
theorem test_storeLaw (cur : Cursor) (n : Nat) : StoreLaw (session cur n) where
  canonical := by show cellsWf words5 = true; decide +kernel
  bounded := by show ∀ c ∈ words5, _; decide +kernel
  ascending := by show (List.range' 1 127).Pairwise (· < ·); decide +kernel
  partition := by
    show (List.range' 1 127 ++ heldBlocks (withCurve .loading 0)).Perm _
    decide +kernel

/-- The 32nd word still fits the block, the 33rd takes one; a first breakpoint, a degree of 15, and the last term. -/
theorem test_witness_LoadDataStoresAValue :
    (let s := session { phase := .terms, segment := 1, remaining := 1, lowHalf := none } 31;
      StoreLaw s ∧ s.rst = false ∧ s.load.state = .opened ∧
        (curveEntry s s.load.curve).header = some header5 ∧
        AcceptsWord s header5 0x40000000#32 [0x40000000#32]
          { phase := .complete, segment := 1, remaining := 0, lowHalf := none } ∧
        storedWords s.load + 1 ≤ 32 * (curveEntry s s.load.curve).blocks.length) ∧
      (let s := session { phase := .degree, segment := 0, remaining := 1, lowHalf := none } 32;
        StoreLaw s ∧ AcceptsWord s header5 15#32 [15#32]
            { phase := .terms, segment := 0, remaining := 16, lowHalf := none } ∧
          32 * (curveEntry s s.load.curve).blocks.length < storedWords s.load + 1 ∧
          s.store.free = 1 :: List.range' 2 126) ∧
      (let s := session { phase := .breakpoints, segment := 0, remaining := 3, lowHalf := none } 0;
        AcceptsWord s header5 0#32 [0#32] { phase := .breakpoints, segment := 0, remaining := 2, lowHalf := none }) :=
  ⟨⟨test_storeLaw _ _, rfl, rfl, by decide +kernel, .term (.narrow 0x40000000#32) rfl rfl (by decide +kernel),
      by decide +kernel⟩,
    ⟨test_storeLaw _ _, .degree rfl (by decide), by decide +kernel, by decide +kernel⟩,
    .breakpoint (.narrow 0#32) rfl rfl (by decide +kernel) (.inl rfl)⟩

/-! ### Curve directory -/

/-- An ascending pool: CpopRemovesTheOldestRecord. -/
theorem test_witness_CpopRemovesTheOldestRecord_pool : ([1, 5, 7] : List Nat).Pairwise (· < ·) := by decide

/-- The state and the count of a curve that clauses of RETIRE name. -/
theorem test_witness_RetireOutcomes :
    (withPending loaded).rst = false ∧ (withPending loaded).cmd.pending = true ∧
      32 ≤ (withArgs 32 0 0 loaded).cmd.args[0].toNat ∧
      (let s := withArgs 31 0 0 loaded;
        s.rst = false ∧ s.cmd.pending = false ∧ s.cmd.args[0].toNat = (31 : Fin 32).val ∧
          (curveEntry s 31).state = .empty) ∧
      (∀ x ∈ [(CurveState.loading, 0), (.retiring, 1), (.ready, 0), (.ready, 48)],
        let s := withArgs 5 0 0 (withCurve x.1 x.2)
        s.rst = false ∧ s.cmd.pending = false ∧ s.cmd.args[0].toNat = (5 : Fin 32).val ∧
          (curveEntry s 5).state = x.1 ∧ (curveEntry s 5).refCount = x.2) := by decide +kernel

theorem test_witness_QueryCurveShowsTheEntry :
    (withPending loaded).rst = false ∧ (withPending loaded).cmd.pending = true ∧
      32 ≤ (withArgs 32 0 0 loaded).cmd.args[0].toNat ∧
      (let s := withArgs 31 0 0 loaded;
        s.rst = false ∧ s.cmd.pending = false ∧ s.cmd.args[0].toNat = (31 : Fin 32).val ∧
          (curveEntry s 31).header = none) ∧
      (let s := withArgs 5 0 0 loaded;
        s.rst = false ∧ s.cmd.pending = false ∧ s.cmd.args[0].toNat = (5 : Fin 32).val ∧
          (curveEntry s 5).header = some header5 ∧ header5.segments < 256 ∧ (curveEntry s 5).refCount < 256 ∧
          (curveEntry s 5).blocks.length < 256) := by decide +kernel

/-! ### Jobs -/

/-- A staging area with a BATCH descriptor. -/
def stagedBatch (x n argBase argStride resBase resStride : Word) : State :=
  withStage #v[x, 0, n, argBase, argStride, resBase, resStride] loaded

/-- Sections 4.2 and 11.5: each check of the descriptor at the edge of its range, and the answer it gives. -/
theorem test_descriptorReasons :
    answerTo (.submit 0) (stagedBatch 0x15#32 2#32 0xFFFFFFF8#32 4#32 0#32 4#32) = some (.ackData 0x00000001#32) ∧
      answerTo (.submit 0) (stagedBatch 0x16#32 0#32 1#32 4#32 0#32 4#32) = some (.ackData 0x00010003#32) ∧
      answerTo (.submit 0) (stagedBatch 0x615#32 1#32 0#32 4#32 0#32 4#32) = some (.ackData 0x00010003#32) ∧
      answerTo (.submit 0) (stagedBatch 0x15#32 0x10000#32 1#32 4#32 0#32 4#32) = some (.ackData 0x00020003#32) ∧
      answerTo (.submit 0) (stagedBatch 0x15#32 1#32 0#32 4#32 2#32 2#32) = some (.ackData 0x00030003#32) ∧
      answerTo (.submit 0) (stagedBatch 0x115#32 1#32 0#32 0#32 0#32 4#32) = some (.ackData 0x00040003#32) ∧
      answerTo (.submit 0) (stagedBatch 0x15#32 2#32 0xFFFFFFFC#32 4#32 0#32 4#32) = some (.ackData 0x00050003#32) := by
  decide +kernel

/-- The conditions of the clauses, at the staging areas of `test_descriptorReasons`. -/
theorem test_witness_DescriptorChecksInOrder :
    (∀ n ∈ [0x16, 0x17, 0x615], let x := BitVec.ofNat 32 n; 2 ≤ x.toNat % 4 ∨ x.toNat / 512 % 4 = 3) ∧
      (∀ n ∈ [0x814, 0x414], let x := BitVec.ofNat 32 n; ¬(2 ≤ x.toNat % 4 ∨ x.toNat / 512 % 4 = 3) ∧ x.toNat % 4 = 0) ∧
      (¬(2 ≤ (0x15#32).toNat % 4 ∨ (0x15#32).toNat / 512 % 4 = 3) ∧ (0x15#32).toNat % 4 = 1 ∧
        ¬(2 ≤ (0x115#32).toNat % 4 ∨ (0x115#32).toNat / 512 % 4 = 3) ∧ (0x115#32).toNat % 4 = 1) ∧
      (0x10000#32).toNat % 65536 = 0 ∧ (1#32).toNat % 65536 ≠ 0 ∧ (2#32).toNat % 4 ≠ 0 ∧
      ((4#32).truncate 16 : BitVec 16).toNat < 8 ∧
      2 ^ 32 ≤ (0xFFFFFFFC#32).toNat + (2 - 1) * (4#16).toNat + 4 - 1 ∧
      ¬2 ^ 32 ≤ (0xFFFFFFF8#32).toNat + (2 - 1) * (4#16).toNat + 4 - 1 := by decide +kernel

/-- A full level queue of seven more jobs behind the first. -/
def crowded (s : State) : State :=
  { s with
    intake :=
      { s.intake with
        freeTags := List.range' 8 40
        queues := #v[(List.range' 0 8).map fun t => fresh t 0 (single5 0 .mark), [], [], []] } }

theorem test_witness_SubmitOutcomes :
    (withPending staged).rst = false ∧ (withPending staged).cmd.pending = true ∧
      staged.rst = false ∧ staged.cmd.pending = false ∧
      (stagedDescriptor staged).toOption = some (single5 0x40000000#32 .mark) ∧
      (stagedDescriptor (stagedBatch 0x16#32 0 0 0 0 0)).toOption = none ∧
      (curveEntry staged 5).state = .ready ∧ (queueOf staged 0).length < 8 ∧
      staged.intake.freeTags = 0 :: List.range' 1 47 ∧
      (let s : State := withStage staged.intake.stage (withCurve .retiring 1);
        (stagedDescriptor s).toOption = some (single5 0x40000000#32 .mark) ∧ (curveEntry s 5).state ≠ .ready) ∧
      (8 ≤ (queueOf (crowded staged) 0).length ∧ (curveEntry (crowded staged) 5).state = .ready) ∧
      (let s : State := { staged with intake := { staged.intake with freeTags := [] } };
        (queueOf s 0).length < 8 ∧ s.intake.freeTags = []) := by decide +kernel

/-- One tag in every place: queue 0 holds 0, the engine 1, context slot 1 holds 2, the hold slot 3, the completion queue
4, and the others are free. -/
def places : State :=
  { withCurve .ready 4 with
    intake :=
      { State.reset.intake with
        freeTags := List.range' 5 43, queues := #v[[fresh 0 0 (single5 0 .mark)], [], [], []] }
    slots := #v[none, some { job := fresh 2 1 (batch5 .n .n .mark), part := none }, none]
    engine :=
      { state := .setup, running := some (inEngine (fresh 1 2 (single5 0 .mark)) (some (.narrow 0)) none)
        abandoned := [] }
    hold := some { held5 with job := { held5.job with tag := 3 } }
    completion := { records := [{ record5 with tag := 4 }], events := 0, enables := 0 } }

/-- The premise of PlaceOfATagIsWhereItIs, and half of that of StatusAndCmdShowTheState. -/
theorem test_witness_PlaceOfATagIsWhereItIs : TagLaw places where
  ascending := by show (List.range' 5 43).Pairwise (· < ·); decide +kernel
  partition := by decide +kernel

/-- The other half of the premise of StatusAndCmdShowTheState; RST is released in that state. -/
theorem test_witness_StatusAndCmdShowTheState : PlaceLaw places where
  queueLevel := by decide +kernel
  queueLength := by decide +kernel
  slotLevel := by
    have h : ∀ l : Fin 4, (slotOf places l).all (fun x => decide (x.job.level = l)) = true := by decide +kernel
    intro l x hx
    simpa [hx] using h l
  slotFree := by
    intro r hr
    cases hr
    decide +kernel
  idle := by decide +kernel
  working := by decide +kernel

/-- Each place of a tag, and the tag beyond the last. -/
theorem test_witness_QueryJobShowsTheJob :
    (withPending places).cmd.pending = true ∧ places.rst = false ∧ places.cmd.pending = false ∧
      48 ≤ (withArgs 48 0 0 places).cmd.args[0].toNat ∧ (withArgs 47 0 0 places).cmd.args[0].toNat < 48 ∧
      placeOf places 47 = .free ∧ placeOf places 0 = .queued 0 (fresh 0 0 (single5 0 .mark)) ∧
      (match placeOf places 1 with | .running _ => true | _ => false) = true ∧
      (match placeOf places 2 with | .suspended _ _ => true | _ => false) = true ∧
      (match placeOf places 3 with | .held _ => true | _ => false) = true ∧
      (match placeOf places 4 with | .finished _ => true | _ => false) = true := by decide +kernel

/-- Tag 48 and action 3; another tag, an EMPTY slot and a CONTINUING one; RETRY of a SINGLE job; and what is accepted. -/
theorem test_witness_ContinueOutcomes :
    (withPending (holding held5)).cmd.pending = true ∧ (holding held5).rst = false ∧
      (holding held5).cmd.pending = false ∧
      (48 ≤ (0x030#32).toNat % 256 ∧ (0x300#32).toNat / 256 % 4 = 3) ∧
      ((0x02F#32).toNat % 256 < 48 ∧ (0x02F#32).toNat / 256 % 4 ≠ 3 ∧ held5.job.tag ≠ (0x02F#32).toNat % 256) ∧
      loaded.hold = none ∧ ({ held5 with action := some .retry } : HoldRecord).action.isSome = true ∧
      (let h : HoldRecord := { held5 with job := fresh 0 0 (single5 0 .hold) };
        (holding h).hold = some h ∧ h.action = none ∧ h.job.tag = (0x200#32).toNat % 256 ∧
          (0x200#32).toNat / 256 % 4 = 2 ∧ descKind h.job.desc = .single) ∧
      ((holding held5).hold = some held5 ∧ held5.action = none ∧ held5.job.tag = (0x100#32).toNat % 256 ∧
        ¬((0x100#32).toNat / 256 % 4 = 2 ∧ descKind held5.job.desc = .single)) := by decide +kernel

/-! ### Lawful states -/

/-- The store and the directory of the one job in the engine. -/
theorem test_storeLaw_engineAt (s : State) (hs : s.store = fetching.store) (hc : s.curves = fetching.curves) :
    StoreLaw s := by
  refine ⟨?_, ?_, ?_, ?_⟩
  · rw [hs]; decide +kernel
  · rw [hs]; decide +kernel
  · rw [hs]; decide +kernel
  · unfold heldBlocks
    rw [hs, hc]
    decide +kernel

/-- The batch job at the standing boundary is a lawful state. -/
theorem test_lawful_fetching : Lawful fetching where
  store := test_storeLaw_engineAt _ rfl rfl
  curve := ⟨by decide +kernel, by decide +kernel, by decide +kernel, by decide +kernel, by decide +kernel⟩
  place := by
    have h : ∀ l : Fin 4, slotOf fetching l = none := by decide +kernel
    exact ⟨by decide +kernel, by decide +kernel, fun l x hx => absurd ((h l).symm.trans hx) (by simp), fun r _ => h _,
      by decide +kernel, by decide +kernel⟩
  engine := ⟨fun h => absurd h (by decide +kernel), fun h => absurd h (by decide +kernel),
    fun h => absurd h (by decide +kernel)⟩
  tag := ⟨by decide +kernel, by decide +kernel⟩
  count := by unfold CountLaw; decide +kernel
  yield := by unfold YieldLaw; decide +kernel
  reset := ⟨by decide +kernel, by decide +kernel⟩
  bus := ⟨by decide +kernel, by decide +kernel, fun h => absurd h (by decide +kernel), by decide +kernel,
    fun _ h => absurd h nofun, fun _ h => absurd h nofun, fun _ h => absurd h nofun, by decide +kernel⟩
  prefetch := ⟨⟨fun _ => ⟨by decide +kernel, _, rfl, by decide +kernel⟩, fun _ => rfl⟩, fun h => absurd h nofun,
    fun r pf hr hp => (by cases hr; cases hp; exact ⟨1, by decide +kernel, by decide +kernel, .inl rfl⟩),
    by decide +kernel, by decide +kernel, fun _ => .inl rfl⟩
  transfer := ⟨fun _ h => absurd h nofun, fun q h => (by cases h; exact ⟨_, rfl, rfl, rfl⟩), fun _ h => absurd h nofun,
    fun _ h => absurd h nofun, fun _ h => absurd h nofun, fun _ h => absurd h nofun⟩
  control := by unfold ControlLaw; decide +kernel

/-- The batch job in SETUP is a lawful state. -/
theorem test_lawful_settingUp : Lawful settingUp where
  store := test_storeLaw_engineAt _ rfl rfl
  curve := ⟨by decide +kernel, by decide +kernel, by decide +kernel, by decide +kernel, by decide +kernel⟩
  place := by
    have h : ∀ l : Fin 4, slotOf settingUp l = none := by decide +kernel
    exact ⟨by decide +kernel, by decide +kernel, fun l x hx => absurd ((h l).symm.trans hx) (by simp), fun r _ => h _,
      by decide +kernel, by decide +kernel⟩
  engine := ⟨fun _ => ⟨_, _, rfl, rfl⟩, fun h => absurd h (by decide +kernel), fun h => absurd h (by decide +kernel)⟩
  tag := ⟨by decide +kernel, by decide +kernel⟩
  count := by unfold CountLaw; decide +kernel
  yield := by unfold YieldLaw; decide +kernel
  reset := ⟨by decide +kernel, by decide +kernel⟩
  bus := ⟨by decide +kernel, by decide +kernel, fun h => absurd h (by decide +kernel), by decide +kernel,
    fun _ h => absurd h nofun, fun _ h => absurd h nofun, fun _ h => absurd h nofun, by decide +kernel⟩
  prefetch := ⟨⟨fun _ => ⟨by decide +kernel, _, rfl, by decide +kernel⟩, fun _ => rfl⟩, fun h => absurd h nofun,
    fun r pf hr hp => (by cases hr; cases hp; exact ⟨1, by decide +kernel, by decide +kernel, .inl rfl⟩),
    by decide +kernel, by decide +kernel, fun h => absurd h (by decide +kernel)⟩
  transfer := ⟨fun _ h => absurd h nofun, fun _ h => absurd h nofun, fun _ h => absurd h nofun,
    fun _ h => absurd h nofun, fun _ h => absurd h nofun, fun _ h => absurd h nofun⟩
  control := by unfold ControlLaw; decide +kernel

/-- The batch job with its demand read under way is a lawful state. -/
theorem test_lawful_reading : Lawful reading where
  store := test_storeLaw_engineAt _ rfl rfl
  curve := ⟨by decide +kernel, by decide +kernel, by decide +kernel, by decide +kernel, by decide +kernel⟩
  place := by
    have h : ∀ l : Fin 4, slotOf reading l = none := by decide +kernel
    exact ⟨by decide +kernel, by decide +kernel, fun l x hx => absurd ((h l).symm.trans hx) (by simp), fun r _ => h _,
      by decide +kernel, by decide +kernel⟩
  engine := ⟨fun h => absurd h (by decide +kernel), fun h => absurd h (by decide +kernel),
    fun h => absurd h (by decide +kernel)⟩
  tag := ⟨by decide +kernel, by decide +kernel⟩
  count := by unfold CountLaw; decide +kernel
  yield := by unfold YieldLaw; decide +kernel
  reset := ⟨by decide +kernel, by decide +kernel⟩
  bus := ⟨by decide +kernel, fun h => absurd h (by decide +kernel), fun h => absurd h (by decide +kernel),
    fun h => absurd h (by decide +kernel),
    fun u h _ => (by cases h; exact .inr ⟨rfl, rfl⟩),
    fun u h hk => (by cases h; cases hk),
    fun u h => (by cases h; decide +kernel), by decide +kernel⟩
  prefetch := ⟨⟨fun _ => ⟨by decide +kernel, _, rfl, by decide +kernel⟩, fun _ => rfl⟩, fun h => absurd h nofun,
    fun r pf hr hp => (by cases hr; cases hp; exact ⟨1, by decide +kernel, by decide +kernel, .inl rfl⟩),
    by decide +kernel, by decide +kernel, fun _ => .inr (.inl rfl)⟩
  transfer := ⟨fun _ h => absurd h nofun, fun _ h => absurd h nofun,
    fun u h hk => (by cases h; cases hk),
    fun u h _ => (by cases h; exact ⟨_, rfl, rfl, rfl⟩),
    fun u h hk => (by cases h; cases hk), fun u h => (by cases h; decide +kernel)⟩
  control := by unfold ControlLaw; decide +kernel

/-- The batch job with its result write under way is a lawful state. -/
theorem test_lawful_writing : Lawful writing where
  store := test_storeLaw_engineAt _ rfl rfl
  curve := ⟨by decide +kernel, by decide +kernel, by decide +kernel, by decide +kernel, by decide +kernel⟩
  place := by
    have h : ∀ l : Fin 4, slotOf writing l = none := by decide +kernel
    exact ⟨by decide +kernel, by decide +kernel, fun l x hx => absurd ((h l).symm.trans hx) (by simp), fun r _ => h _,
      by decide +kernel, by decide +kernel⟩
  engine := ⟨fun h => absurd h (by decide +kernel), fun h => absurd h (by decide +kernel), fun _ => ⟨_, rfl, .inl rfl⟩⟩
  tag := ⟨by decide +kernel, by decide +kernel⟩
  count := by unfold CountLaw; decide +kernel
  yield := by unfold YieldLaw; decide +kernel
  reset := ⟨by decide +kernel, by decide +kernel⟩
  bus := ⟨by decide +kernel, fun h => absurd h (by decide +kernel), fun h => absurd h (by decide +kernel),
    fun h => absurd h (by decide +kernel),
    fun u h hk => (by cases h; cases hk),
    fun u h _ => (by cases h; exact .inr ⟨rfl, rfl, _, rfl, rfl⟩),
    fun u h => (by cases h; decide +kernel), by decide +kernel⟩
  prefetch := ⟨⟨fun _ => ⟨by decide +kernel, _, rfl, by decide +kernel⟩, fun _ => rfl⟩, fun h => absurd h nofun,
    fun r pf hr hp => (by cases hr; cases hp; exact ⟨1, by decide +kernel, by decide +kernel, .inl rfl⟩),
    by decide +kernel, by decide +kernel, fun h => absurd h (by decide +kernel)⟩
  transfer := ⟨fun _ h => absurd h nofun, fun _ h => absurd h nofun,
    fun u h _ => (by cases h; exact ⟨_, _, rfl, rfl, rfl, rfl⟩),
    fun u h hk => (by cases h; cases hk),
    fun u h hk => (by cases h; cases hk), fun u h => (by cases h; decide +kernel)⟩
  control := by unfold ControlLaw; decide +kernel

/-- The batch job with a prefetch read under way is a lawful state. -/
theorem test_lawful_prefetching : Lawful prefetching where
  store := test_storeLaw_engineAt _ rfl rfl
  curve := ⟨by decide +kernel, by decide +kernel, by decide +kernel, by decide +kernel, by decide +kernel⟩
  place := by
    have h : ∀ l : Fin 4, slotOf prefetching l = none := by decide +kernel
    exact ⟨by decide +kernel, by decide +kernel, fun l x hx => absurd ((h l).symm.trans hx) (by simp), fun r _ => h _,
      by decide +kernel, by decide +kernel⟩
  engine := ⟨fun _ => ⟨_, _, rfl, rfl⟩, fun h => absurd h (by decide +kernel), fun h => absurd h (by decide +kernel)⟩
  tag := ⟨by decide +kernel, by decide +kernel⟩
  count := by unfold CountLaw; decide +kernel
  yield := by unfold YieldLaw; decide +kernel
  reset := ⟨by decide +kernel, by decide +kernel⟩
  bus := ⟨by decide +kernel, fun h => absurd h (by decide +kernel), fun h => absurd h (by decide +kernel),
    fun h => absurd h (by decide +kernel),
    fun u h hk => (by cases h; cases hk),
    fun u h hk => (by cases h; cases hk),
    fun u h => (by cases h; decide +kernel), by decide +kernel⟩
  prefetch := ⟨⟨fun _ => ⟨by decide +kernel, _, rfl, by decide +kernel⟩, fun _ => rfl⟩, fun h => absurd h nofun,
    fun r pf hr hp => (by cases hr; cases hp; exact ⟨1, by decide +kernel, by decide +kernel, .inl rfl⟩),
    by decide +kernel, by decide +kernel, fun h => absurd h (by decide +kernel)⟩
  transfer := ⟨fun _ h => absurd h nofun, fun _ h => absurd h nofun,
    fun u h hk => (by cases h; cases hk),
    fun u h hk => (by cases h; cases hk),
    fun u h _ => (by cases h; exact ⟨_, 1, rfl, by decide +kernel, rfl, rfl⟩), fun u h => (by cases h; decide +kernel)⟩
  control := by unfold ControlLaw; decide +kernel

theorem test_witness_AbortOutcomes :
    commandTaken places ∧ 48 ≤ (withArgs 48 0 0 places).cmd.args[0].toNat ∧
      (withArgs 0 0 0 settingUp).cmd.args[0].toNat < 48 ∧
      (Lawful fetching ∧ placeOf fetching 0 = .running (inEngine batchJob none none) ∧
        fetching.engine.state = .fetch ∧ demandUnderWay fetching = false) ∧
      (Lawful settingUp ∧
        placeOf settingUp 0 = .running (inEngine batchJob (some (.narrow 0x40000000#32)) none) ∧
        settingUp.engine.state ≠ .fetch) :=
  ⟨⟨rfl, rfl⟩, by decide +kernel, by decide +kernel,
    ⟨test_lawful_fetching, by decide +kernel, rfl, rfl⟩,
    ⟨test_lawful_settingUp, by decide +kernel, by decide +kernel⟩⟩

/-- The level of curves that a flush empties and of those it does not: curve 5 RETIRING, whose one job is held. -/
theorem test_witness_FlushLevelEndsTheLevel :
    commandTaken places ∧ 4 ≤ (withArgs 4 0 0 places).cmd.args[0].toNat ∧
      (withArgs 3 0 0 places).cmd.args[0].toNat = (3 : Fin 4).val ∧
      (let s : State := { holding held5 with curves := (withCurve .retiring 1).curves };
        (curveEntry s 5).state = .retiring ∧ (curveEntry s 5).refCount ≤ 1 ∧ held5.job.desc.curve = 5 ∧
          held5.job.level = 0) ∧
      places.store.free.Pairwise (· < ·) := by
  unfold commandTaken; decide +kernel

/-- A lawful state with a command that answers a next state: LawsAreKept, StoreLawIsKept, ReachableStatesAreLawful. -/
theorem test_witness_LawsAreKept :
    ∃ t, Lawful fetching ∧ StoreLaw fetching ∧ step fetching = .next t :=
  ⟨_, test_lawful_fetching, test_lawful_fetching.store, rfl⟩

theorem test_witness_ReachableStatesAreLawful : Reachable { State.reset with pending := [.cpop] } := .reset _

/-! ### Engine reset -/

theorem test_witness_EngineResetTaken :
    commandTaken settingUp ∧ settingUp.bus.underWay = none ∧ commandTaken prefetching ∧
      prefetching.bus.underWay = some (transfer .prefetchRead 0x1008#32 1) ∧ prefetching.bus.state = .owner := by
  unfold commandTaken; decide +kernel

/-- Each kind of value at whose end a pending reset completes, and a state without one. -/
theorem test_witness_EngineResetCompletes :
    (∀ k ∈ [ValueKind.demandRead, .resultWrite, .dropped],
      let s := withPending (owning (transfer k 0x1000#32 1) 1 settingUp)
      s.cmd.pending = true ∧ s.bus.underWay = some (transfer k 0x1000#32 1) ∧
        (transfer k 0x1000#32 1).size ≤ (transfer k 0x1000#32 1).ended + 1) ∧
      loaded.cmd.pending = false := by decide +kernel

/-! ### Bus master -/

theorem test_witness_GrantAndItsRemoval :
    (fetching.rst = false ∧ fetching.bus.state = .requesting) ∧ { loaded with rst := true }.rst = true ∧
      loaded.bus.state ≠ .requesting ∧ (reading.bus.state = .owner ∧ reading.bus.underWay.isSome = true) ∧
      (let s : State := { loaded with bus := { loaded.bus with state := .owner } };
        s.bus.state = .owner ∧ s.bus.underWay = none) ∧ loaded.bus.state ≠ .owner := by decide +kernel

/-- A choice point of the batch job after `count` transfers of the tenure, with some work waiting. -/
def choosing (count : Nat) (argFormat resFormat : Format) (w : Option WaitingWrite) (r : Option WaitingRead)
    (pf : Option PrefetchPart) : State :=
  { engineAt .setup (inEngine (fresh 0 1 (batch5 argFormat resFormat .mark)) none none) with
    bus :=
      { BusMaster.reset with
        state := .owner, tenureCount := count, waitingWrite := w, waitingRead := r, prefetch := pf } }

/-- A tenure that is released with work left, and one that is kept or released without. -/
theorem test_witness_ChoicePointOrder_release :
    (reading.bus.state = .owner ∧ fetching.bus.state = .requesting ∧ breqLevels reading fetching = [false, true]) ∧
      (reading.bus.state ≠ .owner ∨ loaded.bus.state ≠ .requesting) ∧ breqLevels reading loaded = [false] := by
  decide +kernel

/-- STB at the events of a tenure (R180): a transfer begins, a high half follows a low half, the next value follows a
value, a transfer goes on over an event that does not end it, and the last one ends. -/
theorem test_masterStb :
    (nextOf (exec .bgnt fetching)).map (masterStbLevels fetching) = some [true] ∧
      (nextOf (exec (.wLowHalfEnd 7#32) dropping)).map (masterStbLevels dropping) = some [false, true] ∧
      (nextOf (exec (.demandReadEnd (.ack 0x40000000#32)) reading)).map (masterStbLevels reading) =
        some [false, true] ∧
      (nextOf (exec .bgntRemoved reading)).map (masterStbLevels reading) = some [true] ∧
      (nextOf (exec (.demandReadEnd .berr) reading)).map (masterStbLevels reading) = some [false] := by
  decide +kernel

/-- The end of a value before its choice point. -/
theorem test_witness_ChoicePointOrder_stb :
    reading.bus.underWay.isSome = true ∧ reading.bus.tenureCount = (endValue reading).bus.tenureCount ∧
      (endValue reading).bus.underWay = none := by decide +kernel

/-- The tenure limit of 4: the fourth transfer fits, a W value after the third and any value after the fourth do not; a
first value always fits. -/
theorem test_witness_ChoicePointOrder :
    (∀ s ∈ [choosing 0 .n .n none none none, choosing 3 .n .n none none (some { p := 1, stopped := false })],
      s.bus.grantRemoved = false) ∧
      { reading.bus with grantRemoved := true }.grantRemoved = true ∧
      busPending (choosing 0 .n .n none none none) = false ∧
      (∀ count ∈ [0, 3],
        let s := choosing count .n .n none none (some { p := 1, stopped := false })
        prefetchPending s = true ∧ s.bus.waitingWrite = none ∧ s.bus.waitingRead = none ∧
          (s.bus.tenureCount = 0 ∨
            s.bus.tenureCount + formatWords .n ≤ s.control.toNat / 256 % 16 + 1)) ∧
      (let s := choosing 4 .n .n none none (some { p := 1, stopped := false });
        prefetchPending s = true ∧
          ¬(s.bus.tenureCount = 0 ∨ s.bus.tenureCount + formatWords .n ≤ s.control.toNat / 256 % 16 + 1)) ∧
      (let s := choosing 3 .w .n none (some { element := 0, addr := 0x1000#32 }) none;
        s.bus.waitingWrite = none ∧ s.engine.running.isSome = true ∧
          ¬(s.bus.tenureCount = 0 ∨ s.bus.tenureCount + formatWords .w ≤ s.control.toNat / 256 % 16 + 1)) ∧
      (let s := choosing 2 .w .n none (some { element := 0, addr := 0x1000#32 }) none;
        s.bus.tenureCount + formatWords .w ≤ s.control.toNat / 256 % 16 + 1) ∧
      (let s := choosing 2 .n .w (some { element := 0, addr := 0x2000#32, value := .wide 1 2 }) none none;
        s.bus.waitingWrite = some { element := 0, addr := 0x2000#32, value := .wide 1 2 } ∧
          s.bus.tenureCount + formatWords (valueFormat (.wide 1 2)) ≤ s.control.toNat / 256 % 16 + 1) ∧
      (let s := choosing 3 .n .w (some { element := 0, addr := 0x2000#32, value := .wide 1 2 }) none none;
        ¬(s.bus.tenureCount = 0 ∨
          s.bus.tenureCount + formatWords (valueFormat (.wide 1 2)) ≤ s.control.toNat / 256 % 16 + 1)) := by
  decide +kernel

/-- Each kind of value in a lawful state, for what the part drives. -/
theorem test_witness_LowHalfEndBeginsTheHighHalf_driven :
    (Lawful writing ∧ writing.bus.underWay = some (transfer .resultWrite 0x2000#32 1)) ∧
      (Lawful reading ∧ reading.bus.underWay = some (transfer .demandRead 0x1000#32 1)) ∧
      Lawful prefetching ∧ prefetching.bus.underWay = some (transfer .prefetchRead 0x1008#32 1) :=
  ⟨⟨test_lawful_writing, rfl⟩, ⟨test_lawful_reading, rfl⟩, test_lawful_prefetching, rfl⟩

theorem test_witness_LowHalfEndBeginsTheHighHalf :
    (dropping.bus.underWay = some (transfer .dropped 0x1008#32 2) ∧
        (transfer .dropped 0x1008#32 2).ended + 1 < (transfer .dropped 0x1008#32 2).size) ∧
      (reading.bus.underWay = some (transfer .demandRead 0x1000#32 1) ∧
        (transfer .demandRead 0x1000#32 1).size ≤ (transfer .demandRead 0x1000#32 1).ended + 1) ∧
      loaded.bus.underWay = none := by decide +kernel

/-- A job with its abort mark set or clear, at the end of its demand read. -/
def readingAs (mark : Bool) (yield : Bool) (level : Fin 4) : State :=
  { reading with
    yieldRequest := yield
    engine :=
      { state := .fetch
        running := some { inEngine { batchJob with level := level } none none with abortMark := mark }
        abandoned := [] } }

theorem test_witness_DemandReadEnds :
    (∀ x ∈ [(true, false, (1 : Fin 4)), (false, false, 1), (false, true, 0), (false, true, 2), (false, true, 3)],
      let s := readingAs x.1 x.2.1 x.2.2
      s.cmd.pending = false ∧ s.bus.underWay = some (transfer .demandRead 0x1000#32 1) ∧ s.engine.state = .fetch ∧
        s.engine.running.isSome = true ∧ s.yieldRequest = x.2.1) ∧
      (transfer .demandRead 0x1000#32 1).size ≤ (transfer .demandRead 0x1000#32 1).ended + 1 := by decide +kernel

/-- The batch job at the end of the write of an element, with some exceptions counted. -/
def writingAs (mark : Bool) (yield : Bool) (index excCount : Nat) : State :=
  { writing with
    yieldRequest := yield
    engine :=
      { state := .store
        running :=
          some { inEngine { batchJob with index := index, excCount := excCount } none none with abortMark := mark }
        abandoned := [] } }

/-- Element 0 of 2 is not the last, element 1 is. -/
theorem test_witness_ResultWriteEnds :
    (∀ x ∈ [(true, false, 0, 0), (false, false, 1, 0), (false, false, 1, 1), (false, true, 0, 0), (false, false, 0, 0)],
      let s := writingAs x.1 x.2.1 x.2.2.1 x.2.2.2
      s.cmd.pending = false ∧ s.bus.underWay = some (transfer .resultWrite 0x2000#32 1) ∧ s.engine.state = .store ∧
        s.engine.running.isSome = true ∧ s.yieldRequest = x.2.1) ∧
      (elementCount batchJob.desc ≤ 1 + 1 ∧ ¬elementCount batchJob.desc ≤ 0 + 1) := by decide +kernel

theorem test_witness_PrefetchReadsAndDroppedValuesEnd :
    (dropping.cmd.pending = false ∧ dropping.bus.underWay = some (transfer .dropped 0x1008#32 2)) ∧
      (prefetching.cmd.pending = false ∧ prefetching.bus.underWay = some (transfer .prefetchRead 0x1008#32 1) ∧
        prefetching.bus.buffer.find? (fun e => e.value.isNone) = some { element := 1, value := none } ∧
        prefetching.engine.state ≠ .fetch) ∧
      (let s : State := { prefetching with engine := { prefetching.engine with state := .fetch } };
        s.engine.state = .fetch ∧ s.engine.running.isSome = true ∧ s.bus.waitingRead = none) := by decide +kernel

/-- A READY entry, one IN_FLIGHT, none. -/
theorem test_witness_FetchAsksTheBuffer :
    writing.bus.buffer.find? (fun e => decide (e.element = 1)) =
        some { element := 1, value := some (.narrow 0x40C00000#32) } ∧
      prefetching.bus.buffer.find? (fun e => decide (e.element = 1)) = some { element := 1, value := none } ∧
      fetching.bus.buffer.find? (fun e => decide (e.element = 1)) = none ∧
      (single5 0 .mark).body = .single (.narrow 0) ∧
      (batch5 .n .n .mark).body = .batch 2 0x1000#32 8#16 0x2000#32 8#16 := by decide +kernel

/-! ### Engine -/

/-- A SETUP outcome of one kind. -/
def excOf : OpOutcome → Option Exc
  | .exception x => some x
  | .working _ => none

/-- Curve 5 under the other range policies and the other origin mode. -/
def headerWith (range : RangePolicy) (origin : OriginMode) : CurveHeader :=
  { header5 with range := range, origin := origin }

/-- The marker, a wide argument that overflows the format, the two bounds of the curve and the numbers beyond them: one
argument for each clause. -/
theorem test_witness_SetupStagesInOrder :
    isMarker (.narrow 0xFFFFFFFF#32) = true ∧
      (isMarker (.wide 0x7FEFFFFF#32 0) = false ∧
        convert .n .flush (.wide 0x7FEFFFFF#32 0) = .exception .overflow) ∧
      (∀ n ∈ [0x00000000, 0x41000000],
        let x : Value := .narrow (BitVec.ofNat 32 n)
        isMarker x = false ∧ convert .n .flush x = .value x ∧
          valueLt x (breakpoint loaded.store [0] header5 0) = false ∧
          valueLt (breakpoint loaded.store [0] header5 2) x = false) ∧
      (let x : Value := .narrow 0xC0000000#32;
        isMarker x = false ∧ convert .n .flush x = .value x ∧
          valueLt x (breakpoint loaded.store [0] header5 0) = true) ∧
      (let x : Value := .narrow 0x41000001#32;
        isMarker x = false ∧ convert .n .flush x = .value x ∧
          valueLt (breakpoint loaded.store [0] header5 2) x = true) ∧
      excOf (evalSetup loaded.store [0] (headerWith .reject .offset) (.narrow 0x41000001#32)) =
        some { kind := .range, stage := .range } := by decide +kernel

/-- The breakpoints of curve 5 ascend and enclose its lower bound, its inner breakpoint and its upper bound; a number
below it and one above it. -/
theorem test_witness_SegmentSelectionFindsTheSegment :
    1 ≤ header5.segments ∧
      (∀ i j, i < j → j ≤ header5.segments →
        valueLt (breakpoint loaded.store [0] header5 i) (breakpoint loaded.store [0] header5 j) = true) ∧
      (∀ n ∈ [0x00000000, 0x40800000, 0x41000000],
        let x : Value := .narrow (BitVec.ofNat 32 n)
        valueLe (breakpoint loaded.store [0] header5 0) x = true ∧
          valueLe x (breakpoint loaded.store [0] header5 header5.segments) = true) ∧
      valueLt (.narrow 0xC0000000#32) (breakpoint loaded.store [0] header5 0) = true ∧
      valueLt (breakpoint loaded.store [0] header5 header5.segments) (.narrow 0x41000001#32) = true := by
  refine ⟨by decide, ?_, by decide +kernel⟩
  have h : ∀ j < 3, ∀ i < j,
      valueLt (breakpoint loaded.store [0] header5 i) (breakpoint loaded.store [0] header5 j) = true := by
    decide +kernel
  exact fun i j hij hj => h j (Nat.lt_succ_of_le hj) i hij

/-- The SINGLE job in SETUP on an argument, with its abort mark, a yield request and its level. -/
def setupAs (mark yield : Bool) (level : Fin 4) (x : Word) : State :=
  { engineAt .setup
      { inEngine { singleJob x .mark with level := level } (some (.narrow x)) none with abortMark := mark } with
    yieldRequest := yield }

/-- The abort mark; an exception; a yield request at levels 2 and 3; none. -/
theorem test_witness_SetupCompletes :
    (∀ a ∈ [(true, false, (2 : Fin 4)), (false, true, 2), (false, true, 3), (false, false, 0)],
      let s := setupAs a.1 a.2.1 a.2.2 0x40000000#32
      s.engine.state = .setup ∧ s.engine.running.isSome = true ∧ (curveEntry s 5).header = some header5 ∧
        excOf (evalSetup s.store (curveEntry s 5).blocks header5 (.narrow 0x40000000#32)) = none) ∧
      (let s := setupAs false false 2 0xFFFFFFFF#32;
        excOf (evalSetup s.store (curveEntry s 5).blocks header5 (.narrow 0xFFFFFFFF#32)) =
          some { kind := .invalid, stage := .argument }) := by decide +kernel

/-- An iteration that runs on and one whose result is above the format. -/
theorem test_witness_TermsIterationCompletes :
    (let s := engineAt .terms (inEngine (singleJob 0x40000000#32 .mark) (some (.narrow 0x40000000#32)) (some working5));
      s.engine.state = .terms ∧
        s.engine.running =
          some (inEngine (singleJob 0x40000000#32 .mark) (some (.narrow 0x40000000#32)) (some working5)) ∧
        working5.nextTerm = some 0 ∧ (curveEntry s 5).header = some header5 ∧
        fusedStep .n .flush working5.acc working5.t (segmentTerm s.store [0] header5 0 0) =
          .value (.narrow 0x40600000#32)) ∧
      fusedStep .n .flush (.narrow 0x7F7FFFFF#32) (.narrow 0x7F7FFFFF#32) (.narrow 0x40000000#32) =
        .exception .overflow := by decide +kernel

theorem test_witness_ResultConversionCompletes :
    (∀ d ∈ [single5 0x40000000#32 .mark, batch5 .n .n .mark],
      let r := inEngine (fresh 0 2 d) (some (.narrow 0x40000000#32)) (some { working5 with nextTerm := none })
      let s := engineAt .store r
      s.engine.state = .store ∧ s.engine.running = some r ∧ r.result = none ∧
        (curveEntry s r.job.desc.curve).header = some header5 ∧
        convert r.job.desc.resFormat .flush working5.acc = .value (.narrow 0x3FC00000#32)) ∧
      (descKind (batch5 .n .n .mark) = .batch ∧ descKind (single5 0 .mark) = .single) ∧
      convert .n .flush (.wide 0x7FEFFFFF#32 0) = .exception .overflow := by decide +kernel

/-- MARK for each kind, STOP, HOLD with the slot occupied and EMPTY; a count at its greatest stays. -/
theorem test_witness_ExceptionPoliciesAct :
    ((batch5 .n .n .mark).policy = .mark ∧ descKind (batch5 .n .n .mark) = .batch) ∧
      ((single5 0 .mark).policy = .mark ∧ descKind (single5 0 .mark) = .single) ∧
      ((single5 0 .stop).policy = .stop) ∧
      ((batch5 .n .n .hold).policy = .hold ∧ (holding held5).hold.isSome = true ∧ loaded.hold = none) ∧
      (countException { kind := .invalid, stage := .argument } { batchJob with excCount := 65535 }).excCount =
        65535 := by decide +kernel

/-- A RETIRING curve with one reference, one with two, and a READY one. -/
theorem test_witness_EndingPostsTheRecord :
    (let e := curveEntry (withCurve .retiring 1) 5; e.state = .retiring ∧ e.refCount ≤ 1) ∧
      (let e := curveEntry (withCurve .retiring 2) 5; ¬(e.state = .retiring ∧ e.refCount ≤ 1)) ∧
      (let e := curveEntry (withCurve .ready 1) 5; ¬(e.state = .retiring ∧ e.refCount ≤ 1)) := by decide +kernel

theorem test_witness_SuspensionSavesTheJob : batchJob.level.val < 3 ∧ (2 : Fin 4).val < 3 := by decide +kernel

/-- A SUBSTITUTE of 2.5 for the held job. -/
def continued : HoldRecord := { held5 with action := some (.substitute (.narrow 0x40A00000#32)) }

/-- Sources at one level: the context slot, the CONTINUING hold slot, the queue head; a disabled level has none. -/
theorem test_witness_DispatchRanksTheSources :
    slotOf places 1 = some { job := fresh 2 1 (batch5 .n .n .mark), part := none } ∧
      (slotOf (holding continued) 0 = none ∧ (holding continued).hold = some continued ∧
        continued.action = some (.substitute (.narrow 0x40A00000#32)) ∧ continued.job.level = 0) ∧
      (slotOf places 0 = none ∧ held5.action = none ∧ queueOf places 0 = [fresh 0 0 (single5 0 .mark)]) ∧
      (slotOf loaded 3 = none ∧ loaded.hold = none ∧ queueOf loaded 3 = []) := by decide +kernel

/-- A part whose IDLE engine has one source: a context slot of level 1. -/
def suspended (part : Option PartialPart) : State :=
  { withCurve .ready 1 with
    intake := { State.reset.intake with freeTags := List.range' 1 47 }
    slots := #v[none, some { job := batchJob, part := part }, none] }

theorem test_witness_DispatchHandsOverTheWinner :
    settingUp.engine.state ≠ .idle ∧ winner loaded = none ∧
      (let s := (nextOf (exec (.submit 2) staged)).getD staged;
        s.engine.state = .idle ∧ winner s = some (.queueHead 2 (fresh 0 2 (single5 0x40000000#32 .mark)) [])) ∧
      (∀ part ∈ [none, some { work := working5, arg := .narrow 0x40000000#32 }],
        (suspended part).engine.state = .idle ∧
          winner (suspended part) = some (.contextSlot 1 { job := batchJob, part := part })) ∧
      (∀ act ∈ [HoldAction.retry, .skipMark, .substitute (.narrow 0x40A00000#32)],
        winner (holding { held5 with action := some act }) =
          some (.holdSlot { held5 with action := some act } act)) ∧
      (held5.job.desc.resFormat = .n ∧ (batch5 .n .w .hold).resFormat = .w) := by decide +kernel

theorem test_witness_AbandonedOutcomesAreDiscarded :
    ArithOp.setup ∈ [ArithOp.setup] ∧ ArithOp.terms ∈ [ArithOp.terms, .terms] ∧
      ArithOp.conversion ∈ [ArithOp.setup, .conversion] := by decide

/-! ### What the registers show -/

/-- A record with each of its parts, and none. -/
theorem test_witness_RecordRegistersShowTheOldest :
    recordedOne.rst = false ∧ recordedOne.completion.records = record5 :: [] ∧ record5.result = some (.narrow 0x40600000#32) ∧
      ({ record5 with result := some (.wide 1 2) } : Record).result = some (.wide 1 2) ∧
      (let r : Record := { record5 with result := none, busErr := some { addr := 0x2000#32, dir := .write } };
        r.result = none ∧ r.busErr = some { addr := 0x2000#32, dir := .write }) ∧
      (let r : Record := { record5 with result := none }; r.result = none ∧ r.busErr = none) ∧
      loaded.completion.records = [] := by decide +kernel

theorem test_witness_HoldAndLoadRegistersShowTheState :
    (holding held5).rst = false ∧ (holding held5).hold = some held5 ∧ held5.arg = .narrow 0x7F800001#32 ∧
      ({ held5 with arg := .wide 1 2 } : HoldRecord).arg = .wide 1 2 ∧ loaded.hold = none := by decide +kernel

/-! ### Arithmetic -/

/-- A magnitude that fits, one that ties, one that rounds up to the next power of two, at precisions 1, 24 and 53. -/
theorem test_witness_RoundingIsToNearestTiesAway :
    (1 ≤ 1 ∧ (1 : Nat) ≠ 0 ∧ Nat.log2 1 < 1 ∧ 1 ≤ Nat.log2 3) ∧
      (Nat.log2 (2 ^ 24 - 1) < 24 ∧ 24 ≤ Nat.log2 (2 ^ 24 + 1)) ∧ 53 ≤ Nat.log2 (2 ^ 54 - 1) ∧
      roundMagnitude 53 (2 ^ 54 - 1) 0 = (2 ^ 52, 54) := by decide +kernel

/-- Operands that are no markers; 0, and the numbers at and beyond both ends of the narrow format. -/
theorem test_witness_RoundedNumbersAreTested :
    (isMarker (.narrow 0x40600000#32) = false ∧ isMarker (.narrow 0#32) = false ∧
        isMarker (.wide 0x400C0000#32 0) = false) ∧
      (0 : Int) = 0 ∧ ((1 : Int) ≠ 0 ∧ (126 : Int) < (roundMagnitude 24 1 127).2) ∧
      ((-1 : Int) ≠ 0 ∧ (roundMagnitude 24 1 (-128)).2 < -127) ∧
      (-127 ≤ (roundMagnitude 24 1 (-127)).2 ∧ (roundMagnitude 24 1 126).2 ≤ 126) ∧
      (deliver .n .flush (roundTo .n { m := 1, e := 126 }) = .value (.narrow 0x7F000000#32) ∧
        deliver .n .fault (roundTo .n { m := 1, e := -128 }) = .exception .underflow) := by decide +kernel

theorem test_witness_ExactStepsKeepTheValue :
    isMarker (.narrow 0x40000000#32) = false ∧ isZero (.narrow 0x40000000#32) = false ∧
      isZero (.narrow 0x00000000#32) = true ∧ isZero (.narrow 0x807FFFFF#32) = true ∧ isMarker (.wide 0x40000000#32 0) = false := by decide +kernel

end Sys2Proof.Tests
end

/-! SUPPORT. The directory's commands: RETIRE by the state of the curve (R28) and the words QUERY_CURVE shows
(R30, R183). -/

namespace Sys2Proof.Machine

/-! ### Commands carried out at the write -/

/-- R165: a command carried out at the write overruns while ENGINE_RESET is pending, whatever its body. -/
theorem immediate_eq_overrun {code : BitVec 8} {body : State → State × CmdResult} {s : State}
    (hr : s.rst = false) (hp : s.cmd.pending = true) : immediate code body s = overrun s :=
  immediate_eq_of_pending hr hp

/-- The meaning of a command whose body has been evaluated, once it is taken. -/
theorem immediate_eq_recorded {code : BitVec 8} {body : State → State × CmdResult} {s t : State} {result : CmdResult}
    (h : commandTaken s) (hb : body s = (t, result)) : immediate code body s = recorded code result t := by
  rw [immediate_eq_of_taken h, hb]

theorem exec_retire_eq (s : State) : exec .retire s = .next (immediate 0x04#8 retireBody s) := rfl

theorem exec_queryCurve_eq (s : State) : exec .queryCurve s = .next (immediate 0x05#8 queryCurveBody s) := rfl

/-! ### The curve a command names -/

theorem curveId?_of_le {n : Nat} (h : 32 ≤ n) : curveId? n = none := dif_neg (Nat.not_lt.mpr h)

theorem curveId?_val (c : Fin 32) : curveId? c.val = some c := dif_pos c.isLt

theorem curveId?_argNumber_of_le {s : State} (h : 32 ≤ s.cmd.args[0].toNat) : curveId? (argNumber s) = none :=
  curveId?_of_le h

theorem curveId?_argNumber {s : State} {c : Fin 32} (h : s.cmd.args[0].toNat = c.val) :
    curveId? (argNumber s) = some c := by
  have harg : argNumber s = c.val := h
  rw [harg, curveId?_val]

/-! ### RETIRE (R28) -/

theorem retireBody_of_le {s : State} (h : 32 ≤ s.cmd.args[0].toNat) : retireBody s = (s, .badArgument) := by
  simp only [retireBody, curveId?_argNumber_of_le h]

theorem retireBody_of_curve {s : State} {c : Fin 32} (h : s.cmd.args[0].toNat = c.val) :
    retireBody s = retireCurve c s := by
  simp only [retireBody, curveId?_argNumber h]

theorem retireCurve_of_empty {c : Fin 32} {s : State} (h : (curveEntry s c).state = .empty) :
    retireCurve c s = (s, .noCurve) := by
  simp only [retireCurve, h]

theorem retireCurve_of_loading {c : Fin 32} {s : State} (h : (curveEntry s c).state = .loading) :
    retireCurve c s = (s, .curveBusy) := by
  simp only [retireCurve, h]

theorem retireCurve_of_retiring {c : Fin 32} {s : State} (h : (curveEntry s c).state = .retiring) :
    retireCurve c s = (s, .alreadyRetiring) := by
  simp only [retireCurve, h]

theorem retireCurve_of_unreferenced {c : Fin 32} {s : State} (h : (curveEntry s c).state = .ready)
    (hn : (curveEntry s c).refCount = 0) : retireCurve c s = (emptyCurve c s, .done) := by
  simp only [retireCurve, h, hn, if_true]

theorem retireCurve_of_referenced {c : Fin 32} {s : State} (h : (curveEntry s c).state = .ready)
    (hn : (curveEntry s c).refCount ≠ 0) :
    retireCurve c s = (setCurve c { curveEntry s c with state := .retiring } s, .deferred) := by
  simp only [retireCurve, h, hn, if_false]

/-- The statement's emptied curve is what the model's operation gives. -/
theorem emptyCurve_eq_emptied (c : Fin 32) (s : State) : emptyCurve c s = emptied c s := rfl

/-- A taken RETIRE that names a curve records what `retireCurve` gives. -/
theorem exec_retire_of_curve {s t : State} {c : Fin 32} {result : CmdResult} (ht : commandTaken s)
    (hc : s.cmd.args[0].toNat = c.val) (h : retireCurve c s = (t, result)) :
    exec .retire s = .next (recorded 0x04#8 result t) := by
  rw [exec_retire_eq, immediate_eq_recorded ht ((retireBody_of_curve hc).trans h)]

/-- Settles O22: the rows of R28, one equation of `retireCurve` each. -/
theorem retireOutcomes : Obligations.RetireOutcomes := by
  intro s hr
  refine ⟨fun hp => ?overrun, fun hp => ⟨fun hle => ?badArgument, fun c hc => ?named⟩⟩
  case overrun => rw [exec_retire_eq, immediate_eq_overrun hr hp]
  case badArgument => rw [exec_retire_eq, immediate_eq_recorded ⟨hr, hp⟩ (retireBody_of_le hle)]
  case named =>
    have taken : commandTaken s := ⟨hr, hp⟩
    refine ⟨fun h => ?_, fun h => ?_, fun h => ?_, fun h hn => ?_, fun h hn => ?_⟩
    · exact exec_retire_of_curve taken hc (retireCurve_of_empty h)
    · exact exec_retire_of_curve taken hc (retireCurve_of_loading h)
    · exact exec_retire_of_curve taken hc (retireCurve_of_retiring h)
    · rw [← emptyCurve_eq_emptied]
      exact exec_retire_of_curve taken hc (retireCurve_of_unreferenced h hn)
    · exact exec_retire_of_curve taken hc (retireCurve_of_referenced h hn)

/-! ### QUERY_CURVE (R30) -/

theorem queryCurveBody_of_le {s : State} (h : 32 ≤ s.cmd.args[0].toNat) :
    queryCurveBody s = (s, .badArgument) := by
  simp only [queryCurveBody, curveId?_argNumber_of_le h]

theorem queryCurveBody_of_curve {s : State} {c : Fin 32} (h : s.cmd.args[0].toNat = c.val) :
    queryCurveBody s =
      (fillQuery (curveQuery0 (curveEntry s c)) (curveQuery1 (curveEntry s c)) (curveQuery2 (curveEntry s c)) 0 s,
        .done) := by
  simp only [queryCurveBody, curveId?_argNumber h]

theorem curveStateCode_lt (st : CurveState) : curveStateCode st < 2 ^ 2 := by cases st <;> decide

theorem formatCode_lt (f : Format) : formatCode f < 2 ^ 1 := by cases f <;> decide

/-- R183: QUERY0 shows the state code and, at bit 4, the presence of the header. Bits 3:2 lie between them. -/
theorem toNat_curveQuery0 (e : CurveEntry) :
    (curveQuery0 e).toNat = curveStateCode e.state + 16 * (if e.header.isSome then 1 else 0) := by
  have hcode := curveStateCode_lt e.state
  have hstate : (field (curveStateCode e.state) 0 2).toNat = curveStateCode e.state := by
    rw [toNat_field hcode (by decide), Nat.pow_zero, Nat.mul_one]
  have hbelow : (field (curveStateCode e.state) 0 2).toNat < 2 ^ 4 := by omega
  have hflag : (if e.header.isSome then 1 else 0) < 2 ^ 1 := by split <;> decide
  rw [curveQuery0, flagBit, toNat_or_field hbelow hflag (by decide), hstate]
  omega

theorem curveQuery1_of_absent {e : CurveEntry} (h : e.header = none) : curveQuery1 e = 0 := by
  simp only [curveQuery1, h]

theorem curveQuery1_of_present {e : CurveEntry} {h : CurveHeader} (he : e.header = some h) :
    curveQuery1 e = headerWord h := by
  simp only [curveQuery1, he]

/-- The number that five fields in the places of a header show (R183). -/
theorem toNat_headerFields {segments format origin range underflow : Nat} (hs : segments < 2 ^ 8)
    (hf : format < 2 ^ 1) (ho : origin < 2 ^ 1) (hr : range < 2 ^ 2) (hu : underflow < 2 ^ 1) :
    (field segments 0 8 ||| field format 8 1 ||| field origin 9 1 ||| field range 10 2
        ||| field underflow 12 1).toNat =
      segments + 256 * format + 512 * origin + 1024 * range + 4096 * underflow := by
  have segmentsBelow : (field segments 0 8).toNat < 2 ^ 8 := by rw [toNat_field hs (by decide)]; omega
  have formatBelow := toNat_or_field_lt segmentsBelow hf (by decide)
  have originBelow := toNat_or_field_lt formatBelow ho (by decide)
  have rangeBelow := toNat_or_field_lt originBelow hr (by decide)
  rw [toNat_or_field rangeBelow hu (by decide), toNat_or_field originBelow hr (by decide),
    toNat_or_field formatBelow ho (by decide), toNat_or_field segmentsBelow hf (by decide),
    toNat_field hs (by decide)]
  omega

/-- R183: QUERY2 shows the generation, the reference count and the number of blocks held, when each fits its byte. -/
theorem toNat_curveQuery2 {e : CurveEntry} (hn : e.refCount < 2 ^ 8) (hb : e.blocks.length < 2 ^ 8) :
    (curveQuery2 e).toNat = e.generation.toNat + 256 * e.refCount + 65536 * e.blocks.length := by
  have hg : e.generation.toNat < 2 ^ 8 := e.generation.isLt
  have generationBelow : (field e.generation.toNat 0 8).toNat < 2 ^ 8 := by
    rw [toNat_field hg (by decide)]; omega
  have countBelow := toNat_or_field_lt generationBelow hn (by decide)
  rw [curveQuery2, toNat_or_field countBelow hb (by decide), toNat_or_field generationBelow hn (by decide),
    toNat_field hg (by decide)]
  omega

/-- Settles O23: the query registers are `curveQuery0` to `curveQuery2`, each shown by the lemma of its word. -/
theorem queryCurveShowsTheEntry : Obligations.QueryCurveShowsTheEntry := by
  intro s hr
  refine ⟨fun hp => ?overrun, fun hp => ⟨fun hle => ?badArgument, fun c hc => ?named⟩⟩
  case overrun => rw [exec_queryCurve_eq, immediate_eq_overrun hr hp]
  case badArgument => rw [exec_queryCurve_eq, immediate_eq_recorded ⟨hr, hp⟩ (queryCurveBody_of_le hle)]
  case named =>
    intro e
    refine ⟨curveQuery0 e, curveQuery1 e, curveQuery2 e, ?_, toNat_curveQuery0 e, curveQuery1_of_absent,
      fun h hh hs => ?_, toNat_curveQuery2⟩
    · rw [exec_queryCurve_eq, immediate_eq_recorded ⟨hr, hp⟩ (queryCurveBody_of_curve hc)]
      rfl
    · rw [curveQuery1_of_present hh]
      exact toNat_headerFields hs (formatCode_lt h.format) (by cases h.origin <;> decide)
        (by cases h.range <;> decide) (by cases h.underflow <;> decide)

end Sys2Proof.Machine

/-! SUPPORT. The load session's commands: OPEN_LOAD (R38, R39), COMMIT_LOAD (R48), CANCEL_LOAD (R49), and a LOAD_DATA
word without an OPEN session (R47). -/

namespace Sys2Proof.Machine

theorem exec_openLoad_eq (s : State) : exec .openLoad s = .next (immediate 0x01#8 openLoadBody s) := rfl

theorem exec_commitLoad_eq (s : State) : exec .commitLoad s = .next (immediate 0x02#8 commitLoadBody s) := rfl

theorem exec_cancelLoad_eq (s : State) : exec .cancelLoad s = .next (immediate 0x03#8 cancelLoadBody s) := rfl

theorem exec_loadData_eq (x : Word) (s : State) : exec (.loadData x) s = .next (windowWrite (loadDataBody x) s) := rfl

/-- A taken command that is carried out at the write records what its body gives. -/
theorem exec_immediate_of_taken {i : Instr} {code : BitVec 8} {body : State → State × CmdResult} {s t : State}
    {result : CmdResult} (hi : exec i s = .next (immediate code body s)) (ht : commandTaken s)
    (hb : body s = (t, result)) : exec i s = .next (recorded code result t) := by
  rw [hi, immediate_eq_recorded ht hb]

/-! ### The header in CMD_ARG1 (R38, R183) -/

theorem bits_segments (w : Word) : bits w 0 8 = w.toNat % 256 := by
  simp only [bits, Nat.pow_zero, Nat.div_one, Nat.reducePow]

theorem bits_range (w : Word) : bits w 10 2 = w.toNat / 1024 % 4 := rfl

theorem rangeOf_of_lt {n : Nat} (h : n < 3) :
    rangeOf n = some (if n = 0 then .clamp else if n = 1 then .extend else .reject) := by
  match n, h with
  | 0, _ => rfl
  | 1, _ => rfl
  | 2, _ => rfl

/-- R38: the values of CMD_ARG1 that describe no curve: a segment count out of 1 to 64, and range code 3. -/
def badHeaderWord (w : Word) : Prop := w.toNat % 256 = 0 ∨ 64 < w.toNat % 256 ∨ w.toNat / 1024 % 4 = 3

/-- R183: the header that the fields of CMD_ARG1 give. -/
def headerShown (w : Word) : CurveHeader :=
  { format := if w.getLsbD 8 then .w else .n
    segments := w.toNat % 256
    origin := if w.getLsbD 9 then .offset else .absolute
    range :=
      if w.toNat / 1024 % 4 = 0 then .clamp else if w.toNat / 1024 % 4 = 1 then .extend else .reject
    underflow := if w.getLsbD 12 then .fault else .flush }

theorem decodeHeader_of_bad {w : Word} (h : badHeaderWord w) : decodeHeader w = none := by
  simp only [decodeHeader, bits_segments, bits_range, Config.segmentCountMax]
  rcases h with zero | above | range
  · rw [if_pos (.inl zero)]
  · rw [if_pos (.inr above)]
  · rw [range]
    exact ite_self _

theorem decodeHeader_of_good {w : Word} (h : ¬badHeaderWord w) : decodeHeader w = some (headerShown w) := by
  obtain ⟨zero, above, range⟩ : w.toNat % 256 ≠ 0 ∧ ¬64 < w.toNat % 256 ∧ w.toNat / 1024 % 4 ≠ 3 := by
    simpa only [badHeaderWord, not_or] using h
  have named : w.toNat / 1024 % 4 < 3 := by omega
  simp only [decodeHeader, bits_segments, bits_range, Config.segmentCountMax, rangeOf_of_lt named]
  rw [if_neg (not_or.mpr ⟨zero, above⟩)]
  rfl

/-! ### OPEN_LOAD (R38, R39) -/

theorem openLoadBody_of_opened {s : State} (h : s.load.state = .opened) : openLoadBody s = (s, .sessionBusy) :=
  if_pos h

theorem openLoadBody_of_le {s : State} (h : s.load.state ≠ .opened) (hc : 32 ≤ s.cmd.args[0].toNat) :
    openLoadBody s = (s, .badArgument) := by
  simp only [openLoadBody, if_neg h, curveId?_argNumber_of_le hc]

theorem openLoadBody_of_badHeader {s : State} {c : Fin 32} (h : s.load.state ≠ .opened)
    (hc : s.cmd.args[0].toNat = c.val) (hw : badHeaderWord (cmdArg s 1)) : openLoadBody s = (s, .badHeader) := by
  simp only [openLoadBody, if_neg h, curveId?_argNumber hc, decodeHeader_of_bad hw]

theorem openLoadBody_of_busy {s : State} {c : Fin 32} (h : s.load.state ≠ .opened)
    (hc : s.cmd.args[0].toNat = c.val) (hw : ¬badHeaderWord (cmdArg s 1)) (he : (curveEntry s c).state ≠ .empty) :
    openLoadBody s = (s, .curveBusy) := by
  simp only [openLoadBody, if_neg h, curveId?_argNumber hc, decodeHeader_of_good hw, if_neg he]

theorem openLoadBody_of_empty {s : State} {c : Fin 32} (h : s.load.state ≠ .opened)
    (hc : s.cmd.args[0].toNat = c.val) (hw : ¬badHeaderWord (cmdArg s 1)) (he : (curveEntry s c).state = .empty) :
    openLoadBody s = (openSession c (headerShown (cmdArg s 1)) s, .done) := by
  simp only [openLoadBody, if_neg h, curveId?_argNumber hc, decodeHeader_of_good hw, if_pos he]

/-- Settles O16: the checks of R38 in their order, one equation of `openLoadBody` each. -/
theorem openLoadOutcomes : Obligations.OpenLoadOutcomes := by
  intro s ht
  refine ⟨fun h => ?sessionBusy, fun h hc => ?badArgument, fun h hc hw => ?badHeader,
    fun c h hc hw => ⟨fun he => ?curveBusy, fun he => ?opened⟩⟩
  case sessionBusy => exact exec_immediate_of_taken (exec_openLoad_eq s) ht (openLoadBody_of_opened h)
  case badArgument => exact exec_immediate_of_taken (exec_openLoad_eq s) ht (openLoadBody_of_le h hc)
  case badHeader =>
    exact exec_immediate_of_taken (exec_openLoad_eq s) ht (openLoadBody_of_badHeader (c := ⟨_, hc⟩) h rfl hw)
  case curveBusy => exact exec_immediate_of_taken (exec_openLoad_eq s) ht (openLoadBody_of_busy h hc hw he)
  case opened => exact exec_immediate_of_taken (exec_openLoad_eq s) ht (openLoadBody_of_empty h hc hw he)

/-! ### COMMIT_LOAD (R48) -/

theorem commitLoadBody_of_idle {s : State} (h : s.load.state = .idle) : commitLoadBody s = (s, .noSession) := by
  simp only [commitLoadBody, h]

theorem commitLoadBody_of_failed {s : State} (h : s.load.state = .failed) :
    commitLoadBody s = (s, .sessionFailed) := by
  simp only [commitLoadBody, h]

theorem commitLoadBody_of_incomplete {s : State} (h : s.load.state = .opened) (hp : s.load.cursor.phase ≠ .complete) :
    commitLoadBody s = (s, .incomplete) := by
  simp only [commitLoadBody, h]
  cases phase : s.load.cursor.phase with
  | complete => exact absurd phase hp
  | breakpoints => rfl
  | degree => rfl
  | terms => rfl

theorem commitLoadBody_of_complete {s : State} (h : s.load.state = .opened) (hp : s.load.cursor.phase = .complete) :
    commitLoadBody s = (commitSession s, .done) := by
  simp only [commitLoadBody, h, hp]

/-- Settles O17: the rows of R48, one equation of `commitLoadBody` each. -/
theorem commitLoadOutcomes : Obligations.CommitLoadOutcomes := by
  intro s ht
  refine ⟨fun h => ?idle, fun h => ?failed, fun h hp => ?incomplete, fun h hp => ?complete⟩
  case idle => exact exec_immediate_of_taken (exec_commitLoad_eq s) ht (commitLoadBody_of_idle h)
  case failed => exact exec_immediate_of_taken (exec_commitLoad_eq s) ht (commitLoadBody_of_failed h)
  case incomplete => exact exec_immediate_of_taken (exec_commitLoad_eq s) ht (commitLoadBody_of_incomplete h hp)
  case complete => exact exec_immediate_of_taken (exec_commitLoad_eq s) ht (commitLoadBody_of_complete h hp)

/-! ### CANCEL_LOAD (R49) -/

theorem cancelLoadBody_of_idle {s : State} (h : s.load.state = .idle) : cancelLoadBody s = (s, .noSession) := by
  simp only [cancelLoadBody, h]

theorem cancelLoadBody_of_failed {s : State} (h : s.load.state = .failed) :
    cancelLoadBody s = ({ s with load := { s.load with state := .idle } }, .done) := by
  simp only [cancelLoadBody, h]

theorem cancelLoadBody_of_opened {s : State} (h : s.load.state = .opened) :
    cancelLoadBody s = (cancelSession s, .done) := by
  simp only [cancelLoadBody, h]

/-- R49: emptying the session curve does not touch the session, so the two effects can be written in either order. -/
theorem cancelSession_eq_emptied (s : State) :
    cancelSession s =
      { emptied s.load.curve s with
        load := { s.load with state := .idle, cursor := { s.load.cursor with lowHalf := none } } } := rfl

/-- Settles O18: the rows of R49, one equation of `cancelLoadBody` each. -/
theorem cancelLoadOutcomes : Obligations.CancelLoadOutcomes := by
  intro s ht
  refine ⟨fun h => ?idle, fun h => ?failed, fun h => ?opened⟩
  case idle => exact exec_immediate_of_taken (exec_cancelLoad_eq s) ht (cancelLoadBody_of_idle h)
  case failed => exact exec_immediate_of_taken (exec_cancelLoad_eq s) ht (cancelLoadBody_of_failed h)
  case opened =>
    rw [← cancelSession_eq_emptied]
    exact exec_immediate_of_taken (exec_cancelLoad_eq s) ht (cancelLoadBody_of_opened h)

/-! ### LOAD_DATA without an OPEN session (R47) -/

/-- R177: a write while RST is released is taken and acknowledged. -/
theorem windowWrite_of_released {f : State → State} {s : State} (hr : s.rst = false) :
    windowWrite f s = { f s with answer := .ack } := by
  simp only [windowWrite_eq, hr, Bool.false_eq_true, if_false]

theorem loadDataBody_of_not_opened {x : Word} {s : State} (h : s.load.state ≠ .opened) :
    loadDataBody x s = setEvent .loadDiscard s := by
  cases session : s.load.state with
  | opened => exact absurd session h
  | idle => simp only [loadDataBody, session]
  | failed => simp only [loadDataBody, session]

/-- R181: LOAD_DISCARD is bit 6 of EVENTS. -/
theorem eventMask_loadDiscard : eventMask .loadDiscard = 0x40#7 := rfl

/-- Settles O19: LOAD_DATA is no command of CMD, so its write is taken with ENGINE_RESET pending too, and without an
OPEN session it only sets the event. -/
theorem loadDataDiscarded : Obligations.LoadDataDiscarded := by
  intro x s hr h
  rw [exec_loadData_eq, windowWrite_of_released hr, loadDataBody_of_not_opened h, setEvent, eventMask_loadDiscard]

end Sys2Proof.Machine

/-! SUPPORT. The staged descriptor: the fields of the staging registers (R184), the checks of R58 in their order, and
the descriptor copy of R60. -/

namespace Sys2Proof.Machine

/-! ### The fields of the staging registers (R184) -/

theorem bits_kind (w : Word) : bits w 0 2 = w.toNat % 4 := by
  simp only [bits, Nat.pow_zero, Nat.div_one, Nat.reducePow]

theorem bits_policy (w : Word) : bits w 9 2 = w.toNat / 512 % 4 := rfl

theorem bits_count (w : Word) : bits w 0 16 = w.toNat % 65536 := by
  simp only [bits, Nat.pow_zero, Nat.div_one, Nat.reducePow]

theorem kindOf_of_le {n : Nat} (h : 2 ≤ n) : kindOf n = none := by
  match n, h with
  | _ + 2, _ => rfl

theorem policyOf_of_lt {n : Nat} (h : n < 3) :
    policyOf n = some (if n = 0 then .mark else if n = 1 then .stop else .hold) := by
  match n, h with
  | 0, _ => rfl
  | 1, _ => rfl
  | 2, _ => rfl

theorem pairValue_formatOf (wide : Bool) (first second : Word) :
    pairValue (formatOf wide) first second = if wide then .wide second first else .narrow first := by
  cases wide <;> rfl

theorem formatBytes_formatOf (wide : Bool) : formatBytes (formatOf wide) = if wide then 8 else 4 := by
  cases wide <;> rfl

theorem formatBytes_pos (f : Format) : 0 < formatBytes f := by cases f <;> decide

/-! ### The checks of R58 -/

/-- R58, KIND: the codes of STAGE0 that name no kind or no exception policy. -/
def stagedBadKind (s : State) : Prop := 2 ≤ (stageReg s 0).toNat % 4 ∨ (stageReg s 0).toNat / 512 % 4 = 3

/-- R184: the element count of a BATCH descriptor. -/
def stagedCount (s : State) : Nat := (stageReg s 2).toNat % 65536

/-- R58, ALIGN: a base address that is no word address. -/
abbrev stagedMisaligned (s : State) : Prop := (stageReg s 3).toNat % 4 ≠ 0 ∨ (stageReg s 5).toNat % 4 ≠ 0

/-- R58, STRIDE: a stride that is no number of words, or a result stride below the size of a result. -/
abbrev stagedBadStride (s : State) : Prop :=
  ((stageReg s 4).truncate 16 : BitVec 16).toNat % 4 ≠ 0 ∨ ((stageReg s 6).truncate 16 : BitVec 16).toNat % 4 ≠ 0 ∨
    ((stageReg s 6).truncate 16 : BitVec 16).toNat < if bitSet (stageReg s 0) 8 then 8 else 4

/-- R58, RANGE: the last byte of an array of `n` elements lies past the address space. -/
abbrev arrayOutside (base : Word) (stride : BitVec 16) (n bytes : Nat) : Prop :=
  2 ^ 32 ≤ base.toNat + (n - 1) * stride.toNat + bytes - 1

/-- R58, RANGE, of the argument array and of the result array. -/
abbrev stagedOutside (s : State) : Prop :=
  arrayOutside (stageReg s 3) ((stageReg s 4).truncate 16) (stagedCount s)
      (if bitSet (stageReg s 0) 7 then 8 else 4) ∨
    arrayOutside (stageReg s 5) ((stageReg s 6).truncate 16) (stagedCount s)
      (if bitSet (stageReg s 0) 8 then 8 else 4)

/-- The model compares the byte after the last one, the statement the last byte: an element has at least one. -/
theorem lt_arrayEnd_iff (base : Word) (stride : BitVec 16) (n : Nat) (f : Format) :
    2 ^ 32 < arrayEnd base stride n f ↔ arrayOutside base stride n (formatBytes f) := by
  have positive := formatBytes_pos f
  rw [arrayEnd, arrayOutside]
  omega

/-- The first of the checks 2 to 5 that the staging area fails, read as a BATCH descriptor. -/
def stagedReason (s : State) : Option DescReason :=
  batchReason (formatOf (bitSet (stageReg s 0) 7)) (formatOf (bitSet (stageReg s 0) 8)) (stagedCount s)
    (stageReg s 3) ((stageReg s 4).truncate 16) (stageReg s 5) ((stageReg s 6).truncate 16)

/-- The chain of `batchReason` in the terms of R58. -/
theorem stagedReason_eq (s : State) :
    stagedReason s =
      if stagedCount s = 0 then some .count
      else if stagedMisaligned s then some .align
      else if stagedBadStride s then some .stride
      else if stagedOutside s then some .range
      else none := by
  simp only [stagedReason, batchReason, lt_arrayEnd_iff, formatBytes_formatOf, stagedMisaligned, stagedBadStride,
    stagedOutside]

section
variable {s : State}

theorem stagedReason_of_count (hn : stagedCount s = 0) : stagedReason s = some .count := by
  rw [stagedReason_eq, if_pos hn]

theorem stagedReason_of_misaligned (hn : stagedCount s ≠ 0) (ha : stagedMisaligned s) :
    stagedReason s = some .align := by
  rw [stagedReason_eq, if_neg hn, if_pos ha]

theorem stagedReason_of_badStride (hn : stagedCount s ≠ 0) (ha : ¬stagedMisaligned s) (hs : stagedBadStride s) :
    stagedReason s = some .stride := by
  rw [stagedReason_eq, if_neg hn, if_neg ha, if_pos hs]

theorem stagedReason_of_outside (hn : stagedCount s ≠ 0) (ha : ¬stagedMisaligned s) (hs : ¬stagedBadStride s)
    (ho : stagedOutside s) : stagedReason s = some .range := by
  rw [stagedReason_eq, if_neg hn, if_neg ha, if_neg hs, if_pos ho]

theorem stagedReason_of_passed (hn : stagedCount s ≠ 0) (ha : ¬stagedMisaligned s) (hs : ¬stagedBadStride s)
    (ho : ¬stagedOutside s) : stagedReason s = none := by
  rw [stagedReason_eq, if_neg hn, if_neg ha, if_neg hs, if_neg ho]

/-! ### The staged descriptor (R58, R60) -/

/-- R184: the exception policy that the code of STAGE0 names, when it names one. -/
def stagedPolicy (s : State) : ExcPolicy :=
  if (stageReg s 0).toNat / 512 % 4 = 0 then .mark
  else if (stageReg s 0).toNat / 512 % 4 = 1 then .stop
  else .hold

/-- R60: the descriptor copy with the fields that both kinds share. -/
def stagedCopy (s : State) (body : JobBody) : Descriptor :=
  { curve := ⟨bits (stageReg s 0) 2 5, Nat.mod_lt _ (by decide)⟩
    argFormat := formatOf (bitSet (stageReg s 0) 7)
    resFormat := formatOf (bitSet (stageReg s 0) 8)
    policy := stagedPolicy s
    notify := bitSet (stageReg s 0) 11
    cookie := (stageReg s 1).truncate 16
    body := body }

theorem policyOf_of_not_badKind (h : ¬stagedBadKind s) :
    policyOf (bits (stageReg s 0) 9 2) = some (stagedPolicy s) := by
  obtain ⟨-, policy⟩ := not_or.mp h
  rw [bits_policy]
  exact policyOf_of_lt (by omega)

theorem stagedKind_eq {k : Nat} (h : (stageReg s 0).toNat % 4 = k) : kindOf (bits (stageReg s 0) 0 2) = kindOf k := by
  rw [bits_kind, h]

theorem stagedDescriptor_of_badKind (h : stagedBadKind s) : stagedDescriptor s = .error .kind := by
  rcases h with kind | policy
  · simp only [stagedDescriptor, bits_kind, kindOf_of_le kind]
  · have unnamed : policyOf ((stageReg s 0).toNat / 512 % 4) = none := by rw [policy]; rfl
    simp only [stagedDescriptor, bits_policy, unnamed]
    cases kindOf (bits (stageReg s 0) 0 2) with
    | none => rfl
    | some kind => cases kind <;> rfl

theorem stagedDescriptor_of_single (h : ¬stagedBadKind s) (hk : (stageReg s 0).toNat % 4 = 0) :
    stagedDescriptor s =
      .ok (stagedCopy s (.single
        (if bitSet (stageReg s 0) 7 then .wide (stageReg s 3) (stageReg s 2) else .narrow (stageReg s 2)))) := by
  have kind : kindOf (bits (stageReg s 0) 0 2) = some .single := stagedKind_eq hk
  simp only [stagedDescriptor, kind, policyOf_of_not_badKind h, pairValue_formatOf]
  rfl

/-- A BATCH descriptor is what the checks 2 to 5 leave of it. -/
theorem stagedDescriptor_of_batch (h : ¬stagedBadKind s) (hk : (stageReg s 0).toNat % 4 = 1) :
    stagedDescriptor s =
      (stagedReason s).elim
        (.ok (stagedCopy s (.batch (stagedCount s) (stageReg s 3) ((stageReg s 4).truncate 16) (stageReg s 5)
          ((stageReg s 6).truncate 16))))
        .error := by
  have kind : kindOf (bits (stageReg s 0) 0 2) = some .batch := stagedKind_eq hk
  simp only [stagedDescriptor, kind, policyOf_of_not_badKind h, bits_count]
  rw [← stagedCount, ← stagedReason]
  cases stagedReason s with
  | none => rfl
  | some r => rfl

theorem stagedDescriptor_of_reason {r : DescReason} (h : ¬stagedBadKind s) (hk : (stageReg s 0).toNat % 4 = 1)
    (hr : stagedReason s = some r) : stagedDescriptor s = .error r := by
  rw [stagedDescriptor_of_batch h hk, hr, Option.elim_some]

end

/-- Settles O24: KIND by the codes of STAGE0, the other reasons by the chain of `stagedReason_eq`. -/
theorem descriptorChecksInOrder : Obligations.DescriptorChecksInOrder := by
  intro s
  refine ⟨fun h => ?kind, fun h hk => ?single, fun h hk hn => ?count, fun h hk hn ha => ?align,
    fun h hk hn ha hs => ?stride, fun h hk hn ha hs ho => ?range, fun h hk hn ha hs ho => ?batch⟩
  case kind => exact stagedDescriptor_of_badKind h
  case single => exact stagedDescriptor_of_single h hk
  case count => exact stagedDescriptor_of_reason h hk (stagedReason_of_count hn)
  case align => exact stagedDescriptor_of_reason h hk (stagedReason_of_misaligned hn ha)
  case stride => exact stagedDescriptor_of_reason h hk (stagedReason_of_badStride hn ha hs)
  case range => exact stagedDescriptor_of_reason h hk (stagedReason_of_outside hn ha hs ho)
  case batch =>
    have passed : stagedReason s = none := stagedReason_of_passed hn ha hs ho
    exact (stagedDescriptor_of_batch h hk).trans (by rw [passed]; rfl)

end Sys2Proof.Machine

/-! SUPPORT. CONTINUE: the checks of R121 in their order, and the pending action of R122. -/

namespace Sys2Proof.Machine

theorem exec_continueHeld_eq (s : State) : exec .continueHeld s = .next (immediate 0x07#8 continueBody s) := rfl

/-! ### The fields of CMD_ARG0 (R183) -/

/-- R183: the tag that CMD_ARG0 of a CONTINUE names. -/
def continueTag (s : State) : Nat := s.cmd.args[0].toNat % 256

/-- R183: the action code in CMD_ARG0 of a CONTINUE. -/
def continueCode (s : State) : Nat := s.cmd.args[0].toNat / 256 % 4

theorem bits_continueTag (s : State) : bits (cmdArg s 0) 0 8 = continueTag s := bits_segments _

theorem bits_continueCode (s : State) : bits (cmdArg s 0) 8 2 = continueCode s := rfl

/-- R121: the action that a code other than 3 names. -/
def namedAction (code : Nat) : ActionCode :=
  if code = 0 then .skipMark else if code = 1 then .substitute else .retry

theorem actionOf_of_lt {n : Nat} (h : n < 3) : actionOf n = some (namedAction n) := by
  match n, h with
  | 0, _ => rfl
  | 1, _ => rfl
  | 2, _ => rfl

theorem continueCode_lt {s : State} (h : continueCode s ≠ 3) : continueCode s < 3 := by
  have twoBits : continueCode s < 4 := Nat.mod_lt _ (by decide)
  omega

theorem namedAction_eq_retry_iff {n : Nat} (h : n < 3) : namedAction n = .retry ↔ n = 2 := by
  match n, h with
  | 0, _ => decide
  | 1, _ => decide
  | 2, _ => decide

/-! ### The checks (R121) -/

/-- R121: BAD_ARGUMENT depends on the argument alone, not on the hold slot. -/
theorem continueBody_of_badArgument {s : State} (h : 48 ≤ continueTag s ∨ continueCode s = 3) :
    continueBody s = (s, .badArgument) := by
  simp only [continueBody, bits_continueTag, bits_continueCode, Config.tagCount]
  rcases h with tag | code
  · cases actionOf (continueCode s) with
    | none => rfl
    | some a => exact if_pos tag
  · rw [code]
    rfl

theorem continueBody_of_named {s : State} (ht : continueTag s < 48) (hc : continueCode s ≠ 3) :
    continueBody s = continueHeldJob (continueTag s) (namedAction (continueCode s)) s := by
  simp only [continueBody, bits_continueTag, bits_continueCode, actionOf_of_lt (continueCode_lt hc)]
  exact if_neg (Nat.not_le.mpr ht)

theorem continueHeldJob_of_notHeld {s : State} {tag : Nat} {a : ActionCode}
    (hn : ∀ h, s.hold = some h → h.action.isSome = true ∨ h.job.tag ≠ tag) :
    continueHeldJob tag a s = (s, .notHeld) := by
  unfold continueHeldJob
  cases hold : s.hold with
  | none => rfl
  | some h => exact if_pos (hn h hold)

/-- R121: with the job of the named tag HELD, NOT_APPLICABLE is the only check left. -/
theorem continueHeldJob_of_held {s : State} {a : ActionCode} {h : HoldRecord} (hh : s.hold = some h)
    (ha : h.action = none) :
    continueHeldJob h.job.tag a s =
      if a = .retry ∧ descKind h.job.desc = .single then (s, .notApplicable)
      else (continueJob h (pendingAction s h.job.desc.resFormat a) s, .done) := by
  have held : ¬(h.action.isSome = true ∨ h.job.tag ≠ h.job.tag) := by simp [ha]
  simp only [continueHeldJob, hh, if_neg held]

/-- R121: a CONTINUE of the HELD job whose argument is good. -/
theorem continueBody_of_held {s : State} {h : HoldRecord} (ht : continueTag s < 48) (hc : continueCode s ≠ 3)
    (hh : s.hold = some h) (ha : h.action = none) (htag : h.job.tag = continueTag s) :
    continueBody s =
      if continueCode s = 2 ∧ descKind h.job.desc = .single then (s, .notApplicable)
      else (continueJob h (pendingAction s h.job.desc.resFormat (namedAction (continueCode s))) s, .done) := by
  rw [continueBody_of_named ht hc, ← htag, continueHeldJob_of_held hh ha]
  simp only [namedAction_eq_retry_iff (continueCode_lt hc)]

/-! ### The pending action (R122) -/

/-- R122: SUBSTITUTE keeps the words of CMD_ARG1 and CMD_ARG2 as they stand. -/
theorem pendingAction_namedAction (s : State) (f : Format) (code : Nat) :
    pendingAction s f (namedAction code) =
      if code = 0 then .skipMark
      else if code = 1 then .substitute (pairValue f s.cmd.args[1] s.cmd.args[2])
      else .retry := by
  unfold namedAction
  split
  · rfl
  · split <;> rfl

/-- Settles O28: the checks of R121 in their order, one equation of `continueBody` each, and the action of R122. -/
theorem continueOutcomes : Obligations.ContinueOutcomes := by
  intro s hr
  refine ⟨fun hp => ?overrun, fun hp => ⟨fun hbad => ?badArgument, fun ht hc hn => ?notHeld,
    fun h ht hc hh ha htag => ⟨fun hcode hkind => ?notApplicable, fun hok => ?done⟩⟩⟩
  case overrun => rw [exec_continueHeld_eq, immediate_eq_overrun hr hp]
  case badArgument =>
    exact exec_immediate_of_taken (exec_continueHeld_eq s) ⟨hr, hp⟩ (continueBody_of_badArgument hbad)
  case notHeld =>
    exact exec_immediate_of_taken (exec_continueHeld_eq s) ⟨hr, hp⟩
      ((continueBody_of_named ht hc).trans (continueHeldJob_of_notHeld hn))
  case notApplicable =>
    exact exec_immediate_of_taken (exec_continueHeld_eq s) ⟨hr, hp⟩
      ((continueBody_of_held ht hc hh ha htag).trans (if_pos ⟨hcode, hkind⟩))
  case done =>
    rw [exec_immediate_of_taken (exec_continueHeld_eq s) ⟨hr, hp⟩
      ((continueBody_of_held ht hc hh ha htag).trans (if_neg hok)), pendingAction_namedAction]
    cases h.job.desc.resFormat <;> rfl

end Sys2Proof.Machine

/-! SUPPORT. The writes to EVENTS and EVENT_ENABLE (R158, R159): the bits of the seven flags (R181), the words the two
registers show, and IRQ read bit by bit. -/

namespace Sys2Proof.Machine

theorem exec_eventsWrite_eq (x : Word) (s : State) :
    exec (.eventsWrite x) s = .next (windowWrite (clearEvents (x.truncate 7)) s) := rfl

theorem exec_eventEnableWrite_eq (x : Word) (s : State) :
    exec (.eventEnableWrite x) s = .next (windowWrite (setEnables x) s) := rfl

/-! ### The bits of the flags (R181) -/

theorem eventBit_lt (f : EventFlag) : eventBit f < 7 := by cases f <;> decide

/-- R181: no bit of the seven is without a flag. -/
theorem exists_eventBit_eq {i : Nat} (h : i < 7) : ∃ f, eventBit f = i := by
  match i, h with
  | 0, _ => exact ⟨.completion, rfl⟩
  | 1, _ => exact ⟨.hold, rfl⟩
  | 2, _ => exact ⟨.cmdDone, rfl⟩
  | 3, _ => exact ⟨.loadFailed, rfl⟩
  | 4, _ => exact ⟨.cmdOverrun, rfl⟩
  | 5, _ => exact ⟨.popEmpty, rfl⟩
  | 6, _ => exact ⟨.loadDiscard, rfl⟩

/-- A property of some bit below 7 is a property of some flag's bit. -/
theorem exists_lt_seven_iff {p : Nat → Prop} : (∃ i, i < 7 ∧ p i) ↔ ∃ f, p (eventBit f) := by
  constructor
  · rintro ⟨i, hi, hp⟩
    obtain ⟨f, rfl⟩ := exists_eventBit_eq hi
    exact ⟨f, hp⟩
  · rintro ⟨f, hp⟩
    exact ⟨eventBit f, eventBit_lt f, hp⟩

/-- R158: clearing by a written word leaves a flag SET exactly when it was and its bit of the word is 0. -/
theorem eventSet_clearEvents (f : EventFlag) (x : Word) (s : State) :
    eventSet f (clearEvents (x.truncate 7) s) = (eventSet f s && !x.getLsbD (eventBit f)) := by
  simp only [eventSet, clearEvents_value, BitVec.getLsbD_and, BitVec.getLsbD_not, BitVec.truncate_eq_setWidth,
    BitVec.getLsbD_setWidth, eventBit_lt, decide_true, Bool.true_and]

/-! ### The words shown (R181) -/

/-- A field that starts at bit 0 and has the width of a bit vector shows the bit vector. -/
theorem field_toNat {w : Nat} (v : BitVec w) : field v.toNat 0 w = v.setWidth 32 := by
  rw [field, Nat.mod_eq_of_lt v.isLt, Nat.pow_zero, Nat.mul_one, BitVec.ofNat_toNat]

theorem windowRead_events {s : State} (hr : s.rst = false) :
    windowRead s 0x08#8 = some (s.completion.events.setWidth 32) := by
  rw [← field_toNat, windowRead, hr]
  rfl

theorem windowRead_enables {s : State} (hr : s.rst = false) :
    windowRead s 0x0C#8 = some (s.completion.enables.setWidth 32) := by
  rw [← field_toNat, windowRead, hr]
  rfl

/-- R181: bits 31:7 of a word written to EVENT_ENABLE carry no enable. -/
theorem setWidth_truncate_seven (x : Word) : (x.truncate 7 : BitVec 7).setWidth 32 = x &&& 0x7F#32 := by
  apply BitVec.eq_of_toNat_eq
  have seven : x.toNat &&& 0x7F = x.toNat % 128 := Nat.and_two_pow_sub_one_eq_mod _ 7
  simp only [BitVec.truncate_eq_setWidth, BitVec.toNat_setWidth, BitVec.toNat_and, BitVec.toNat_ofNat, Nat.reducePow,
    Nat.reduceMod, seven]
  omega

/-- Settles O8: the taken write is `clearEvents`, whose flags and whose word at EVENTS the lemmas above give. -/
theorem eventsWriteClearsOnes : Obligations.EventsWriteClearsOnes := by
  refine ⟨fun x s hr => ⟨s.completion.events &&& ~~~(x.truncate 7), ?write, ?read, fun f => ?flag⟩, fun f s => rfl, rfl⟩
  case write => rw [exec_eventsWrite_eq, windowWrite_of_released hr, clearEvents]
  case read => exact windowRead_events hr
  case flag => exact eventSet_clearEvents f x s

/-! ### IRQ (R159, R176) -/

/-- A conjunction of words is nonzero exactly when the two share a bit that is 1. -/
theorem and_ne_zero_iff {w : Nat} (v m : BitVec w) :
    v &&& m ≠ 0#w ↔ ∃ i, i < w ∧ (v.getLsbD i = true ∧ m.getLsbD i = true) := by
  simp only [ne_eq, BitVec.eq_of_getLsbD_eq_iff, BitVec.getLsbD_and, BitVec.getLsbD_zero, not_forall, exists_prop,
    Bool.not_eq_false, Bool.and_eq_true]

/-- R159: some flag is SET whose enable is ENABLED. -/
theorem events_and_enables_ne_zero_iff (s : State) :
    s.completion.events &&& s.completion.enables ≠ 0#7 ↔
      ∃ f, eventSet f s = true ∧ s.completion.enables.getLsbD (eventBit f) = true :=
  (and_ne_zero_iff _ _).trans exists_lt_seven_iff

theorem irq_eq_true_iff (s : State) :
    irq s = true ↔ s.rst = false ∧ s.completion.events &&& s.completion.enables ≠ 0#7 := by
  simp only [irq, Bool.and_eq_true, Bool.not_eq_true', decide_eq_true_eq]

/-- Settles O9: the taken write is `setEnables`, and IRQ is a bit that the flags and the enables share. -/
theorem eventEnablesGateTheInterrupt : Obligations.EventEnablesGateTheInterrupt := by
  refine ⟨fun x s hr => ⟨?write, ?read⟩, fun s => ?irq⟩
  case write => rw [exec_eventEnableWrite_eq, windowWrite_of_released hr, setEnables]
  case read =>
    rw [← setWidth_truncate_seven]
    exact windowRead_enables hr
  case irq => rw [irq_eq_true_iff, events_and_enables_ne_zero_iff]

end Sys2Proof.Machine

/-! SUPPORT. Writes to CMD (R162, R165): each command of CMD runs through `takeCommand`, which overruns while ENGINE_RESET
is pending. -/

namespace Sys2Proof.Machine

theorem exec_queryJob_eq (s : State) : exec .queryJob s = .next (immediate 0x06#8 queryJobBody s) := rfl

theorem exec_abort_eq (s : State) : exec .abort s = .next (immediate 0x08#8 abortBody s) := rfl

theorem exec_flushLevel_eq (s : State) : exec .flushLevel s = .next (immediate 0x09#8 flushLevelBody s) := rfl

theorem exec_engineReset_eq (s : State) : exec .engineReset s = .next (takeCommand engineResetBody s) := rfl

theorem exec_badCommand_eq {code : BitVec 8} (h : namesCommand code = false) (s : State) :
    exec (.badCommand code) s = .next (immediate code (fun t => (t, .badCommand)) s) :=
  if_neg (Bool.eq_false_iff.mp h)

/-- R162: in every state the command is a write to CMD, with one effect that it has whenever it is taken. -/
def RunsThroughCmd (c : Instr) : Prop := ∃ take : State → State, ∀ s, exec c s = .next (takeCommand take s)

theorem runsThroughCmd_of_immediate {c : Instr} {code : BitVec 8} {body : State → State × CmdResult}
    (h : ∀ s, exec c s = .next (immediate code body s)) : RunsThroughCmd c :=
  ⟨fun t => recordCommand code (body t).2 (body t).1, h⟩

/-- The ten named commands and BAD_COMMAND are the commands with a code; of them ENGINE_RESET alone may end later than
its write (R172). -/
theorem runsThroughCmd_of_cmdCode {c : Instr} (hcode : (cmdCode c).isSome = true) (hwf : c.wellFormed = true) :
    RunsThroughCmd c := by
  cases c with
  | openLoad => exact runsThroughCmd_of_immediate exec_openLoad_eq
  | commitLoad => exact runsThroughCmd_of_immediate exec_commitLoad_eq
  | cancelLoad => exact runsThroughCmd_of_immediate exec_cancelLoad_eq
  | retire => exact runsThroughCmd_of_immediate exec_retire_eq
  | queryCurve => exact runsThroughCmd_of_immediate exec_queryCurve_eq
  | queryJob => exact runsThroughCmd_of_immediate exec_queryJob_eq
  | continueHeld => exact runsThroughCmd_of_immediate exec_continueHeld_eq
  | abort => exact runsThroughCmd_of_immediate exec_abort_eq
  | flushLevel => exact runsThroughCmd_of_immediate exec_flushLevel_eq
  | engineReset => exact ⟨engineResetBody, exec_engineReset_eq⟩
  | badCommand code =>
    have undefinedCode : namesCommand code = false := (Bool.not_eq_true' _).mp hwf
    exact runsThroughCmd_of_immediate (exec_badCommand_eq undefinedCode)
  | _ => cases hcode

/-- R165: what a command would do when taken does not matter while ENGINE_RESET is pending. -/
theorem takeCommand_eq_overrun {take : State → State} {s : State} (hr : s.rst = false) (hp : s.cmd.pending = true) :
    takeCommand take s = overrun s := by
  have released : ¬s.rst = true := Bool.eq_false_iff.mp hr
  rw [takeCommand_eq, if_neg released, if_pos hp]
  rfl

/-- Settles O15: every command of CMD runs through `takeCommand`, which overruns. -/
theorem commandOverrunsWhilePending : Obligations.CommandOverrunsWhilePending := by
  intro c s hcode hwf hr hp
  obtain ⟨take, exec_eq⟩ := runsThroughCmd_of_cmdCode hcode hwf
  rw [exec_eq, takeCommand_eq_overrun hr hp]

end Sys2Proof.Machine

/-! SUPPORT. Accesses in error: the register map as its lists of offsets (section 11.3), and the cases of R178 read from
it. -/

namespace Sys2Proof.Machine

/-! ### The register map (section 11.3) -/

/-- The offsets of the 41 registers. -/
def mappedOffsets : List (BitVec 8) :=
  [0x00#8, 0x04#8, 0x08#8, 0x0C#8, 0x10#8, 0x14#8, 0x18#8, 0x1C#8, 0x20#8, 0x24#8, 0x28#8, 0x2C#8, 0x30#8, 0x40#8,
    0x44#8, 0x48#8, 0x4C#8, 0x50#8, 0x54#8, 0x58#8, 0x60#8, 0x64#8, 0x68#8, 0x6C#8, 0x70#8, 0x74#8, 0x78#8, 0x80#8,
    0x84#8, 0x88#8, 0x8C#8, 0x90#8, 0x94#8, 0xA0#8, 0xA4#8, 0xB0#8, 0xB4#8, 0xB8#8, 0xBC#8, 0xC0#8, 0xC4#8]

/-- IDENT, STATUS, QUERY0 to QUERY3, SUBMIT0 to SUBMIT3, LOAD_STATUS, STORE_STATUS, CREC0 to CREC5, CCOUNT, and HOLD0 to
HOLD5. -/
def readOnlyOffsets : List (BitVec 8) :=
  [0x00#8, 0x04#8, 0x24#8, 0x28#8, 0x2C#8, 0x30#8, 0x60#8, 0x64#8, 0x68#8, 0x6C#8, 0x74#8, 0x78#8, 0x80#8, 0x84#8,
    0x88#8, 0x8C#8, 0x90#8, 0x94#8, 0xA4#8, 0xB0#8, 0xB4#8, 0xB8#8, 0xBC#8, 0xC0#8, 0xC4#8]

/-- LOAD_DATA and CPOP. -/
def writeOnlyOffsets : List (BitVec 8) := [0x70#8, 0xA0#8]

/-! The map is a table of 256 rows: each lemma looks up every row. -/

theorem offsetClass_eq_unmapped_iff : ∀ o : BitVec 8, offsetClass o = .unmapped ↔ o ∉ mappedOffsets := by
  decide +kernel

theorem offsetClass_eq_readOnly_iff : ∀ o : BitVec 8, offsetClass o = .readOnly ↔ o ∈ readOnlyOffsets := by
  decide +kernel

theorem offsetClass_eq_writeOnly_iff : ∀ o : BitVec 8, offsetClass o = .writeOnly ↔ o ∈ writeOnlyOffsets := by
  decide +kernel

/-! ### The cases of R178 -/

/-- R178 by the class of the offset: only a read-only or write-only register makes the direction matter. -/
theorem erroneous_iff_offsetClass (a : WindowAccess) :
    a.erroneous = true ↔
      offsetClass a.offset = .unmapped ∨ a.offset.toNat % 4 ≠ 0 ∨ a.lanes ≠ 0xF#4 ∨
      (a.write = true ∧ offsetClass a.offset = .readOnly) ∨
      (a.write = false ∧ offsetClass a.offset = .writeOnly) := by
  unfold WindowAccess.erroneous
  cases offsetClass a.offset with
  | unmapped => simp
  | readOnly => simp [or_assoc]
  | writeOnly => simp [or_assoc]
  | readWrite => simp

theorem hostAccess_of_released {f : State → State} {s : State} (hr : s.rst = false) : hostAccess f s = f s :=
  if_neg (Bool.eq_false_iff.mp hr)

theorem exec_windowAccessError_eq {a : WindowAccess} (h : a.erroneous = true) (s : State) :
    exec (.windowAccessError a) s = .next (hostAccess (fun t => { t with answer := .berr }) s) :=
  if_pos h

/-- Settles O5: the cases of R178 by the class of the offset, each class read as its list of offsets; and the window
access taken sets the answer alone. -/
theorem accessErrorChangesNothing : Obligations.AccessErrorChangesNothing := by
  refine ⟨fun a => ?errors, fun a s herr hr => ?answer⟩
  case errors =>
    rw [erroneous_iff_offsetClass, offsetClass_eq_unmapped_iff, offsetClass_eq_readOnly_iff,
      offsetClass_eq_writeOnly_iff]
    rfl
  case answer => rw [exec_windowAccessError_eq herr, hostAccess_of_released hr]

end Sys2Proof.Machine

/-! SUPPORT. What each command can do, said once: the inversion of every body and of every event that can stop. The proofs
of the laws and of the queue's frame take a command apart with these lemmas. -/

namespace Sys2Proof.Machine

/-! ### Curves and the load session -/

theorem openLoadBody_spec (s : State) :
    (openLoadBody s).1 = s ∨ ∃ c h, s.load.state ≠ .opened ∧ (curveEntry s c).state = .empty ∧
      (openLoadBody s).1 = openSession c h s := by
  unfold openLoadBody
  split
  · exact .inl rfl
  next ho =>
    split
    · exact .inl rfl
    next c _ =>
      split
      · exact .inl rfl
      next h _ =>
        split
        next he => exact .inr ⟨c, h, ho, he, rfl⟩
        · exact .inl rfl

theorem commitLoadBody_spec (s : State) :
    (commitLoadBody s).1 = s ∨ s.load.state = .opened ∧ (commitLoadBody s).1 = commitSession s := by
  by_cases hp : s.load.cursor.phase = .complete
  · cases ho : s.load.state with
    | idle => exact .inl (by rw [commitLoadBody_of_idle ho])
    | failed => exact .inl (by rw [commitLoadBody_of_failed ho])
    | opened => exact .inr ⟨rfl, by rw [commitLoadBody_of_complete ho hp]⟩
  · cases ho : s.load.state with
    | idle => exact .inl (by rw [commitLoadBody_of_idle ho])
    | failed => exact .inl (by rw [commitLoadBody_of_failed ho])
    | opened => exact .inl (by rw [commitLoadBody_of_incomplete ho hp])

theorem cancelLoadBody_spec (s : State) :
    (cancelLoadBody s).1 = s ∨
    s.load.state = .failed ∧ (cancelLoadBody s).1 = { s with load := { s.load with state := .idle } } ∨
    s.load.state = .opened ∧ (cancelLoadBody s).1 = cancelSession s := by
  cases ho : s.load.state with
  | idle => exact .inl (by rw [cancelLoadBody_of_idle ho])
  | failed => exact .inr (.inl ⟨rfl, by rw [cancelLoadBody_of_failed ho]⟩)
  | opened => exact .inr (.inr ⟨rfl, by rw [cancelLoadBody_of_opened ho]⟩)

theorem loadDataBody_spec (x : Word) (s : State) :
    loadDataBody x s = setEvent .loadDiscard s ∨ s.load.state = .opened ∧ loadDataBody x s = takeLoadWord x s := by
  by_cases ho : s.load.state = .opened
  · exact .inr ⟨ho, by simp only [loadDataBody, ho]⟩
  · exact .inl (loadDataBody_of_not_opened ho)

theorem retireBody_spec (s : State) :
    (retireBody s).1 = s ∨ ∃ c, (curveEntry s c).state = .ready ∧
      ((curveEntry s c).refCount = 0 ∧ (retireBody s).1 = emptyCurve c s ∨
        (curveEntry s c).refCount ≠ 0 ∧
          (retireBody s).1 = setCurve c { curveEntry s c with state := .retiring } s) := by
  unfold retireBody
  split
  · exact .inl rfl
  next c _ =>
    cases he : (curveEntry s c).state with
    | empty => exact .inl (by rw [retireCurve_of_empty he])
    | loading => exact .inl (by rw [retireCurve_of_loading he])
    | retiring => exact .inl (by rw [retireCurve_of_retiring he])
    | ready =>
      by_cases hn : (curveEntry s c).refCount = 0
      · exact .inr ⟨c, he, .inl ⟨hn, by rw [retireCurve_of_unreferenced he hn]⟩⟩
      · exact .inr ⟨c, he, .inr ⟨hn, by rw [retireCurve_of_referenced he hn]⟩⟩

/-- A query fills the query registers and does nothing else. -/
theorem queryCurveBody_spec (s : State) :
    (queryCurveBody s).1 = s ∨ ∃ q0 q1 q2 q3, (queryCurveBody s).1 = fillQuery q0 q1 q2 q3 s := by
  unfold queryCurveBody
  split
  · exact .inl rfl
  · exact .inr ⟨_, _, _, _, rfl⟩

/-! ### Jobs -/

theorem submitBody_spec (l : Fin 4) (s : State) :
    (submitBody l s).1 = s ∨ ∃ d tag rest, s.cmd.pending = false ∧ (curveEntry s d.curve).state = .ready ∧
      (queueOf s l).length < Config.queueDepth ∧ s.intake.freeTags = tag :: rest ∧
      (submitBody l s).1 = acceptJob tag rest l d s := by
  unfold submitBody
  split
  · exact .inl rfl
  next hp =>
    split
    · exact .inl rfl
    next d _ =>
      split
      · exact .inl rfl
      next hready =>
        split
        · exact .inl rfl
        next hfull =>
          split
          · exact .inl rfl
          next tag rest hfree =>
            exact .inr ⟨d, tag, rest, Bool.eq_false_iff.mpr hp, not_not.mp hready, Nat.not_le.mp hfull, hfree, rfl⟩

theorem queryJobBody_spec (s : State) :
    (queryJobBody s).1 = s ∨ ∃ q0 q1 q2 q3, (queryJobBody s).1 = fillQuery q0 q1 q2 q3 s := by
  unfold queryJobBody
  split
  · exact .inl rfl
  · right
    cases placeOf s (argNumber s) <;> exact ⟨_, _, _, _, rfl⟩

theorem continueHeldJob_spec (tag : Nat) (a : ActionCode) (s : State) :
    (continueHeldJob tag a s).1 = s ∨ ∃ h act, s.hold = some h ∧ h.action = none ∧
      (continueHeldJob tag a s).1 = continueJob h act s := by
  unfold continueHeldJob
  split
  · exact .inl rfl
  next h hh =>
    split
    · exact .inl rfl
    next hn =>
      split
      · exact .inl rfl
      · exact .inr ⟨h, _, hh, by simpa using (not_or.mp hn).1, rfl⟩

theorem continueBody_spec (s : State) :
    (continueBody s).1 = s ∨ ∃ h act, s.hold = some h ∧ h.action = none ∧
      (continueBody s).1 = continueJob h act s := by
  unfold continueBody
  dsimp only
  split
  · exact .inl rfl
  · split
    · exact .inl rfl
    · exact continueHeldJob_spec _ _ s

/-- R166: an ABORT takes one live job out of its place or marks it, and the dispatcher reacts; or it does nothing. -/
inductive Abortion (s : State) : State → Prop where
  | queued (l : Fin 4) (j : Job) : ((queueOf s l).find? fun x => decide (x.tag = j.tag)) = some j →
    Abortion s (abortQueued l j s)
  | suspended (l : Fin 4) (x : Suspended) : slotOf s l = some x → Abortion s (abortSuspended l x s)
  | held (h : HoldRecord) : s.hold = some h → Abortion s (abortHeld h s)
  | running (r : RunningJob) : s.engine.running = some r → Abortion s (abortRunning r s)

theorem abortPlace_spec (tag : Nat) (s : State) :
    (abortPlace (placeOf s tag) s).1 = s ∨
      ∃ t, Abortion s t ∧ (abortPlace (placeOf s tag) s).1 = reactToSources t := by
  have spec := placeOf_spec s tag
  cases hp : placeOf s tag with
  | queued l j =>
    rw [hp] at spec
    have htag : j.tag = tag := by simpa using List.find?_some spec
    exact .inr ⟨_, .queued l j (htag ▸ spec), rfl⟩
  | suspended l x => rw [hp] at spec; exact .inr ⟨_, .suspended l x spec.1, rfl⟩
  | held h => rw [hp] at spec; exact .inr ⟨_, .held h spec.1, rfl⟩
  | running r => rw [hp] at spec; exact .inr ⟨_, .running r spec.1, rfl⟩
  | finished r => exact .inl rfl
  | free => exact .inl rfl

theorem abortBody_spec (s : State) :
    (abortBody s).1 = s ∨ ∃ t, Abortion s t ∧ (abortBody s).1 = reactToSources t := by
  unfold abortBody
  split
  · exact .inl rfl
  · exact abortPlace_spec _ s

/-- R170: the running job is ended or marked, or it is of another level. -/
theorem flushRunning_spec (l : Fin 4) (s : State) :
    (flushRunning l s).1 = s ∨ Abortion s (flushRunning l s).1 := by
  unfold flushRunning
  split
  next r hr =>
    split
    · exact .inr (.running r hr)
    · exact .inl rfl
  · exact .inl rfl

theorem flushSlot_spec (l : Fin 4) (s : State) (t : FlushTally) :
    (flushSlot l s t).1 = s ∨ Abortion s (flushSlot l s t).1 := by
  unfold flushSlot
  split
  next x hx => exact .inr (.suspended l x hx)
  · exact .inl rfl

theorem flushHold_spec (l : Fin 4) (s : State) (t : FlushTally) :
    (flushHold l s t).1 = s ∨ Abortion s (flushHold l s t).1 := by
  unfold flushHold
  split
  next h hh =>
    split
    · exact .inr (.held h hh)
    · exact .inl rfl
  · exact .inl rfl

/-- A property that each abort and the flush of a queue keep is kept by the flush of a level. -/
theorem flushJobs_keeps {P : State → Prop} (habort : ∀ s t, P s → Abortion s t → P t)
    (hqueue : ∀ l s, P s → P ((queueOf s l).foldl (fun acc j => postAborted j acc) (setQueue l [] s)))
    (l : Fin 4) {s : State} (h : P s) : P (flushJobs l s).1 := by
  have keep {s t : State} (hs : P s) : t = s ∨ Abortion s t → P t := by
    rintro (rfl | ha)
    · exact hs
    · exact habort _ _ hs ha
  have running := keep h (flushRunning_spec l s)
  have slot := keep running (flushSlot_spec l _ (flushRunning l s).2)
  have hold := keep slot (flushHold_spec l _ (flushSlot l (flushRunning l s).1 (flushRunning l s).2).2)
  exact hqueue l _ hold

theorem flushLevelBody_spec (s : State) :
    (flushLevelBody s).1 = s ∨ ∃ l q0 q1 q2 q3,
      (flushLevelBody s).1 = fillQuery q0 q1 q2 q3 (reactToSources (flushJobs l s).1) := by
  unfold flushLevelBody
  split
  · exact .inl rfl
  next l _ => exact .inr ⟨l, _, _, _, _, rfl⟩

/-! ### The events of the bus master -/

theorem valueOf_some {s : State} {k : ValueKind} {u : UnderWay} (h : valueOf s k = some u) :
    s.bus.underWay = some u ∧ u.kind = k := by
  unfold valueOf at h
  split at h
  next v hv =>
    split at h
    next hk => cases h; exact ⟨hv, hk⟩
    · cases h
  · cases h

theorem valueOf_of_kind {s : State} {u : UnderWay} (hu : s.bus.underWay = some u) : valueOf s u.kind = some u := by
  simp only [valueOf, hu, if_true]

theorem demandReadEnd_spec {outcome : ReadEnd} {s t : State} (h : exec (.demandReadEnd outcome) s = .next t) :
    ∃ u, s.bus.underWay = some u ∧ u.kind = .demandRead ∧ readEndPossible u outcome = true ∧
      (s.cmd.pending = true ∧ t = quietReset s ∨
        s.cmd.pending = false ∧ s.engine.state = .fetch ∧
          ∃ r, s.engine.running = some r ∧ t = demandEnd r u outcome s) := by
  change execDemandReadEnd outcome s = .next t at h
  unfold execDemandReadEnd at h
  split at h
  · cases h
  next u hv =>
    obtain ⟨hu, hk⟩ := valueOf_some hv
    split at h
    next hposs =>
      refine ⟨u, hu, hk, hposs, ?_⟩
      split at h
      next hp => cases h; exact .inl ⟨hp, rfl⟩
      next hp =>
        split at h
        next r hst hr => cases h; exact .inr ⟨Bool.eq_false_iff.mpr hp, hst, r, hr, rfl⟩
        · cases h
    · cases h

theorem resultWriteEnd_spec {outcome : TransferEnd} {s t : State}
    (h : exec (.resultWriteEnd outcome) s = .next t) :
    ∃ u, s.bus.underWay = some u ∧ u.kind = .resultWrite ∧ transferEndPossible u outcome = true ∧
      (s.cmd.pending = true ∧ t = quietReset s ∨
        s.cmd.pending = false ∧ s.engine.state = .store ∧
          ∃ r, s.engine.running = some r ∧ t = writeEnd r u outcome s) := by
  change execResultWriteEnd outcome s = .next t at h
  unfold execResultWriteEnd at h
  split at h
  · cases h
  next u hv =>
    obtain ⟨hu, hk⟩ := valueOf_some hv
    split at h
    next hposs =>
      refine ⟨u, hu, hk, hposs, ?_⟩
      split at h
      next hp => cases h; exact .inl ⟨hp, rfl⟩
      next hp =>
        split at h
        next r hst hr => cases h; exact .inr ⟨Bool.eq_false_iff.mpr hp, hst, r, hr, rfl⟩
        · cases h
    · cases h

theorem prefetchReadEnd_spec {data : Word} {s t : State} (h : exec (.prefetchReadEnd data) s = .next t) :
    ∃ u, s.bus.underWay = some u ∧ u.kind = .prefetchRead ∧ lastTransfer u = true ∧
      (s.cmd.pending = true ∧ t = quietReset s ∨ s.cmd.pending = false ∧ t = prefetchEnd u data s) := by
  change execPrefetchReadEnd data s = .next t at h
  unfold execPrefetchReadEnd at h
  split at h
  · cases h
  next u hv =>
    obtain ⟨hu, hk⟩ := valueOf_some hv
    split at h
    next hlast =>
      refine ⟨u, hu, hk, hlast, ?_⟩
      split at h
      next hp => cases h; exact .inl ⟨hp, rfl⟩
      next hp => cases h; exact .inr ⟨Bool.eq_false_iff.mpr hp, rfl⟩
    · cases h

theorem prefetchReadFailure_spec {s t : State} (h : exec .prefetchReadFailure s = .next t) :
    ∃ u e, s.bus.underWay = some u ∧ u.kind = .prefetchRead ∧ inFlightEntry s.bus = some e ∧
      (s.cmd.pending = true ∧ t = quietReset s ∨ s.cmd.pending = false ∧ t = prefetchFailed e.element s) := by
  change execPrefetchReadFailure s = .next t at h
  unfold execPrefetchReadFailure at h
  split at h
  next u e hv he =>
    obtain ⟨hu, hk⟩ := valueOf_some hv
    refine ⟨u, e, hu, hk, he, ?_⟩
    split at h
    next hp => cases h; exact .inl ⟨hp, rfl⟩
    next hp => cases h; exact .inr ⟨Bool.eq_false_iff.mpr hp, rfl⟩
  · cases h

theorem droppedValueEnd_spec {outcome : TransferEnd} {s t : State}
    (h : exec (.droppedValueEnd outcome) s = .next t) :
    ∃ u, s.bus.underWay = some u ∧ u.kind = .dropped ∧ transferEndPossible u outcome = true ∧
      (s.cmd.pending = true ∧ t = quietReset s ∨ s.cmd.pending = false ∧ t = droppedEnd outcome s) := by
  change execDroppedValueEnd outcome s = .next t at h
  unfold execDroppedValueEnd at h
  split at h
  · cases h
  next u hv =>
    obtain ⟨hu, hk⟩ := valueOf_some hv
    split at h
    next hposs =>
      refine ⟨u, hu, hk, hposs, ?_⟩
      split at h
      next hp => cases h; exact .inl ⟨hp, rfl⟩
      next hp => cases h; exact .inr ⟨Bool.eq_false_iff.mpr hp, rfl⟩
    · cases h

theorem wLowHalfEnd_spec {data : Word} {s t : State} (h : exec (.wLowHalfEnd data) s = .next t) :
    ∃ u, s.bus.underWay = some u ∧ lastTransfer u = false ∧ t = beginHighHalf u data s := by
  change execWLowHalfEnd data s = .next t at h
  unfold execWLowHalfEnd at h
  split at h
  next u hu =>
    split at h
    · cases h
    next hlast => cases h; exact ⟨u, hu, Bool.eq_false_iff.mpr hlast, rfl⟩
  · cases h

theorem rstRelease_spec {s t : State} (h : exec .rstRelease s = .next t) :
    t = { State.reset with pending := s.pending } := by
  change execRstRelease s = .next t at h
  unfold execRstRelease at h
  split at h
  · cases h; rfl
  · cases h

/-! ### The completions of the engine's operations -/

/-- The list of operations cut off from their job loses one, and nothing else changes. -/
def forgetOperation (op : ArithOp) (s : State) : State :=
  { s with engine := { s.engine with abandoned := s.engine.abandoned.erase op } }

theorem discardOutcome_spec {op : ArithOp} {s t : State} (h : discardOutcome op s = .next t) :
    t = forgetOperation op s := by
  unfold discardOutcome at h
  split at h
  · cases h; rfl
  · cases h

theorem discardOutcome_of_mem {op : ArithOp} {s : State} (h : op ∈ s.engine.abandoned) :
    discardOutcome op s = .next (forgetOperation op s) :=
  if_pos (List.contains_iff_mem.mpr h)

theorem setupCompletion_spec {which : Completing} {s t : State} (h : exec (.setupCompletion which) s = .next t) :
    t = forgetOperation .setup s ∨ ∃ r arg, s.engine.state = .setup ∧ s.engine.running = some r ∧ r.arg = some arg ∧
      t = settleRequest (setupBoundary r arg (setupOutcome s r.job arg) s) := by
  change execSetupCompletion which s = .next t at h
  unfold execSetupCompletion at h
  split at h
  next r hst hr =>
    split at h
    next arg ha => cases h; exact .inr ⟨r, arg, hst, hr, ha, rfl⟩
    · cases h
  · exact .inl (discardOutcome_spec h)

theorem termsCompletion_spec {which : Completing} {s t : State} (h : exec (.termsCompletion which) s = .next t) :
    t = forgetOperation .terms s ∨ ∃ r arg w j, s.engine.state = .terms ∧ s.engine.running = some r ∧
      r.arg = some arg ∧ r.work = some w ∧ w.nextTerm = some j ∧
      t = settleRequest (termsBoundary r arg (termOutcome s r.job w j) s) := by
  change execTermsCompletion which s = .next t at h
  unfold execTermsCompletion at h
  split at h
  next r hst hr =>
    split at h
    next arg w ha hw =>
      split at h
      next j hj => cases h; exact .inr ⟨r, arg, w, j, hst, hr, ha, hw, hj, rfl⟩
      · cases h
    · cases h
  · exact .inl (discardOutcome_spec h)

theorem conversionCompletion_spec {which : Completing} {s t : State}
    (h : exec (.conversionCompletion which) s = .next t) :
    t = forgetOperation .conversion s ∨ ∃ r arg w, s.engine.state = .store ∧ s.engine.running = some r ∧
      r.arg = some arg ∧ r.work = some w ∧ r.result = none ∧
      t = settleRequest (conversionBoundary r arg (conversionOutcome s r.job w) s) := by
  change execConversionCompletion which s = .next t at h
  unfold execConversionCompletion at h
  split at h
  next r hst hr =>
    split at h
    next arg w ha hw hn => cases h; exact .inr ⟨r, arg, w, hst, hr, ha, hw, hn, rfl⟩
    · exact .inl (discardOutcome_spec h)
  · exact .inl (discardOutcome_spec h)

theorem dispatchBody_spec (s : State) :
    dispatchBody s = s ∨ ∃ src, s.engine.state = .idle ∧ winner s = some src ∧
      dispatchBody s = settleRequest (handOver src s) := by
  unfold dispatchBody
  split
  next hidle =>
    split
    next src hw => exact .inr ⟨src, hidle, hw, rfl⟩
    · exact .inl rfl
  · exact .inl rfl

theorem bgntBody_spec (s : State) : bgntBody s = s ∨ s.bus.state = .requesting ∧ bgntBody s = takeGrant s := by
  unfold bgntBody
  split
  · exact .inl rfl
  · split
    next hb => exact .inr ⟨hb, rfl⟩
    · exact .inl rfl
    · exact .inl rfl

theorem bgntRemovedBody_spec (s : State) :
    bgntRemovedBody s = s ∨ s.bus.state = .owner ∧
      (s.bus.underWay.isSome = true ∧ bgntRemovedBody s = { s with bus := { s.bus with grantRemoved := true } } ∨
        s.bus.underWay = none ∧ bgntRemovedBody s = releaseBus s) := by
  unfold bgntRemovedBody
  split
  next hb =>
    refine .inr ⟨hb, ?_⟩
    split
    next hu => exact .inl ⟨hu, rfl⟩
    next hu => exact .inr ⟨by simpa using hu, rfl⟩
  · exact .inl rfl
  · exact .inl rfl

theorem exec_badCommand_next {code : BitVec 8} {s t : State} (h : exec (.badCommand code) s = .next t) :
    t = immediate code (fun u => (u, .badCommand)) s := by
  change execBadCommand code s = .next t at h
  unfold execBadCommand at h
  split at h
  · cases h
  · cases h; rfl

theorem exec_windowAccessError_next {a : WindowAccess} {s t : State} (h : exec (.windowAccessError a) s = .next t) :
    t = hostAccess (fun u => { u with answer := .berr }) s := by
  change execWindowAccessError a s = .next t at h
  unfold execWindowAccessError at h
  split at h
  · cases h; rfl
  · cases h

end Sys2Proof.Machine

/-! SUPPORT. Induction over the commands, packaged once: a property that looks at none of the fields that commands only
record in, and that each operation of the blocks keeps, is kept by every command. -/

namespace Sys2Proof.Machine

/-- The two states agree but for the window's answer, the command unit's registers, the staging area, the event flags and
their enables, the session's cursor, the operations cut off from their job, the reset line and the queue of commands. -/
structure Alike (s t : State) : Prop where
  commandState : t.cmd.pending = s.cmd.pending := by rfl
  curves : t.curves = s.curves := by rfl
  store : t.store = s.store := by rfl
  session : t.load.state = .opened ↔ s.load.state = .opened := by rfl
  sessionCurve : t.load.curve = s.load.curve := by rfl
  queues : t.intake.queues = s.intake.queues := by rfl
  freeTags : t.intake.freeTags = s.intake.freeTags := by rfl
  control : t.control = s.control := by rfl
  slots : t.slots = s.slots := by rfl
  yield : t.yieldRequest = s.yieldRequest := by rfl
  engine : t.engine.state = s.engine.state := by rfl
  running : t.engine.running = s.engine.running := by rfl
  hold : t.hold = s.hold := by rfl
  bus : t.bus = s.bus := by rfl
  records : t.completion.records = s.completion.records := by rfl

/-- The property is kept by each operation in the states in which a command carries it out. -/
structure Kept (P : State → Prop) : Prop where
  alike : ∀ {s t}, P s → Alike s t → t.pending = s.pending → P t
  openSession : ∀ {s} c h, P s → s.load.state ≠ .opened → (curveEntry s c).state = .empty → P (openSession c h s)
  commitSession : ∀ {s}, P s → s.load.state = .opened → P (commitSession s)
  cancelSession : ∀ {s}, P s → s.load.state = .opened → P (cancelSession s)
  takeLoadWord : ∀ {s} x, P s → s.load.state = .opened → P (takeLoadWord x s)
  emptyCurve : ∀ {s} c, P s → (curveEntry s c).state = .ready → (curveEntry s c).refCount = 0 → P (emptyCurve c s)
  retire : ∀ {s} c, P s → (curveEntry s c).state = .ready → (curveEntry s c).refCount ≠ 0 →
    P (setCurve c { curveEntry s c with state := .retiring } s)
  acceptJob : ∀ {s} d l tag rest, P s → (curveEntry s d.curve).state = .ready →
    (queueOf s l).length < Config.queueDepth → s.intake.freeTags = tag :: rest → P (acceptJob tag rest l d s)
  continueJob : ∀ {s} h act, P s → s.hold = some h → h.action = none → P (continueJob h act s)
  abort : ∀ {s u}, P s → Abortion s u → P (reactToSources u)
  flush : ∀ {s} l, P s → P (reactToSources (flushJobs l s).1)
  writeControl : ∀ {s} x, P s → P (writeControl x s)
  popRecord : ∀ {s} r rest, P s → s.completion.records = r :: rest → P (popRecord r rest s)
  engineReset : ∀ {s}, P s → s.cmd.pending = false → P (engineResetBody s)
  completeReset : ∀ {s}, P s → s.cmd.pending = true → P (completeReset s)
  quietReset : ∀ {s}, P s → s.cmd.pending = true → P (quietReset s)
  assertRst : ∀ {s}, P s → P (assertRst s)
  releaseRst : ∀ {s}, P s → P { State.reset with pending := s.pending }
  takeGrant : ∀ {s}, P s → s.bus.state = .requesting → P (takeGrant s)
  removeGrant : ∀ {s}, P s → P { s with bus := { s.bus with grantRemoved := true } }
  releaseBus : ∀ {s}, P s → s.bus.underWay = none → P (releaseBus s)
  beginHighHalf : ∀ {s} u data, P s → s.bus.underWay = some u → lastTransfer u = false → P (beginHighHalf u data s)
  demandEnd : ∀ {s} r u outcome, P s → s.bus.underWay = some u → u.kind = .demandRead →
    readEndPossible u outcome = true → s.cmd.pending = false → s.engine.state = .fetch →
    s.engine.running = some r → P (demandEnd r u outcome s)
  writeEnd : ∀ {s} r u outcome, P s → s.bus.underWay = some u → u.kind = .resultWrite → s.cmd.pending = false →
    s.engine.state = .store → s.engine.running = some r → P (writeEnd r u outcome s)
  prefetchEnd : ∀ {s} u data, P s → s.bus.underWay = some u → u.kind = .prefetchRead → s.cmd.pending = false →
    P (prefetchEnd u data s)
  prefetchFailed : ∀ {s} u e, P s → s.bus.underWay = some u → u.kind = .prefetchRead →
    inFlightEntry s.bus = some e → s.cmd.pending = false → P (prefetchFailed e.element s)
  droppedEnd : ∀ {s} u outcome, P s → s.bus.underWay = some u → u.kind = .dropped → s.cmd.pending = false →
    P (droppedEnd outcome s)
  setup : ∀ {s} r arg o, P s → s.engine.state = .setup → s.engine.running = some r → r.arg = some arg →
    P (settleRequest (setupBoundary r arg o s))
  terms : ∀ {s} r arg o, P s → s.engine.state = .terms → s.engine.running = some r → r.arg = some arg →
    P (settleRequest (termsBoundary r arg o s))
  conversion : ∀ {s} r arg o, P s → s.engine.state = .store → s.engine.running = some r → r.arg = some arg →
    r.result = none → P (settleRequest (conversionBoundary r arg o s))
  handOver : ∀ {s} src, P s → s.engine.state = .idle → winner s = some src → P (settleRequest (handOver src s))

section
variable {P : State → Prop} (k : Kept P)
include k

theorem Kept.windowWrite {f : State → State} {s : State} (h : P s) (hf : P (f s)) : P (windowWrite f s) :=
  windowWrite_keeps (fun _ _ h => k.alike h {} rfl) h fun _ => hf

theorem Kept.hostAccess {f : State → State} {s : State} (h : P s) (hf : P (f s)) : P (hostAccess f s) := by
  unfold Machine.hostAccess
  split
  · exact k.alike h {} rfl
  · exact hf

theorem Kept.takeCommand {f : State → State} {s : State} (h : P s) (hf : s.cmd.pending = false → P (f s)) :
    P (takeCommand f s) :=
  takeCommand_keeps (fun _ _ h => k.alike h {} rfl) (fun _ h => k.alike h {} rfl) h fun ht => hf ht.2

theorem Kept.immediate {code : BitVec 8} {body : State → State × CmdResult} {s : State} (h : P s)
    (hb : P (body s).1) : P (immediate code body s) :=
  k.takeCommand h fun _ => k.alike hb {} rfl

theorem Kept.writePlain (reg : PlainReg) (x : Word) {s : State} (h : P s) : P (writePlain reg x s) := by
  cases reg with
  | stage i => exact k.alike h {} rfl
  | cmdArg i => exact k.alike h {} rfl

theorem Kept.cpopBody {s : State} (h : P s) : P (cpopBody s) := by
  unfold Machine.cpopBody
  split
  next r rest hr => exact k.popRecord r rest h hr
  · exact k.alike h {} rfl

theorem Kept.submitRead (l : Fin 4) {s : State} (h : P s) : P (submitRead l s) := by
  have body : P (submitBody l s).1 := by
    obtain he | ⟨d, tag, rest, _, hready, hq, hf, he⟩ := submitBody_spec l s
    · rwa [he]
    · rw [he]; exact k.acceptJob d l tag rest h hready hq hf
  exact k.alike body {} rfl

/-- The commands of CMD but ENGINE_RESET: what each does is done by one of the operations. -/
theorem Kept.openLoad {s : State} (h : P s) : P (openLoadBody s).1 := by
  obtain he | ⟨c, hd, ho, hc, he⟩ := openLoadBody_spec s
  · rwa [he]
  · rw [he]; exact k.openSession c hd h ho hc

theorem Kept.commitLoad {s : State} (h : P s) : P (commitLoadBody s).1 := by
  obtain he | ⟨ho, he⟩ := commitLoadBody_spec s
  · rwa [he]
  · rw [he]; exact k.commitSession h ho

theorem Kept.cancelLoad {s : State} (h : P s) : P (cancelLoadBody s).1 := by
  obtain he | ⟨hl, he⟩ | ⟨ho, he⟩ := cancelLoadBody_spec s
  · rwa [he]
  · rw [he]; exact k.alike h { session := by simp [hl] } rfl
  · rw [he]; exact k.cancelSession h ho

theorem Kept.loadData (x : Word) {s : State} (h : P s) : P (loadDataBody x s) := by
  obtain he | ⟨ho, he⟩ := loadDataBody_spec x s
  · rw [he]; exact k.alike h {} rfl
  · rw [he]; exact k.takeLoadWord x h ho

theorem Kept.retireCommand {s : State} (h : P s) : P (retireBody s).1 := by
  obtain he | ⟨c, hready, ⟨hn, he⟩ | ⟨hn, he⟩⟩ := retireBody_spec s
  · rwa [he]
  · rw [he]; exact k.emptyCurve c h hready hn
  · rw [he]; exact k.retire c h hready hn

theorem Kept.query {body : State → State × CmdResult} {s : State} (h : P s)
    (hb : (body s).1 = s ∨ ∃ q0 q1 q2 q3, (body s).1 = fillQuery q0 q1 q2 q3 s) : P (body s).1 := by
  obtain he | ⟨q0, q1, q2, q3, he⟩ := hb
  · rwa [he]
  · rw [he]; exact k.alike h {} rfl

theorem Kept.continueHeld {s : State} (h : P s) : P (continueBody s).1 := by
  obtain he | ⟨r, act, hr, ha, he⟩ := continueBody_spec s
  · rwa [he]
  · rw [he]; exact k.continueJob r act h hr ha

theorem Kept.abortCommand {s : State} (h : P s) : P (abortBody s).1 := by
  obtain he | ⟨u, hu, he⟩ := abortBody_spec s
  · rwa [he]
  · rw [he]; exact k.abort h hu

theorem Kept.flushCommand {s : State} (h : P s) : P (flushLevelBody s).1 := by
  obtain he | ⟨l, _, _, _, _, he⟩ := flushLevelBody_spec s
  · rwa [he]
  · rw [he]; exact k.alike (k.flush l h) {} rfl

theorem Kept.bgnt {s : State} (h : P s) : P (bgntBody s) := by
  obtain he | ⟨hb, he⟩ := bgntBody_spec s
  · rwa [he]
  · rw [he]; exact k.takeGrant h hb

theorem Kept.bgntRemoved {s : State} (h : P s) : P (bgntRemovedBody s) := by
  obtain he | ⟨_, ⟨_, he⟩ | ⟨hu, he⟩⟩ := bgntRemovedBody_spec s
  · rwa [he]
  · rw [he]; exact k.removeGrant h
  · rw [he]; exact k.releaseBus h hu

theorem Kept.forgetOperation {op : ArithOp} {s : State} (h : P s) : P (forgetOperation op s) :=
  k.alike h {} rfl

theorem Kept.dispatch {s : State} (h : P s) : P (dispatchBody s) := by
  obtain he | ⟨src, hi, hw, he⟩ := dispatchBody_spec s
  · rwa [he]
  · rw [he]; exact k.handOver src h hi hw

/-- Every command keeps the property. -/
theorem Kept.exec {c : Instr} {s t : State} (h : P s) (he : exec c s = .next t) : P t := by
  cases c with
  | openLoad => cases he; exact k.immediate h (k.openLoad h)
  | commitLoad => cases he; exact k.immediate h (k.commitLoad h)
  | cancelLoad => cases he; exact k.immediate h (k.cancelLoad h)
  | retire => cases he; exact k.immediate h (k.retireCommand h)
  | queryCurve => cases he; exact k.immediate h (k.query h (queryCurveBody_spec s))
  | queryJob => cases he; exact k.immediate h (k.query h (queryJobBody_spec s))
  | continueHeld => cases he; exact k.immediate h (k.continueHeld h)
  | abort => cases he; exact k.immediate h (k.abortCommand h)
  | flushLevel => cases he; exact k.immediate h (k.flushCommand h)
  | engineReset => cases he; exact k.takeCommand h (k.engineReset h)
  | badCommand code => rw [exec_badCommand_next he]; exact k.immediate h h
  | submit l => cases he; exact k.hostAccess h (k.submitRead l h)
  | loadData x => cases he; exact k.windowWrite h (k.loadData x h)
  | cpop => cases he; exact k.windowWrite h (k.cpopBody h)
  | eventsWrite x => cases he; exact k.windowWrite h (k.alike h {} rfl)
  | eventEnableWrite x => cases he; exact k.windowWrite h (k.alike h {} rfl)
  | controlWrite x => cases he; exact k.windowWrite h (k.writeControl x h)
  | registerWrite reg x => cases he; exact k.windowWrite h (k.writePlain reg x h)
  | windowAccessError a =>
    rw [exec_windowAccessError_next he]; exact k.hostAccess h (k.alike h {} rfl)
  | rstAssert => cases he; exact k.assertRst h
  | rstRelease => rw [rstRelease_spec he]; exact k.releaseRst h
  | bgnt => cases he; exact k.bgnt h
  | bgntRemoved => cases he; exact k.bgntRemoved h
  | demandReadEnd outcome =>
    obtain ⟨u, hu, hk, hposs, ⟨hp, rfl⟩ | ⟨hp, hst, r, hr, rfl⟩⟩ := demandReadEnd_spec he
    · exact k.quietReset h hp
    · exact k.demandEnd r u outcome h hu hk hposs hp hst hr
  | resultWriteEnd outcome =>
    obtain ⟨u, hu, hk, _, ⟨hp, rfl⟩ | ⟨hp, hst, r, hr, rfl⟩⟩ := resultWriteEnd_spec he
    · exact k.quietReset h hp
    · exact k.writeEnd r u outcome h hu hk hp hst hr
  | prefetchReadEnd data =>
    obtain ⟨u, hu, hk, _, ⟨hp, rfl⟩ | ⟨hp, rfl⟩⟩ := prefetchReadEnd_spec he
    · exact k.quietReset h hp
    · exact k.prefetchEnd u data h hu hk hp
  | prefetchReadFailure =>
    obtain ⟨u, e, hu, hk, hf, ⟨hp, rfl⟩ | ⟨hp, rfl⟩⟩ := prefetchReadFailure_spec he
    · exact k.quietReset h hp
    · exact k.prefetchFailed u e h hu hk hf hp
  | droppedValueEnd outcome =>
    obtain ⟨u, hu, hk, _, ⟨hp, rfl⟩ | ⟨hp, rfl⟩⟩ := droppedValueEnd_spec he
    · exact k.quietReset h hp
    · exact k.droppedEnd u outcome h hu hk hp
  | wLowHalfEnd data =>
    obtain ⟨u, hu, hlast, rfl⟩ := wLowHalfEnd_spec he
    exact k.beginHighHalf u data h hu hlast
  | setupCompletion which =>
    obtain rfl | ⟨r, arg, hst, hr, ha, rfl⟩ := setupCompletion_spec he
    · exact k.forgetOperation h
    · exact k.setup r arg _ h hst hr ha
  | termsCompletion which =>
    obtain rfl | ⟨r, arg, w, j, hst, hr, ha, _, _, rfl⟩ := termsCompletion_spec he
    · exact k.forgetOperation h
    · exact k.terms r arg _ h hst hr ha
  | conversionCompletion which =>
    obtain rfl | ⟨r, arg, w, hst, hr, ha, _, hn, rfl⟩ := conversionCompletion_spec he
    · exact k.forgetOperation h
    · exact k.conversion r arg _ h hst hr ha hn
  | dispatch => cases he; exact k.dispatch h
  | engineResetCompletion =>
    cases he
    split
    next hp => exact k.completeReset h hp
    · exact h

end

end Sys2Proof.Machine

/-! SUPPORT. The law of the store (R33, R34) under every command, and the queue of commands, which none touches. -/

namespace Sys2Proof.Machine

/-! ### The law of the store -/

theorem StoreLaw.reactToSources {s : State} (h : StoreLaw s) : StoreLaw (reactToSources s) :=
  h.congr (by simp) (by simp)

theorem StoreLaw.choicePoint {s : State} (h : StoreLaw s) : StoreLaw (choicePoint s) := h.congr (by simp) (by simp)

theorem StoreLaw.releaseBus {s : State} (h : StoreLaw s) : StoreLaw (releaseBus s) := h.congr (by simp) (by simp)

theorem StoreLaw.settleRequest {s : State} (h : StoreLaw s) : StoreLaw (settleRequest s) :=
  h.congr (by simp) (by simp)

theorem StoreLaw.wakeFetch {s : State} (h : StoreLaw s) : StoreLaw (wakeFetch s) := by
  unfold Machine.wakeFetch
  split
  · split
    · exact h
    · exact h.congr (by simp) (by simp)
  · exact h

theorem StoreLaw.abort {s t : State} (h : StoreLaw s) (ha : Abortion s t) : StoreLaw t := by
  cases ha with
  | queued l j _ => exact (h.congr (t := removeQueued l j.tag s) rfl rfl).postJob _ _ _ _
  | suspended l x _ => exact (h.congr (t := setSlot l none s) (by simp) (by simp)).postJob _ _ _ _
  | held r _ => exact (h.congr (t := { s with hold := none }) rfl rfl).postJob _ _ _ _
  | running r _ =>
    unfold abortRunning
    split
    · exact h.endRunning _ _ _
    · exact h.congr rfl rfl

theorem StoreLaw.postAll : ∀ (js : List Job) {s : State}, StoreLaw s →
    StoreLaw (js.foldl (fun acc j => postAborted j acc) s)
  | [], _, h => h
  | j :: js, _, h => StoreLaw.postAll js (h.postJob j .aborted none none)

theorem StoreLaw.flushJobs {s : State} (h : StoreLaw s) (l : Fin 4) : StoreLaw (flushJobs l s).1 :=
  flushJobs_keeps (fun _ _ h ha => h.abort ha)
    (fun l s h => StoreLaw.postAll _ (h.congr (t := setQueue l [] s) rfl rfl)) l h

/-- R32: at the assertion no curve holds a block and every block is free. -/
theorem StoreLaw.assertRst (s : State) : StoreLaw (assertRst s) := by
  refine StoreLaw.of_empty rfl rfl ?_
  simp [heldBlocks, Machine.assertRst, mapCurves, droppedEntry, emptiedEntry, List.flatMap_map]

theorem StoreLaw.demandAcked {s : State} (h : StoreLaw s) (r : RunningJob) (v : Value) :
    StoreLaw (demandAcked r v s) := by
  unfold Machine.demandAcked
  split
  · exact h.endRunning _ _ _
  · split
    · exact h.congr (by simp) (by simp)
    · exact h.congr rfl rfl

theorem StoreLaw.demandFailed {s : State} (h : StoreLaw s) (r : RunningJob) (a : Word) :
    StoreLaw (demandFailed r a s) := by
  unfold Machine.demandFailed
  split <;> exact h.endRunning _ _ _

theorem StoreLaw.writeAcked {s : State} (h : StoreLaw s) (r : RunningJob) : StoreLaw (writeAcked r s) := by
  unfold Machine.writeAcked
  split
  · exact h.endRunning _ _ _
  · split
    · exact h.endRunning _ _ _
    · split
      · exact h.congr (by simp) (by simp)
      · exact h.congr (by simp) (by simp)

theorem StoreLaw.writeFailed {s : State} (h : StoreLaw s) (r : RunningJob) (a : Word) :
    StoreLaw (writeFailed r a s) := by
  unfold Machine.writeFailed
  split <;> exact h.endRunning _ _ _

theorem StoreLaw.setupBoundary {s : State} (h : StoreLaw s) (r : RunningJob) (arg : Value) (o : OpOutcome) :
    StoreLaw (setupBoundary r arg o s) := by
  unfold Machine.setupBoundary
  split
  · exact h.endRunning _ _ _
  · split
    · exact h.applyException _ _ _
    · split
      · exact h.congr (by simp) (by simp)
      · exact h.congr rfl rfl

theorem StoreLaw.termsBoundary {s : State} (h : StoreLaw s) (r : RunningJob) (arg : Value) (o : OpOutcome) :
    StoreLaw (termsBoundary r arg o s) := by
  unfold Machine.termsBoundary
  split
  · exact h.endRunning _ _ _
  · split
    · exact h.applyException _ _ _
    · split
      · exact h.congr (by simp) (by simp)
      · exact h.congr rfl rfl

theorem StoreLaw.conversionBoundary {s : State} (h : StoreLaw s) (r : RunningJob) (arg : Value) (o : Delivered) :
    StoreLaw (conversionBoundary r arg o s) := by
  unfold Machine.conversionBoundary
  split
  · split
    · exact h.congr rfl rfl
    · exact h.endRunning _ _ _
  · split
    · exact h.endRunning _ _ _
    · exact h.applyException _ _ _

theorem StoreLaw.endValue {s : State} (h : StoreLaw s) : StoreLaw (endValue s) := h.congr rfl rfl

theorem storeLaw_kept : Kept StoreLaw where
  alike h ha _ := h.congr ha.store ha.curves
  openSession _ _ h _ _ := h.set_entry rfl rfl rfl
  commitSession {s} h _ := h.set_entry (c := s.load.curve) rfl rfl rfl
  cancelSession {s} h _ := (h.congr (t := { s with load := { s.load with
    state := .idle, cursor := { s.load.cursor with lowHalf := none } } }) rfl rfl).emptyCurve s.load.curve
  takeLoadWord x h _ := h.takeLoadWord x
  emptyCurve c h _ _ := h.emptyCurve c
  retire c h _ _ := h.set_entry (c := c) rfl rfl rfl
  acceptJob {s} d l tag rest h _ _ _ :=
    (h.set_entry (t := addReference d.curve s) (c := d.curve) rfl rfl rfl).congr (by simp [acceptJob, addReference])
      (by simp [acceptJob, addReference, curveEntry])
  continueJob _ _ h _ _ := StoreLaw.reactToSources (h.congr rfl rfl)
  abort h ha := (h.abort ha).reactToSources
  flush l h := (h.flushJobs l).reactToSources
  writeControl _ h := StoreLaw.reactToSources (h.congr rfl rfl)
  popRecord _ _ h _ := h.congr rfl rfl
  engineReset {s} h _ := by
    have taken : StoreLaw (takeReset s) := h.congr rfl rfl
    unfold engineResetBody
    split
    · exact taken
    · exact taken.completeReset
  completeReset h _ := h.completeReset
  quietReset h _ := h.endValue.completeReset
  assertRst {s} _ := StoreLaw.assertRst s
  releaseRst _ := StoreLaw.reset.congr rfl rfl
  takeGrant h _ := StoreLaw.choicePoint (h.congr rfl rfl)
  removeGrant h := h.congr rfl rfl
  releaseBus h _ := h.releaseBus
  beginHighHalf _ _ h _ _ := h.congr rfl rfl
  demandEnd {s} r u outcome h _ _ _ _ _ _ := by
    cases outcome with
    | ack data =>
      have read : StoreLaw { s with bus := resumePrefetch (endValue s).bus } := h.congr rfl rfl
      exact (read.demandAcked r _).choicePoint
    | berr => exact (h.endValue.demandFailed r _).releaseBus
  writeEnd r u outcome h _ _ _ _ _ := by
    cases outcome with
    | ack => exact (h.endValue.writeAcked _).choicePoint
    | berr => exact (h.endValue.writeFailed r _).releaseBus
  prefetchEnd _ _ h _ _ _ := StoreLaw.choicePoint (StoreLaw.wakeFetch (h.congr rfl rfl))
  prefetchFailed _ _ h _ _ _ _ :=
    StoreLaw.releaseBus (StoreLaw.wakeFetch (h.congr rfl rfl))
  droppedEnd u outcome h _ _ _ := by
    cases outcome with
    | ack => exact h.endValue.choicePoint
    | berr => exact h.endValue.releaseBus
  setup r arg o h _ _ _ := (h.setupBoundary r arg o).settleRequest
  terms r arg o h _ _ _ := (h.termsBoundary r arg o).settleRequest
  conversion r arg o h _ _ _ _ := (h.conversionBoundary r arg o).settleRequest
  handOver src h _ _ := (h.handOver src).settleRequest

/-- A property that every command keeps and that does not look at the queue of commands is kept by every step. -/
theorem Kept.step {P : State → Prop} (k : Kept P) (hq : ∀ {s} q, P s → P { s with pending := q }) {s t : State}
    (h : P s) (hs : step s = .next t) : P t := by
  unfold Machine.step at hs
  split at hs
  · cases hs; exact h
  next c rest _ => exact k.exec (hq rest h) hs

/-- Settles O58: every command keeps the law of the store, by the induction over the commands. -/
theorem storeLawIsKept : Obligations.StoreLawIsKept := fun _ _ h hs =>
  storeLaw_kept.step (fun _ h => h.congr rfl rfl) h hs

/-! ### The queue of commands (log 25) -/

@[simp] theorem wakeFetch_pending (s : State) : (wakeFetch s).pending = s.pending := by
  unfold wakeFetch
  split
  · split <;> simp
  · rfl

@[simp] theorem abortRunning_pending (r : RunningJob) (s : State) : (abortRunning r s).pending = s.pending := by
  unfold abortRunning
  split <;> simp

theorem Abortion.pending {s t : State} (h : Abortion s t) : t.pending = s.pending := by
  cases h with
  | queued l j _ => simp [abortQueued]
  | suspended l x _ => simp [abortSuspended]
  | held r _ => simp [abortHeld]
  | running r _ => simp

theorem postAll_pending : ∀ (js : List Job) (s : State),
    (js.foldl (fun acc j => postAborted j acc) s).pending = s.pending
  | [], _ => rfl
  | j :: js, s => by
    rw [List.foldl_cons, postAll_pending js]
    simp

theorem flushJobs_pending (l : Fin 4) (s : State) : (flushJobs l s).1.pending = s.pending :=
  flushJobs_keeps (P := fun t => t.pending = s.pending) (fun _ _ h ha => ha.pending.trans h)
    (fun l t h => by rw [postAll_pending]; exact h) l rfl

@[simp] theorem failSession_pending (reason : LoadReason) (s : State) : (failSession reason s).pending = s.pending := by
  simp [failSession]

@[simp] theorem placeValue_pending (ws : List Word) (cur : Cursor) (s : State) :
    (placeValue ws cur s).pending = s.pending := by
  unfold placeValue
  split
  · split <;> simp [storeWords, takeBlock]
  · rfl

@[simp] theorem completeValue_pending (reason : Option LoadReason) (ws : List Word) (cur : Cursor) (s : State) :
    (completeValue reason ws cur s).pending = s.pending := by
  cases reason <;> simp [completeValue]

@[simp] theorem takeValue_pending (h : CurveHeader) (v : Value) (s : State) :
    (takeValue h v s).pending = s.pending := by
  unfold takeValue
  split <;> simp

@[simp] theorem takeHalf_pending (h : CurveHeader) (x : Word) (s : State) :
    (takeHalf h x s).pending = s.pending := by
  unfold takeHalf
  split <;> simp

theorem takeLoadWord_pending (x : Word) (s : State) : (takeLoadWord x s).pending = s.pending := by
  unfold takeLoadWord
  dsimp only
  split <;> simp

theorem demandAcked_pending (r : RunningJob) (v : Value) (s : State) : (demandAcked r v s).pending = s.pending := by
  unfold demandAcked
  split
  · simp
  · split <;> simp

theorem demandFailed_pending (r : RunningJob) (a : Word) (s : State) : (demandFailed r a s).pending = s.pending := by
  unfold demandFailed
  split <;> simp

theorem writeAcked_pending (r : RunningJob) (s : State) : (writeAcked r s).pending = s.pending := by
  unfold writeAcked
  split
  · simp
  · split
    · simp
    · split <;> simp

theorem writeFailed_pending (r : RunningJob) (a : Word) (s : State) : (writeFailed r a s).pending = s.pending := by
  unfold writeFailed
  split <;> simp

theorem setupBoundary_pending (r : RunningJob) (arg : Value) (o : OpOutcome) (s : State) :
    (setupBoundary r arg o s).pending = s.pending := by
  unfold setupBoundary
  split
  · simp
  · split
    · simp
    · split <;> simp [continueWith]

theorem termsBoundary_pending (r : RunningJob) (arg : Value) (o : OpOutcome) (s : State) :
    (termsBoundary r arg o s).pending = s.pending := by
  unfold termsBoundary
  split
  · simp
  · split
    · simp
    · split <;> simp [continueWith]

theorem conversionBoundary_pending (r : RunningJob) (arg : Value) (o : Delivered) (s : State) :
    (conversionBoundary r arg o s).pending = s.pending := by
  unfold conversionBoundary
  split
  · split <;> simp [captureResult]
  · split <;> simp

theorem pending_kept (q : List Instr) : Kept fun s => s.pending = q where
  alike h _ hp := hp.trans h
  openSession _ _ h _ _ := h
  commitSession h _ := h
  cancelSession h _ := h
  takeLoadWord x h _ := (takeLoadWord_pending x _).trans h
  emptyCurve _ h _ _ := h
  retire _ h _ _ := h
  acceptJob d l tag rest h _ _ _ := by simpa [acceptJob, addReference] using h
  continueJob r act h _ _ := by simpa [continueJob] using h
  abort h ha := by simpa [ha.pending] using h
  flush l h := by simpa [flushJobs_pending] using h
  writeControl x h := by simpa [writeControl] using h
  popRecord _ _ h _ := h
  engineReset h _ := by
    unfold engineResetBody
    split <;> exact h
  completeReset h _ := h
  quietReset h _ := h
  assertRst h := h
  releaseRst h := h
  takeGrant h _ := by simpa [takeGrant] using h
  removeGrant h := h
  releaseBus h _ := by simpa using h
  beginHighHalf _ _ h _ _ := h
  demandEnd r u outcome h _ _ _ _ _ _ := by
    cases outcome with
    | ack data => simpa [demandEnd, demandAcked_pending] using h
    | berr => simpa [demandEnd, demandFailed_pending] using h
  writeEnd r u outcome h _ _ _ _ _ := by
    cases outcome with
    | ack => simpa [writeEnd, writeAcked_pending] using h
    | berr => simpa [writeEnd, writeFailed_pending] using h
  prefetchEnd u data h _ _ _ := by simpa [prefetchEnd] using h
  prefetchFailed u e h _ _ _ _ := by simpa [prefetchFailed] using h
  droppedEnd u outcome h _ _ _ := by cases outcome <;> simpa [droppedEnd] using h
  setup r arg o h _ _ _ := by simpa [setupBoundary_pending] using h
  terms r arg o h _ _ _ := by simpa [termsBoundary_pending] using h
  conversion r arg o h _ _ _ _ := by simpa [conversionBoundary_pending] using h
  handOver src h _ _ := by simpa using h

/-- Settles O2: the induction over the commands, for the property of having the queue before. -/
theorem execKeepsTheQueue : Obligations.ExecKeepsTheQueue := fun _ s _ he => (pending_kept s.pending).exec rfl he

/-- Settles O1: the two equations of `step`. -/
theorem stepTakesFrontCommand : Obligations.StepTakesFrontCommand :=
  ⟨fun _ _ _ => rfl, fun s h => by rw [step, h]⟩

end Sys2Proof.Machine

/-! SUPPORT. All laws of every moment under every command. Between the action of a value's owner or of a command and the
bus master's or the dispatcher's reaction some laws do not hold yet; the bundles below say which do. -/

namespace Sys2Proof.Machine

/-! ### Bundles of laws -/

/-- The laws that hold before the bus request is settled: all but the two clauses on the bus state. -/
structure WorkLaw (s : State) : Prop where
  store : StoreLaw s
  curve : CurveLaw s
  jobs : JobLaw s
  engine : EngineLaw s
  reset : ResetLaw s
  bus : BusCore s
  prefetch : PrefetchLaw s
  transfer : TransferLaw s
  control : ControlLaw s

/-- The laws that hold before the dispatcher reacts, but for those of the job set: the yield request and the bus request
are not settled. -/
structure SourceLaw (s : State) : Prop where
  store : StoreLaw s
  curve : CurveLaw s
  engine : EngineLaw s
  reset : ResetLaw s
  bus : BusCore s
  owner : OwnerLaw s
  prefetch : PrefetchLaw s
  transfer : TransferLaw s
  control : ControlLaw s

theorem Lawful.jobs {s : State} (h : Lawful s) : JobLaw s := ⟨⟨h.place, h.tag, h.count⟩, h.yield⟩

theorem Lawful.work {s : State} (h : Lawful s) : WorkLaw s :=
  ⟨h.store, h.curve, h.jobs, h.engine, h.reset, h.bus.core, h.prefetch, h.transfer, h.control⟩

theorem Lawful.sources {s : State} (h : Lawful s) : SourceLaw s :=
  ⟨h.store, h.curve, h.engine, h.reset, h.bus.core, h.bus.owner, h.prefetch, h.transfer, h.control⟩

theorem WorkLaw.lawful {s : State} (h : WorkLaw s) (hb : BusLaw s) : Lawful s :=
  ⟨h.store, h.curve, h.jobs.place, h.engine, h.jobs.tag, h.jobs.count, h.jobs.yield, h.reset, hb, h.prefetch,
    h.transfer, h.control⟩

theorem ControlLaw.congr {s t : State} (h : ControlLaw s) (hc : t.control = s.control) : ControlLaw t := by
  unfold ControlLaw at *
  rwa [hc]

/-- R134: a choice point with no value under way restores the law of the bus. -/
theorem WorkLaw.choice {s : State} (h : WorkLaw s) (ho : s.bus.state = .owner) (hu : s.bus.underWay = none)
    (hr : Thawed s) : Lawful (choicePoint s) :=
  have hb := h.bus.choice ho hu
  WorkLaw.lawful
    { store := h.store.choicePoint
      curve := h.curve.of_eq
      jobs := h.jobs.of_eq
      engine := h.engine.of_eq
      reset := hr.choice.law
      bus := hb.core
      prefetch := prefetchLaw_choice h.prefetch h.bus hu
      transfer := h.transfer.choice
      control := h.control.congr (by simp) } hb

theorem WorkLaw.release {s : State} (h : WorkLaw s) (hu : s.bus.underWay = none) : Lawful (releaseBus s) :=
  have hb := h.bus.release hu
  WorkLaw.lawful
    { store := h.store.releaseBus
      curve := h.curve.of_eq
      jobs := h.jobs.of_eq
      engine := h.engine.of_eq
      reset := h.reset.of_eq
      bus := hb.core
      prefetch := h.prefetch.release
      transfer := h.transfer.release
      control := h.control.congr (by simp) } hb

@[simp] theorem settleRequest_underWay (s : State) : (settleRequest s).bus.underWay = s.bus.underWay := by
  unfold settleRequest
  split
  · split <;> rfl
  · split <;> rfl
  · rfl

theorem WorkLaw.settle {s : State} (h : WorkLaw s) (ho : OwnerLaw s) : Lawful (settleRequest s) :=
  have hb := h.bus.settle ho
  WorkLaw.lawful
    { store := h.store.settleRequest
      curve := h.curve.of_eq
      jobs := h.jobs.of_eq
      engine := h.engine.of_eq
      reset := h.reset.of_eq
      bus := hb.core
      prefetch := h.prefetch.settle
      transfer := h.transfer.settle
      control := h.control.congr (by simp) } hb

/-- R105, R76: the dispatcher's reaction restores the laws. -/
theorem SourceLaw.react {s : State} (h : SourceLaw s) (hj : JobLaw (reactToSources s)) : Lawful (reactToSources s) :=
  have hb := h.bus.react h.owner
  WorkLaw.lawful
    { store := h.store.reactToSources
      curve := h.curve.of_eq
      jobs := hj
      engine := h.engine.react
      reset := h.reset.react
      bus := hb.core
      prefetch := h.prefetch.react
      transfer := h.transfer.react h.bus
      control := h.control.congr (by simp) } hb

/-- A change that touches nothing the laws of the engine, the bus, the reset and the transfers look at. -/
theorem SourceLaw.of_places {s t : State} (h : SourceLaw s) (hstore : StoreLaw t) (hcurve : CurveLaw t)
    (he : t.engine = s.engine := by first | (simp; done) | rfl)
    (hb : t.bus = s.bus := by first | (simp; done) | rfl)
    (hp : t.cmd.pending = s.cmd.pending := by first | (simp; done) | rfl)
    (hc : t.control = s.control := by first | (simp; done) | rfl) : SourceLaw t where
  store := hstore
  curve := hcurve
  engine := h.engine.of_eq (by rw [he]) (by rw [he])
  reset := h.reset.of_eq (by rw [he]) hp (by rw [hb])
  bus := h.bus.congr (by rw [hb]) (by rw [hb]) (by rw [hb]) (by rw [hb]) (by rw [he]) (by rw [he])
  owner := h.owner.congr (by rw [hb]) (by rw [hb])
  prefetch := h.prefetch.congr (by rw [hb]) (by rw [hb]) (by rw [hb]) (by rw [hb]) (by rw [he])
    (by simp only [runningElement, he])
  transfer := h.transfer.congr (by rw [hb]) (by rw [hb]) (by rw [hb]) (by simp only [runningTransfer, he])
  control := h.control.congr hc

theorem Lawful.alike {s t : State} (h : Lawful s) (a : Alike s t) : Lawful t :=
  have element : runningElement t = runningElement s := by simp only [runningElement, a.running]
  have transfer : runningTransfer t = runningTransfer s := by simp only [runningTransfer, a.running]
  have pending : busPending t = busPending s := by
    simp only [busPending, prefetchPending, prefetchEnabled, a.bus, a.running, a.engine, a.control]
  have core : BusCore t := h.bus.core.congr (by rw [a.bus]) (by rw [a.bus]) (by rw [a.bus]) (by rw [a.bus])
    a.engine a.running
  WorkLaw.lawful
    { store := h.store.congr a.store a.curves
      curve := ⟨fun c => by rw [curveEntry_congr a.curves, a.session, a.sessionCurve]; exact h.curve.loading c,
        fun c => by rw [curveEntry_congr a.curves]; exact h.curve.unreferenced c,
        fun c => by rw [curveEntry_congr a.curves]; exact h.curve.emptied c,
        fun c => by rw [curveEntry_congr a.curves]; exact h.curve.header c,
        fun c => by rw [curveEntry_congr a.curves]; exact h.curve.retiring c⟩
      jobs := h.jobs.of_eq a.queues a.freeTags a.slots a.engine a.running a.hold a.records a.curves a.yield a.control
      engine := h.engine.of_eq a.engine a.running
      reset := h.reset.of_eq a.engine a.commandState (by rw [a.bus])
      bus := core
      prefetch := h.prefetch.congr (by rw [a.bus]) (by rw [a.bus]) (by rw [a.bus]) (by rw [a.bus]) a.engine element
      transfer := h.transfer.congr (by rw [a.bus]) (by rw [a.bus]) (by rw [a.bus]) transfer
      control := h.control.congr a.control }
    (core.law (by rw [a.bus]; exact h.bus.owner) (by rw [a.bus, pending]; exact h.bus.requested))

/-- A change to the directory, the store and the session alone. -/
theorem Lawful.of_directory {s t : State} (h : Lawful s) (hstore : StoreLaw t) (hcurve : CurveLaw t) (hjobs : JobLaw t)
    (he : t.engine = s.engine := by first | (simp; done) | rfl)
    (hb : t.bus = s.bus := by first | (simp; done) | rfl)
    (hp : t.cmd.pending = s.cmd.pending := by first | (simp; done) | rfl)
    (hc : t.control = s.control := by first | (simp; done) | rfl) : Lawful t :=
  have sources := h.sources.of_places hstore hcurve he hb hp hc
  WorkLaw.lawful
    ⟨hstore, hcurve, hjobs, sources.engine, sources.reset, sources.bus, sources.prefetch, sources.transfer,
      sources.control⟩
    (h.bus.of_eq hb he hc)

end Sys2Proof.Machine

/-! SUPPORT. All laws at the boundaries of the running job and at the events of the bus master. -/

namespace Sys2Proof.Machine

/-! ### What leaves the tenure as it is -/

/-- The bus state is the same, and a value is under way in both states or in neither. -/
def SameTenure (s t : State) : Prop :=
  t.bus.state = s.bus.state ∧ t.bus.underWay.isSome = s.bus.underWay.isSome

theorem SameTenure.owner {s t : State} (h : SameTenure s t) (ho : OwnerLaw s) : OwnerLaw t := ho.congr h.1 h.2

theorem SameTenure.underWay {s t : State} (h : SameTenure s t) (hu : s.bus.underWay = none) :
    t.bus.underWay = none := by
  have := h.2
  rw [hu] at this
  simpa using this

@[simp] theorem endRunning_bus (r : RunningJob) (st : JobStatus) (e : Option BusErr) (s : State) :
    (endRunning r st e s).bus = discardJobWork s.bus := by simp [endRunning]

@[simp] theorem suspend_bus (r : RunningJob) (p : Option PartialPart) (s : State) :
    (suspend r p s).bus = discardJobWork s.bus := by simp [suspend]

theorem sameTenure_endRunning (r : RunningJob) (st : JobStatus) (e : Option BusErr) (s : State) :
    SameTenure s (endRunning r st e s) := by simp [SameTenure, discardJobWork]

theorem sameTenure_suspend (r : RunningJob) (p : Option PartialPart) (s : State) :
    SameTenure s (suspend r p s) := by simp [SameTenure, discardJobWork]

theorem sameTenure_storeResult (r : RunningJob) (v : Value) (s : State) : SameTenure s (storeResult r v s) :=
  ⟨rfl, rfl⟩

theorem sameTenure_enterFetch (r : RunningJob) (s : State) : SameTenure s (enterFetch r s) := by
  unfold enterFetch
  split <;> exact ⟨rfl, rfl⟩

theorem sameTenure_applyException (r : RunningJob) (e : Exc) (a : Value) (s : State) :
    SameTenure s (applyException r e a s) := by
  unfold applyException
  dsimp only
  split
  · unfold applyMark
    dsimp only
    split
    · exact sameTenure_storeResult _ _ s
    · exact sameTenure_endRunning _ _ _ s
  · exact sameTenure_endRunning _ _ _ s
  · unfold applyHold
    split
    · simp [SameTenure, discardJobWork]
    · exact sameTenure_endRunning _ _ _ s

theorem sameTenure_wakeFetch (s : State) : SameTenure s (wakeFetch s) := by
  unfold wakeFetch
  split
  · split
    · exact ⟨rfl, rfl⟩
    · exact sameTenure_enterFetch _ s
  · exact ⟨rfl, rfl⟩

theorem sameTenure_setupBoundary (r : RunningJob) (arg : Value) (o : OpOutcome) (s : State) :
    SameTenure s (setupBoundary r arg o s) := by
  unfold setupBoundary
  split
  · exact sameTenure_endRunning _ _ _ s
  · split
    · exact sameTenure_applyException _ _ _ s
    · split
      · exact sameTenure_suspend _ _ s
      · exact ⟨rfl, rfl⟩

theorem sameTenure_termsBoundary (r : RunningJob) (arg : Value) (o : OpOutcome) (s : State) :
    SameTenure s (termsBoundary r arg o s) := by
  unfold termsBoundary
  split
  · exact sameTenure_endRunning _ _ _ s
  · split
    · exact sameTenure_applyException _ _ _ s
    · split
      · exact sameTenure_suspend _ _ s
      · exact ⟨rfl, rfl⟩

theorem sameTenure_conversionBoundary (r : RunningJob) (arg : Value) (o : Delivered) (s : State) :
    SameTenure s (conversionBoundary r arg o s) := by
  unfold conversionBoundary
  split
  · split
    · exact sameTenure_storeResult _ _ s
    · exact sameTenure_endRunning _ _ _ s
  · split
    · exact sameTenure_endRunning _ _ _ s
    · exact sameTenure_applyException _ _ _ s

theorem sameTenure_demandAcked (r : RunningJob) (v : Value) (s : State) : SameTenure s (demandAcked r v s) := by
  unfold demandAcked
  split
  · exact sameTenure_endRunning _ _ _ s
  · split
    · exact sameTenure_suspend _ _ s
    · exact ⟨rfl, rfl⟩

theorem sameTenure_demandFailed (r : RunningJob) (a : Word) (s : State) : SameTenure s (demandFailed r a s) := by
  unfold demandFailed
  split <;> exact sameTenure_endRunning _ _ _ s

theorem sameTenure_writeAcked (r : RunningJob) (s : State) : SameTenure s (writeAcked r s) := by
  unfold writeAcked
  split
  · exact sameTenure_endRunning _ _ _ s
  · split
    · exact sameTenure_endRunning _ _ _ s
    · split
      · exact sameTenure_suspend _ _ s
      · exact sameTenure_enterFetch _ s

theorem sameTenure_writeFailed (r : RunningJob) (a : Word) (s : State) : SameTenure s (writeFailed r a s) := by
  unfold writeFailed
  split <;> exact sameTenure_endRunning _ _ _ s

/-! ### The running job at a boundary (R84) -/

/-- No operation or transfer of the running job `r` is in flight and none waits for the bus. -/
structure AtBoundary (s : State) (r : RunningJob) : Prop where
  store : StoreLaw s
  curve : CurveLaw s
  jobs : JobLaw s
  thawed : Thawed s
  running : s.engine.running = some r
  bus : BusCore s
  quiet : Quiet s
  noRead : s.bus.waitingRead = none
  prefetch : AfterFetch s
  transfer : TransferLaw s
  control : ControlLaw s

/-- The two stand for the same job of the laws: its tag, its curve and its level. -/
def SameJob (r r' : RunningJob) : Prop :=
  r'.job.tag = r.job.tag ∧ r'.job.desc.curve = r.job.desc.curve ∧ r'.job.level = r.job.level

section
variable {s : State} {r r' : RunningJob} (h : AtBoundary s r)
include h

theorem AtBoundary.element : runningElement s = some (isBatch r.job.desc, r.job.index) := by
  simp [runningElement, h.running]

theorem AtBoundary.endRunning (hj : SameJob r r') (st : JobStatus) (e : Option BusErr) :
    WorkLaw (endRunning r' st e s) where
  store := h.store.endRunning _ _ _
  curve := h.curve.endRunning _ _ _
  jobs := h.jobs.endRunning h.running hj.1 hj.2.1 _ _
  engine := EngineLaw.endRunning _ _ _ _
  reset := (h.thawed.endRunning _ _ _).law
  bus := h.bus.endRunning h.quiet _ _ _
  prefetch := PrefetchLaw.endRunning _ _ _ _
  transfer := h.transfer.endRunning h.quiet _ _ _
  control := h.control.congr (by simp)

theorem AtBoundary.suspend (hj : SameJob r r') (hy : yieldRaised s r' = true) (p : Option PartialPart) :
    WorkLaw (suspend r' p s) where
  store := h.store.congr (by simp) (by simp)
  curve := h.curve.of_eq
  jobs := jobLaw_suspend h.jobs h.running hj hy p
  engine := EngineLaw.suspend _ _ _
  reset := (h.thawed.suspend _ _).law
  bus := h.bus.suspend h.quiet _ _
  prefetch := PrefetchLaw.suspend _ _ _
  transfer := h.transfer.suspend h.quiet _ _
  control := h.control.congr (by simp)

theorem AtBoundary.applyException (e : Exc) (a : Value) : WorkLaw (applyException r e a s) where
  store := h.store.applyException _ _ _
  curve := h.curve.applyException _ _ _
  jobs := h.jobs.applyException h.running _ _
  engine := EngineLaw.applyException _ _ _ _
  reset := (h.thawed.applyException _ _ _).law
  bus := h.bus.applyException h.quiet h.noRead _ _ _
  prefetch := prefetchLaw_applyException h.prefetch h.running h.thawed.1 _ _
  transfer := h.transfer.applyException h.quiet h.noRead h.running _ _
  control := h.control.congr (by simp)

/-- R80: the write of the element's result is requested. -/
theorem AtBoundary.storeResult (v : Value) : WorkLaw (storeResult r v s) where
  store := h.store.congr rfl rfl
  curve := h.curve.of_eq
  jobs := jobLaw_storeResult h.jobs h.running ⟨rfl, rfl, rfl⟩ v
  engine := EngineLaw.storeResult _ _ _
  reset := (h.thawed.to (by simp)).law
  bus := h.bus.storeResult h.quiet h.noRead _ _
  prefetch := (afterFetch_storeResult h.prefetch v h.element h.thawed.1).law_of_ne (by simp)
  transfer := (h.transfer.settled h.quiet h.noRead h.running).storeResult rfl v
  control := h.control.congr rfl

/-- R77 to R79: the engine goes on with the element. -/
theorem AtBoundary.setEngine {st : EngineState} (hj : r'.job = r.job)
    (hst : st ≠ .idle ∧ st ≠ .fetch ∧ st ≠ .frozen) (he : EngineLaw (setEngine st r' s)) :
    WorkLaw (setEngine st r' s) where
  store := h.store.congr rfl rfl
  curve := h.curve.of_eq
  jobs := jobLaw_setEngine h.jobs h.running (by simp [hj]) hst.1
  engine := he
  reset := (h.thawed.to (by simpa using hst.2.2)).law
  bus := h.bus.setEngine h.quiet h.noRead _ _
  prefetch := (h.prefetch.setEngine (hj ▸ h.element) h.thawed.1 hst.2.2).law_of_ne (by simpa using hst.2.1)
  transfer := (h.transfer.settled h.quiet h.noRead h.running).law (r := r') rfl (by rw [hj])
  control := h.control.congr rfl

theorem AtBoundary.continueWith {arg : Value} (ha : r.arg = some arg) (w : Working) :
    WorkLaw (continueWith r w s) := by
  refine h.setEngine rfl ?_ (EngineLaw.working r w arg ha s)
  split <;> decide

theorem AtBoundary.setupBoundary {arg : Value} (ha : r.arg = some arg) (o : OpOutcome) :
    WorkLaw (setupBoundary r arg o s) := by
  unfold Machine.setupBoundary
  split
  · exact h.endRunning ⟨rfl, rfl, rfl⟩ _ _
  · split
    · exact h.applyException _ _
    · split
      next hy => exact h.suspend ⟨rfl, rfl, rfl⟩ hy _
      · exact h.continueWith ha _

theorem AtBoundary.termsBoundary {arg : Value} (ha : r.arg = some arg) (o : OpOutcome) :
    WorkLaw (termsBoundary r arg o s) := by
  unfold Machine.termsBoundary
  split
  · exact h.endRunning ⟨rfl, rfl, rfl⟩ _ _
  · split
    · exact h.applyException _ _
    · split
      next hy => exact h.suspend ⟨rfl, rfl, rfl⟩ hy _
      · exact h.continueWith ha _

theorem AtBoundary.conversionBoundary (arg : Value) (o : Delivered) : WorkLaw (conversionBoundary r arg o s) := by
  unfold Machine.conversionBoundary
  split
  · split
    · exact h.storeResult _
    next v _ => exact h.endRunning (r' := captured r v) ⟨rfl, rfl, rfl⟩ _ _
  · split
    · exact h.endRunning ⟨rfl, rfl, rfl⟩ _ _
    · exact h.applyException _ _

/-- R77: the boundary of a demand read that succeeded. -/
theorem AtBoundary.demandAcked (v : Value) : WorkLaw (demandAcked r v s) := by
  unfold Machine.demandAcked
  split
  · exact h.endRunning ⟨rfl, rfl, rfl⟩ _ _
  · split
    next hy => exact h.suspend ⟨rfl, rfl, rfl⟩ hy _
    · exact h.setEngine rfl (by decide) (EngineLaw.setupEngine (a := v) rfl s)

theorem AtBoundary.demandFailed (a : Word) : WorkLaw (demandFailed r a s) := by
  unfold Machine.demandFailed
  split <;> exact h.endRunning ⟨rfl, rfl, rfl⟩ _ _

theorem AtBoundary.writeFailed (a : Word) : WorkLaw (writeFailed r a s) := by
  unfold Machine.writeFailed
  split <;> exact h.endRunning ⟨rfl, rfl, rfl⟩ _ _

/-- R81: the entries of the buffer follow the element that has ended, so they begin with the next one. -/
theorem AtBoundary.beforeFetch (hd : r'.job.desc = r.job.desc) (hi : r'.job.index = r.job.index + 1) :
    BeforeFetch s r' where
  present := by
    rw [hd, Bool.eq_iff_iff, h.prefetch.present]
    simp [h.thawed.1, h.running]
  absent := h.prefetch.absent
  consecutive pf hp := .inr (by rw [hi]; exact h.prefetch.consecutive r pf h.running hp)
  inFlight := h.prefetch.inFlight
  highest := h.prefetch.highest

theorem AtBoundary.enterFetch (hj : SameJob r r') (hd : r'.job.desc = r.job.desc)
    (hi : r'.job.index = r.job.index + 1) : WorkLaw (enterFetch r' s) where
  store := h.store.congr (by simp) (by simp)
  curve := h.curve.of_eq
  jobs := jobLaw_enterFetch h.jobs h.running hj
  engine := EngineLaw.enterFetch _ _
  reset := (h.thawed.enterFetch _).law
  bus := h.bus.enterFetch h.quiet h.noRead _
  prefetch := (h.beforeFetch hd hi).enterFetch h.noRead
  transfer := (h.transfer.settled h.quiet h.noRead h.running).enterFetch hd
  control := h.control.congr (by simp)

/-- R81: the boundary of a result write that succeeded. -/
theorem AtBoundary.writeAcked : WorkLaw (writeAcked (countElement r) s) := by
  unfold Machine.writeAcked
  split
  · exact h.endRunning (r' := countElement r) ⟨rfl, rfl, rfl⟩ _ _
  · split
    · exact h.endRunning (r' := countElement r) ⟨rfl, rfl, rfl⟩ _ _
    · split
      next hy => exact h.suspend (r' := nextElement (countElement r)) ⟨rfl, rfl, rfl⟩ hy _
      · exact h.enterFetch (r' := nextElement (countElement r)) ⟨rfl, rfl, rfl⟩ rfl rfl

end

/-! ### From a lawful state to a boundary -/

theorem Lawful.thawed {s : State} (h : Lawful s) (hp : s.cmd.pending = false) : Thawed s :=
  ⟨fun hf => by simp [h.reset.frozen.mp hf] at hp, hp⟩

theorem Lawful.thawed_of_ne {s : State} (h : Lawful s) (hz : s.engine.state ≠ .frozen) : Thawed s :=
  ⟨hz, Bool.eq_false_iff.mpr fun hp => hz (h.reset.frozen.mpr hp)⟩

/-- An operation of the running job has ended: SETUP, an iteration, or the conversion, which has no result in hand. -/
theorem Lawful.atBoundary {s : State} (h : Lawful s) {r : RunningJob} (hr : s.engine.running = some r)
    (hst : s.engine.state = .setup ∨ s.engine.state = .terms ∨ s.engine.state = .store ∧ r.result = none) :
    AtBoundary s r := by
  have hz : s.engine.state ≠ .frozen := by rcases hst with h | h | h <;> simp [h]
  have hf : s.engine.state ≠ .fetch := by rcases hst with h | h | h <;> simp [h]
  have quiet : Quiet s := by
    refine h.bus.quiet hz (fun hs => ⟨r, hr, ?_⟩) fun h => absurd h hf
    rcases hst with h | h | h
    · rw [h] at hs; cases hs
    · rw [h] at hs; cases hs
    · exact h.2
  exact
    { store := h.store, curve := h.curve, jobs := h.jobs, thawed := h.thawed_of_ne hz, running := hr, bus := h.bus.core,
      quiet := quiet, noRead := h.bus.core.waitingRead_none hf, prefetch := h.prefetch.afterFetch (.inl hf),
      transfer := h.transfer, control := h.control }

/-- The value under way of the running job has ended: its demand read or its result write. -/
theorem Lawful.atBoundary_endValue {s : State} (h : Lawful s) {r : RunningJob} {u : UnderWay}
    (hr : s.engine.running = some r) (hp : s.cmd.pending = false) (hu : s.bus.underWay = some u)
    (hk : u.kind = .demandRead ∨ u.kind = .resultWrite) : AtBoundary (endValue s) r := by
  have thawed := h.thawed hp
  have waiting : s.bus.waitingWrite = none ∧ s.bus.waitingRead = none := by
    rcases hk with hk | hk
    · obtain ⟨hf, hread⟩ := (h.bus.reading u hu hk).resolve_left thawed.1
      refine ⟨?_, hread⟩
      by_contra hw
      have := (h.bus.write (Option.isSome_iff_ne_none.mpr hw)).1
      rw [hf] at this
      cases this
    · obtain ⟨hst, hwrite, _⟩ := (h.bus.writing u hu hk).resolve_left thawed.1
      exact ⟨hwrite, h.bus.core.waitingRead_none (by simp [hst])⟩
  exact
    { store := h.store.endValue, curve := h.curve.of_eq, jobs := h.jobs.of_eq, thawed := thawed.congr, running := hr
      bus := busCore_endValue h.bus.core h.bus.buffered
      quiet := ⟨waiting.1, fun _ hn => by simp at hn, fun _ hn => by simp at hn⟩
      noRead := waiting.2
      prefetch := afterFetch_endValue h.prefetch hu (by rcases hk with hk | hk <;> simp [hk])
      transfer := h.transfer.endValue, control := h.control.congr rfl }

/-- R137: a demand read that ends with ACK lets prefetch go on; the laws do not look at the flag. -/
theorem AtBoundary.resumePrefetch {s : State} {r : RunningJob} (h : AtBoundary s r) :
    AtBoundary { s with bus := resumePrefetch s.bus } r where
  store := h.store.congr rfl rfl
  curve := h.curve.of_eq
  jobs := h.jobs.of_eq
  thawed := h.thawed.congr
  running := h.running
  bus := h.bus.congr
  quiet := ⟨h.quiet.write, h.quiet.reading, h.quiet.writing⟩
  noRead := h.noRead
  prefetch :=
    { present := by simpa [Machine.resumePrefetch] using h.prefetch.present
      absent := fun hn => h.prefetch.absent (by simpa [Machine.resumePrefetch] using hn)
      consecutive := fun r' pf hr' hp => by
        obtain ⟨pf', hpf', rfl⟩ := Option.map_eq_some_iff.mp hp
        exact h.prefetch.consecutive r' pf' hr' hpf'
      inFlight := h.prefetch.inFlight
      highest := h.prefetch.highest }
  transfer := h.transfer.congr
  control := h.control.congr rfl

/-! ### The end of a value -/

theorem Lawful.owner_of_underWay {s : State} (h : Lawful s) {u : UnderWay} (hu : s.bus.underWay = some u) :
    s.bus.state = .owner := h.bus.owner.mpr (by simp [hu])

/-- An owner that has been told of the end of its value leaves the tenure as it is, and the choice point follows. -/
theorem WorkLaw.choice_after {s t : State} (h : WorkLaw t) (hs : SameTenure s t) (ho : s.bus.state = .owner)
    (hu : s.bus.underWay = none) (hp : t.cmd.pending = false) : Lawful (choicePoint t) :=
  h.choice (hs.1.trans ho) (hs.underWay hu)
    ⟨fun hz => by simp [h.reset.frozen.mp hz] at hp, hp⟩

theorem demandAcked_cmd (r : RunningJob) (v : Value) (s : State) : (demandAcked r v s).cmd = s.cmd := by
  unfold demandAcked
  split
  · simp
  · split <;> simp

theorem writeAcked_cmd (r : RunningJob) (s : State) : (writeAcked r s).cmd = s.cmd := by
  unfold writeAcked
  split
  · simp
  · split
    · simp
    · split <;> simp

theorem Lawful.demandEnd {s : State} (h : Lawful s) {r : RunningJob} {u : UnderWay} (outcome : ReadEnd)
    (hu : s.bus.underWay = some u) (hk : u.kind = .demandRead) (hp : s.cmd.pending = false)
    (hr : s.engine.running = some r) : Lawful (demandEnd r u outcome s) := by
  have boundary := h.atBoundary_endValue hr hp hu (.inl hk)
  cases outcome with
  | ack data =>
    exact (boundary.resumePrefetch.demandAcked (readValue u data)).choice_after (sameTenure_demandAcked _ _ _)
      (h.owner_of_underWay hu) rfl (by rw [demandAcked_cmd]; exact hp)
  | berr => exact (boundary.demandFailed _).release ((sameTenure_demandFailed _ _ _).underWay rfl)

theorem Lawful.writeEnd {s : State} (h : Lawful s) {r : RunningJob} {u : UnderWay} (outcome : TransferEnd)
    (hu : s.bus.underWay = some u) (hk : u.kind = .resultWrite) (hp : s.cmd.pending = false)
    (hr : s.engine.running = some r) : Lawful (writeEnd r u outcome s) := by
  have boundary := h.atBoundary_endValue hr hp hu (.inr hk)
  cases outcome with
  | ack =>
    exact boundary.writeAcked.choice_after (sameTenure_writeAcked _ _)
      (h.owner_of_underWay hu) rfl (by rw [writeAcked_cmd]; exact hp)
  | berr => exact (boundary.writeFailed _).release ((sameTenure_writeFailed _ _ _).underWay rfl)

end Sys2Proof.Machine

/-! SUPPORT. All laws at the ends of prefetch reads and DROPPED values, at the grant and its removal, and at a dispatch. -/

namespace Sys2Proof.Machine

/-! ### The end of a prefetch read (R141, R142) -/

theorem valueOf_of_none {s : State} (hu : s.bus.underWay = none) (k : ValueKind) : valueOf s k = none := by
  simp only [valueOf, hu]

theorem demandUnderWay_of_kind {s : State} {u : UnderWay} (hu : s.bus.underWay = some u) (hk : u.kind ≠ .demandRead) :
    demandUnderWay s = false := by
  simp only [demandUnderWay, hu, decide_eq_false hk]

theorem wakeFetch_spec (s : State) :
    wakeFetch s = s ∨ ∃ r, s.engine.state = .fetch ∧ s.engine.running = some r ∧ s.bus.waitingRead = none ∧
      wakeFetch s = enterFetch r s := by
  unfold wakeFetch
  split
  next r hf hr =>
    split
    · exact .inl rfl
    next hw => exact .inr ⟨r, hf, hr, by simpa using hw, rfl⟩
  · exact .inl rfl

theorem Lawful.running_of_fetch {s : State} (h : Lawful s) (hf : s.engine.state = .fetch) :
    ∃ r, s.engine.running = some r :=
  Option.isSome_iff_exists.mp (h.place.working (by simp [hf]) (by simp [hf]))

/-- R139: the entry a prefetch read fills is the last of the buffer, and every other one is READY. -/
theorem Lawful.inFlight_last {s : State} (h : Lawful s) {u : UnderWay} (hu : s.bus.underWay = some u)
    (hk : u.kind = .prefetchRead) :
    ∃ e front, inFlightEntry s.bus = some e ∧ e.value = none ∧ s.bus.buffer = front ++ [e] ∧
      ∀ x ∈ front, x.value.isSome = true := by
  have present : (inFlightEntry s.bus).isSome = true := by
    rw [← h.prefetch.inFlight, ← hk, valueOf_of_kind hu]
    rfl
  obtain ⟨e, he⟩ := Option.isSome_iff_exists.mp present
  obtain ⟨hlast, hv⟩ := last_of_inFlight h.prefetch.highest he
  exact ⟨e, _, he, hv, hlast, h.prefetch.highest⟩

/-- R75, R139: an engine that waits for the entry in flight waits for the only entry of the buffer. -/
theorem Lawful.buffer_of_waiting {s : State} (h : Lawful s) {r : RunningJob} {u : UnderWay}
    (hu : s.bus.underWay = some u) (hk : u.kind = .prefetchRead) (hr : s.engine.running = some r)
    (hf : s.engine.state = .fetch) (hw : s.bus.waitingRead = none) :
    ∃ e, inFlightEntry s.bus = some e ∧ e.element = r.job.index ∧ s.bus.buffer = [e] ∧
      ∀ pf, s.bus.prefetch = some pf → pf.p = r.job.index + 1 := by
  obtain hread | hdemand | ⟨r', e, hr', he, hel⟩ := h.prefetch.waits hf
  · simp [hw] at hread
  · simp [demandUnderWay_of_kind hu (by simp [hk])] at hdemand
  · obtain rfl : r' = r := Option.some.inj (hr'.symm.trans hr)
    have hmem : e ∈ s.bus.buffer := List.mem_of_find?_eq_some he
    have hpf : s.bus.prefetch ≠ none := fun hn => by simp [h.prefetch.absent hn] at hmem
    obtain ⟨pf, hpf⟩ := Option.ne_none_iff_exists'.mp hpf
    obtain ⟨low, hels, hp, hlow⟩ := h.prefetch.consecutive r' pf hr hpf
    have hrange : e.element ∈ List.range' low s.bus.buffer.length := hels ▸ List.mem_map_of_mem hmem
    have hlower : low ≤ e.element := (List.mem_range'_1.mp hrange).1
    obtain habove | ⟨heq, -, -, hone, -⟩ := hlow
    · omega
    · obtain ⟨e', he'⟩ := List.length_eq_one_iff.mp hone
      obtain rfl : e = e' := by simpa [he'] using hmem
      refine ⟨e, he, hel, he', fun pf' hpf' => ?_⟩
      obtain rfl : pf = pf' := Option.some.inj (hpf.symm.trans hpf')
      omega

/-- What a prefetch read's end leaves of the bus master: no value under way, the buffer and the prefetch part changed,
and no entry in flight. -/
structure PrefetchEnded (s t : State) : Prop where
  rest : t = { s with bus := t.bus }
  state : t.bus.state = s.bus.state
  underWay : t.bus.underWay = none
  waitingWrite : t.bus.waitingWrite = s.bus.waitingWrite
  waitingRead : t.bus.waitingRead = s.bus.waitingRead
  present : t.bus.prefetch.isSome = s.bus.prefetch.isSome
  ready : ∀ e ∈ t.bus.buffer, e.value.isSome = true
  shorter : t.bus.buffer.length ≤ s.bus.buffer.length
  consecutive : ∀ i pf pf', s.bus.prefetch = some pf → t.bus.prefetch = some pf' →
    s.bus.buffer.map (·.element) = List.range' i s.bus.buffer.length → pf.p = i + s.bus.buffer.length →
    t.bus.buffer.map (·.element) = List.range' i t.bus.buffer.length ∧ pf'.p = i + t.bus.buffer.length

section
variable {s t : State} (h : Lawful s) {u : UnderWay} (hu : s.bus.underWay = some u) (hk : u.kind = .prefetchRead)
  (e : PrefetchEnded s t)
include e

theorem PrefetchEnded.engine : t.engine = s.engine := by rw [e.rest]

theorem PrefetchEnded.noEntry : inFlightEntry t.bus = none :=
  List.find?_eq_none.mpr fun x hx => by simp [Option.ne_none_iff_isSome.mpr (e.ready x hx)]

theorem PrefetchEnded.inFlight : (valueOf t .prefetchRead).isSome = (inFlightEntry t.bus).isSome := by
  rw [valueOf_of_none e.underWay, e.noEntry]
  rfl

include h in
theorem PrefetchEnded.absent (hn : t.bus.prefetch = none) : t.bus.buffer = [] := by
  have hs : s.bus.prefetch = none := by simpa [hn] using e.present.symm
  have := e.shorter
  rw [h.prefetch.absent hs] at this
  simpa using this

include h in
theorem PrefetchEnded.afterFetch (hx : s.engine.state ≠ .fetch ∨ s.bus.waitingRead ≠ none) : AfterFetch t := by
  have before : AfterFetch s := h.prefetch.afterFetch (hx.imp_right .inl)
  exact
    { present := by rw [e.present, e.engine]; exact before.present
      absent := e.absent h
      consecutive := fun r pf' hr hp => by
        have hsome : s.bus.prefetch.isSome = true := by rw [← e.present, hp]; rfl
        obtain ⟨pf, hpf⟩ := Option.isSome_iff_exists.mp hsome
        obtain ⟨hels, hpp⟩ := before.consecutive r pf (e.engine ▸ hr) hpf
        exact e.consecutive _ pf pf' hpf hp hels hpp
      inFlight := e.inFlight
      highest := fun x hm => e.ready x (List.mem_of_mem_dropLast hm) }

include h hu hk in
theorem PrefetchEnded.beforeFetch {r : RunningJob} (hr : s.engine.running = some r) (hf : s.engine.state = .fetch)
    (hw : s.bus.waitingRead = none) : BeforeFetch t r := by
  obtain ⟨entry, _, hel, hbuf, hp⟩ := h.buffer_of_waiting hu hk hr hf hw
  exact
    { present := by
        rw [e.present, Bool.eq_iff_iff, h.prefetch.present]
        simp [hf, hr]
      absent := e.absent h
      consecutive := fun pf' hp' => by
        have hsome : s.bus.prefetch.isSome = true := by rw [← e.present, hp']; rfl
        obtain ⟨pf, hpf⟩ := Option.isSome_iff_exists.mp hsome
        exact .inr (e.consecutive _ pf pf' hpf hp' (by simp [hbuf, hel]) (by simp [hbuf, hp pf hpf]))
      inFlight := e.inFlight
      highest := fun x hm => e.ready x (List.mem_of_mem_dropLast hm) }

include h in
theorem PrefetchEnded.quiet (hf : s.engine.state = .fetch) : Quiet t where
  write := by
    rw [e.waitingWrite]
    by_contra hw
    have := (h.bus.write (Option.isSome_iff_ne_none.mpr hw)).1
    rw [hf] at this
    cases this
  reading v hv := by simp [e.underWay] at hv
  writing v hv := by simp [e.underWay] at hv

include h in
theorem PrefetchEnded.bus : BusCore t := by
  have idle : BusCore (endValue s) := busCore_endValue h.bus.core h.bus.buffered
  refine ⟨?_, ?_, fun v hv => ?_, fun v hv => ?_, fun v hv => ?_, e.shorter.trans h.bus.buffered⟩
  · rw [e.waitingWrite, e.engine]; exact idle.write
  · rw [e.waitingRead, e.engine]; exact idle.read
  all_goals simp [e.underWay] at hv

include h hu hk in
/-- R75, R141, R142: an engine that waits looks into the buffer again, and the laws but for the bus state hold. -/
theorem PrefetchEnded.wake (hp : s.cmd.pending = false) : WorkLaw (wakeFetch t) := by
  have thawed : Thawed t := (h.thawed hp).congr (by rw [e.engine]) (by rw [e.rest])
  have transfer : TransferLaw t := h.transfer.endValue.congr e.waitingWrite e.waitingRead e.underWay
    (by simp only [runningTransfer, e.engine]; rfl)
  have store : StoreLaw t := h.store.congr (by rw [e.rest]) (by rw [e.rest])
  have curve : CurveLaw t := h.curve.of_eq (by rw [e.rest]) (by rw [e.rest]) (by rw [e.rest])
  have jobs : JobLaw t := h.jobs.of_eq (by rw [e.rest]) (by rw [e.rest]) (by rw [e.rest]) (by rw [e.rest])
    (by rw [e.rest]) (by rw [e.rest]) (by rw [e.rest]) (by rw [e.rest]) (by rw [e.rest]) (by rw [e.rest])
  have control : ControlLaw t := h.control.congr (by rw [e.rest])
  have engine : EngineLaw t := h.engine.of_eq (by rw [e.engine]) (by rw [e.engine])
  have prefetch : PrefetchLaw (wakeFetch t) :=
    prefetchLaw_wake (by rw [e.engine, e.waitingRead]; exact e.afterFetch h)
      (by rw [e.engine, e.waitingRead]; exact fun r hr hf hw => e.beforeFetch h hu hk hr hf hw)
      (by rw [e.engine]; exact h.running_of_fetch)
  have transferred : TransferLaw (wakeFetch t) := transfer.wakeFetch (by rw [e.engine]; exact e.quiet h)
  have woken : JobLaw (wakeFetch t) := jobLaw_wakeFetch jobs
  obtain he | ⟨r, hf, _, hw, he⟩ := wakeFetch_spec t
  · rw [he] at prefetch transferred woken ⊢
    exact ⟨store, curve, woken, engine, thawed.law, e.bus h, prefetch, transferred, control⟩
  · rw [he] at prefetch transferred woken ⊢
    exact
      { store := store.congr (by simp) (by simp), curve := curve.of_eq, jobs := woken
        engine := EngineLaw.enterFetch _ _, reset := (thawed.enterFetch _).law
        bus := (e.bus h).enterFetch (e.quiet h (e.engine ▸ hf)) hw _
        prefetch := prefetch, transfer := transferred, control := control.congr (by simp) }

end

theorem prefetchEnded_ready (v : Value) (s : State) :
    PrefetchEnded s { s with bus := readyEntry v (endValue s).bus } := by
  have elements : (readyEntry v s.bus).buffer.map (·.element) = s.bus.buffer.map (·.element) := by
    simp only [readyEntry, List.map_map]
    refine List.map_congr_left fun e _ => ?_
    simp only [Function.comp]
    split <;> rfl
  have length : (readyEntry v s.bus).buffer.length = s.bus.buffer.length := by simp [readyEntry]
  exact
    { rest := rfl, state := rfl, underWay := rfl, waitingWrite := rfl, waitingRead := rfl, present := rfl
      ready := fun e he => by
        obtain ⟨e', _, rfl⟩ := List.mem_map.mp he
        split
        · rfl
        next hv => exact Option.isSome_iff_ne_none.mpr (by simpa using hv)
      shorter := length.le
      consecutive := fun i pf pf' hp hp' hels hpp => by
        obtain rfl : pf = pf' := Option.some.inj (hp.symm.trans hp')
        exact ⟨elements.trans (hels.trans (by rw [← length]; rfl)), hpp.trans (by rw [← length]; rfl)⟩ }

theorem Lawful.prefetchEnded_fail {s : State} (h : Lawful s) {u : UnderWay} (hu : s.bus.underWay = some u)
    (hk : u.kind = .prefetchRead) {e : PrefetchEntry} (he : inFlightEntry s.bus = some e) :
    PrefetchEnded s { s with bus := failEntry e.element (endValue s).bus } := by
  obtain ⟨e', front, he', hv, hbuf, hready⟩ := h.inFlight_last hu hk
  obtain rfl : e = e' := Option.some.inj (he.symm.trans he')
  have kept : (failEntry e.element (endValue s).bus).buffer = front := by
    change s.bus.buffer.filter (fun x => x.value.isSome) = front
    rw [hbuf, List.filter_append, List.filter_eq_self.mpr hready]
    simp [hv]
  exact
    { rest := rfl, state := rfl, underWay := rfl, waitingWrite := rfl, waitingRead := rfl
      present := by simp [failEntry]
      ready := fun x hx => (List.mem_filter.mp hx).2
      shorter := List.length_filter_le _ _
      consecutive := fun i pf pf' _ hp' hels _ => by
        obtain ⟨_, _, rfl⟩ := Option.map_eq_some_iff.mp hp'
        rw [hbuf, List.length_append, List.length_singleton, List.range'_concat, List.map_append] at hels
        obtain ⟨hfront, hlast⟩ := List.append_inj' hels rfl
        simp only [kept]
        exact ⟨hfront, by simpa using hlast⟩ }

theorem Lawful.prefetchEnd {s : State} (h : Lawful s) {u : UnderWay} (data : Word) (hu : s.bus.underWay = some u)
    (hk : u.kind = .prefetchRead) (hp : s.cmd.pending = false) : Lawful (prefetchEnd u data s) := by
  have ended := prefetchEnded_ready (readValue u data) s
  refine (ended.wake h hu hk hp).choice_after (sameTenure_wakeFetch _) (h.owner_of_underWay hu) rfl ?_
  obtain he | ⟨r, _, _, _, he⟩ := wakeFetch_spec { s with bus := readyEntry (readValue u data) (endValue s).bus }
  · rw [he]; exact hp
  · rw [he]; simpa using hp

theorem Lawful.prefetchFailed {s : State} (h : Lawful s) {u : UnderWay} {e : PrefetchEntry}
    (hu : s.bus.underWay = some u) (hk : u.kind = .prefetchRead) (he : inFlightEntry s.bus = some e)
    (hp : s.cmd.pending = false) : Lawful (prefetchFailed e.element s) :=
  ((h.prefetchEnded_fail hu hk he).wake h hu hk hp).release ((sameTenure_wakeFetch _).underWay rfl)

end Sys2Proof.Machine

/-! SUPPORT. All laws under every command: the operations of the blocks one after another, then the induction. -/

namespace Sys2Proof.Machine

/-! ### The bus master -/

theorem Lawful.droppedEnd {s : State} (h : Lawful s) {u : UnderWay} (outcome : TransferEnd)
    (hu : s.bus.underWay = some u) (hk : u.kind = .dropped) (hp : s.cmd.pending = false) :
    Lawful (droppedEnd outcome s) := by
  have thawed : Thawed (endValue s) := (h.thawed hp).congr
  have after : AfterFetch (endValue s) := afterFetch_endValue h.prefetch hu (by simp [hk])
  have waits : Waits (endValue s) := fun hf => by
    obtain hread | hdemand | hentry := h.prefetch.waits hf
    · exact .inl hread
    · simp [demandUnderWay_of_kind hu (by simp [hk])] at hdemand
    · exact .inr (.inr hentry)
  have work : WorkLaw (endValue s) :=
    { store := h.store.endValue, curve := h.curve.of_eq, jobs := h.jobs.of_eq, engine := h.engine.of_eq
      reset := thawed.law, bus := busCore_endValue h.bus.core h.bus.buffered, prefetch := after.law waits
      transfer := h.transfer.endValue, control := h.control.congr rfl }
  cases outcome with
  | ack => exact work.choice (h.owner_of_underWay hu) rfl thawed
  | berr => exact work.release rfl

theorem Lawful.takeGrant {s : State} (h : Lawful s) (hb : s.bus.state = .requesting) : Lawful (takeGrant s) := by
  have hu : s.bus.underWay = none := by
    by_contra hn
    have := h.bus.owner.mpr (Option.isSome_iff_ne_none.mpr hn)
    rw [hb] at this
    cases this
  have hp : s.cmd.pending = false := by
    by_contra hp
    have := h.reset.waiting (by simpa using hp)
    simp [hu] at this
  have work : WorkLaw { s with bus := { s.bus with state := .owner, tenureCount := 0, grantRemoved := false } } :=
    { store := h.store.congr rfl rfl, curve := h.curve.of_eq, jobs := h.jobs.of_eq, engine := h.engine.of_eq
      reset := h.reset.of_eq, bus := h.bus.core.congr, prefetch := h.prefetch.congr, transfer := h.transfer.congr
      control := h.control.congr rfl }
  exact work.choice rfl hu ((h.thawed hp).congr)

theorem Lawful.removeGrant {s : State} (h : Lawful s) :
    Lawful { s with bus := { s.bus with grantRemoved := true } } :=
  WorkLaw.lawful
    { store := h.store.congr rfl rfl, curve := h.curve.of_eq, jobs := h.jobs.of_eq, engine := h.engine.of_eq
      reset := h.reset.of_eq, bus := h.bus.core.congr, prefetch := h.prefetch.congr, transfer := h.transfer.congr
      control := h.control.congr rfl }
    (h.bus.core.congr.law h.bus.owner h.bus.requested)

/-- R132: the high half begins with the value still under way, of the same kind and with its transfer left. -/
theorem Lawful.beginHighHalf {s : State} (h : Lawful s) {u : UnderWay} (data : Word) (hu : s.bus.underWay = some u)
    (hlast : lastTransfer u = false) : Lawful (beginHighHalf u data s) := by
  have size : u.ended + 1 < u.size := by simpa [lastTransfer] using hlast
  have bus : BusCore (Machine.beginHighHalf u data s) :=
    { write := h.bus.write
      read := h.bus.read
      reading := fun v hv hk => by cases hv; exact h.bus.reading u hu hk
      writing := fun v hv hk => by cases hv; exact h.bus.writing u hu hk
      transfers := fun v hv => by
        cases hv
        exact ⟨by change 1 < u.size; omega, (h.bus.transfers u hu).2⟩
      buffered := h.bus.buffered }
  have same : ∀ k, (valueOf (Machine.beginHighHalf u data s) k).isSome = (valueOf s k).isSome := fun k => by
    simp only [valueOf, Machine.beginHighHalf, hu]
    split <;> rfl
  have demand : demandUnderWay (Machine.beginHighHalf u data s) = demandUnderWay s := by
    simp only [demandUnderWay, Machine.beginHighHalf, hu]
  exact WorkLaw.lawful
    { store := h.store.congr rfl rfl, curve := h.curve.of_eq, jobs := h.jobs.of_eq, engine := h.engine.of_eq
      reset := h.reset.of_eq rfl rfl (by simp [Machine.beginHighHalf, hu])
      bus := bus
      prefetch := ⟨h.prefetch.present, h.prefetch.absent, h.prefetch.consecutive,
        (same _).trans h.prefetch.inFlight, h.prefetch.highest, by rw [demand]; exact h.prefetch.waits⟩
      transfer := h.transfer.highHalf hu data
      control := h.control.congr rfl }
    (bus.law (by simpa [Machine.beginHighHalf, hu] using h.bus.owner) h.bus.requested)

/-! ### The load session and the directory -/

theorem Lawful.openSession {s : State} (h : Lawful s) (c : Fin 32) (hd : CurveHeader) (ho : s.load.state ≠ .opened)
    (he : (curveEntry s c).state = .empty) : Lawful (openSession c hd s) :=
  have unused : (curveEntry s c).refCount = 0 := h.curve.unreferenced c (.inl he)
  h.of_directory (h.store.set_entry (c := c) rfl rfl rfl)
    (h.curve.set (c := c) (e := { curveEntry s c with state := .loading, header := some hd })
      ⟨fun _ => unused, by simp, by simp, by simp⟩ (by simp [Machine.openSession]) fun d hn => by
        simp [Machine.openSession, ho, hn.symm])
    (h.jobs.of_curves (refCount_set (c := c) rfl rfl))

theorem Lawful.commitSession {s : State} (h : Lawful s) (ho : s.load.state = .opened) : Lawful (commitSession s) := by
  have loading := h.curve.session ho
  have header := (h.curve.header s.load.curve).mpr (by simp [loading.1])
  refine h.of_directory (h.store.set_entry (c := s.load.curve) rfl rfl rfl) ?_
    (h.jobs.of_curves (refCount_set (c := s.load.curve) rfl rfl))
  refine h.curve.set (c := s.load.curve)
    (e := { curveEntry s s.load.curve with state := .ready, generation := (curveEntry s s.load.curve).generation + 1 })
    ⟨by simp, by simp, by simp [header], by simp⟩ (by simp [Machine.commitSession]) fun d hn => ?_
  simp [Machine.commitSession, ho, hn.symm]

theorem Lawful.cancelSession {s : State} (h : Lawful s) (ho : s.load.state = .opened) : Lawful (cancelSession s) :=
  h.of_directory (storeLaw_kept.cancelSession h.store ho) (h.curve.closeSession ho (by simp [Machine.cancelSession]))
    (h.jobs.of_curves (refCount_set (c := s.load.curve) rfl (h.curve.session ho).2.symm))

/-- R40 to R46: a word of LOAD_DATA reaches the store, the directory, the session and an event flag alone. -/
theorem takeLoadWord_frame (x : Word) (s : State) :
    (takeLoadWord x s).engine = s.engine ∧ (takeLoadWord x s).bus = s.bus ∧ (takeLoadWord x s).cmd = s.cmd ∧
      (takeLoadWord x s).control = s.control := by
  have fails (reason) (s : State) : (failSession reason s).engine = s.engine ∧ (failSession reason s).bus = s.bus ∧
      (failSession reason s).cmd = s.cmd ∧ (failSession reason s).control = s.control := by simp [failSession]
  have places (ws cur) : (placeValue ws cur s).engine = s.engine ∧ (placeValue ws cur s).bus = s.bus ∧
      (placeValue ws cur s).cmd = s.cmd ∧ (placeValue ws cur s).control = s.control := by
    unfold placeValue
    split
    · split
      · exact fails _ s
      · simp [storeWords, takeBlock]
    · exact ⟨rfl, rfl, rfl, rfl⟩
  have completes (reason ws cur) : (completeValue reason ws cur s).engine = s.engine ∧
      (completeValue reason ws cur s).bus = s.bus ∧ (completeValue reason ws cur s).cmd = s.cmd ∧
      (completeValue reason ws cur s).control = s.control := by
    cases reason with
    | none => exact places ws cur
    | some reason => exact fails reason s
  have takes (h v) : (takeValue h v s).engine = s.engine ∧ (takeValue h v s).bus = s.bus ∧
      (takeValue h v s).cmd = s.cmd ∧ (takeValue h v s).control = s.control := by
    unfold takeValue
    split <;> exact completes _ _ _
  have halves (h x) : (takeHalf h x s).engine = s.engine ∧ (takeHalf h x s).bus = s.bus ∧
      (takeHalf h x s).cmd = s.cmd ∧ (takeHalf h x s).control = s.control := by
    unfold takeHalf
    split
    · exact takes _ _
    · exact takes _ _
    · exact ⟨rfl, rfl, rfl, rfl⟩
  unfold takeLoadWord
  dsimp only
  split
  · exact fails _ s
  · exact completes _ _ _
  · exact halves _ _
  · exact halves _ _

theorem Lawful.takeLoadWord {s : State} (h : Lawful s) (x : Word) (ho : s.load.state = .opened) :
    Lawful (takeLoadWord x s) := by
  obtain ⟨he, hb, hcmd, hc⟩ := takeLoadWord_frame x s
  exact h.of_directory (h.store.takeLoadWord x) (h.curve.takeLoadWord ho x) (jobLaw_takeLoadWord h.jobs h.curve ho x)
    he hb (by rw [hcmd]) hc

theorem Lawful.emptyCurve {s : State} (h : Lawful s) (c : Fin 32) (he : (curveEntry s c).state = .ready)
    (hn : (curveEntry s c).refCount = 0) : Lawful (emptyCurve c s) :=
  h.of_directory (h.store.emptyCurve c) (h.curve.emptyCurve (by simp [he])) (h.jobs.emptyCurve hn)

theorem Lawful.retire {s : State} (h : Lawful s) (c : Fin 32) (he : (curveEntry s c).state = .ready)
    (hn : (curveEntry s c).refCount ≠ 0) : Lawful (setCurve c { curveEntry s c with state := .retiring } s) :=
  have header := (h.curve.header c).mpr (by simp [he])
  h.of_directory (h.store.set_entry (c := c) rfl rfl rfl)
    (h.curve.set_same (c := c) (e := { curveEntry s c with state := .retiring })
      ⟨by simp, by simp, by simp [header], fun _ => Nat.pos_of_ne_zero hn⟩ (by simp [he]))
    (h.jobs.of_curves (refCount_set (c := c) rfl rfl))

/-! ### The posting of a record, as one change of the state -/

/-- R27: what the release of a reference leaves of the curve's entry. -/
def releasedEntry (e : CurveEntry) : CurveEntry :=
  if e.state = .retiring ∧ e.refCount ≤ 1 then emptiedEntry e else { e with refCount := e.refCount - 1 }

/-- R23, R27: the blocks that the release of a reference returns. -/
def releasedBlocks (e : CurveEntry) : List Nat := if e.state = .retiring ∧ e.refCount ≤ 1 then e.blocks else []

theorem releaseReference_eq (c : Fin 32) (s : State) :
    releaseReference c s =
      { s with
        curves := s.curves.set c (releasedEntry (curveEntry s c))
        store := { s.store with free := insertAllAsc (releasedBlocks (curveEntry s c)) s.store.free } } := by
  unfold releaseReference releasedEntry releasedBlocks
  split <;> rfl

/-- R151: the release, the record and COMPLETION at once. -/
theorem postJob_eq (j : Job) (st : JobStatus) (v : Option Value) (e : Option BusErr) (s : State) :
    postJob j st v e s =
      { s with
        curves := s.curves.set j.desc.curve (releasedEntry (curveEntry s j.desc.curve))
        store := { s.store with free := insertAllAsc (releasedBlocks (curveEntry s j.desc.curve)) s.store.free }
        completion :=
          { s.completion with
            records := s.completion.records ++ [buildRecord s j st v e]
            events := if j.desc.notify then s.completion.events ||| 0x01#7 else s.completion.events } } := by
  simp only [postJob, releaseReference_eq]
  split <;> rfl

/-! ### Jobs: submission, continuation, abort and flush -/

theorem Lawful.acceptJob {s : State} (h : Lawful s) {d : Descriptor} {l : Fin 4} {tag : Nat} {rest : List Nat}
    (he : (curveEntry s d.curve).state = .ready) (hq : (queueOf s l).length < Config.queueDepth)
    (hf : s.intake.freeTags = tag :: rest) : Lawful (acceptJob tag rest l d s) := by
  have header := (h.curve.header d.curve).mpr (by simp [he])
  refine SourceLaw.react (h.sources.of_places (h.store.set_entry (c := d.curve) rfl rfl rfl) ?_)
    (h.jobs.toJobSetLaw.acceptJob hf hq)
  exact h.curve.set_same (c := d.curve)
    (e := { curveEntry s d.curve with refCount := (curveEntry s d.curve).refCount + 1 })
    ⟨by simp [he], by simp [he], by simp [header, he], by simp [he]⟩ Iff.rfl

theorem Lawful.continueJob {s : State} (h : Lawful s) {r : HoldRecord} (act : HoldAction) (hr : s.hold = some r) :
    Lawful (continueJob r act s) := by
  have live : liveJobs { s with hold := some { r with action := some act } } = liveJobs s := by
    simp only [liveJobs, hr]
    rfl
  refine SourceLaw.react (h.sources.of_places (h.store.congr rfl rfl) h.curve.of_eq) (JobSetLaw.reactToSources ?_)
  exact ⟨h.place.congr rfl rfl rfl rfl, ⟨h.tag.ascending, by rw [live]; exact h.tag.partition⟩,
    fun c => by rw [live]; exact h.count c⟩

/-- R94: the job that ends takes its yield request with it. -/
theorem endRunning_refreshYield (r : RunningJob) (st : JobStatus) (e : Option BusErr) (s : State) :
    endRunning r st e (refreshYield s) = endRunning r st e s := by
  simp only [endRunning, postJob_eq]
  rfl

theorem JobSetLaw.abortRunning {s : State} (h : JobSetLaw s) {r : RunningJob} (hr : s.engine.running = some r) :
    JobSetLaw (abortRunning r s) := by
  have refreshed : JobLaw (refreshYield s) := ⟨h.of_eq, YieldLaw.refreshYield s⟩
  have aborted := (jobLaw_abortRunning refreshed (r := r) hr).toJobSetLaw
  unfold Machine.abortRunning at *
  by_cases hs : standing s = true
  · rw [if_pos hs]
    rwa [if_pos (show standing (refreshYield s) = true from hs), endRunning_refreshYield] at aborted
  · rw [if_neg hs]
    rw [if_neg (show ¬standing (refreshYield s) = true from hs)] at aborted
    exact aborted.of_eq

/-- R167, R168: the laws before the dispatcher reacts to an ABORT. -/
theorem SourceLaw.abort {s t : State} (h : SourceLaw s) (hj : JobSetLaw s) (ha : Abortion s t) :
    SourceLaw t ∧ JobSetLaw t := by
  have store := h.store.abort ha
  cases ha with
  | queued l j hq =>
    exact ⟨h.of_places store ((h.curve.of_eq (t := removeQueued l j.tag s)).postJob _ _ _ _) (by simp [abortQueued])
      (by simp [abortQueued]) (by simp [abortQueued]) (by simp [abortQueued]),
      (owing_nil_iff _).mp (hj.removeQueued hq).postAborted⟩
  | suspended l x hx =>
    exact ⟨h.of_places store ((h.curve.of_eq (t := setSlot l none s)).postJob _ _ _ _) (by simp [abortSuspended])
      (by simp [abortSuspended]) (by simp [abortSuspended]) (by simp [abortSuspended]),
      (owing_nil_iff _).mp (hj.clearSlot hx).postAborted⟩
  | held r hr =>
    exact ⟨h.of_places store ((h.curve.of_eq (t := { s with hold := none })).postJob _ _ _ _) (by simp [abortHeld])
      (by simp [abortHeld]) (by simp [abortHeld]) (by simp [abortHeld]),
      (owing_nil_iff _).mp (hj.clearHold hr).postAborted⟩
  | running r hr =>
    obtain ⟨bus, owner⟩ := busCore_abortRunning h.bus r hr h.owner
    refine ⟨⟨store, ?_, engineLaw_abortRunning h.engine hr, ?_, bus, owner, prefetchLaw_abortRunning h.prefetch hr,
      h.transfer.abortRunning h.bus hr, ?_⟩, hj.abortRunning hr⟩
    · unfold abortRunning
      split
      · exact h.curve.endRunning _ _ _
      · exact h.curve.of_eq
    · unfold abortRunning
      split
      next hs =>
        have hf := (standing_spec hs).1
        have thawed : Thawed s :=
          ⟨by simp [hf], Bool.eq_false_iff.mpr fun hp => by simp [h.reset.frozen.mpr hp] at hf⟩
        exact (thawed.endRunning _ _ _).law
      · exact h.reset.of_eq
    · unfold abortRunning
      split
      · exact h.control.congr (by simp)
      · exact h.control.congr rfl

theorem Lawful.abort {s t : State} (h : Lawful s) (ha : Abortion s t) : Lawful (reactToSources t) := by
  obtain ⟨sources, jobs⟩ := h.sources.abort h.jobs.toJobSetLaw ha
  exact sources.react jobs.reactToSources

theorem SourceLaw.postAll : ∀ (js : List Job) {s : State}, SourceLaw s →
    SourceLaw (js.foldl (fun acc j => postAborted j acc) s)
  | [], _, h => h
  | j :: js, _, h => SourceLaw.postAll js
    (h.of_places (t := postAborted j _) (h.store.postJob _ _ _ _) (h.curve.postJob _ _ _ _))

theorem Lawful.flush {s : State} (h : Lawful s) (l : Fin 4) : Lawful (reactToSources (flushJobs l s).1) := by
  obtain ⟨sources, jobs⟩ := flushJobs_keeps (P := fun t => SourceLaw t ∧ JobSetLaw t)
    (fun _ _ h ha => h.1.abort h.2 ha)
    (fun l t h => ⟨SourceLaw.postAll _ (h.1.of_places (t := setQueue l [] t) (h.1.store.congr rfl rfl) h.1.curve.of_eq),
      (h.2.emptyQueue l).postAll⟩)
    l ⟨h.sources, h.jobs.toJobSetLaw⟩
  exact sources.react jobs.reactToSources

theorem Lawful.writeControl {s : State} (h : Lawful s) (x : Word) : Lawful (writeControl x s) := by
  let t : State := { s with control := x &&& Config.controlMask }
  have control : ControlLaw t := by
    change x &&& Config.controlMask &&& Config.controlMask = x &&& Config.controlMask
    rw [BitVec.and_assoc, BitVec.and_self]
  have sources : SourceLaw t :=
    ⟨h.store.congr rfl rfl, h.curve.of_eq, h.engine.of_eq, h.reset.of_eq, h.bus.core.congr, h.sources.owner.congr,
      h.prefetch.congr, h.transfer.congr, control⟩
  exact sources.react (JobSetLaw.reactToSources (h.jobs.toJobSetLaw.of_eq))

theorem Lawful.popRecord {s : State} (h : Lawful s) {r : Record} {rest : List Record}
    (hr : s.completion.records = r :: rest) : Lawful (popRecord r rest s) :=
  h.of_directory (h.store.congr rfl rfl) h.curve.of_eq (h.jobs.popRecord hr)

/-! ### Resets -/

/-- R172: the laws hold while a reset waits for a value under way. -/
theorem Lawful.takeReset {s : State} (h : Lawful s) (hu : s.bus.underWay.isSome = true) :
    Lawful (Machine.takeReset s) := by
  have owner : (Machine.takeReset s).bus.state = .owner := by
    simp [Machine.takeReset, resetBusWork, h.bus.owner.mpr hu, hu]
  have moving : (Machine.takeReset s).bus.underWay.isSome = true := by
    simpa [Machine.takeReset, resetBusWork, discardJobWork] using hu
  have noPrefetch : AfterFetch (Machine.takeReset s) :=
    AfterFetch.empty rfl rfl (valueOf_drop _ s.bus.underWay rfl) (.inl rfl)
  have bus : BusCore (Machine.takeReset s) :=
    { write := fun hw => by simp [Machine.takeReset, resetBusWork] at hw
      read := fun hw => by simp [Machine.takeReset, resetBusWork, discardJobWork] at hw
      reading := fun _ _ _ => .inl rfl
      writing := fun _ _ _ => .inl rfl
      transfers := fun v hv => by
        obtain ⟨u, hu, rfl⟩ := Option.map_eq_some_iff.mp hv
        have := h.bus.transfers u hu
        unfold dropPrefetchRead
        split <;> exact this
      buffered := by simp [Machine.takeReset, resetBusWork, discardJobWork] }
  have place : PlaceLaw (Machine.takeReset s) :=
    { queueLevel := h.place.queueLevel, queueLength := h.place.queueLength, slotLevel := h.place.slotLevel
      slotFree := h.place.slotFree, idle := (fun hi => by cases hi), working := fun _ hz => absurd rfl hz }
  exact WorkLaw.lawful
    { store := h.store.congr rfl rfl
      curve := h.curve.of_eq
      jobs := ⟨⟨place, ⟨h.tag.ascending, h.tag.partition⟩, h.count⟩, h.yield⟩
      engine := EngineLaw.at_rest (.inr (.inr rfl))
      reset := ⟨iff_of_true rfl rfl, fun _ => moving⟩
      bus := bus
      prefetch := noPrefetch.law_of_ne (fun hf => by cases hf)
      transfer := h.transfer.takeReset
      control := h.control.congr rfl }
    (bus.law (iff_of_true owner moving) fun hn => absurd owner hn)

/-- R174: the completion of ENGINE_RESET establishes the laws but those of the store, the curves and CONTROL. -/
theorem lawful_completeReset {s : State} (h : StoreLaw s) (hc : CurveLaw s) (hct : ControlLaw s) :
    Lawful (completeReset s) :=
  WorkLaw.lawful
    { store := h.completeReset, curve := hc.completeReset, jobs := JobLaw.completeReset s
      engine := EngineLaw.completeReset s, reset := ResetLaw.completeReset s, bus := (BusLaw.completeReset s).core
      prefetch := prefetchLaw_completeReset s, transfer := TransferLaw.completeReset s
      control := hct.congr rfl }
    (BusLaw.completeReset s)

theorem Lawful.engineResetBody {s : State} (h : Lawful s) : Lawful (engineResetBody s) := by
  unfold Machine.engineResetBody
  split
  next hu => exact h.takeReset hu
  · exact lawful_completeReset (h.store.congr rfl rfl) h.curve.of_eq (h.control.congr rfl)

/-- Nothing is in any place, no curve has blocks, a header or references, and no work waits. -/
structure Vacant (s : State) : Prop where
  curves : ∀ c, (curveEntry s c).state = .empty ∧ (curveEntry s c).header = none ∧ (curveEntry s c).refCount = 0 ∧
    (curveEntry s c).blocks = []
  session : s.load.state ≠ .opened
  queues : ∀ l, queueOf s l = []
  slots : ∀ l, slotOf s l = none
  engine : s.engine.state = .idle
  running : s.engine.running = none
  hold : s.hold = none
  bus : s.bus = BusMaster.reset
  records : s.completion.records = []
  freeTags : s.intake.freeTags = List.range Config.tagCount
  yield : s.yieldRequest = false
  commandState : s.cmd.pending = false

theorem Vacant.lawful {s : State} (v : Vacant s) (store : StoreLaw s) (control : ControlLaw s) : Lawful s := by
  have hw : s.bus.waitingWrite = none := by rw [v.bus]; rfl
  have hr : s.bus.waitingRead = none := by rw [v.bus]; rfl
  have hu : s.bus.underWay = none := by rw [v.bus]; rfl
  have hb : s.bus.buffer = [] := by rw [v.bus]; rfl
  have hp : s.bus.prefetch = none := by rw [v.bus]; rfl
  have hst : s.bus.state = .idle := by rw [v.bus]; rfl
  have bus : BusCore s :=
    ⟨by simp [hw], by simp [hr], by simp [hu], by simp [hu], by simp [hu], by simp [hb]⟩
  have noWork : busPending s = false := by simp [busPending, hw, hr, prefetchPending, v.running]
  exact WorkLaw.lawful
    { store := store
      curve := CurveLaw.of_entries
        (fun c => by
          obtain ⟨he, hh, hn, hbl⟩ := v.curves c
          exact ⟨fun _ => hn, fun _ => hbl, by simp [he, hh], by simp [he]⟩)
        fun c => by simp [(v.curves c).1, v.session]
      jobs := JobLaw.of_empty v.queues v.slots v.engine v.running v.hold v.records v.freeTags
        (fun c => (v.curves c).2.2.1) v.yield
      engine := EngineLaw.at_rest (.inl v.engine)
      reset := ResetLaw.free (by simp [v.engine]) v.commandState
      bus := bus
      prefetch := (AfterFetch.empty hp hb (valueOf_of_none hu _) (.inr v.running)).law_of_ne (by simp [v.engine])
      transfer := TransferLaw.empty hw hr hu
      control := control }
    (bus.law (by simp [hst, hu]) fun _ => by simp [hst, noWork])

theorem getElem_mapCurves (f : CurveEntry → CurveEntry) (v : Vector CurveEntry 32) (c : Fin 32) :
    (mapCurves f v)[c] = f v[c] := by
  simp [mapCurves]

theorem curveEntry_mapCurves {s t : State} {f : CurveEntry → CurveEntry} (h : t.curves = mapCurves f s.curves)
    (c : Fin 32) : curveEntry t c = f (curveEntry s c) := by
  simp only [curveEntry, h, getElem_mapCurves]

theorem vacant_assertRst (s : State) : Vacant (assertRst s) where
  curves c := by
    rw [curveEntry_mapCurves (t := assertRst s) rfl c]
    exact ⟨rfl, rfl, rfl, rfl⟩
  session := by simp [assertRst, LoadSession.reset]
  queues l := by simp [queueOf, assertRst]
  slots l := by simp [slotOf, assertRst]
  engine := rfl
  running := rfl
  hold := rfl
  bus := rfl
  records := rfl
  freeTags := rfl
  yield := rfl
  commandState := rfl

theorem vacant_reset (commands : List Instr) : Vacant { State.reset with pending := commands } where
  curves c := by simp [curveEntry, State.reset, CurveEntry.reset]
  session := by simp [State.reset, LoadSession.reset]
  queues l := by simp [queueOf, State.reset]
  slots l := by simp [slotOf, State.reset]
  engine := rfl
  running := rfl
  hold := rfl
  bus := rfl
  records := rfl
  freeTags := rfl
  yield := rfl
  commandState := rfl

theorem lawful_reset (commands : List Instr) : Lawful { State.reset with pending := commands } :=
  (vacant_reset commands).lawful (StoreLaw.reset.congr rfl rfl)
    (show Config.controlReset &&& Config.controlMask = Config.controlReset by decide)

/-! ### Dispatch -/

theorem sameTenure_startElement (j : Job) (s : State) : SameTenure s (startElement j s) := by
  unfold startElement
  split
  · exact ⟨rfl, rfl⟩
  · exact sameTenure_enterFetch _ s

theorem sameTenure_deliverContinuation (j : Job) (v : Value) (s : State) :
    SameTenure s (deliverContinuation j v s) := by
  unfold deliverContinuation
  split
  · exact sameTenure_storeResult _ _ s
  · exact sameTenure_endRunning _ _ _ s

theorem sameTenure_startContinuation (j : Job) (act : HoldAction) (s : State) :
    SameTenure s (startContinuation j act s) := by
  cases act with
  | skipMark => exact sameTenure_deliverContinuation _ _ s
  | substitute v => exact sameTenure_deliverContinuation _ _ s
  | retry => exact sameTenure_startElement _ s

/-- R101: a dispatch does not touch the bus state, and no value begins or ends at it. -/
theorem sameTenure_handOver (src : Source) (s : State) : SameTenure s (handOver src s) := by
  cases src with
  | contextSlot l x =>
    have emptied : SameTenure s (admitJob x.job (setSlot l none s)) := by simp [SameTenure, freshPrefetch]
    have started := sameTenure_startElement x.job (admitJob x.job (setSlot l none s))
    simp only [handOver]
    split
    · exact emptied
    · exact ⟨started.1.trans emptied.1, started.2.trans emptied.2⟩
  | holdSlot r act => exact sameTenure_startContinuation r.job act (admitJob r.job { s with hold := none })
  | queueHead l j rest => exact sameTenure_startElement j (admitJob j (setQueue l rest s))

theorem Lawful.handOver {s : State} (h : Lawful s) {src : Source} (hi : s.engine.state = .idle)
    (hw : winner s = some src) : Lawful (settleRequest (handOver src s)) := by
  have hn : s.engine.running = none := h.place.idle hi
  have hr : s.bus.waitingRead = none := h.bus.core.waitingRead_none (by simp [hi])
  have quiet : Quiet s := h.bus.quiet (by simp [hi]) (by simp [hi]) (by simp [hi])
  refine WorkLaw.settle ?_ ((sameTenure_handOver src s).owner h.bus.owner)
  exact
    { store := h.store.handOver src
      curve := h.curve.handOver src
      jobs := h.jobs.handOver hi hw
      engine := EngineLaw.handOver src s
      reset := ((h.thawed_of_ne (by simp [hi])).handOver src).law
      bus := h.bus.core.handOver quiet hr src
      prefetch := h.prefetch.handOver hi hn hr src
      transfer := h.transfer.handOver hn src
      control := h.control.congr (by simp) }

/-! ### Every command -/

theorem lawful_kept : Kept Lawful where
  alike h a _ := h.alike a
  openSession c hd h ho he := h.openSession c hd ho he
  commitSession h ho := h.commitSession ho
  cancelSession h ho := h.cancelSession ho
  takeLoadWord x h ho := h.takeLoadWord x ho
  emptyCurve c h he hn := h.emptyCurve c he hn
  retire c h he hn := h.retire c he hn
  acceptJob _ _ _ _ h he hq hf := h.acceptJob he hq hf
  continueJob _ act h hr _ := h.continueJob act hr
  abort h ha := h.abort ha
  flush l h := h.flush l
  writeControl x h := h.writeControl x
  popRecord _ _ h hr := h.popRecord hr
  engineReset h _ := h.engineResetBody
  completeReset h _ := lawful_completeReset h.store h.curve h.control
  quietReset h _ := lawful_completeReset h.store.endValue h.curve.of_eq (h.control.congr rfl)
  assertRst {s} h := (vacant_assertRst s).lawful (StoreLaw.assertRst s) (h.control.congr rfl)
  releaseRst _ := lawful_reset _
  takeGrant h hb := h.takeGrant hb
  removeGrant h := h.removeGrant
  releaseBus h hu := h.work.release hu
  beginHighHalf _ data h hu hlast := h.beginHighHalf data hu hlast
  demandEnd _ _ outcome h hu hk _ hp _ hr := h.demandEnd outcome hu hk hp hr
  writeEnd _ _ outcome h hu hk hp _ hr := h.writeEnd outcome hu hk hp hr
  prefetchEnd _ data h hu hk hp := h.prefetchEnd data hu hk hp
  prefetchFailed _ _ h hu hk he hp := h.prefetchFailed hu hk he hp
  droppedEnd _ outcome h hu hk hp := h.droppedEnd outcome hu hk hp
  setup r arg o h hst hr ha :=
    ((h.atBoundary hr (.inl hst)).setupBoundary ha o).settle ((sameTenure_setupBoundary r arg o _).owner h.bus.owner)
  terms r arg o h hst hr ha :=
    ((h.atBoundary hr (.inr (.inl hst))).termsBoundary ha o).settle
      ((sameTenure_termsBoundary r arg o _).owner h.bus.owner)
  conversion r arg o h hst hr _ hn :=
    ((h.atBoundary hr (.inr (.inr ⟨hst, hn⟩))).conversionBoundary arg o).settle
      ((sameTenure_conversionBoundary r arg o _).owner h.bus.owner)
  handOver _ h hi hw := h.handOver hi hw

/-- Settles O59: the induction over the commands. -/
theorem lawsAreKept : Obligations.LawsAreKept := fun _ _ h hs =>
  lawful_kept.step (fun _ h => h.alike {}) h hs

/-- Settles O57: nothing is in any place after hard reset. -/
theorem lawsHoldAtReset : Obligations.LawsHoldAtReset := lawful_reset

/-- Settles O60: the laws hold after hard reset and every step keeps them. -/
theorem reachableStatesAreLawful : Obligations.ReachableStatesAreLawful := by
  intro s h
  induction h with
  | reset commands => exact lawsHoldAtReset commands
  | step _ hs ih => exact lawsAreKept _ _ ih hs

end Sys2Proof.Machine

/-! SUPPORT. The dispatcher's inputs and the bus request (R104, R105, R131, R133), the grant (R133, R135, R180), and the
outcomes that a reset has cut off (R96). -/

namespace Sys2Proof.Machine

/-! ### The bus request (R131, R133, R135, R140) -/

theorem settleRequest_of_idle {s : State} (hb : s.bus.state = .idle) (hp : busPending s = true) :
    settleRequest s = { s with bus := { s.bus with state := .requesting } } := by
  simp only [settleRequest, hb, hp, if_true]

theorem settleRequest_of_withdrawn {s : State} (hb : s.bus.state = .requesting) (hp : busPending s = false) :
    settleRequest s = { s with bus := { s.bus with state := .idle } } := by
  simp only [settleRequest, hb, hp]
  rfl

theorem settleRequest_of_settled {s : State}
    (h : s.bus.state = .owner ∨ (s.bus.state = .requesting ∧ busPending s = true) ∨
      (s.bus.state = .idle ∧ busPending s = false)) : settleRequest s = s := by
  rcases h with hb | ⟨hb, hp⟩ | ⟨hb, hp⟩
  · simp only [settleRequest, hb]
  · simp only [settleRequest, hb, hp, if_true]
  · simp only [settleRequest, hb, hp]
    rfl

theorem busPending_iff (s : State) : busPending s = true ↔
    s.bus.waitingWrite.isSome = true ∨ s.bus.waitingRead.isSome = true ∨ prefetchPending s = true := by
  simp only [busPending, Bool.or_eq_true, or_assoc]

theorem isBatch_iff (d : Descriptor) : isBatch d = true ↔ descKind d = .batch := decide_eq_true_iff

theorem prefetchPending_iff (s : State) : prefetchPending s = true ↔
    s.control.getLsbD 4 = true ∧ s.engine.state ≠ .frozen ∧
    ∃ r pf, s.engine.running = some r ∧ descKind r.job.desc = .batch ∧ s.bus.prefetch = some pf ∧
      pf.stopped = false ∧ pf.p < elementCount r.job.desc ∧ s.bus.buffer.length < 4 := by
  unfold prefetchPending
  split
  next r pf hr hpf =>
    simp only [hr, hpf, prefetchEnabled, Config.prefetchDepth, Bool.and_eq_true, isBatch_iff, decide_eq_true_eq,
      Bool.not_eq_true', Option.some.injEq]
    constructor
    · rintro ⟨⟨⟨⟨⟨hen, hkind⟩, hst⟩, hstop⟩, hp⟩, hlen⟩
      exact ⟨hen, hst, r, pf, rfl, hkind, rfl, hstop, hp, of_decide_eq_true hlen⟩
    · rintro ⟨hen, hst, _, _, rfl, hkind, rfl, hstop, hp, hlen⟩
      exact ⟨⟨⟨⟨⟨hen, hkind⟩, hst⟩, hstop⟩, hp⟩, decide_eq_true hlen⟩
  next hno =>
    constructor
    · intro h
      cases h
    · rintro ⟨_, _, r, pf, hr, _, hpf, _⟩
      exact absurd hpf (hno r pf hr)

/-- Settles O12: the equations of `settleRequest` by the bus state, and the conditions of R131 and R140. -/
theorem requestFollowsPendingWork : Obligations.RequestFollowsPendingWork :=
  ⟨fun _ => ⟨settleRequest_of_idle, settleRequest_of_withdrawn, settleRequest_of_settled⟩, busPending_iff,
    prefetchPending_iff⟩

/-! ### The yield request (R105, R76) -/

theorem mem_levelsDown : ∀ l : Fin 4, l ∈ levelsDown := by decide

theorem eligibleSource_isSome_iff (s : State) (k : Fin 4) :
    (eligibleSource s k).isSome = true ↔ levelEnabled s k = true ∧ (sourceAt s k).isSome = true := by
  unfold eligibleSource
  split
  next h => simp only [h, true_and]
  next h => simp [h]

theorem yieldDue_iff (s : State) : yieldDue s = true ↔
    ∃ r, s.engine.running = some r ∧ ∃ k : Fin 4, r.job.level < k ∧ levelEnabled s k = true ∧
      (sourceAt s k).isSome = true := by
  unfold yieldDue
  split
  next r hr =>
    simp only [hr, Option.some.injEq, exists_eq_left', higherSource, List.any_eq_true, mem_levelsDown, true_and,
      Bool.and_eq_true, decide_eq_true_eq, eligibleSource_isSome_iff]
  next hr => simp [hr]

theorem demandUnderWay_iff (s : State) :
    demandUnderWay s = true ↔ ∃ u, s.bus.underWay = some u ∧ u.kind = .demandRead := by
  unfold demandUnderWay
  split
  next u hu => simp [hu]
  next hu => simp [hu]

/-- A job above which a source exists is not of level 3. -/
theorem level_lt_of_yieldDue {s : State} {r : RunningJob} (hr : s.engine.running = some r)
    (hy : yieldDue s = true) : r.job.level.val < 3 := by
  obtain ⟨r', hr', k, hk, _⟩ := (yieldDue_iff s).mp hy
  obtain rfl : r = r' := Option.some.inj (hr.symm.trans hr')
  have : r.job.level.val < k.val := hk
  omega

/-- R86, R110: the suspension with the slot written apart from the rest. -/
theorem suspend_eq (r : RunningJob) (part : Option PartialPart) (s : State) :
    suspend r part s =
      { setSlot r.job.level (some { job := r.job, part := part }) s with
        engine := { s.engine with state := .idle, running := none }
        bus := discardJobWork s.bus
        yieldRequest := false } := by
  unfold suspend setSlot
  split <;> rfl

theorem reactToSources_of_suspended {s : State} {r : RunningJob} (hr : s.engine.running = some r)
    (hst : s.engine.state = .fetch) (hd : demandUnderWay s = false) (hy : yieldDue s = true) :
    reactToSources s = settleRequest
      { setSlot r.job.level (some { job := r.job, part := none }) s with
        engine := { s.engine with state := .idle, running := none }
        bus := discardJobWork s.bus
        yieldRequest := false } := by
  have hstanding : standing (refreshYield s) = true := by
    change (decide (s.engine.state = .fetch) && !demandUnderWay s) = true
    simp [hst, hd]
  have hraised : yieldRaised (refreshYield s) r = true := by
    simp [yieldRaised, hy, level_lt_of_yieldDue hr hy]
  have hsuspended : suspendIfStanding (refreshYield s) = suspend r none (refreshYield s) := by
    simp only [suspendIfStanding, (show (refreshYield s).engine.running = some r from hr), hstanding, hraised,
      Bool.and_self, if_true]
  rw [reactToSources, hsuspended, suspend_eq]
  unfold setSlot
  split <;> rfl

theorem reactToSources_of_going {s : State}
    (h : s.engine.running = none ∨ s.engine.state ≠ .fetch ∨ demandUnderWay s = true ∨ yieldDue s = false) :
    reactToSources s = settleRequest { s with yieldRequest := yieldDue s } := by
  have hgoing : suspendIfStanding (refreshYield s) = refreshYield s := by
    unfold suspendIfStanding
    split
    next r hr =>
      refine if_neg fun hboth => ?_
      obtain ⟨hstanding, hraised⟩ := Bool.and_eq_true_iff.mp hboth
      obtain ⟨hst, hd⟩ := standing_spec hstanding
      have hy : yieldDue s = true := (Bool.and_eq_true_iff.mp hraised).1
      rcases h with h | h | h | h
      · cases h.symm.trans hr
      · exact h hst
      · cases h.symm.trans hd
      · cases h.symm.trans hy
    · rfl
  rw [reactToSources, hgoing]
  rfl

/-- Settles O11: the two reactions of the dispatcher, by whether a due request meets a job at the standing boundary. -/
theorem yieldRequestIsSetAfresh : Obligations.YieldRequestIsSetAfresh :=
  ⟨yieldDue_iff, demandUnderWay_iff, fun _ _ hr hst hd hy => reactToSources_of_suspended hr hst hd hy,
    fun _ h => reactToSources_of_going h⟩

/-! ### The grant (R133, R135, R180) -/

/-- Settles O33: the branches of the two bodies, by the bus state. -/
theorem grantAndItsRemoval : Obligations.GrantAndItsRemoval := by
  have hgrant (s : State) : exec .bgnt s = .next (bgntBody s) := rfl
  have hremoved (s : State) : exec .bgntRemoved s = .next (bgntRemovedBody s) := rfl
  intro s
  refine ⟨fun hr hb => ?_, fun h => ?_, fun hb hu => ?_, fun hb hu => ?_, fun hb => ?_⟩
  · rw [hgrant, bgntBody, if_neg (Bool.eq_false_iff.mp hr)]
    simp only [hb]
    rfl
  · rw [hgrant]
    obtain he | ⟨hb, _⟩ := bgntBody_spec s
    · rw [he]
    · have hr : s.rst = true := h.resolve_right (not_not.mpr hb)
      rw [bgntBody, if_pos hr]
  · rw [hremoved, bgntRemovedBody, hb]
    simp only [hu, if_true]
  · rw [hremoved, bgntRemovedBody, hb]
    simp [hu]
  · rw [hremoved]
    obtain he | ⟨ho, _⟩ := bgntRemovedBody_spec s
    · rw [he]
    · exact absurd ho hb

/-! ### Outcomes that are discarded (R96) -/

/-- Settles O50: an abandoned operation is looked for in the list of those and taken off it. -/
theorem abandonedOutcomesAreDiscarded : Obligations.AbandonedOutcomesAreDiscarded := fun _ =>
  ⟨discardOutcome_of_mem, discardOutcome_of_mem, discardOutcome_of_mem⟩

end Sys2Proof.Machine

/-! SUPPORT. The window: its registers written and read back (R53, R103, R146, R154, R164), every access decided (R177,
R178), and the reset line (R149, R161, R176). -/

namespace Sys2Proof.Machine

/-! ### Plain registers -/

theorem windowRead_of_released {s : State} (hr : s.rst = false) (o : BitVec 8) : windowRead s o = registerWord s o :=
  if_neg (Bool.eq_false_iff.mp hr)

theorem registerWord_stage (s : State) (i : Fin 7) :
    registerWord s (BitVec.ofNat 8 (0x40 + 4 * i.val)) = some s.intake.stage[i] := by
  fin_cases i <;> rfl

theorem registerWord_cmdArg (s : State) (i : Fin 3) :
    registerWord s (BitVec.ofNat 8 (0x18 + 4 * i.val)) = some s.cmd.args[i] := by
  fin_cases i <;> rfl

/-- Settles O7: the write holds the word in one register, and the read of that register shows it. -/
theorem registerWriteHoldsTheWord : Obligations.RegisterWriteHoldsTheWord := by
  have hexec (reg : PlainReg) (x : Word) (s : State) (hr : s.rst = false) :
      exec (.registerWrite reg x) s = .next { writePlain reg x s with answer := .ack } :=
    congrArg _ (windowWrite_of_released hr)
  intro x s hr
  refine ⟨fun i => ⟨hexec _ x s hr, ?_⟩, fun i => ⟨hexec _ x s hr, ?_⟩⟩
  · rw [windowRead_of_released (by exact hr), registerWord_stage]
    simp
  · rw [windowRead_of_released (by exact hr), registerWord_cmdArg]
    simp

/-! ### CONTROL (R103, R146, R181) -/

theorem getLsbD_control (x : Word) (i : Nat) (hi : i < 5) : (x &&& 0x00000F1F#32).getLsbD i = x.getLsbD i := by
  have hmask : (0x00000F1F#32).getLsbD i = true := by
    interval_cases i <;> rfl
  rw [BitVec.getLsbD_and, hmask, Bool.and_true]

/-- R181: the mask keeps the field of the tenure limit. -/
theorem tenureField_control (x : Word) : (x &&& 0x00000F1F#32).toNat / 2 ^ 8 % 2 ^ 4 = x.toNat / 256 % 16 := by
  have hmask : ∀ i < 4, Nat.testBit 0x00000F1F (8 + i) = true := by decide
  refine Nat.eq_of_testBit_eq fun i => ?_
  change _ = Nat.testBit (x.toNat / 2 ^ 8 % 2 ^ 4) i
  simp only [Nat.testBit_mod_two_pow, Nat.testBit_div_two_pow, BitVec.toNat_and, Nat.testBit_and]
  by_cases hi : i < 4
  · have := hmask i hi
    rw [Nat.add_comm] at this
    simp [hi, this]
  · simp [hi]

/-- Settles O10: the reaction changes neither CONTROL nor RST, so the fields are those of the masked word. -/
theorem controlWriteReacts : Obligations.ControlWriteReacts := by
  intro x s hr t
  have hcontrol : t.control = x &&& 0x00000F1F#32 := by simp [t]
  have hrst : t.rst = false := by simpa [t] using hr
  refine ⟨congrArg _ (windowWrite_of_released hr), ?_, fun l => ?_, ?_, ?_⟩
  · rw [windowRead_of_released hrst]
    exact congrArg some hcontrol
  · rw [levelEnabled, hcontrol, getLsbD_control x l.val (by omega)]
  · rw [prefetchEnabled, hcontrol, getLsbD_control x 4 (by decide)]
  · rw [tenureLimit, hcontrol, tenureField_control]

/-! ### CPOP (R154) and BAD_COMMAND (R162) -/

theorem cpopBody_of_cons {s : State} {r : Record} {rest : List Record} (h : s.completion.records = r :: rest) :
    cpopBody s = popRecord r rest s := by
  simp only [cpopBody, h]

theorem cpopBody_of_nil {s : State} (h : s.completion.records = []) : cpopBody s = setEvent .popEmpty s := by
  simp only [cpopBody, h]

/-- Settles O13: the two cases of R154, and the insertion into an ascending list. -/
theorem cpopRemovesTheOldestRecord : Obligations.CpopRemovesTheOldestRecord := by
  have hexec (s : State) (hr : s.rst = false) : exec .cpop s = .next { cpopBody s with answer := .ack } :=
    congrArg _ (windowWrite_of_released hr)
  refine ⟨fun s r rest hr hq => ?_, fun s hr hq => ?_, fun _ _ _ => mem_insertAsc, fun _ _ _ => mem_insertAllAsc,
    fun _ _ h => insertAllAsc_ascending h⟩
  · rw [hexec s hr, cpopBody_of_cons hq]
    rfl
  · rw [hexec s hr, cpopBody_of_nil hq]
    rfl

theorem namesCommand_eq_false {code : BitVec 8} (h : code.toNat = 0 ∨ 10 < code.toNat) : namesCommand code = false := by
  simp only [namesCommand, Bool.and_eq_false_iff, decide_eq_false_iff_not]
  omega

/-- Settles O14: a code out of 1 to 10 names no command, and the command of such a code does nothing but be recorded. -/
theorem badCommandIsRecorded : Obligations.BadCommandIsRecorded := by
  intro code s hcode ht
  rw [exec_badCommand_eq (namesCommand_eq_false hcode), immediate_eq_of_taken ht]

/-! ### The reset line (R149, R161, R176) -/

theorem hostAccess_of_asserted {f : State → State} {s : State} (hr : s.rst = true) :
    hostAccess f s = { s with answer := .unanswered } :=
  if_pos hr

/-- R176: an access of the window is taken by the window as a whole, whatever it would do. -/
theorem exec_windowAccess_eq {c : Instr} (hc : isWindowAccess c = true) (hwf : c.wellFormed = true) :
    ∃ f : State → State, ∀ s, exec c s = .next (hostAccess f s) := by
  by_cases hcode : (cmdCode c).isSome = true
  · obtain ⟨take, htake⟩ := runsThroughCmd_of_cmdCode hcode hwf
    exact ⟨_, htake⟩
  · cases c with
    | submit l => exact ⟨_, fun _ => rfl⟩
    | loadData x => exact ⟨_, fun _ => rfl⟩
    | cpop => exact ⟨_, fun _ => rfl⟩
    | eventsWrite x => exact ⟨_, fun _ => rfl⟩
    | eventEnableWrite x => exact ⟨_, fun _ => rfl⟩
    | controlWrite x => exact ⟨_, fun _ => rfl⟩
    | registerWrite reg x => exact ⟨_, fun _ => rfl⟩
    | windowAccessError a => exact ⟨_, exec_windowAccessError_eq hwf⟩
    | openLoad | commitLoad | cancelLoad | retire | queryCurve | queryJob | continueHeld | abort | flushLevel
    | engineReset | badCommand _ => exact absurd rfl hcode
    | rstAssert | rstRelease | bgnt | bgntRemoved | demandReadEnd _ | resultWriteEnd _ | prefetchReadEnd _
    | prefetchReadFailure | droppedValueEnd _ | wLowHalfEnd _ | setupCompletion _ | termsCompletion _
    | conversionCompletion _ | dispatch | engineResetCompletion => exact absurd hc Bool.false_ne_true

theorem liveJobs_of_vacant {s : State} (v : Vacant s) : liveJobs s = [] := by
  simp [liveJobs, v.queues, v.slots, v.running, v.hold]

theorem drivenTransfer_of_none {s : State} (hu : s.bus.underWay = none) : drivenTransfer s = none := by
  simp only [drivenTransfer, hu, Option.map_none]

theorem underWay_of_vacant {s : State} (v : Vacant s) : s.bus.underWay = none := by rw [v.bus]; rfl

theorem breq_of_vacant {s : State} (v : Vacant s) : breq s = false := by simp [breq, v.bus, BusMaster.reset]

/-- Settles O4: no access is taken under RST; the assertion leaves the part vacant, and the release gives the state of
hard reset. -/
theorem hardReset : Obligations.HardReset := by
  refine ⟨fun c s hc hwf hr => ?_, fun o s hr => ⟨if_pos hr, hostAccess_of_asserted hr⟩, fun s => ?_, fun s hr => ?_⟩
  · obtain ⟨f, hf⟩ := exec_windowAccess_eq hc hwf
    rw [hf, hostAccess_of_asserted hr]
  · have v := vacant_assertRst s
    exact ⟨assertRst s, rfl, rfl, rfl, breq_of_vacant v, drivenTransfer_of_none (underWay_of_vacant v),
      liveJobs_of_vacant v, rfl, rfl, rfl, rfl, rfl, rfl,
      fun c => ⟨(v.curves c).1, (v.curves c).2.2.2, (v.curves c).2.2.1⟩, rfl, rfl⟩
  · have v := vacant_reset s.pending
    refine ⟨{ State.reset with pending := s.pending }, if_pos hr, rfl, by simp [irq, State.reset], breq_of_vacant v,
      drivenTransfer_of_none (underWay_of_vacant v), fun c => ?_, rfl, rfl, rfl, rfl, rfl, rfl, rfl, rfl, rfl, v.queues,
      rfl, rfl, rfl, v.slots, rfl, ?_, rfl, rfl, rfl, rfl, rfl, rfl, rfl, ?_, ?_, rfl, rfl, rfl, rfl, rfl, rfl, rfl,
      rfl, rfl⟩
    · simp [curveEntry, State.reset, CurveEntry.reset]
    · change ∀ l : Fin 4, Config.controlReset.getLsbD l.val = true
      decide
    · change Config.controlReset.getLsbD 4 = true
      decide
    · change Config.controlReset.toNat / 2 ^ 8 % 2 ^ 4 + 1 = 4
      decide

/-- Settles O3: the registers after hard reset, read one by one. -/
theorem resetReadsAsTheManualSays : Obligations.ResetReadsAsTheManualSays := by
  refine ⟨rfl, rfl, rfl, ?store, by decide, rfl, rfl, rfl⟩
  change some (field (List.range 128).length 0 8 ||| (field 0 8 7 ||| flagBit true 15)) = _
  rw [List.length_range]
  rfl

end Sys2Proof.Machine

/-! SUPPORT. Every access of the window is decided (R177, R178): the command it is, or the register it reads. -/

namespace Sys2Proof.Machine

theorem accessCommand_of_erroneous {a : WindowAccess} (h : a.erroneous = true) :
    accessCommand a = some (.windowAccessError a) :=
  if_pos h

theorem accessCommand_of_good {a : WindowAccess} (h : a.erroneous = false) :
    accessCommand a = if a.write then writeCommand a.offset a.data else readCommand a.offset :=
  if_neg (Bool.eq_false_iff.mp h)

/-! ### The commands that accesses are -/

/-- R162, R183: the command of a code has that code, and is BAD_COMMAND exactly for a code that names none. -/
theorem cmdCommand_spec (code : BitVec 8) :
    cmdCode (cmdCommand code) = some code ∧ (cmdCommand code).wellFormed = true := by
  have named {n : Nat} (hn : n < 2 ^ 8) (h : code.toNat = n) : some (BitVec.ofNat 8 n) = some code := by
    rw [← h, BitVec.ofNat_toNat, BitVec.setWidth_eq]
  unfold cmdCommand
  split
  next h => exact ⟨named (by decide) h, rfl⟩
  next h => exact ⟨named (by decide) h, rfl⟩
  next h => exact ⟨named (by decide) h, rfl⟩
  next h => exact ⟨named (by decide) h, rfl⟩
  next h => exact ⟨named (by decide) h, rfl⟩
  next h => exact ⟨named (by decide) h, rfl⟩
  next h => exact ⟨named (by decide) h, rfl⟩
  next h => exact ⟨named (by decide) h, rfl⟩
  next h => exact ⟨named (by decide) h, rfl⟩
  next h => exact ⟨named (by decide) h, rfl⟩
  next h1 h2 h3 h4 h5 h6 h7 h8 h9 h10 =>
    refine ⟨rfl, ?_⟩
    simp only [imp_false] at h1 h2 h3 h4 h5 h6 h7 h8 h9 h10
    have outside : code.toNat = 0 ∨ 10 < code.toNat := by omega
    simp only [Instr.wellFormed, namesCommand_eq_false outside, Bool.not_false]

theorem isWindowAccess_of_cmdCode {c : Instr} (h : (cmdCode c).isSome = true) : isWindowAccess c = true :=
  Bool.or_eq_true_iff.mpr (Or.inl h)

theorem writeCommand_wellFormed {o : BitVec 8} {x : Word} {c : Instr} (h : writeCommand o x = some c) :
    c.wellFormed = true ∧ isWindowAccess c = true := by
  unfold writeCommand at h
  split at h
  case h_4 =>
    cases h
    obtain ⟨hcode, hwf⟩ := cmdCommand_spec (x.truncate 8)
    exact ⟨hwf, isWindowAccess_of_cmdCode (by simp [hcode])⟩
  all_goals cases h
  all_goals exact ⟨rfl, rfl⟩

theorem readCommand_wellFormed {o : BitVec 8} {c : Instr} (h : readCommand o = some c) :
    c.wellFormed = true ∧ isWindowAccess c = true := by
  unfold readCommand at h
  split at h
  all_goals cases h
  all_goals exact ⟨rfl, rfl⟩

theorem accessCommand_wellFormed {a : WindowAccess} {c : Instr} (h : accessCommand a = some c) :
    c.wellFormed = true ∧ isWindowAccess c = true := by
  by_cases herr : a.erroneous = true
  · rw [accessCommand_of_erroneous herr] at h
    cases h
    exact ⟨herr, rfl⟩
  · rw [accessCommand_of_good (Bool.eq_false_iff.mpr herr)] at h
    split at h
    · exact writeCommand_wellFormed h
    · exact readCommand_wellFormed h

/-! ### No access is left over -/

/-- Section 11.3: a write to each register that is not read-only is a command. -/
theorem writeCommand_isSome (x : Word) :
    ∀ o ∈ mappedOffsets, (readOnlyOffsets.contains o || (writeCommand o x).isSome) = true :=
  List.all_eq_true.mp rfl

/-- Section 11.3: a read of each register that is not write-only is a command or shows a word. -/
theorem registerWord_isSome (s : State) :
    ∀ o ∈ mappedOffsets, (writeOnlyOffsets.contains o || (readCommand o).isSome || (registerWord s o).isSome) = true :=
  List.all_eq_true.mp rfl

/-- R178: the offset of an access that is not in error holds a register of the access's direction. -/
theorem offset_of_good {a : WindowAccess} (h : a.erroneous = false) :
    a.offset ∈ mappedOffsets ∧ (a.write = true → a.offset ∉ readOnlyOffsets) ∧
      (a.write = false → a.offset ∉ writeOnlyOffsets) := by
  have hgood := mt (erroneous_iff_offsetClass a).mpr (Bool.eq_false_iff.mp h)
  simp only [offsetClass_eq_unmapped_iff, offsetClass_eq_readOnly_iff, offsetClass_eq_writeOnly_iff, not_or] at hgood
  obtain ⟨hmapped, _, _, hwrite, hread⟩ := hgood
  exact ⟨not_not.mp hmapped, fun hw hm => hwrite ⟨hw, hm⟩, fun hw hm => hread ⟨hw, hm⟩⟩

/-- An access that is neither in error nor a command is a read of a register. -/
theorem plainRead_of_none {a : WindowAccess} (h : a.erroneous = false) (hc : accessCommand a = none) (s : State) :
    a.write = false ∧ ∃ w, registerWord s a.offset = some w := by
  obtain ⟨hmapped, hwrite, hread⟩ := offset_of_good h
  rw [accessCommand_of_good h] at hc
  cases hw : a.write with
  | true =>
    simp only [hw, if_true] at hc
    have := writeCommand_isSome a.data a.offset hmapped
    simp [hc, hwrite hw] at this
  | false =>
    simp only [hw] at hc
    have := registerWord_isSome s a.offset hmapped
    simp [show readCommand a.offset = none from hc, hread hw] at this
    exact ⟨rfl, Option.isSome_iff_exists.mp this⟩

/-- Settles O6: the cases of `accessCommand`, and the register a plain read shows. -/
theorem everyAccessIsDecided : Obligations.EveryAccessIsDecided := by
  refine ⟨fun a h => accessCommand_of_erroneous h, fun a h => accessCommand_of_good h, fun a c s hc => ?_,
    fun a s h hc => ?_, fun x => ⟨cmdCommand (x.truncate 8), rfl, (cmdCommand_spec _).1⟩, fun i => ?_, fun i x => ?_,
    fun i x => ?_, fun x => ⟨rfl, rfl, rfl, rfl, rfl⟩⟩
  · obtain ⟨hwf, haccess⟩ := accessCommand_wellFormed hc
    exact ⟨hwf, haccess, by simp only [takeAccess, hc]⟩
  · obtain ⟨hwrite, w, hw⟩ := plainRead_of_none h hc s
    have htake : takeAccess a s = .next (plainRead a.offset s) := by simp only [takeAccess, hc]
    refine ⟨hwrite, fun hr => ⟨w, ?_, ?_⟩, fun hr => ?_⟩
    · rw [windowRead_of_released hr, hw]
    · rw [htake, plainRead, hostAccess_of_released hr, hw]
    · rw [htake, plainRead, hostAccess_of_asserted hr]
  · fin_cases i <;> rfl
  · fin_cases i <;> rfl
  · fin_cases i <;> rfl

end Sys2Proof.Machine

/-! SUPPORT. The ends of transfers (R77, R81, R132, R136 to R142, R144) and ENGINE_RESET (R172, R174, R189). -/

namespace Sys2Proof.Machine

/-! ### ENGINE_RESET -/

theorem takeCommand_eq_of_taken {take : State → State} {s : State} (h : commandTaken s) :
    takeCommand take s = { take s with answer := .ack } := by
  obtain ⟨hr, hp⟩ := h
  rw [takeCommand_eq, if_neg (Bool.eq_false_iff.mp hr), if_neg (Bool.eq_false_iff.mp hp)]

/-- R96: the operation in flight, as a match on the engine's state. -/
theorem operationInFlight_toList (e : Engine) :
    (operationInFlight e).toList =
      match e.state, e.running with
      | .setup, some _ => [ArithOp.setup]
      | .terms, some _ => [.terms]
      | .store, some r => if r.result = none then [.conversion] else []
      | _, _ => [] := by
  obtain ⟨st, running, abandoned⟩ := e
  cases st with
  | idle | fetch | frozen => cases running <;> rfl
  | setup | terms => cases running <;> rfl
  | store =>
    cases running with
    | none => rfl
    | some r => cases hres : r.result <;> simp [operationInFlight, hres]

theorem completeReset_eq (s : State) : completeReset s = resetDone s := rfl

/-- Settles O31: without a value under way the reset completes at once, and no field of the taken state that the
completion keeps is one the bus master's discarding touches. -/
theorem engineResetTaken : Obligations.EngineResetTaken := by
  intro s ht
  have hexec : exec .engineReset s = .next { engineResetBody s with answer := .ack } :=
    congrArg _ (takeCommand_eq_of_taken ht)
  refine ⟨fun hu => ?_, fun u hu hb => ?_⟩
  · rw [hexec, engineResetBody, hu]
    simp only [takeReset, abandonOperation, operationInFlight_toList]
    rfl
  · rw [hexec, engineResetBody, hu]
    simp only [takeReset, abandonOperation, operationInFlight_toList, resetBusWork, discardJobWork, hu, hb]
    rfl

/-! ### The value under way at its end -/

theorem quietReset_eq (s : State) : quietReset s = resetDone { s with bus := { s.bus with underWay := none } } := rfl

theorem lastTransfer_eq {u : UnderWay} (h : u.size ≤ u.ended + 1) : lastTransfer u = true := decide_eq_true h

theorem lastTransfer_eq_false {u : UnderWay} (h : u.ended + 1 < u.size) : lastTransfer u = false :=
  decide_eq_false (by omega)

section
variable {s : State} {u : UnderWay} (hu : s.bus.underWay = some u)
include hu

theorem valueOf_eq {k : ValueKind} (hk : u.kind = k) : valueOf s k = some u := hk ▸ valueOf_of_kind hu

theorem exec_demandReadEnd_of_pending {o : ReadEnd} (hk : u.kind = .demandRead) (ho : readEndPossible u o = true)
    (hp : s.cmd.pending = true) : exec (.demandReadEnd o) s = .next (quietReset s) := by
  change execDemandReadEnd o s = _
  simp only [execDemandReadEnd, valueOf_eq hu hk, ho, hp, if_true]

theorem exec_demandReadEnd_of_fetch {o : ReadEnd} {r : RunningJob} (hk : u.kind = .demandRead)
    (ho : readEndPossible u o = true) (hp : s.cmd.pending = false) (he : s.engine.state = .fetch)
    (hr : s.engine.running = some r) : exec (.demandReadEnd o) s = .next (demandEnd r u o s) := by
  change execDemandReadEnd o s = _
  simp [execDemandReadEnd, valueOf_eq hu hk, ho, hp, he, hr]

theorem exec_resultWriteEnd_of_pending {o : TransferEnd} (hk : u.kind = .resultWrite)
    (ho : transferEndPossible u o = true) (hp : s.cmd.pending = true) :
    exec (.resultWriteEnd o) s = .next (quietReset s) := by
  change execResultWriteEnd o s = _
  simp only [execResultWriteEnd, valueOf_eq hu hk, ho, hp, if_true]

theorem exec_resultWriteEnd_of_store {o : TransferEnd} {r : RunningJob} (hk : u.kind = .resultWrite)
    (ho : transferEndPossible u o = true) (hp : s.cmd.pending = false) (he : s.engine.state = .store)
    (hr : s.engine.running = some r) : exec (.resultWriteEnd o) s = .next (writeEnd r u o s) := by
  change execResultWriteEnd o s = _
  simp [execResultWriteEnd, valueOf_eq hu hk, ho, hp, he, hr]

theorem exec_droppedValueEnd_eq {o : TransferEnd} (hk : u.kind = .dropped) (ho : transferEndPossible u o = true) :
    exec (.droppedValueEnd o) s = .next (if s.cmd.pending then quietReset s else droppedEnd o s) := by
  change execDroppedValueEnd o s = _
  simp only [execDroppedValueEnd, valueOf_eq hu hk, ho, if_true, apply_ite Host.Outcome.next]

theorem exec_prefetchReadEnd_eq (data : Word) (hk : u.kind = .prefetchRead) (hl : lastTransfer u = true)
    (hp : s.cmd.pending = false) : exec (.prefetchReadEnd data) s = .next (prefetchEnd u data s) := by
  change execPrefetchReadEnd data s = _
  simp [execPrefetchReadEnd, valueOf_eq hu hk, hl, hp]

theorem exec_prefetchReadFailure_eq {e : PrefetchEntry} (hk : u.kind = .prefetchRead)
    (he : inFlightEntry s.bus = some e) (hp : s.cmd.pending = false) :
    exec .prefetchReadFailure s = .next (prefetchFailed e.element s) := by
  change execPrefetchReadFailure s = _
  simp [execPrefetchReadFailure, valueOf_eq hu hk, he, hp]

end

theorem exec_engineResetCompletion_eq (s : State) :
    exec .engineResetCompletion s = .next (if s.cmd.pending then completeReset s else s) := rfl

/-- Settles O32: each end of a value is the completion while the reset is pending. -/
theorem engineResetCompletes : Obligations.EngineResetCompletes := by
  refine ⟨fun u s hp hu => ⟨fun hk => ⟨?_, fun hl data => ?_⟩, fun hk => ⟨?_, fun hl => ?_⟩,
    fun hk => ⟨?_, fun hl => ?_⟩⟩, fun s hp => ?_, fun f v c => getElem_mapCurves f v c, fun s hp => ?_⟩
  · exact exec_demandReadEnd_of_pending hu hk rfl hp
  · exact exec_demandReadEnd_of_pending hu hk (lastTransfer_eq hl) hp
  · exact exec_resultWriteEnd_of_pending hu hk rfl hp
  · exact exec_resultWriteEnd_of_pending hu hk (lastTransfer_eq hl) hp
  · rw [exec_droppedValueEnd_eq hu hk rfl, if_pos hp, quietReset_eq]
  · rw [exec_droppedValueEnd_eq hu (o := .ack) hk (lastTransfer_eq hl), if_pos hp, quietReset_eq]
  · rw [exec_engineResetCompletion_eq, if_pos hp, completeReset_eq]
  · rw [exec_engineResetCompletion_eq, hp]
    rfl

/-! ### The low half -/

theorem execWLowHalfEnd_of_none {s : State} (hu : s.bus.underWay = none) (data : Word) :
    exec (.wLowHalfEnd data) s = .fault .noSuchEvent := by
  change execWLowHalfEnd data s = _
  simp only [execWLowHalfEnd, hu]

theorem exec_wLowHalfEnd_eq {s : State} {u : UnderWay} (hu : s.bus.underWay = some u) (data : Word) :
    exec (.wLowHalfEnd data) s =
      if lastTransfer u then .fault .noSuchEvent else .next (beginHighHalf u data s) := by
  change execWLowHalfEnd data s = _
  simp only [execWLowHalfEnd, hu]

theorem heldLow_eq (u : UnderWay) (data : Word) :
    heldLow u data = if u.kind = .demandRead ∨ u.kind = .prefetchRead then some data else none := by
  unfold heldLow
  split <;> simp [*]

/-- R132: an N value has one transfer, which carries its word. -/
theorem transferWord_of_lt {v : Value} {n : Nat} : n < formatWords (valueFormat v) →
    transferWord v n = match v with | .narrow x => x | .wide hi lo => if n = 0 then lo else hi := by
  intro h
  cases v with
  | narrow x => exact if_pos (Nat.lt_one_iff.mp h)
  | wide hi lo => rfl

/-- Settles O35: the high half begins in the same tenure; what is driven is the value under way, which in a lawful
state is the running job's (`TransferLaw`). -/
theorem lowHalfEndBeginsTheHighHalf : Obligations.LowHalfEndBeginsTheHighHalf := by
  refine ⟨fun data u s hu => ⟨fun hl => ?_, fun hl => ?_⟩, fun data s hu => execWLowHalfEnd_of_none hu data,
    fun s => by rw [masterStb_eq], fun data s t h => ?_, fun s hu => drivenTransfer_of_none hu,
    fun u s hu hk => ?_, fun u s h hu => ⟨fun hk => ?_, h.transfer.reading u hu, h.transfer.prefetching u hu,
      h.transfer.lowWord u hu⟩⟩
  · rw [exec_wLowHalfEnd_eq hu, lastTransfer_eq_false hl, beginHighHalf, heldLow_eq]
    rfl
  · rw [exec_wLowHalfEnd_eq hu, lastTransfer_eq hl, if_pos rfl]
  · obtain ⟨u, hu, hl, rfl⟩ := wLowHalfEnd_spec h
    simp [masterStbLevels, masterStb_eq, beginHighHalf, hu]
  · simp only [drivenTransfer, hu, Option.map_some, hk, decide_false, if_false]
  · obtain ⟨r, v, hr, hv, ha, hs⟩ := h.transfer.writing u hu hk
    have hn : u.ended < formatWords (valueFormat v) := hs ▸ (h.bus.transfers u hu).1
    have driven {w : Word} (hw : transferWord v u.ended = w) :
        drivenTransfer s = some
          { addr := resAddress r.job.desc r.job.index + BitVec.ofNat 32 (4 * u.ended), lanes := 0xF#4, write := true
            data := some w, stb := true } := by
      simp only [drivenTransfer, hu, Option.map_some, hk, decide_true, if_true, ha, drivenData, hr, Option.bind_some,
        hv, hw]
    exact ⟨r, v, hr, hv, driven (transferWord_of_lt hn)⟩

/-! ### The boundaries of demand reads and result writes -/

theorem yieldRaised_eq_true {s : State} {r : RunningJob} (hy : s.yieldRequest = true) (hl : r.job.level.val < 3) :
    yieldRaised s r = true := by
  simp only [yieldRaised, hy, decide_eq_true hl, Bool.and_true]

theorem yieldRaised_eq_false {s : State} {r : RunningJob} (h : s.yieldRequest = false ∨ r.job.level = 3) :
    yieldRaised s r = false := by
  rcases h with hy | hl
  · rw [yieldRaised, hy, Bool.false_and]
  · rw [yieldRaised, hl, Bool.and_eq_false_iff]
    exact .inr rfl

/-- Settles O36: the branches of `demandEnd`. -/
theorem demandReadEnds : Obligations.DemandReadEnds := by
  intro u r s hp hu hk he hr
  have hberr := exec_demandReadEnd_of_fetch hu (o := .berr) hk rfl hp he hr
  refine ⟨fun hm => ?_, fun hm => ?_, fun hl data => ?_⟩
  · rw [hberr, demandEnd, demandFailed, if_pos hm]
    rfl
  · rw [hberr, demandEnd, demandFailed, hm]
    rfl
  · have hack := exec_demandReadEnd_of_fetch hu (o := .ack data) hk (lastTransfer_eq hl) hp he hr
    refine ⟨fun hm => ?_, fun hm hy h3 => ?_, fun hm hy => ?_⟩
    · rw [hack, demandEnd, demandAcked, if_pos hm]
      rfl
    · rw [hack, demandEnd, demandAcked, hm, yieldRaised_eq_true (by exact hy) h3]
      rfl
    · rw [hack, demandEnd, demandAcked, hm, yieldRaised_eq_false (by exact hy)]
      rfl

/-- Settles O37: the branches of `writeEnd`. -/
theorem resultWriteEnds : Obligations.ResultWriteEnds := by
  intro u r s hp hu hk he hr
  have hberr := exec_resultWriteEnd_of_store hu (o := .berr) hk rfl hp he hr
  refine ⟨fun hm => ?_, fun hm => ?_, fun hl => ?_⟩
  · rw [hberr, writeEnd, writeFailed, if_pos hm]
    rfl
  · rw [hberr, writeEnd, writeFailed, hm]
    rfl
  · have hack : exec (.resultWriteEnd .ack) s = .next (choicePoint (writeAcked (countElement r) (endValue s))) :=
      exec_resultWriteEnd_of_store hu (o := .ack) hk (lastTransfer_eq hl) hp he hr
    refine ⟨fun hm => ?_, fun hm hlast hx => ?_, fun hm hlast hx => ?_, fun hm hlast hy h3 => ?_, fun hm hlast hy => ?_⟩
    · rw [hack, writeAcked, if_pos (by exact hm)]
      rfl
    · rw [hack, writeAcked, if_neg (by exact Bool.eq_false_iff.mp hm), if_pos (by exact hlast), finalStatus,
        if_pos (by exact hx)]
      rfl
    · rw [hack, writeAcked, if_neg (by exact Bool.eq_false_iff.mp hm), if_pos (by exact hlast), finalStatus,
        if_neg (by exact hx)]
      rfl
    · rw [hack, writeAcked, if_neg (by exact Bool.eq_false_iff.mp hm), if_neg (by exact hlast),
        if_pos (yieldRaised_eq_true (by exact hy) (by exact h3))]
      rfl
    · rw [hack, writeAcked, if_neg (by exact Bool.eq_false_iff.mp hm), if_neg (by exact hlast),
        yieldRaised_eq_false (by exact hy)]
      rfl

/-! ### Prefetch reads, dropped values, and FETCH -/

theorem wakeFetch_of_waits {s : State} {r : RunningJob} (he : s.engine.state = .fetch) (hr : s.engine.running = some r)
    (hw : s.bus.waitingRead = none) : wakeFetch s = enterFetch r s := by
  simp [wakeFetch, he, hr, hw]

theorem wakeFetch_of_not_waits {s : State}
    (h : ∀ r, ¬(s.engine.state = .fetch ∧ s.engine.running = some r ∧ s.bus.waitingRead = none)) : wakeFetch s = s := by
  unfold wakeFetch
  split
  next r he hr =>
    refine if_pos (Option.isSome_iff_ne_none.mpr fun hw => h r ⟨he, hr, hw⟩)
  next => rfl

theorem readyEntry_eq (v : Value) (b : BusMaster) :
    readyEntry v b =
      { b with buffer := b.buffer.map fun e => if e.value = none then { e with value := some v } else e } := by
  simp only [readyEntry, Option.isNone_iff_eq_none]

/-- Settles O38: what the entry becomes, and the look into the buffer when the engine waits for it. -/
theorem prefetchReadsAndDroppedValuesEnd : Obligations.PrefetchReadsAndDroppedValuesEnd := by
  refine ⟨fun u s hp hu hk => ⟨?_, fun hl => ?_⟩, fun u s hp hu hk => ⟨fun hl data => ?_, fun e he => ?_⟩⟩
  · rw [exec_droppedValueEnd_eq hu hk rfl, hp]
    rfl
  · rw [exec_droppedValueEnd_eq hu (o := .ack) hk (lastTransfer_eq hl), hp]
    rfl
  · have hend := exec_prefetchReadEnd_eq hu data hk (lastTransfer_eq hl) hp
    refine ⟨fun hn => ?_, fun r ⟨hst, hr, hw⟩ => ?_⟩
    · rw [hend, prefetchEnd, readyEntry_eq, wakeFetch_of_not_waits (by exact hn)]
      rfl
    · rw [hend, prefetchEnd, readyEntry_eq, wakeFetch_of_waits (by exact hst) (by exact hr) (by exact hw)]
      rfl
  · have hfail := exec_prefetchReadFailure_eq hu hk he hp
    refine ⟨fun hn => ?_, fun r ⟨hst, hr, hw⟩ => ?_⟩
    · rw [hfail, prefetchFailed, wakeFetch_of_not_waits (by exact hn)]
      rfl
    · rw [hfail, prefetchFailed, wakeFetch_of_waits (by exact hst) (by exact hr) (by exact hw)]
      rfl

/-- Settles O39: the three cases of the look into the buffer. -/
theorem fetchAsksTheBuffer : Obligations.FetchAsksTheBuffer := by
  refine ⟨fun d arg hd => ?_, fun d n ab ast rb rst hd => ?_, fun r s => ⟨fun e v he hv => ?_, fun e he hv => ?_,
    fun he => ?_⟩⟩
  · simp only [elementCount, descKind, hd, and_self]
  · simp only [elementCount, descKind, argAddress, hd, true_and, implies_true]
  · obtain ⟨i, w⟩ := e
    cases hv
    rw [enterFetch, show entryFor s.bus r.job.index = _ from he]
    rfl
  · obtain ⟨i, w⟩ := e
    cases hv
    rw [enterFetch, show entryFor s.bus r.job.index = _ from he]
    rfl
  · rw [enterFetch, show entryFor s.bus r.job.index = _ from he]
    rfl

end Sys2Proof.Machine

/-! SUPPORT. SETUP and its stages, segment selection, and the boundaries of the engine's operations (R14 to R20, R36,
R78 to R91). -/

namespace Sys2Proof.Machine

/-! ### The order of the values of a curve -/

theorem valueLt_iff (a b : Value) : valueLt a b = true ↔ numberOf a < numberOf b := by
  rw [valueLt, lt_iff_number, valueNum_number, valueNum_number]

theorem valueLe_iff (a b : Value) : valueLe a b = true ↔ numberOf a ≤ numberOf b := by
  rw [valueLe, le_iff_number, valueNum_number, valueNum_number]

/-! ### Segment selection (R18) -/

section
variable (st : CoeffStore) (blocks : List Nat) (h : CurveHeader) (x : Value)

/-- R18: the search gives the highest segment up to `top` whose lower breakpoint is at most the argument, or
segment 0. -/
theorem selectSegment_spec (top : Nat) :
    selectSegment st blocks h x top ≤ top ∧
      (selectSegment st blocks h x top = 0 ∨
        valueLe (breakpoint st blocks h (selectSegment st blocks h x top)) x = true) ∧
      ∀ k, selectSegment st blocks h x top < k → k ≤ top → valueLe (breakpoint st blocks h k) x = false := by
  induction top with
  | zero => exact ⟨le_rfl, .inl rfl, fun k hlt hle => absurd (Nat.lt_of_lt_of_le hlt hle) (Nat.lt_irrefl _)⟩
  | succ top ih =>
    rw [selectSegment]
    split
    next hle => exact ⟨le_rfl, .inr hle, fun k hlt hk => absurd (Nat.lt_of_lt_of_le hlt hk) (Nat.lt_irrefl _)⟩
    next hgt =>
      obtain ⟨hbound, hlower, hupper⟩ := ih
      refine ⟨Nat.le_succ_of_le hbound, hlower, fun k hlt hk => ?_⟩
      rcases Nat.le_succ_iff.mp hk with hk | rfl
      · exact hupper k hlt hk
      · exact Bool.eq_false_iff.mpr hgt

end

/-- Settles O41: the search's segment is the one that encloses the argument, for the breakpoints ascend. -/
theorem segmentSelectionFindsTheSegment : Obligations.SegmentSelectionFindsTheSegment := by
  intro st blocks h x hseg hasc i
  obtain ⟨hbound, hlower, hupper⟩ := selectSegment_spec st blocks h x (h.segments - 1)
  change i ≤ _ at hbound
  change i = 0 ∨ _ at hlower
  change ∀ k, i < k → _ at hupper
  simp only [Bool.eq_false_iff, ne_eq, valueLe_iff, not_le] at hupper
  simp only [valueLt_iff] at hasc
  simp only [valueLt_iff, valueLe_iff] at hlower ⊢
  refine ⟨fun hlow _ => ⟨by omega, ?_, ?_⟩, fun hbelow => ?_, fun habove => ?_⟩
  · rcases hlower with h0 | hle
    · exact h0 ▸ hlow
    · exact hle
  · by_cases hlast : i + 1 = h.segments
    · exact .inr hlast
    · exact .inl (hupper (i + 1) (Nat.lt_succ_self i) (by omega))
  · refine hlower.resolve_right fun hle => ?_
    rcases Nat.eq_zero_or_pos i with h0 | hpos
    · exact absurd (h0 ▸ hle) (not_le.mpr hbelow)
    · exact absurd (hle.trans_lt (hbelow.trans (hasc 0 i hpos (by omega)))) (lt_irrefl _)
  · by_contra hne
    have hnext := hupper (h.segments - 1) (by omega) le_rfl
    exact absurd ((hasc (h.segments - 1) h.segments (by omega) le_rfl).trans (habove.trans hnext)) (lt_irrefl _)

/-! ### SETUP (R14 to R20, R36, R78) -/

theorem termBelow_eq (n : Nat) : termBelow n = if n = 0 then none else some (n - 1) := by
  cases n with
  | zero => rfl
  | succ n => rfl

theorem loadAccumulator_eq (st : CoeffStore) (blocks : List Nat) (h : CurveHeader) (i : Nat) (t : Value) :
    loadAccumulator st blocks h i t =
      .working
        { segment := i, t := canonical t, acc := canonical (segmentTerm st blocks h i (segmentDegree st blocks h i))
          nextTerm :=
            if segmentDegree st blocks h i = 0 then none else some (segmentDegree st blocks h i - 1) } := by
  rw [loadAccumulator, termBelow_eq]

section
variable {st : CoeffStore} {blocks : List Nat} {h : CurveHeader} {x : Value}

theorem applyRange_of_inside (hlow : valueLt x (breakpoint st blocks h 0) = false)
    (hhigh : valueLt (breakpoint st blocks h h.segments) x = false) : applyRange st blocks h x = some x := by
  simp [applyRange, hlow, hhigh]

/-- R17: out of range on either side the range policy decides. -/
theorem applyRange_of_outside
    (hout : valueLt x (breakpoint st blocks h 0) = true ∨ valueLt (breakpoint st blocks h h.segments) x = true) :
    (h.range = .clamp → applyRange st blocks h x =
      some (if valueLt x (breakpoint st blocks h 0) then breakpoint st blocks h 0
        else breakpoint st blocks h h.segments)) ∧
    (h.range = .extend → applyRange st blocks h x = some x) ∧
    (h.range = .reject → applyRange st blocks h x = none) := by
  unfold applyRange
  by_cases hlow : valueLt x (breakpoint st blocks h 0) = true
  · refine ⟨fun hr => ?_, fun hr => ?_, fun hr => ?_⟩ <;> simp [hlow, hr]
  · have hhigh := hout.resolve_left hlow
    refine ⟨fun hr => ?_, fun hr => ?_, fun hr => ?_⟩ <;> simp [hlow, hhigh, hr]

theorem evalSetup_of_value {arg : Value} (hm : isMarker arg = false) (hx : convert h.format h.underflow arg = .value x) :
    (∀ x', applyRange st blocks h x = some x' → evalSetup st blocks h arg = placeArgument st blocks h x') ∧
    (applyRange st blocks h x = none → evalSetup st blocks h arg = .exception ⟨.range, .range⟩) := by
  refine ⟨fun x' hr => ?_, fun hr => ?_⟩ <;> simp [evalSetup, hm, hx, hr]

end

/-- Settles O40: the layout of a curve's words, and SETUP stage by stage. -/
theorem setupStagesInOrder : Obligations.SetupStagesInOrder := by
  refine ⟨fun st blocks h => ?_, fun st blocks h arg => ?_⟩
  · obtain ⟨format, segments, origin, range, underflow⟩ := h
    cases format with
    | n => exact ⟨fun _ => rfl, fun _ => rfl, fun _ => rfl, rfl, fun _ => rfl, fun _ => rfl, fun _ _ => rfl⟩
    | w => exact ⟨fun _ => rfl, fun _ => rfl, fun _ => rfl, rfl, fun _ => rfl, fun _ => rfl, fun _ _ => rfl⟩
  · intro setup low high placed
    have hplaced (x : Value) : placeArgument st blocks h x = placed x := by
      simp only [placeArgument, placed, loadAccumulator_eq]
      cases h.origin with
      | absolute => rfl
      | offset =>
        cases originSub h.format h.underflow x
            (breakpoint st blocks h (selectSegment st blocks h x (h.segments - 1))) with
        | value t => rfl
        | exception k => rfl
    refine ⟨fun hm => if_pos hm, fun hm => ⟨fun k hk => ?_, fun x hx => ?_⟩⟩
    · simp [setup, evalSetup, hm, hk]
    · obtain ⟨hsome, hnone⟩ := evalSetup_of_value (st := st) (blocks := blocks) hm hx
      refine ⟨fun hlow hhigh => ?_, fun hout => ?_⟩
      · rw [← hplaced]
        exact hsome x (applyRange_of_inside hlow hhigh)
      · obtain ⟨hclamp, hextend, hreject⟩ := applyRange_of_outside hout
        refine ⟨fun hr => ?_, fun hr => ?_, fun hr => hnone (hreject hr)⟩
        · rw [← hplaced]
          exact hsome _ (hclamp hr)
        · rw [← hplaced]
          exact hsome x (hextend hr)

/-! ### The boundaries of SETUP, TERMS and the result conversion (R78 to R85) -/

section
variable {s : State} {r : RunningJob} {arg : Value}

theorem headerOf_eq {e : CurveEntry} {h : CurveHeader} (hh : e.header = some h) : headerOf e = h := by
  rw [headerOf, hh]
  rfl

theorem setupOutcome_eq {h : CurveHeader} (hh : (curveEntry s r.job.desc.curve).header = some h) :
    setupOutcome s r.job arg = evalSetup s.store (curveEntry s r.job.desc.curve).blocks h arg := by
  rw [setupOutcome, jobHeader, headerOf_eq hh, jobBlocks]

theorem exec_setupCompletion_current (hst : s.engine.state = .setup) (hr : s.engine.running = some r)
    (ha : r.arg = some arg) :
    exec (.setupCompletion .current) s =
      .next (settleRequest (setupBoundary r arg (setupOutcome s r.job arg) s)) := by
  change execSetupCompletion .current s = _
  simp only [execSetupCompletion, hst, hr, ha]

theorem exec_termsCompletion_current {w : Working} {j : Nat} (hst : s.engine.state = .terms)
    (hr : s.engine.running = some r) (ha : r.arg = some arg) (hw : r.work = some w) (hj : w.nextTerm = some j) :
    exec (.termsCompletion .current) s =
      .next (settleRequest (termsBoundary r arg (termOutcome s r.job w j) s)) := by
  change execTermsCompletion .current s = _
  simp only [execTermsCompletion, hst, hr, ha, hw, hj]

theorem exec_conversionCompletion_current {w : Working} (hst : s.engine.state = .store)
    (hr : s.engine.running = some r) (ha : r.arg = some arg) (hw : r.work = some w) (hres : r.result = none) :
    exec (.conversionCompletion .current) s =
      .next (settleRequest (conversionBoundary r arg (conversionOutcome s r.job w) s)) := by
  change execConversionCompletion .current s = _
  simp only [execConversionCompletion, hst, hr, ha, hw, hres]

/-- R79: the iteration's outcome is that of the fused step. -/
theorem termOutcome_eq {h : CurveHeader} (hh : (curveEntry s r.job.desc.curve).header = some h) (w : Working)
    (j : Nat) :
    let fused := fusedStep h.format h.underflow w.acc w.t
      (segmentTerm s.store (curveEntry s r.job.desc.curve).blocks h w.segment j)
    (∀ k, fused = .exception k → termOutcome s r.job w j = .exception ⟨k, .term j⟩) ∧
    ∀ v, fused = .value v →
      termOutcome s r.job w j = .working { w with acc := v, nextTerm := if j = 0 then none else some (j - 1) } := by
  intro fused
  have hout : termOutcome s r.job w j =
      evalTerm s.store (curveEntry s r.job.desc.curve).blocks h w j := by
    rw [termOutcome, jobHeader, headerOf_eq hh, jobBlocks]
  refine ⟨fun k hk => ?_, fun v hv => ?_⟩
  · simp only [hout, evalTerm, show fusedStep _ _ _ _ _ = _ from hk]
  · simp only [hout, evalTerm, show fusedStep _ _ _ _ _ = _ from hv, termBelow_eq]

end

section
variable {s : State} {r : RunningJob} (arg : Value) (hm : r.abortMark = false)
include hm

theorem setupBoundary_of_clear :
    (∀ x, setupBoundary r arg (.exception x) s = applyException r x arg s) ∧
    (∀ w, yieldRaised s r = true → setupBoundary r arg (.working w) s = suspend r none s) ∧
    ∀ w, yieldRaised s r = false → setupBoundary r arg (.working w) s = continueWith r w s := by
  refine ⟨fun x => ?_, fun w hy => ?_, fun w hy => ?_⟩
  · simp [setupBoundary, hm]
  · simp [setupBoundary, hm, hy]
  · simp [setupBoundary, hm, hy]

theorem termsBoundary_of_clear :
    (∀ x, termsBoundary r arg (.exception x) s = applyException r x arg s) ∧
    (∀ w, yieldRaised s r = true →
      termsBoundary r arg (.working w) s = suspend r (some { work := w, arg := arg }) s) ∧
    ∀ w, yieldRaised s r = false → termsBoundary r arg (.working w) s = continueWith r w s := by
  refine ⟨fun x => ?_, fun w hy => ?_, fun w hy => ?_⟩
  · simp [termsBoundary, hm]
  · simp [termsBoundary, hm, hy]
  · simp [termsBoundary, hm, hy]

end

/-- Settles O42: the branches of `setupBoundary`. -/
theorem setupCompletes : Obligations.SetupCompletes := by
  intro r arg h s hst hr ha hh e completes
  have hcompletes {t : State} (ht : setupBoundary r arg (evalSetup s.store e.blocks h arg) s = t) : completes t := by
    rw [← ht, ← setupOutcome_eq hh]
    exact exec_setupCompletion_current hst hr ha
  refine ⟨fun hm => hcompletes (if_pos hm), fun hm => ?_⟩
  obtain ⟨hexception, hraised, hgoing⟩ := setupBoundary_of_clear (s := s) arg hm
  refine ⟨fun x hx => hcompletes ?_, fun w hw => ⟨fun hy h3 => hcompletes ?_, fun hy => hcompletes ?_⟩⟩
  · rw [hx, hexception]
  · rw [hw, hraised w (yieldRaised_eq_true hy h3)]
  · rw [hw, hgoing w (yieldRaised_eq_false hy)]
    rfl

/-- Settles O43: the branches of `termsBoundary`. -/
theorem termsIterationCompletes : Obligations.TermsIterationCompletes := by
  intro r arg w j h s hst hr ha hw hj hh e fused completes
  obtain ⟨hexception, hvalue⟩ := termOutcome_eq hh w j
  have hcompletes {t : State} (ht : termsBoundary r arg (termOutcome s r.job w j) s = t) : completes t := by
    rw [← ht]
    exact exec_termsCompletion_current hst hr ha hw hj
  refine ⟨fun hm => hcompletes (if_pos hm), fun hm => ?_⟩
  obtain ⟨hclear, hraised, hgoing⟩ := termsBoundary_of_clear (s := s) arg hm
  refine ⟨fun k hk => hcompletes ?_, fun v hv => ⟨fun hy h3 => hcompletes ?_, fun hy => hcompletes ?_⟩⟩
  · rw [hexception k hk, hclear]
  · rw [hvalue v hv, hraised _ (yieldRaised_eq_true hy h3)]
  · rw [hvalue v hv, hgoing _ (yieldRaised_eq_false hy)]
    cases j with
    | zero => rfl
    | succ j => rfl

theorem isBatch_eq_true {d : Descriptor} (h : descKind d = .batch) : isBatch d = true := decide_eq_true h

theorem isBatch_eq_false {d : Descriptor} (h : descKind d = .single) : isBatch d = false := by
  rw [isBatch, h]
  rfl

theorem conversionOutcome_eq {s : State} {r : RunningJob} {h : CurveHeader}
    (hh : (curveEntry s r.job.desc.curve).header = some h) (w : Working) :
    conversionOutcome s r.job w = convert r.job.desc.resFormat h.underflow w.acc := by
  rw [conversionOutcome, jobHeader, headerOf_eq hh]

/-- Settles O44: the branches of `conversionBoundary`. -/
theorem resultConversionCompletes : Obligations.ResultConversionCompletes := by
  refine ⟨fun d n ab ast rb rst hd i => by rw [resAddress, hd], ?_⟩
  intro r arg w h s hst hr ha hw hres hh converted completes
  have hcompletes {t : State} (ht : conversionBoundary r arg converted s = t) : completes t := by
    rw [← ht, show converted = _ from (conversionOutcome_eq hh w).symm]
    exact exec_conversionCompletion_current hst hr ha hw hres
  refine ⟨fun v hv hk => hcompletes ?_, fun v hv hk => hcompletes ?_,
    fun k hk => ⟨fun hm => hcompletes ?_, fun hm => hcompletes ?_⟩⟩
  · rw [hv, conversionBoundary, if_pos (isBatch_eq_true hk)]
    rfl
  · rw [hv, conversionBoundary, isBatch_eq_false hk]
    rfl
  · rw [hk, conversionBoundary, if_pos hm]
  · rw [hk, conversionBoundary, hm]
    rfl

/-! ### Exceptions, endings, suspensions (R88 to R94, R110, R144, R151) -/

/-- Settles O45: the branches of `applyException`. -/
theorem exceptionPoliciesAct : Obligations.ExceptionPoliciesAct := by
  intro r x arg s job r' marker
  have hmarker : markerValue r.job.desc.resFormat = marker := by
    cases hf : r.job.desc.resFormat <;> simp only [marker, hf, markerValue]
  refine ⟨fun hp hk => ?_, fun hp hk => ?_, fun hp => ?_, fun hp hh => ?_, fun hp hh => ?_⟩
  · rw [applyException, hp]
    change applyMark r' s = _
    rw [applyMark, if_pos (by exact isBatch_eq_true hk), show markerValue r'.job.desc.resFormat = _ from hmarker]
    rfl
  · rw [applyException, hp]
    change applyMark r' s = _
    rw [applyMark, if_neg (by exact Bool.eq_false_iff.mp (isBatch_eq_false hk)),
      show markerValue r'.job.desc.resFormat = _ from hmarker]
    rfl
  · rw [applyException, hp]
    rfl
  · obtain ⟨held, hheld⟩ := Option.isSome_iff_exists.mp hh
    rw [applyException, hp]
    change applyHold r' x arg s = _
    rw [applyHold, hheld]
  · rw [applyException, hp]
    change applyHold r' x arg s = _
    rw [applyHold, hh]
    rfl

theorem releasedEntry_of_last {e : CurveEntry} (h : e.state = .retiring ∧ e.refCount ≤ 1) :
    releasedEntry e = emptiedEntry e ∧ releasedBlocks e = e.blocks :=
  ⟨if_pos h, if_pos h⟩

theorem releasedEntry_of_not_last {e : CurveEntry} (h : ¬(e.state = .retiring ∧ e.refCount ≤ 1)) :
    releasedEntry e = { e with refCount := e.refCount - 1 } ∧ releasedBlocks e = [] :=
  ⟨if_neg h, if_neg h⟩

/-- Settles O46: the one update that posting is, for a last reference of a RETIRING curve and for any other. -/
theorem endingPostsTheRecord : Obligations.EndingPostsTheRecord := by
  refine ⟨fun job status result err s => ⟨fun hst hc => ?_, fun hne => ?_⟩, fun r status err s => ?_⟩
  · obtain ⟨hentry, hblocks⟩ := releasedEntry_of_last ⟨hst, hc⟩
    rw [postJob_eq, hentry, hblocks]
    rfl
  · obtain ⟨hentry, hblocks⟩ := releasedEntry_of_not_last hne
    rw [postJob_eq, hentry, hblocks]
    rfl
  · simp only [endRunning, leaveEngine, recordResult, postJob_frame]

theorem setSlot_of_lt {l : Fin 4} (h : l.val < 3) (x : Option Suspended) (s : State) :
    setSlot l x s = { s with slots := s.slots.set l.val x h } := dif_pos h

/-- Settles O47: the discarding, the slots, and the suspension as one update. -/
theorem suspensionSavesTheJob : Obligations.SuspensionSavesTheJob := by
  refine ⟨fun b => rfl, fun l k x s => ?_, fun l x s => ?_, fun s => ⟨slotOf_three s, fun l => rfl⟩, fun r part s h => ?_⟩
  · rw [slotOf_setSlot]
    by_cases hlk : l = k
    · subst hlk
      simp
    · simp [hlk, Ne.symm hlk]
  · by_cases hl : l.val < 3
    · exact ⟨_, setSlot_of_lt hl x s⟩
    · exact ⟨s.slots, dif_neg hl⟩
  · rw [suspend_eq, setSlot_of_lt h]

end Sys2Proof.Machine

/-! SUPPORT. The choice point (R134, R180) and the dispatch (R98 to R101). -/

namespace Sys2Proof.Machine

/-! ### The choice point -/

theorem choiceFits_iff (s : State) (c : Choice) : choiceFits s c = true ↔
    s.bus.tenureCount = 0 ∨ s.bus.tenureCount + choiceSize s c ≤ s.control.toNat / 256 % 16 + 1 := by
  rw [choiceFits, Bool.or_eq_true, decide_eq_true_eq, decide_eq_true_eq]
  exact Iff.rfl

section
variable {s : State}

theorem choicePoint_of_choice (hg : s.bus.grantRemoved = false) {c : Choice} (hc : busChoice s = some c) :
    ((s.bus.tenureCount = 0 ∨ s.bus.tenureCount + choiceSize s c ≤ s.control.toNat / 256 % 16 + 1) →
      choicePoint s = beginValue c s) ∧
    (¬(s.bus.tenureCount = 0 ∨ s.bus.tenureCount + choiceSize s c ≤ s.control.toNat / 256 % 16 + 1) →
      choicePoint s = releaseBus s) := by
  simp only [← choiceFits_iff]
  refine ⟨fun hf => ?_, fun hf => ?_⟩
  · simp [choicePoint, hg, hc, hf]
  · simp [choicePoint, hg, hc, hf]

theorem choicePoint_of_removed (hg : s.bus.grantRemoved = true) : choicePoint s = releaseBus s := if_pos hg

theorem busChoice_of_not_pending (hp : busPending s = false) : busChoice s = none := by
  have hnone := mt (busPending_iff s).mpr (Bool.eq_false_iff.mp hp)
  obtain ⟨hwrite, hread, hprefetch⟩ := not_or.mp hnone |>.imp id not_or.mp
  simp only [Option.isSome_iff_ne_none, not_not] at hwrite hread
  simp only [busChoice, hwrite, hread, prefetchChoice, if_neg hprefetch]

theorem choicePoint_of_not_pending (hg : s.bus.grantRemoved = false) (hp : busPending s = false) :
    choicePoint s = releaseBus s := by
  simp [choicePoint, hg, busChoice_of_not_pending hp]

theorem busChoice_of_write {w : WaitingWrite} (hw : s.bus.waitingWrite = some w) : busChoice s = some (.write w) := by
  simp only [busChoice, hw]

theorem busChoice_of_read {r : WaitingRead} (hw : s.bus.waitingWrite = none) (hr : s.bus.waitingRead = some r) :
    busChoice s = some (.read r) := by
  simp only [busChoice, hw, hr]

theorem busChoice_of_prefetch {run : RunningJob} {pf : PrefetchPart} (hw : s.bus.waitingWrite = none)
    (hr : s.bus.waitingRead = none) (hp : prefetchPending s = true) (hrun : s.engine.running = some run)
    (hpf : s.bus.prefetch = some pf) :
    busChoice s = some (.prefetch pf.p (argAddress run.job.desc pf.p)) := by
  simp only [busChoice, hw, hr, prefetchChoice, hp, if_true, hrun, hpf]

theorem argSize_eq {run : RunningJob} (hrun : s.engine.running = some run) :
    argSize s = formatWords run.job.desc.argFormat := by
  simp only [argSize, runningDesc, hrun, Option.map_some]

theorem breq_iff (t : State) : breq t = true ↔ t.bus.state ≠ .idle := decide_eq_true_iff

theorem breqLevels_of_release {t : State} (hs : s.bus.state = .owner) (ht : t.bus.state = .requesting) :
    breqLevels s t = [false, true] := by
  have hbreq : breq t = true := (breq_iff t).mpr (by rw [ht]; decide)
  rw [breqLevels, if_pos ⟨hs, ht⟩, hbreq]
  rfl

/-- R180: the count of a tenure's transfers tells whether one has begun at the choice point. -/
theorem masterStbLevels_choicePoint {before : State} (hb : before.bus.underWay.isSome = true)
    (hcount : before.bus.tenureCount = s.bus.tenureCount) (hu : s.bus.underWay = none) :
    masterStbLevels before (choicePoint s) =
      if (choicePoint s).bus.underWay.isSome then [false, true] else [false] := by
  rcases choicePoint_transfer hu with hnone | ⟨hsome, htenure⟩
  · simp [masterStbLevels, masterStb_eq, hnone]
  · simp [masterStbLevels, masterStb_eq, hb, hsome, htenure, hcount]

end

/-- Settles O34: the choice in its order, and whether it fits. -/
theorem choicePointOrder : Obligations.ChoicePointOrder := by
  intro s released fits begun
  have hrelease : releaseBus s = released := releaseBus_eq s
  refine ⟨hrelease, rfl, breq_iff, fun t hs ht => breqLevels_of_release hs ht, fun t hn => if_neg ?_,
    fun before hb hcount hu => masterStbLevels_choicePoint hb hcount hu, ⟨rfl, rfl, fun _ => rfl, fun _ _ => rfl⟩,
    fun hg => (choicePoint_of_removed hg).trans hrelease, fun hg => ⟨fun hp => ?_, fun w hw => ?_,
      fun r run hw hr hrun => ?_, fun run pf hw hr hp hrun hpf => ?_⟩⟩
  · rintro ⟨hs, ht⟩
    rcases hn with hn | hn
    · exact hn hs
    · exact hn ht
  · exact (choicePoint_of_not_pending hg hp).trans hrelease
  · obtain ⟨hfits, hlong⟩ := choicePoint_of_choice hg (busChoice_of_write hw)
    exact ⟨fun hf => hfits hf, fun hf => (hlong hf).trans hrelease⟩
  · obtain ⟨hfits, hlong⟩ := choicePoint_of_choice hg (busChoice_of_read hw hr)
    rw [choiceSize, argSize_eq hrun] at hfits hlong
    refine ⟨fun hf => (hfits hf).trans ?_, fun hf => (hlong hf).trans hrelease⟩
    rw [beginValue, choiceSize, argSize_eq hrun]
    rfl
  · obtain ⟨hfits, hlong⟩ := choicePoint_of_choice hg (busChoice_of_prefetch hw hr hp hrun hpf)
    rw [choiceSize, argSize_eq hrun] at hfits hlong
    refine ⟨fun hf => (hfits hf).trans ?_, fun hf => (hlong hf).trans hrelease⟩
    rw [beginValue, choiceSize, argSize_eq hrun, hpf]
    rfl

/-! ### The dispatcher's sources -/

theorem eligibleSource_eq_some_iff (s : State) (l : Fin 4) (src : Source) :
    eligibleSource s l = some src ↔ levelEnabled s l = true ∧ sourceAt s l = some src := by
  unfold eligibleSource
  split
  next h => simp only [h, true_and]
  next h => simp [h]

theorem eligibleSource_eq_none_iff (s : State) (l : Fin 4) :
    eligibleSource s l = none ↔ (levelEnabled s l = true → sourceAt s l = none) := by
  unfold eligibleSource
  split
  next h => simp only [h, true_implies]
  next h => simp [h]

/-- R99: the winner is the eligible source of the one level that has one and none above it. -/
theorem winner_eq_some_iff (s : State) (src : Source) : winner s = some src ↔
    ∃ l : Fin 4, eligibleSource s l = some src ∧ ∀ k : Fin 4, l < k → eligibleSource s k = none := by
  constructor
  · intro h
    obtain ⟨l, hen, hsrc, habove⟩ := winner_spec h
    exact ⟨l, (eligibleSource_eq_some_iff s l src).mpr ⟨hen, hsrc⟩, habove⟩
  · rintro ⟨l, hl, habove⟩
    obtain ⟨src', hw⟩ : ∃ src', winner s = some src' := by
      rw [← Option.isSome_iff_exists, winner, List.findSome?_isSome_iff]
      exact ⟨l, mem_levelsDown l, by rw [hl]; rfl⟩
    obtain ⟨l', hen, hsrc, habove'⟩ := winner_spec hw
    have hl' := (eligibleSource_eq_some_iff s l' src').mpr ⟨hen, hsrc⟩
    rcases lt_trichotomy l l' with hlt | heq | hgt
    · exact absurd (hl'.symm.trans (habove l' hlt)) (Option.some_ne_none _)
    · rw [hw, ← hl', ← heq, hl]
    · exact absurd (hl.symm.trans (habove' l hgt)) (Option.some_ne_none _)

section
variable {s : State} {l : Fin 4}

theorem sourceAt_of_slot {x : Suspended} (h : slotOf s l = some x) : sourceAt s l = some (.contextSlot l x) := by
  simp only [sourceAt, h]

theorem sourceAt_of_hold (hs : slotOf s l = none) {h : HoldRecord} {act : HoldAction} (hh : s.hold = some h)
    (ha : h.action = some act) (hl : h.job.level = l) : sourceAt s l = some (.holdSlot h act) := by
  simp only [sourceAt, hs, holdSource, hh, ha, if_pos hl]

theorem holdSource_eq_none (hn : ∀ h, s.hold = some h → h.action = none ∨ h.job.level ≠ l) : holdSource s l = none := by
  unfold holdSource
  split
  next h hh =>
    split
    next act ha =>
      rcases hn h hh with hnone | hne
      · exact absurd (ha.symm.trans hnone) (Option.some_ne_none _)
      · exact if_neg hne
    next => rfl
  next => rfl

theorem sourceAt_of_queue (hs : slotOf s l = none) (hn : holdSource s l = none) : sourceAt s l = queueSource s l := by
  simp only [sourceAt, hs, hn]

end

/-- Settles O48: the ranking of the levels, and the order of the sources of a level. -/
theorem dispatchRanksTheSources : Obligations.DispatchRanksTheSources := by
  refine ⟨fun s src => ?_, fun s l => ⟨fun x hx => sourceAt_of_slot hx, fun hs => ⟨fun h act hh ha hl =>
    sourceAt_of_hold hs hh ha hl, fun hn => ?_⟩⟩⟩
  · simp only [winner_eq_some_iff, eligibleSource_eq_some_iff, eligibleSource_eq_none_iff, and_assoc]
  · rw [sourceAt_of_queue hs (holdSource_eq_none hn), queueSource]
    refine ⟨fun j rest hq => by rw [hq], fun hq => by rw [hq]⟩

/-! ### The dispatch (R101, R125, R145) -/

theorem admitJob_eq (job : Job) (s : State) :
    admitJob job s =
      { s with
        yieldRequest := false
        bus :=
          { s.bus with
            buffer := []
            prefetch :=
              if descKind job.desc = .batch then some { p := job.index + 1, stopped := false } else none } } := by
  simp only [admitJob, freshPrefetch, isBatch, decide_eq_true_eq]

theorem deliverContinuation_eq (job : Job) (v : Value) (s : State) :
    deliverContinuation job v s =
      if descKind job.desc = .batch then storeResult (takenJob job) v s
      else endRunning (captured (takenJob job) v) .completeMarked none s := by
  simp only [deliverContinuation, isBatch, decide_eq_true_eq]

theorem exec_dispatch_of_winner {s : State} {src : Source} (hst : s.engine.state = .idle) (hw : winner s = some src) :
    exec .dispatch s = .next (settleRequest (handOver src s)) := by
  change Host.Outcome.next (dispatchBody s) = _
  simp only [dispatchBody, hst, if_true, hw]

theorem dispatchBody_of_none {s : State} (hw : winner s = none) : dispatchBody s = s := by
  simp only [dispatchBody, hw, ite_self]

/-- Settles O49: what each source hands over. -/
theorem dispatchHandsOverTheWinner : Obligations.DispatchHandsOverTheWinner := by
  intro s taken admitted begins delivers dispatches
  have hadmit (job : Job) (u : State) : admitJob job u = admitted job u := admitJob_eq job u
  have hbegin (job : Job) (u : State) : startElement job u = begins job u := rfl
  have hdeliver (job : Job) (v : Value) (u : State) : deliverContinuation job v u = delivers job v u :=
    deliverContinuation_eq job v u
  have hdispatches {src : Source} {t : State} (hst : s.engine.state = .idle) (hw : winner s = some src)
      (ht : handOver src s = t) : dispatches t :=
    ht ▸ exec_dispatch_of_winner hst hw
  refine ⟨fun hst => congrArg _ (if_neg hst), fun hw => congrArg _ (dispatchBody_of_none hw), fun hst =>
    ⟨fun l j rest hw => hdispatches hst hw ?_, fun l x hw => ⟨fun hp => hdispatches hst hw ?_,
      fun p hp => hdispatches hst hw ?_⟩, fun h act hw => ?_⟩⟩
  · rw [handOver, hadmit, hbegin]
    rfl
  · rw [handOver, hp, ← hadmit, ← hbegin]
  · rw [handOver, hp, ← hadmit]
    rfl
  · refine ⟨fun ha => hdispatches hst hw ?_, fun ha hf => hdispatches hst hw ?_,
      fun ha hf => hdispatches hst hw ?_, fun v ha => hdispatches hst hw ?_⟩
    · rw [handOver, ha, startContinuation, hadmit, hbegin]
    · rw [handOver, ha, startContinuation, hadmit, hdeliver, hf]
      rfl
    · rw [handOver, ha, startContinuation, hadmit, hdeliver, hf]
      rfl
    · rw [handOver, ha, startContinuation, hadmit, hdeliver]

end Sys2Proof.Machine

/-! SUPPORT. LOAD_DATA in an OPEN session (R40 to R47). -/

namespace Sys2Proof.Machine

/-! ### The words of a value in the store -/

theorem curveWordAddress_mod (blocks : List Nat) (n : Nat) : curveWordAddress blocks n % 32 = n % 32 := by
  rw [curveWordAddress, show Config.blockWords = 32 from rfl, Nat.mul_add_mod, Nat.mod_mod]

/-- Fewer than 33 words in a row never share an address: their places in a block differ. -/
theorem curveWordAddress_ne {blocks : List Nat} {n i j : Nat} (hij : i < j) (hj : j < 32) :
    curveWordAddress blocks (n + i) ≠ curveWordAddress blocks (n + j) := by
  intro heq
  have hmod := congrArg (· % 32) heq
  simp only [curveWordAddress_mod] at hmod
  omega

/-- R36, R42: the words of a value are read back where they were written. -/
theorem readCell_writeCurveWords (blocks : List Nat) (ws : List Word) (hlen : ws.length ≤ 32) (n : Nat)
    {cells : List (Nat × Word)} (hwf : cellsWf cells = true) {i : Nat} (hi : i < ws.length) :
    readCell (writeCurveWords blocks n ws cells) (curveWordAddress blocks (n + i)) = ws.getD i 0 := by
  induction ws generalizing n cells i with
  | nil => exact absurd hi (Nat.not_lt_zero i)
  | cons x rest ih =>
    rw [List.length_cons] at hlen hi
    cases i with
    | zero =>
      have hne (k : Nat) (hk : k < rest.length) :
          curveWordAddress blocks n ≠ curveWordAddress blocks (n + 1 + k) := by
        rw [Nat.add_assoc]
        exact curveWordAddress_ne (i := 0) (by omega) (by omega)
      rw [writeCurveWords, show n + 0 = n from rfl, readCell_writeCurveWords_of_forall_ne blocks rest (n + 1) _ hne,
        readCell_writeCell_same _ _ hwf]
      rfl
    | succ k =>
      rw [writeCurveWords, show n + (k + 1) = n + 1 + k by omega,
        ih (by omega) (n + 1) (writeCell_wf _ _ hwf) (by omega)]
      rfl

/-! ### What a word does -/

section
variable {s : State} {x : Word} {h : CurveHeader}

theorem exec_loadData_of_opened (hr : s.rst = false) (ho : s.load.state = .opened) {t : State}
    (ht : takeLoadWord x s = t) : exec (.loadData x) s = .next { t with answer := .ack } := by
  have hbody : loadDataBody x s = t := by simp only [loadDataBody, ho, ht]
  change Host.Outcome.next (windowWrite (loadDataBody x) s) = _
  rw [windowWrite_of_released hr, hbody]

theorem exec_loadData_of_failSession (hr : s.rst = false) (ho : s.load.state = .opened) {reason : LoadReason}
    (ht : takeLoadWord x s = failSession reason s) : exec (.loadData x) s = .next (failedLoad reason s) :=
  exec_loadData_of_opened hr ho ht

theorem takeLoadWord_of_complete (hp : s.load.cursor.phase = .complete) :
    takeLoadWord x s = failSession .overrun s := by
  simp only [takeLoadWord, hp]

theorem takeLoadWord_of_degree (hp : s.load.cursor.phase = .degree) :
    takeLoadWord x s = completeValue (degreeReason x) [x] (advanceDegree x.toNat s.load.cursor) s := by
  simp only [takeLoadWord, hp]

theorem takeLoadWord_of_value (hh : (curveEntry s s.load.curve).header = some h)
    (hp : s.load.cursor.phase = .breakpoints ∨ s.load.cursor.phase = .terms) :
    takeLoadWord x s = takeHalf h x s := by
  rcases hp with hp | hp <;> simp only [takeLoadWord, hp, headerOf_eq hh]

theorem takeHalf_of_completed {v : Value} (hv : completed h.format s.load.cursor.lowHalf x = some v) :
    takeHalf h x s = takeValue h v s := by
  revert hv
  unfold takeHalf
  cases h.format with
  | n => exact fun hv => by cases hv; rfl
  | w =>
    cases s.load.cursor.lowHalf with
    | some lo => exact fun hv => by cases hv; rfl
    | none => exact fun hv => nomatch hv

theorem takeValue_of_breakpoint {v : Value} (hp : s.load.cursor.phase = .breakpoints) :
    takeValue h v s =
      completeValue (breakpointReason s h.format v) (valueWords v) (advanceBreakpoint s.load.cursor) s := by
  simp only [takeValue, hp]

theorem takeValue_of_term {v : Value} (hp : s.load.cursor.phase = .terms) :
    takeValue h v s = completeValue (termReason v) (valueWords v) (advanceTerm h.segments s.load.cursor) s := by
  simp only [takeValue, hp]

theorem takeValue_of_marker {v : Value} (hm : isMarker v = true)
    (hp : s.load.cursor.phase = .breakpoints ∨ s.load.cursor.phase = .terms) :
    takeValue h v s = failSession .badValue s := by
  rcases hp with hp | hp
  · rw [takeValue_of_breakpoint hp, breakpointReason, if_pos hm, completeValue]
  · rw [takeValue_of_term hp, termReason, if_pos hm, completeValue]

/-- R43: a breakpoint passes its checks as the first one or above the one before it. -/
theorem breakpointReason_of_good {f : Format} {v : Value} (hm : isMarker v = false) :
    ((storedWords s.load = 0 ∨
        valueLt (curveValue s.store (curveEntry s s.load.curve).blocks f (storedWords s.load - formatWords f)) v = true) →
      breakpointReason s f v = none) ∧
    (storedWords s.load ≠ 0 →
      valueLt (curveValue s.store (curveEntry s s.load.curve).blocks f (storedWords s.load - formatWords f)) v = false →
      breakpointReason s f v = some .badOrder) := by
  refine ⟨fun hgood => ?_, fun hn hlt => ?_⟩
  · rcases hgood with hn | hlt
    · simp [breakpointReason, hm, hn]
    · simp [breakpointReason, hm, hlt]
  · simp [breakpointReason, hm, hn, hlt]

/-- R42, R43: a word that completes a value which passes its checks has that value placed. -/
theorem takeLoadWord_of_accepts (hh : (curveEntry s s.load.curve).header = some h) {ws : List Word} {cur : Cursor}
    (ha : AcceptsWord s h x ws cur) : takeLoadWord x s = placeValue ws cur s := by
  cases ha with
  | breakpoint v hp hv hm hgood =>
    rw [takeLoadWord_of_value hh (.inl hp), takeHalf_of_completed hv, takeValue_of_breakpoint hp,
      (breakpointReason_of_good hm).1 hgood]
    rfl
  | degree hp hx =>
    rw [takeLoadWord_of_degree hp, degreeReason, if_neg (by exact Nat.not_lt.mpr hx)]
    rfl
  | term v hp hv hm =>
    rw [takeLoadWord_of_value hh (.inr hp), takeHalf_of_completed hv, takeValue_of_term hp, termReason,
      if_neg (Bool.eq_false_iff.mp hm)]
    rfl

theorem AcceptsWord.length_le {ws : List Word} {cur : Cursor} (ha : AcceptsWord s h x ws cur) : ws.length ≤ 32 := by
  have hvalue (v : Value) : (valueWords v).length ≤ 32 := by
    cases v with
    | narrow x => exact Nat.le_of_ble_eq_true rfl
    | wide hi lo => exact Nat.le_of_ble_eq_true rfl
  cases ha with
  | breakpoint v _ _ _ _ => exact hvalue v
  | degree _ _ => exact Nat.le_of_ble_eq_true rfl
  | term v _ _ _ => exact hvalue v

theorem needsBlock_iff (s : State) (n : Nat) :
    needsBlock s n = true ↔ 32 * (curveEntry s s.load.curve).blocks.length < storedWords s.load + n :=
  decide_eq_true_iff

theorem placeValue_of_room {ws : List Word} (cur : Cursor)
    (hroom : storedWords s.load + ws.length ≤ 32 * (curveEntry s s.load.curve).blocks.length) :
    placeValue ws cur s = storeWords (curveEntry s s.load.curve).blocks ws cur s :=
  if_neg (mt (needsBlock_iff s _).mp (Nat.not_lt.mpr hroom))

theorem placeValue_of_full {ws : List Word} (cur : Cursor)
    (hfull : 32 * (curveEntry s s.load.curve).blocks.length < storedWords s.load + ws.length) :
    (s.store.free = [] → placeValue ws cur s = failSession .storeFull s) ∧
    ∀ b rest, s.store.free = b :: rest →
      placeValue ws cur s = storeWords ((curveEntry s s.load.curve).blocks ++ [b]) ws cur (takeBlock b rest s) := by
  have hneeds := (needsBlock_iff s ws.length).mpr hfull
  refine ⟨fun hf => ?_, fun b rest hf => ?_⟩
  · simp only [placeValue, hneeds, if_true, hf]
  · simp only [placeValue, hneeds, if_true, hf]

end

/-- Settles O20: each word that stores nothing, by the phase of the cursor. -/
theorem loadDataHeldOrRefused : Obligations.LoadDataHeldOrRefused := by
  intro x h s hr ho hh blocks
  refine ⟨fun hf hl hp => ?_, fun hp => ?_, fun hp hx => ?_, fun v hv hm hp => ?_, fun v hv hm hp hn hlt => ?_,
    fun ws cur ha hfull hfree => ?_⟩
  · have held : takeLoadWord x s =
        { s with
          load :=
            { s.load with
              cursor := { s.load.cursor with lowHalf := some x }, wordIndex := s.load.wordIndex + 1 } } := by
      rw [takeLoadWord_of_value hh hp, takeHalf, hf, hl]
    exact exec_loadData_of_opened hr ho held
  · exact exec_loadData_of_failSession hr ho (takeLoadWord_of_complete hp)
  · refine exec_loadData_of_failSession hr ho ?_
    rw [takeLoadWord_of_degree hp, degreeReason, if_pos (by exact hx), completeValue]
  · refine exec_loadData_of_failSession hr ho ?_
    rw [takeLoadWord_of_value hh hp, takeHalf_of_completed hv, takeValue_of_marker hm hp]
  · refine exec_loadData_of_failSession hr ho ?_
    rw [takeLoadWord_of_value hh (.inl hp), takeHalf_of_completed hv, takeValue_of_breakpoint hp,
      (breakpointReason_of_good hm).2 hn hlt, completeValue]
  · refine exec_loadData_of_failSession hr ho ?_
    rw [takeLoadWord_of_accepts hh ha, (placeValue_of_full cur hfull).1 hfree]

/-- Settles O21: the value is placed in the blocks held, or with the lowest free block added to them. -/
theorem loadDataStoresAValue : Obligations.LoadDataStoresAValue := by
  refine ⟨fun l => ?_, ?_⟩
  · unfold storedWords
    split <;> rfl
  · intro x h ws cur s hr ho hh ha hstore e n load' stored
    have hstored (blocks : List Nat) : stored blocks (writeCurveWords blocks n ws s.store.words) :=
      ⟨fun i hi => readCell_writeCurveWords blocks ws ha.length_le n hstore.canonical hi,
        fun a hne => readCell_writeCurveWords_of_forall_ne blocks ws n s.store.words hne⟩
    refine ⟨fun hroom => ⟨_, hstored e.blocks, ?_⟩, fun b rest hfull hfree => ⟨_, hstored (e.blocks ++ [b]), ?_⟩⟩
    · exact exec_loadData_of_opened hr ho ((takeLoadWord_of_accepts hh ha).trans (placeValue_of_room cur hroom))
    · exact exec_loadData_of_opened hr ho
        ((takeLoadWord_of_accepts hh ha).trans ((placeValue_of_full cur hfull).2 b rest hfree))

end Sys2Proof.Machine

/-! SUPPORT. Where a tag is (R62), and the commands that name a tag: QUERY_JOB (R68), ABORT (R166 to R168); SUBMIT
(R57 to R60). -/

namespace Sys2Proof.Machine

/-! ### The tags with their places -/

/-- The tags of the live jobs, each with its place, in the order in which a tag is looked for. -/
def liveEntries (s : State) : List (Nat × Place) :=
  levelsDown.flatMap (fun l => (queueOf s l).map fun j => (j.tag, .queued l j)) ++
    (s.engine.running.map fun r => (r.job.tag, .running r)).toList ++
    levelsDown.flatMap (fun l => ((slotOf s l).map fun x => (x.job.tag, .suspended l x)).toList) ++
    (s.hold.map fun h => (h.job.tag, .held h)).toList

/-- The tags in use, each with its place. -/
def tagEntries (s : State) : List (Nat × Place) :=
  liveEntries s ++ s.completion.records.map fun r => (r.tag, .finished r)

theorem tagEntries_map_fst (s : State) : (tagEntries s).map Prod.fst = (liveJobs s).map (·.tag) ++ recordTags s := by
  simp [tagEntries, liveEntries, liveJobs, recordTags, List.map_flatMap, Function.comp_def, Option.toList_map]

/-- The place of the first entry with a tag. -/
def lookUp (tag : Nat) (es : List (Nat × Place)) : Option Place :=
  (es.find? fun e => decide (e.1 = tag)).map Prod.snd

theorem lookUp_append (tag : Nat) (es fs : List (Nat × Place)) :
    lookUp tag (es ++ fs) = (lookUp tag es).or (lookUp tag fs) := by
  simp only [lookUp, List.find?_append, Option.map_or]

theorem lookUp_flatMap {α : Type} (tag : Nat) (ls : List α) (f : α → List (Nat × Place)) :
    lookUp tag (ls.flatMap f) = ls.findSome? fun l => lookUp tag (f l) := by
  simp only [lookUp, List.find?_flatMap, List.map_findSome?, Function.comp_def]

theorem lookUp_queue (s : State) (tag : Nat) (l : Fin 4) :
    lookUp tag ((queueOf s l).map fun j => (j.tag, .queued l j)) = findQueued s tag l := by
  simp only [lookUp, List.find?_map, Option.map_map, findQueued, Function.comp_def]

theorem lookUp_running (s : State) (tag : Nat) :
    lookUp tag (s.engine.running.map fun r => (r.job.tag, .running r)).toList = findRunning s tag := by
  unfold findRunning
  cases s.engine.running with
  | none => rfl
  | some r => by_cases h : r.job.tag = tag <;> simp [lookUp, h]

theorem lookUp_slot (s : State) (tag : Nat) (l : Fin 4) :
    lookUp tag ((slotOf s l).map fun x => (x.job.tag, .suspended l x)).toList = findSuspended s tag l := by
  unfold findSuspended
  cases slotOf s l with
  | none => rfl
  | some x => by_cases h : x.job.tag = tag <;> simp [lookUp, h]

theorem lookUp_hold (s : State) (tag : Nat) :
    lookUp tag (s.hold.map fun h => (h.job.tag, .held h)).toList = findHeld s tag := by
  unfold findHeld
  cases s.hold with
  | none => rfl
  | some h => by_cases ht : h.job.tag = tag <;> simp [lookUp, ht]

theorem lookUp_records (s : State) (tag : Nat) :
    lookUp tag (s.completion.records.map fun r => (r.tag, .finished r)) = findFinished s tag := by
  simp only [lookUp, List.find?_map, Option.map_map, findFinished, Function.comp_def]

/-- R62: a tag is where its first entry says. -/
theorem placeOf_eq (s : State) (tag : Nat) : placeOf s tag = (lookUp tag (tagEntries s)).getD .free := by
  simp only [placeOf, tagEntries, liveEntries, lookUp_append, lookUp_flatMap, lookUp_queue, lookUp_running, lookUp_slot,
    lookUp_hold, lookUp_records, Option.or_assoc, Option.orElse_eq_or]

theorem lookUp_of_mem {tag : Nat} {p : Place} {es : List (Nat × Place)} (hn : (es.map Prod.fst).Nodup)
    (h : (tag, p) ∈ es) : lookUp tag es = some p := by
  induction es with
  | nil => exact absurd h List.not_mem_nil
  | cons e es ih =>
    rw [List.map_cons, List.nodup_cons] at hn
    obtain ⟨hfresh, hn⟩ := hn
    rcases List.mem_cons.mp h with rfl | h
    · simp [lookUp]
    · have hne : e.1 ≠ tag := fun heq => hfresh (heq ▸ List.mem_map_of_mem h)
      rw [← ih hn h, lookUp, lookUp, List.find?_cons_of_neg (by simpa using hne)]

theorem lookUp_of_not_mem {tag : Nat} {es : List (Nat × Place)} (h : tag ∉ es.map Prod.fst) : lookUp tag es = none := by
  have hnone : es.find? (fun e => decide (e.1 = tag)) = none :=
    List.find?_eq_none.mpr fun e he => by simpa using fun heq : e.1 = tag => h (heq ▸ List.mem_map_of_mem he)
  rw [lookUp, hnone]
  rfl

/-- R61, R62: each tag is free, live or in a record, and in one of these once. -/
theorem TagLaw.nodup {s : State} (h : TagLaw s) : (s.intake.freeTags ++ (tagEntries s).map Prod.fst).Nodup := by
  rw [tagEntries_map_fst, ← List.append_assoc]
  exact h.partition.nodup_iff.mpr List.nodup_range

theorem placeOf_of_mem {s : State} (h : TagLaw s) {tag : Nat} {p : Place} (hp : (tag, p) ∈ tagEntries s) :
    placeOf s tag = p := by
  rw [placeOf_eq, lookUp_of_mem h.nodup.of_append_right hp]
  rfl

theorem placeOf_of_free {s : State} (h : TagLaw s) {tag : Nat} (hf : tag ∈ s.intake.freeTags) :
    placeOf s tag = .free := by
  rw [placeOf_eq, lookUp_of_not_mem (List.disjoint_of_nodup_append h.nodup hf)]
  rfl

/-- Settles O26: each job and record is an entry of its tag, and the law has each tag once. -/
theorem placeOfATagIsWhereItIs : Obligations.PlaceOfATagIsWhereItIs := by
  refine fun s h => ⟨fun l j hj => placeOf_of_mem h ?_, fun r hr => placeOf_of_mem h ?_,
    fun l x hx => placeOf_of_mem h ?_, fun held hh => placeOf_of_mem h ?_, fun r hr => placeOf_of_mem h ?_,
    fun tag hf => placeOf_of_free h hf, fun tag ht => ?_⟩
  · simp only [tagEntries, liveEntries, List.mem_append, List.mem_flatMap, List.mem_map]
    exact .inl (.inl (.inl (.inl ⟨l, mem_levelsDown l, j, hj, rfl⟩)))
  · simp [tagEntries, liveEntries, hr]
  · simp only [tagEntries, liveEntries, List.mem_append, List.mem_flatMap]
    exact .inl (.inl (.inr ⟨l, mem_levelsDown l, by simp [hx]⟩))
  · simp [tagEntries, liveEntries, hh]
  · simp only [tagEntries, List.mem_append, List.mem_map]
    exact .inr ⟨r, hr, rfl⟩
  · have hmem := h.partition.mem_iff.mpr (List.mem_range.mpr ht)
    simpa only [List.mem_append, or_assoc, recordTags] using hmem

/-! ### QUERY_JOB -/

theorem field_mod (v lo width : Nat) : field (v % 2 ^ width) lo width = field v lo width := by
  rw [field, field, Nat.mod_mod]

theorem toNat_jobQuery0 {code : Nat} (hc : code < 8) (l : Fin 4) (c : Fin 32) :
    (jobQuery0 code l c).toNat = code + 16 * l.val + 256 * c.val := by
  have hcode : (field code 0 3).toNat = code * 2 ^ 0 := toNat_field hc (by omega)
  have hlevel : (field code 0 3 ||| field l.val 4 2).toNat = code * 2 ^ 0 + l.val * 2 ^ 4 := by
    rw [toNat_or_field (by omega) (by omega) (by omega), hcode]
  rw [jobQuery0, toNat_or_field (by omega) (by omega) (by omega), hlevel]
  omega

theorem toNat_jobQuery1 (done excCount : Nat) :
    (jobQuery1 done excCount).toNat = done % 65536 + 65536 * (excCount % 65536) := by
  have hdone : (field (done % 2 ^ 16) 0 16).toNat = done % 2 ^ 16 * 2 ^ 0 := toNat_field (by omega) (by omega)
  rw [jobQuery1, ← field_mod done, ← field_mod excCount, toNat_or_field (by omega) (by omega) (by omega), hdone]
  omega

/-- Settles O27: the body by the place of the tag, and the words it shows. -/
theorem queryJobShowsTheJob : Obligations.QueryJobShowsTheJob := by
  refine fun s hr => ⟨fun hp => ?_, fun hp => ⟨fun htag => ?_, fun htag => ?_⟩⟩
  · rw [exec_queryJob_eq, immediate_eq_overrun hr hp]
  · exact exec_immediate_of_taken (exec_queryJob_eq s) ⟨hr, hp⟩ (if_pos htag)
  · have hexec {t : State} (ht : showPlace (placeOf s s.cmd.args[0].toNat) s = t) :
        exec .queryJob s = .next (recorded 0x06#8 .done t) :=
      exec_immediate_of_taken (exec_queryJob_eq s) ⟨hr, hp⟩ (ht ▸ if_neg (Nat.not_le.mpr htag))
    cases hplace : placeOf s s.cmd.args[0].toNat with
    | free => exact ⟨0, 0, hexec (by rw [hplace]; rfl), rfl, rfl⟩
    | queued l j =>
      exact ⟨_, _, hexec (by rw [hplace]; rfl), toNat_jobQuery0 (by decide) _ _, toNat_jobQuery1 _ _⟩
    | running r =>
      exact ⟨_, _, hexec (by rw [hplace]; rfl), toNat_jobQuery0 (by decide) _ _, toNat_jobQuery1 _ _⟩
    | suspended l x =>
      exact ⟨_, _, hexec (by rw [hplace]; rfl), toNat_jobQuery0 (by decide) _ _, toNat_jobQuery1 _ _⟩
    | held h =>
      have hcode : (if h.action.isSome then 5 else 4) < 8 := by split <;> decide
      exact ⟨_, _, hexec (by rw [hplace]; rfl), toNat_jobQuery0 hcode _ _, toNat_jobQuery1 _ _⟩
    | finished r =>
      exact ⟨_, _, hexec (by rw [hplace]; rfl), toNat_jobQuery0 (by decide) _ _, toNat_jobQuery1 _ _⟩

/-! ### ABORT -/

/-- R131 to R135: in a lawful state there is nothing to request or to withdraw. -/
theorem BusLaw.requestSettled {s : State} (h : BusLaw s) :
    s.bus.state = .owner ∨ (s.bus.state = .requesting ∧ busPending s = true) ∨
      (s.bus.state = .idle ∧ busPending s = false) := by
  cases hb : s.bus.state with
  | owner => exact .inl rfl
  | requesting => exact .inr (.inl ⟨rfl, (h.requested (by rw [hb]; decide)).mp hb⟩)
  | idle =>
    refine .inr (.inr ⟨rfl, Bool.eq_false_iff.mpr fun hp => ?_⟩)
    exact absurd (hb.symm.trans ((h.requested (by rw [hb]; decide)).mpr hp)) (by decide)

theorem busPending_markRunning {s : State} {r : RunningJob} (hr : s.engine.running = some r) :
    busPending (markRunning r s) = busPending s := by
  simp only [busPending, prefetchPending, markRunning, hr]
  cases s.bus.prefetch with
  | none => rfl
  | some pf => rfl

/-- R74: the mark is no input of the dispatcher or of the bus master, so nothing reacts to it. -/
theorem reactToSources_markRunning {s : State} (h : Lawful s) {r : RunningJob} (hr : s.engine.running = some r)
    (hstanding : s.engine.state ≠ .fetch ∨ demandUnderWay s = true) :
    reactToSources (markRunning r s) = markRunning r s := by
  have hyield : yieldDue (markRunning r s) = (markRunning r s).yieldRequest :=
    (yieldDue_congr (s := s) (t := markRunning r s) rfl rfl rfl rfl (by rw [hr]; rfl)).trans h.yield.symm
  have hsettled : settleRequest (markRunning r s) = markRunning r s :=
    settleRequest_of_settled (by rw [busPending_markRunning hr]; exact h.bus.requestSettled)
  rw [reactToSources_of_going (s := markRunning r s) (.inr (hstanding.imp_right .inl)), hyield]
  exact hsettled

theorem standing_eq_true {s : State} (hst : s.engine.state = .fetch) (hd : demandUnderWay s = false) :
    standing s = true := by
  rw [standing, hst, hd]
  rfl

theorem standing_eq_false {s : State} (h : s.engine.state ≠ .fetch ∨ demandUnderWay s = true) :
    standing s = false := by
  rcases h with hst | hd
  · rw [standing, decide_eq_false hst, Bool.false_and]
  · rw [standing, hd, Bool.not_true, Bool.and_false]

/-- Settles O29: the body by the place of the tag. -/
theorem abortOutcomes : Obligations.AbortOutcomes := by
  intro s ht tag answers
  have hanswers {result : CmdResult} {t : State} (hb : abortBody s = (t, result)) : answers result t :=
    exec_immediate_of_taken (exec_abort_eq s) ht hb
  refine ⟨fun htag => hanswers (if_pos htag), fun htag => ?_⟩
  have hplaced {result : CmdResult} {t : State} {p : Place} (hp : placeOf s tag = p)
      (hb : abortPlace p s = (t, result)) : answers result t :=
    hanswers ((if_neg (Nat.not_le.mpr htag)).trans (hp ▸ hb))
  refine ⟨fun hp => hplaced hp rfl, fun r hp => hplaced hp rfl, fun l j hp => hplaced hp rfl,
    fun l x hp => hplaced hp rfl, fun h hp => hplaced hp rfl, fun r hp hs => ⟨fun hst hd => hplaced hp ?_, fun hn => hplaced hp ?_⟩⟩
  · rw [abortPlace, abortRunning, standing_eq_true hst hd]
    rfl
  · have hr : s.engine.running = some r := by
      have hspec := placeOf_spec s tag
      rw [hp] at hspec
      exact hspec.1
    rw [abortPlace, abortRunning, standing_eq_false hn]
    exact congrArg (·, CmdResult.abortPending) (reactToSources_markRunning hs hr hn)

/-! ### SUBMIT -/

section
variable {l : Fin 4} {s : State}

theorem exec_submit_of_body (hr : s.rst = false) {t : State} {a : SubmitAnswer} (hb : submitBody l s = (t, a)) :
    exec (.submit l) s = .next { t with answer := .ackData (submitWord a) } := by
  change Host.Outcome.next (hostAccess (submitRead l) s) = _
  rw [hostAccess_of_released hr, submitRead, hb]

theorem submitWord_accepted (tag : Nat) : submitWord (.accepted tag) = BitVec.ofNat 32 (1 + 256 * (tag % 256)) := by
  have hcode : (field 0x01 0 8).toNat = 1 := rfl
  apply BitVec.eq_of_toNat_eq
  rw [submitWord, ← field_mod tag, toNat_or_field (by omega) (by omega) (by omega), hcode, BitVec.toNat_ofNat]
  omega

theorem submitBody_of_error (hp : s.cmd.pending = false) {r : DescReason} (hd : stagedDescriptor s = .error r) :
    submitBody l s = (s, .badDescriptor r) := by
  simp [submitBody, hp, hd]

/-- R57: the checks after the descriptor's, in their order. -/
theorem submitBody_of_ok (hp : s.cmd.pending = false) {d : Descriptor} (hd : stagedDescriptor s = .ok d) :
    ((curveEntry s d.curve).state ≠ .ready → submitBody l s = (s, .noCurve)) ∧
    ((curveEntry s d.curve).state = .ready →
      (8 ≤ (queueOf s l).length → submitBody l s = (s, .queueFull)) ∧
      ((queueOf s l).length < 8 →
        (s.intake.freeTags = [] → submitBody l s = (s, .noTag)) ∧
        ∀ tag rest, s.intake.freeTags = tag :: rest →
          submitBody l s = (acceptJob tag rest l d s, .accepted tag))) := by
  have hbody : submitBody l s =
      if (curveEntry s d.curve).state ≠ .ready then (s, .noCurve)
      else if 8 ≤ (queueOf s l).length then (s, .queueFull)
      else
        match s.intake.freeTags with
        | [] => (s, .noTag)
        | tag :: rest => (acceptJob tag rest l d s, .accepted tag) := by
    simp only [submitBody, hp, hd]
    rfl
  refine ⟨fun hn => hbody.trans (if_pos hn), fun hready => ?_⟩
  rw [hbody, if_neg (not_not.mpr hready)]
  refine ⟨fun hfull => if_pos hfull, fun hroom => ?_⟩
  rw [if_neg (Nat.not_le.mpr hroom)]
  exact ⟨fun hf => by rw [hf], fun tag rest hf => by rw [hf]⟩

end

/-- Settles O25: the body's branches and the word of each answer. -/
theorem submitOutcomes : Obligations.SubmitOutcomes := by
  intro l s hr refusal
  have hrefusal {a : SubmitAnswer} {w : Word} (hb : submitBody l s = (s, a)) (hw : submitWord a = w) : refusal w :=
    hw ▸ exec_submit_of_body hr hb
  refine ⟨fun hp => hrefusal (if_pos hp) rfl, fun hp => ⟨fun r hd => hrefusal (submitBody_of_error hp hd) ?_,
    fun d hd => ?_⟩⟩
  · cases r with
    | kind | count | align | stride | range => rfl
  · obtain ⟨hcurve, hready⟩ := submitBody_of_ok (l := l) hp hd
    refine ⟨fun hn => hrefusal (hcurve hn) rfl, fun hc hfull => hrefusal ((hready hc).1 hfull) rfl,
      fun hc hroom hf => hrefusal (((hready hc).2 hroom).1 hf) rfl, fun tag rest hc hroom hf => ?_⟩
    rw [exec_submit_of_body hr (((hready hc).2 hroom).2 tag rest hf), submitWord_accepted]
    rfl

end Sys2Proof.Machine

/-! SUPPORT. The words of the register window (R37, R51, R117, R153, R163, R182, R183, R186): the number that the fields
of each show. -/

namespace Sys2Proof.Machine

/-! ### Words of fields -/

/-- A word shows a number that ends below a bit. -/
structure Shows (w : Word) (n top : Nat) : Prop where
  value : w.toNat = n
  below : n < 2 ^ top

theorem mod_two_pow_lt (v width : Nat) : v % 2 ^ width < 2 ^ width := Nat.mod_lt v (Nat.two_pow_pos width)

theorem shows_field (v width : Nat) (hw : width ≤ 32) : Shows (field v 0 width) (v % 2 ^ width) width := by
  refine ⟨?_, mod_two_pow_lt v width⟩
  rw [← field_mod, toNat_field (mod_two_pow_lt v width) (by omega), Nat.pow_zero, Nat.mul_one]

section
variable {w : Word} {n top : Nat}

theorem Shows.field (h : Shows w n top) (v lo width : Nat) (htop : top ≤ lo) (hw : lo + width ≤ 32) :
    Shows (w ||| field v lo width) (n + v % 2 ^ width * 2 ^ lo) (lo + width) := by
  obtain ⟨hvalue, hbelow⟩ := h
  have hlo : w.toNat < 2 ^ lo := hvalue ▸ hbelow.trans_le (Nat.pow_le_pow_right (by decide) htop)
  have hword := toNat_or_field hlo (mod_two_pow_lt v width) hw
  have hend := toNat_or_field_lt hlo (mod_two_pow_lt v width) hw
  rw [field_mod] at hword hend
  exact ⟨hvalue ▸ hword, hvalue ▸ hword ▸ hend⟩

theorem Shows.flag (h : Shows w n top) (b : Bool) (lo : Nat) (htop : top ≤ lo) (hw : lo + 1 ≤ 32) :
    Shows (w ||| flagBit b lo) (n + (if b then 1 else 0) * 2 ^ lo) (lo + 1) := by
  have hfield := h.field (if b then 1 else 0) lo 1 htop hw
  have hbit : (if b then 1 else 0) % 2 ^ 1 = if b then 1 else 0 := by cases b <;> rfl
  rwa [hbit] at hfield

end

/-! ### STATUS and CMD -/

theorem engineStateCode_lt (st : EngineState) : engineStateCode st < 8 := by cases st <;> decide

theorem busStateCode_lt (st : BusState) : busStateCode st < 4 := by cases st <;> decide

theorem holdStateCode_lt (h : Option HoldRecord) : holdStateCode h < 4 := by
  unfold holdStateCode
  split
  next => decide
  next => split <;> decide

theorem TagLaw.free_length {s : State} (h : TagLaw s) : s.intake.freeTags.length ≤ 48 := by
  have hlen := h.partition.length_eq
  rw [List.length_append, List.length_append, List.length_range] at hlen
  change _ = 48 at hlen
  omega

theorem toNat_readStatus {s : State} (ht : TagLaw s) (hp : PlaceLaw s) :
    (readStatus s).toNat =
      engineStateCode s.engine.state + 8 * busStateCode s.bus.state + 32 * s.intake.freeTags.length
      + 2048 * (if (slotOf s 0).isSome then 1 else 0) + 4096 * (if (slotOf s 1).isSome then 1 else 0)
      + 8192 * (if (slotOf s 2).isSome then 1 else 0) + 16384 * holdStateCode s.hold
      + 2 ^ 16 * (queueOf s 0).length + 2 ^ 20 * (queueOf s 1).length + 2 ^ 24 * (queueOf s 2).length
      + 2 ^ 28 * (queueOf s 3).length := by
  have shown :=
    ((((((((((shows_field (engineStateCode s.engine.state) 3 (by decide)).field (busStateCode s.bus.state) 3 2
      (by decide) (by decide)).field s.intake.freeTags.length 5 6 (by decide) (by decide)).flag
      (slotOf s 0).isSome 11 (by decide) (by decide)).flag (slotOf s 1).isSome 12 (by decide) (by decide)).flag
      (slotOf s 2).isSome 13 (by decide) (by decide)).field (holdStateCode s.hold) 14 2 (by decide) (by decide)).field
      (queueOf s 0).length 16 4 (by decide) (by decide)).field (queueOf s 1).length 20 4 (by decide) (by decide)).field
      (queueOf s 2).length 24 4 (by decide) (by decide)).field (queueOf s 3).length 28 4 (by decide) (by decide)
  have hengine := engineStateCode_lt s.engine.state
  have hbus := busStateCode_lt s.bus.state
  have htags := ht.free_length
  have hhold := holdStateCode_lt s.hold
  have hqueue (l : Fin 4) : (queueOf s l).length ≤ 8 := hp.queueLength l
  have h0 := hqueue 0
  have h1 := hqueue 1
  have h2 := hqueue 2
  have h3 := hqueue 3
  refine Eq.trans shown.value ?_
  omega

/-- The code of the last command, 0 before the first (R163). -/
def lastCommandCode : Option (BitVec 8) → Nat
  | none => 0
  | some c => c.toNat

theorem lastCommandCode_lt (c : Option (BitVec 8)) : lastCommandCode c < 256 := by
  cases c with
  | none => exact Nat.zero_lt_succ _
  | some c => exact c.isLt

theorem resultCode_lt (r : CmdResult) : resultCode r < 256 := by cases r <;> decide

theorem readCmd_eq (s : State) : readCmd s =
    (field (lastCommandCode s.cmd.lastCommand) 0 8 ||| field (resultCode s.cmd.lastResult) 8 8
      ||| flagBit s.cmd.pending 16 ||| flagBit s.cmd.lastCommand.isSome 17) := by
  rw [readCmd]
  cases s.cmd.lastCommand with
  | none => rfl
  | some c => rfl

theorem toNat_readCmd (s : State) :
    (readCmd s).toNat = lastCommandCode s.cmd.lastCommand + 256 * resultCode s.cmd.lastResult
      + 65536 * (if s.cmd.pending then 1 else 0) + 131072 * (if s.cmd.lastCommand.isSome then 1 else 0) := by
  have shown :=
    (((shows_field (lastCommandCode s.cmd.lastCommand) 8 (by decide)).field (resultCode s.cmd.lastResult) 8 8
      (by decide) (by decide)).flag s.cmd.pending 16 (by decide) (by decide)).flag s.cmd.lastCommand.isSome 17
      (by decide) (by decide)
  have hcode := lastCommandCode_lt s.cmd.lastCommand
  have hresult := resultCode_lt s.cmd.lastResult
  rw [readCmd_eq, shown.value]
  omega

/-- Settles O51: the fields of STATUS and CMD; the query registers and IDENT are read as they are. -/
theorem statusAndCmdShowTheState : Obligations.StatusAndCmdShowTheState := by
  refine ⟨fun s hr => ?_, fun s hr ht hp => ⟨⟨readStatus s, windowRead_of_released hr _, ?_⟩,
    readCmd s, windowRead_of_released hr _, ?_⟩⟩
  · simp only [windowRead_of_released hr]
    exact ⟨rfl, rfl, rfl, rfl, rfl⟩
  · exact toNat_readStatus ht hp
  · exact toNat_readCmd s

/-! ### The oldest record -/

theorem jobKindCode_lt (k : JobKind) : jobKindCode k < 2 := by cases k <;> decide

theorem statusCode_lt (st : JobStatus) : statusCode st < 8 := by cases st <;> decide

theorem kindCode_lt (k : ExcKind) : kindCode k < 8 := by cases k <;> decide

theorem stageCode_lt (st : Stage) : stageCode st < 8 := by
  unfold stageCode
  split <;> decide

theorem toNat_recordWord0 (r : Record) :
    (recordWord0 r).toNat =
      r.tag % 64 + 64 * r.level.val + 256 * jobKindCode r.kind + 512 * statusCode r.status
      + 4096 * (if r.first.isSome then 1 else 0) + 8192 * (if r.result.isSome then 1 else 0)
      + 16384 * (if r.busErr.isSome then 1 else 0) + 32768 * r.curve.val + 2 ^ 20 * r.generation.toNat := by
  have shown :=
    ((((((((shows_field r.tag 6 (by decide)).field r.level.val 6 2 (by decide) (by decide)).field (jobKindCode r.kind)
      8 1 (by decide) (by decide)).field (statusCode r.status) 9 3 (by decide) (by decide)).flag r.first.isSome 12
      (by decide) (by decide)).flag r.result.isSome 13 (by decide) (by decide)).flag r.busErr.isSome 14
      (by decide) (by decide)).field r.curve.val 15 5 (by decide) (by decide)).field r.generation.toNat 20 8
      (by decide) (by decide)
  have hkind := jobKindCode_lt r.kind
  have hstatus := statusCode_lt r.status
  have hgeneration := r.generation.isLt
  rw [recordWord0, shown.value]
  omega

theorem toNat_recordWord1 (r : Record) : (recordWord1 r).toNat = r.cookie.toNat + 65536 * (r.done % 65536) := by
  have shown := (shows_field r.cookie.toNat 16 (by decide)).field r.done 16 16 (by decide) (by decide)
  rw [recordWord1, shown.value]
  omega

/-- The term index as a register shows it (R186). -/
def shownTermIndex : Stage → Nat
  | .term j => j % 16
  | _ => 0

theorem stageTermIndex_mod (st : Stage) : stageTermIndex st % 2 ^ 4 = shownTermIndex st := by cases st <;> rfl

/-- The first exception as CREC2 shows it (R186). -/
def shownFirst : Option FirstExc → Nat
  | none => 0
  | some f => 65536 * kindCode f.exc.kind + 2 ^ 19 * stageCode f.exc.stage + 2 ^ 22 * shownTermIndex f.exc.stage

theorem toNat_recordWord2 (r : Record) : (recordWord2 r).toNat = r.excCount % 65536 + shownFirst r.first := by
  have count := shows_field r.excCount 16 (by decide)
  rw [recordWord2]
  cases r.first with
  | none =>
    exact (congrArg BitVec.toNat BitVec.or_zero).trans count.value
  | some f =>
    have shown := ((count.field (kindCode f.exc.kind) 16 3 (by decide) (by decide)).field (stageCode f.exc.stage) 19 3
      (by decide) (by decide)).field (stageTermIndex f.exc.stage) 22 4 (by decide) (by decide)
    have hkind := kindCode_lt f.exc.kind
    have hstage := stageCode_lt f.exc.stage
    rw [← BitVec.or_assoc, ← BitVec.or_assoc, shown.value, stageTermIndex_mod, shownFirst]
    omega

/-- The element of the first exception as CREC3 shows it (R186). -/
def shownElement : Option FirstExc → Nat
  | none => 0
  | some f => f.element % 65536

/-- The direction of a bus error as CREC3 shows it (R186). -/
def shownDirection : Option BusErr → Nat
  | some { addr := _, dir := .write } => 1
  | _ => 0

theorem recordWord3_eq (r : Record) :
    recordWord3 r = field (shownElement r.first) 0 16 ||| field (shownDirection r.busErr) 16 1 := by
  have helement : (match r.first with | some f => field f.element 0 16 | none => 0) =
      field (shownElement r.first) 0 16 := by
    cases r.first with
    | none => rfl
    | some f => exact (field_mod f.element 0 16).symm
  have hdirection : (match r.busErr with
      | some e => field (match e.dir with | .read => 0 | .write => 1) 16 1
      | none => 0) = field (shownDirection r.busErr) 16 1 := by
    cases r.busErr with
    | none => rfl
    | some e =>
      obtain ⟨addr, dir⟩ := e
      cases dir <;> rfl
  exact congrArg₂ (· ||| ·) helement hdirection

theorem shownElement_lt (f : Option FirstExc) : shownElement f < 65536 := by
  cases f with
  | none => decide
  | some f => exact Nat.mod_lt _ (by decide)

theorem shownDirection_lt (e : Option BusErr) : shownDirection e < 2 := by
  unfold shownDirection
  split <;> decide

theorem toNat_recordWord3 (r : Record) :
    (recordWord3 r).toNat = shownElement r.first + 65536 * shownDirection r.busErr := by
  have shown := (shows_field (shownElement r.first) 16 (by decide)).field (shownDirection r.busErr) 16 1
    (by decide) (by decide)
  have helement := shownElement_lt r.first
  have hdirection := shownDirection_lt r.busErr
  rw [recordWord3_eq, shown.value]
  omega

theorem readRecord_of_cons {s : State} {r : Record} {rest : List Record} (h : s.completion.records = r :: rest)
    (f : Record → Word) : readRecord f s = f r := by
  simp only [readRecord, h]

theorem readRecord_of_nil {s : State} (h : s.completion.records = []) (f : Record → Word) : readRecord f s = 0 := by
  simp only [readRecord, h]

/-- Settles O52: the words of the record at the head of the queue. -/
theorem recordRegistersShowTheOldest : Obligations.RecordRegistersShowTheOldest := by
  intro s hr
  have hread {o : BitVec 8} {w : Word} (hw : registerWord s o = some w) : windowRead s o = some w :=
    (windowRead_of_released hr o).trans hw
  refine ⟨fun r rest hrec => ?_, fun hrec => ?_, hread ?_⟩
  · have hword (f : Record → Word) := congrArg some (readRecord_of_cons hrec f)
    refine ⟨recordWord0 r, recordWord1 r, recordWord2 r, recordWord3 r, hread (hword _), hread (hword _),
      hread (hword _), hread (hword _), toNat_recordWord0 r, toNat_recordWord1 r, ?_, ?_, fun x hx => ?_,
      fun hi lo hx => ?_, fun e hx he => ?_, fun hx he => ?_⟩
    · rw [toNat_recordWord2]
      cases r.first with
      | none => rfl
      | some f => rfl
    · rw [toNat_recordWord3]
      rfl
    · exact ⟨hread ((hword _).trans (by rw [recordWord4, hx]; rfl)),
        hread ((hword _).trans (by rw [recordWord5, hx]; rfl))⟩
    · exact ⟨hread ((hword _).trans (by rw [recordWord4, hx]; rfl)),
        hread ((hword _).trans (by rw [recordWord5, hx]; rfl))⟩
    · exact ⟨hread ((hword _).trans (by rw [recordWord4, hx, he])),
        hread ((hword _).trans (by rw [recordWord5, hx]))⟩
    · exact ⟨hread ((hword _).trans (by rw [recordWord4, hx, he])),
        hread ((hword _).trans (by rw [recordWord5, hx]))⟩
  · have hword (f : Record → Word) := congrArg some (readRecord_of_nil hrec f)
    intro o ho
    simp only [List.mem_cons, List.not_mem_nil, or_false] at ho
    rcases ho with rfl | rfl | rfl | rfl | rfl | rfl <;> exact hread (hword _)
  · exact congrArg some (BitVec.eq_of_toNat_eq (by
      rw [(shows_field s.completion.records.length 6 (by decide)).value, BitVec.toNat_ofNat]
      omega))

/-! ### The hold slot, the load session and the free pool -/

/-- The code of a descriptor's body (R184). -/
def bodyCode : JobBody → Nat
  | .single _ => 0
  | .batch _ _ _ _ _ => 1

theorem jobKindCode_descKind (d : Descriptor) : jobKindCode (descKind d) = bodyCode d.body := by
  unfold descKind
  cases d.body <;> rfl

/-- The pending action as HOLD0 shows it (R186). -/
def shownAction : Option HoldAction → Nat
  | some (.substitute _) => 1
  | some .retry => 2
  | some .skipMark => 0
  | none => 0

theorem shownAction_lt (a : Option HoldAction) : shownAction a < 4 := by
  unfold shownAction
  split <;> decide

theorem holdWord0_eq (h : HoldRecord) :
    holdWord0 h =
      (field (if h.action.isSome then 2 else 1) 0 2 ||| field h.job.tag 2 6 ||| field h.job.level.val 8 2
        ||| field (jobKindCode (descKind h.job.desc)) 10 1 ||| flagBit h.action.isSome 11
        ||| field (shownAction h.action) 12 2) := by
  rw [holdWord0, holdStateCode]
  cases h.action with
  | none => rfl
  | some a => cases a <;> rfl

theorem toNat_holdWord0 (h : HoldRecord) :
    (holdWord0 h).toNat =
      (if h.action.isSome then 2 else 1) + 4 * (h.job.tag % 64) + 256 * h.job.level.val
      + 1024 * bodyCode h.job.desc.body + 2048 * (if h.action.isSome then 1 else 0)
      + 4096 * shownAction h.action := by
  have shown :=
    (((((shows_field (if h.action.isSome then 2 else 1) 2 (by decide)).field h.job.tag 2 6 (by decide)
      (by decide)).field h.job.level.val 8 2 (by decide) (by decide)).field (jobKindCode (descKind h.job.desc)) 10 1
      (by decide) (by decide)).flag h.action.isSome 11 (by decide) (by decide)).field (shownAction h.action) 12 2
      (by decide) (by decide)
  have hstate : (if h.action.isSome then 2 else 1) < 2 ^ 2 := by split <;> decide
  have hkind := jobKindCode_descKind h.job.desc ▸ jobKindCode_lt (descKind h.job.desc)
  have haction := shownAction_lt h.action
  rw [holdWord0_eq, shown.value, jobKindCode_descKind]
  omega

theorem toNat_holdWord1 (h : HoldRecord) :
    (holdWord1 h).toNat =
      h.job.desc.curve.val + 32 * formatCode h.job.desc.argFormat + 64 * formatCode h.job.desc.resFormat
      + 256 * kindCode h.exc.kind + 2048 * stageCode h.exc.stage + 16384 * shownTermIndex h.exc.stage := by
  have shown :=
    (((((shows_field h.job.desc.curve.val 5 (by decide)).field (formatCode h.job.desc.argFormat) 5 1 (by decide)
      (by decide)).field (formatCode h.job.desc.resFormat) 6 1 (by decide) (by decide)).field (kindCode h.exc.kind) 8 3
      (by decide) (by decide)).field (stageCode h.exc.stage) 11 3 (by decide) (by decide)).field
      (stageTermIndex h.exc.stage) 14 4 (by decide) (by decide)
  have harg := formatCode_lt h.job.desc.argFormat
  have hres := formatCode_lt h.job.desc.resFormat
  have hkind := kindCode_lt h.exc.kind
  have hstage := stageCode_lt h.exc.stage
  rw [holdWord1, shown.value, stageTermIndex_mod]
  omega

theorem holdWord2_eq (h : HoldRecord) : holdWord2 h = BitVec.ofNat 32 (h.job.index % 65536) := by
  rw [holdWord2, field, Nat.pow_zero, Nat.mul_one, show 2 ^ 16 = 65536 from rfl]

theorem toNat_holdWord3 (h : HoldRecord) :
    (holdWord3 h).toNat = h.job.done % 65536 + 65536 * (h.job.excCount % 65536) := by
  rw [holdWord3, ((shows_field h.job.done 16 (by decide)).field h.job.excCount 16 16 (by decide) (by decide)).value]
  omega

theorem readHold_of_some {s : State} {h : HoldRecord} (hh : s.hold = some h) (f : HoldRecord → Word) :
    readHold f s = f h := by
  simp only [readHold, hh]

theorem readHold_of_none {s : State} (hh : s.hold = none) (f : HoldRecord → Word) : readHold f s = 0 := by
  simp only [readHold, hh]

theorem sessionStateCode_lt (st : SessionState) : sessionStateCode st < 4 := by cases st <;> decide

theorem phaseCode_lt (p : Phase) : phaseCode p < 4 := by cases p <;> decide

/-- The failure reason as LOAD_STATUS shows it (R186). -/
def shownReason : Option LoadReason → Nat
  | none => 0
  | some .badValue => 1
  | some .badOrder => 2
  | some .badDegree => 3
  | some .storeFull => 4
  | some .overrun => 5

theorem failureCode_eq (f : Option FailureRecord) : failureCode f = shownReason (f.map (·.reason)) := by
  cases f with
  | none => rfl
  | some f =>
    unfold failureCode
    cases hreason : f.reason <;> simp only [Option.map_some, hreason, shownReason]

theorem shownReason_lt (r : Option LoadReason) : shownReason r < 8 := by
  unfold shownReason
  split <;> decide

theorem toNat_readLoadStatus (s : State) :
    (readLoadStatus s).toNat =
      sessionStateCode s.load.state + 4 * s.load.curve.val + 128 * phaseCode s.load.cursor.phase
      + 512 * (s.load.cursor.segment % 64) + 32768 * (if s.load.cursor.lowHalf.isSome then 1 else 0)
      + 65536 * (s.load.wordIndex % 4096) + 2 ^ 28 * shownReason (s.load.failure.map (·.reason)) := by
  have shown :=
    ((((((shows_field (sessionStateCode s.load.state) 2 (by decide)).field s.load.curve.val 2 5 (by decide)
      (by decide)).field (phaseCode s.load.cursor.phase) 7 2 (by decide) (by decide)).field s.load.cursor.segment 9 6
      (by decide) (by decide)).flag s.load.cursor.lowHalf.isSome 15 (by decide) (by decide)).field s.load.wordIndex
      16 12 (by decide) (by decide)).field (failureCode s.load.failure) 28 3 (by decide) (by decide)
  have hstate := sessionStateCode_lt s.load.state
  have hphase := phaseCode_lt s.load.cursor.phase
  have hreason := shownReason_lt (s.load.failure.map (·.reason))
  rw [readLoadStatus, shown.value, failureCode_eq]
  omega

/-- The lowest free block as STORE_STATUS shows it (R37, R186). -/
def shownLowest : List Nat → Nat
  | [] => 0
  | b :: _ => 256 * (b % 128) + 32768

theorem toNat_readStoreStatus (s : State) :
    (readStoreStatus s).toNat = s.store.free.length % 256 + shownLowest s.store.free := by
  have count := shows_field s.store.free.length 8 (by decide)
  rw [readStoreStatus]
  cases hf : s.store.free with
  | nil => rfl
  | cons b rest =>
    rw [hf] at count
    have shown := (count.field b 8 7 (by decide) (by decide)).flag true 15 (by decide) (by decide)
    rw [← BitVec.or_assoc, shown.value, shownLowest, if_pos rfl]
    omega

/-- Settles O53: the words of the hold record, LOAD_STATUS and STORE_STATUS. -/
theorem holdAndLoadRegistersShowTheState : Obligations.HoldAndLoadRegistersShowTheState := by
  intro s hr
  have hread {o : BitVec 8} {w : Word} (hw : registerWord s o = some w) : windowRead s o = some w :=
    (windowRead_of_released hr o).trans hw
  refine ⟨fun h hh => ?_, fun hh => ?_, ⟨readLoadStatus s, hread rfl, toNat_readLoadStatus s⟩, readStoreStatus s,
    hread rfl, ?_⟩
  · have hword (f : HoldRecord → Word) := congrArg some (readHold_of_some hh f)
    refine ⟨holdWord0 h, holdWord1 h, holdWord3 h, hread (hword _), hread (hword _),
      hread ((hword holdWord2).trans (congrArg some (holdWord2_eq h))), hread (hword _), toNat_holdWord0 h,
      toNat_holdWord1 h, toNat_holdWord3 h, fun x hx => ?_, fun hi lo hx => ?_⟩
    · exact ⟨hread ((hword _).trans (by rw [hx]; rfl)), hread ((hword _).trans (by rw [hx]; rfl))⟩
    · exact ⟨hread ((hword _).trans (by rw [hx]; rfl)), hread ((hword _).trans (by rw [hx]; rfl))⟩
  · have hword (f : HoldRecord → Word) := congrArg some (readHold_of_none hh f)
    intro o ho
    simp only [List.mem_cons, List.not_mem_nil, or_false] at ho
    rcases ho with rfl | rfl | rfl | rfl | rfl | rfl <;> exact hread (hword _)
  · rw [toNat_readStoreStatus]
    cases s.store.free with
    | nil => rfl
    | cons b rest => rfl

end Sys2Proof.Machine

/-! SUPPORT. Rounding and its tests (R6 to R8), the encodings (R1 to R4, R187), and the steps that keep a value exactly
(R9 to R12). -/

namespace Sys2Proof.Machine

/-! ### Rounding a magnitude -/

/-- R6: the significand of a long magnitude before it is renormalized: the nearest multiple of the last place, the
greater one of two equally near. -/
def roundedSig (p mag : Nat) : Nat := (mag + 2 ^ (Nat.log2 mag + 1 - p - 1)) / 2 ^ (Nat.log2 mag + 1 - p)

theorem two_pow_eq_two_mul {n : Nat} (h : 1 ≤ n) : 2 ^ n = 2 * 2 ^ (n - 1) := by
  rw [← Nat.pow_succ', Nat.succ_eq_add_one, Nat.sub_add_cancel h]

section
variable {p mag : Nat}

theorem roundMagnitude_of_short (e : Int) (hl : Nat.log2 mag < p) :
    roundMagnitude p mag e = (mag * 2 ^ (p - 1 - Nat.log2 mag), (Nat.log2 mag : Int) + e) :=
  if_pos hl

theorem roundMagnitude_of_long (e : Int) (hl : p ≤ Nat.log2 mag) :
    (roundedSig p mag < 2 ^ p → roundMagnitude p mag e = (roundedSig p mag, (Nat.log2 mag : Int) + e)) ∧
    (roundedSig p mag = 2 ^ p → roundMagnitude p mag e = (2 ^ (p - 1), (Nat.log2 mag : Int) + e + 1)) := by
  have hround : roundMagnitude p mag e =
      if roundedSig p mag = 2 ^ p then (2 ^ (p - 1), (Nat.log2 mag : Int) + e + 1)
      else (roundedSig p mag, (Nat.log2 mag : Int) + e) :=
    if_neg (Nat.not_le.mpr (Nat.lt_succ_of_le hl))
  exact ⟨fun h => hround.trans (if_neg h.ne), fun h => hround.trans (if_pos h)⟩

/-- R6: half of the last place is the most by which the significand is off, and a tie goes to the greater one. -/
theorem roundedSig_near (hl : p ≤ Nat.log2 mag) :
    2 * roundedSig p mag * 2 ^ (Nat.log2 mag + 1 - p) ≤ 2 * mag + 2 ^ (Nat.log2 mag + 1 - p) ∧
    2 * mag < (2 * roundedSig p mag + 1) * 2 ^ (Nat.log2 mag + 1 - p) := by
  have hhalf := two_pow_eq_two_mul (n := Nat.log2 mag + 1 - p) (by omega)
  have hbelow : roundedSig p mag * 2 ^ (Nat.log2 mag + 1 - p) ≤ mag + 2 ^ (Nat.log2 mag + 1 - p - 1) :=
    Nat.div_mul_le_self _ _
  have habove : mag + 2 ^ (Nat.log2 mag + 1 - p - 1) < 2 ^ (Nat.log2 mag + 1 - p) * (roundedSig p mag + 1) :=
    Nat.lt_mul_div_succ _ (Nat.two_pow_pos _)
  constructor
  · linarith
  · linarith

/-- R6: a long magnitude has at least `p` bits above its last place, and at most one more after it is rounded. -/
theorem roundedSig_bounds (hp : 1 ≤ p) (hm : mag ≠ 0) (hl : p ≤ Nat.log2 mag) :
    2 ^ (p - 1) ≤ roundedSig p mag ∧ roundedSig p mag ≤ 2 ^ p := by
  have hunit : 0 < 2 ^ (Nat.log2 mag + 1 - p) := Nat.two_pow_pos _
  have hlow : 2 ^ (p - 1) * 2 ^ (Nat.log2 mag + 1 - p) = 2 ^ Nat.log2 mag := by
    rw [← Nat.pow_add]
    congr 1
    omega
  have hhigh : 2 ^ p * 2 ^ (Nat.log2 mag + 1 - p) = 2 ^ (Nat.log2 mag + 1) := by
    rw [← Nat.pow_add]
    congr 1
    omega
  have hself := Nat.log2_self_le hm
  have hlt : mag < 2 ^ (Nat.log2 mag + 1) := Nat.lt_log2_self
  have hhalf := two_pow_eq_two_mul (n := Nat.log2 mag + 1 - p) (by omega)
  constructor
  · exact (Nat.le_div_iff_mul_le hunit).mpr (by omega)
  · refine Nat.lt_succ_iff.mp ((Nat.div_lt_iff_lt_mul hunit).mpr ?_)
    rw [Nat.succ_mul]
    omega

end

/-- Settles O54: the significand rounded to nearest is the witness. -/
theorem roundingIsToNearestTiesAway : Obligations.RoundingIsToNearestTiesAway := by
  intro p mag e hp hm l
  refine ⟨fun hl => roundMagnitude_of_short e hl, fun hl => ⟨roundedSig p mag, ?_⟩⟩
  obtain ⟨hbelow, habove⟩ := roundedSig_near hl
  obtain ⟨hlow, hhigh⟩ := roundedSig_bounds hp hm hl
  obtain ⟨hfits, hnext⟩ := roundMagnitude_of_long e hl
  exact ⟨hbelow, habove, hlow, hhigh, hfits, hnext⟩

/-- R6: the significand that is delivered has exactly `p` bits. -/
theorem roundMagnitude_bounds {p mag : Nat} (e : Int) (hp : 1 ≤ p) (hm : mag ≠ 0) :
    2 ^ (p - 1) ≤ (roundMagnitude p mag e).1 ∧ (roundMagnitude p mag e).1 < 2 ^ p := by
  rcases Nat.lt_or_ge (Nat.log2 mag) p with hl | hl
  · rw [roundMagnitude_of_short e hl]
    have hlow : 2 ^ Nat.log2 mag * 2 ^ (p - 1 - Nat.log2 mag) = 2 ^ (p - 1) := by
      rw [← Nat.pow_add]
      congr 1
      omega
    have hhigh : 2 ^ (Nat.log2 mag + 1) * 2 ^ (p - 1 - Nat.log2 mag) = 2 ^ p := by
      rw [← Nat.pow_add]
      congr 1
      omega
    exact ⟨hlow ▸ Nat.mul_le_mul_right _ (Nat.log2_self_le hm),
      hhigh ▸ Nat.mul_lt_mul_of_pos_right Nat.lt_log2_self (Nat.two_pow_pos _)⟩
  · obtain ⟨hlow, hhigh⟩ := roundedSig_bounds hp hm hl
    obtain ⟨hfits, hnext⟩ := roundMagnitude_of_long e hl
    rcases Nat.lt_or_eq_of_le hhigh with hlt | heq
    · rw [hfits hlt]
      exact ⟨hlow, hlt⟩
    · rw [hnext heq]
      exact ⟨le_rfl, Nat.pow_lt_pow_right (by decide) (by omega)⟩

/-! ### The fields of an encoding -/

/-- R187: the fields of a packed value are those it was packed from. -/
theorem packValue_fields (f : Format) (neg : Bool) {exp frac : Nat} (he : exp ≤ markerExp f)
    (hf : frac < 2 ^ fracBits f) :
    valueFormat (packValue f neg exp frac) = f ∧ valueSign (packValue f neg exp frac) = neg ∧
      valueExp (packValue f neg exp frac) = exp ∧ valueFrac (packValue f neg exp frac) = frac := by
  cases f with
  | n =>
    replace he : exp ≤ 255 := he
    replace hf : frac < 2 ^ 23 := hf
    refine ⟨rfl, ?_, ?_, ?_⟩
    · simp only [packValue, valueSign, BitVec.msb_eq_decide, BitVec.toNat_ofNat]
      cases neg <;> simp <;> omega
    · simp only [packValue, valueExp, BitVec.toNat_ofNat]
      cases neg <;> simp <;> omega
    · simp only [packValue, valueFrac, BitVec.toNat_ofNat]
      cases neg <;> simp <;> omega
  | w =>
    replace he : exp ≤ 2047 := he
    replace hf : frac < 2 ^ 52 := hf
    refine ⟨rfl, ?_, ?_, ?_⟩
    · simp only [packValue, valueSign, BitVec.msb_eq_decide, BitVec.toNat_ofNat]
      cases neg <;> simp <;> omega
    · simp only [packValue, valueExp, BitVec.toNat_ofNat]
      cases neg <;> simp <;> omega
    · simp only [packValue, valueFrac, BitVec.toNat_ofNat]
      cases neg <;> simp <;> omega

/-- R187: the sign bit of a word, as it is packed. -/
theorem signBit_eq (x : Word) : (if x.msb then 2 ^ 31 else 0) = x.toNat / 2 ^ 31 * 2 ^ 31 := by
  rw [sign_of_msb]
  cases x.msb <;> rfl

/-- R187: a value is packed from its own fields. -/
theorem packValue_self (v : Value) : packValue (valueFormat v) (valueSign v) (valueExp v) (valueFrac v) = v := by
  cases v with
  | narrow x =>
    refine congrArg Value.narrow (BitVec.eq_of_toNat_eq ?_)
    rw [BitVec.toNat_ofNat]
    rw [valueSign, signBit_eq, valueExp, valueFrac]
    omega
  | wide hi lo =>
    refine congrArg₂ Value.wide (BitVec.eq_of_toNat_eq ?_) (BitVec.eq_of_toNat_eq ?_)
    · rw [BitVec.toNat_ofNat, valueSign, signBit_eq, valueExp, valueFrac]
      omega
    · rw [BitVec.toNat_ofNat, valueFrac]
      omega

theorem valueFrac_lt (v : Value) : valueFrac v < 2 ^ fracBits (valueFormat v) := by
  cases v with
  | narrow x => exact Nat.mod_lt _ (by decide)
  | wide hi lo =>
    have hlo := lo.isLt
    change hi.toNat % 2 ^ 20 * 2 ^ 32 + lo.toNat < 2 ^ 52
    omega

theorem valueExp_le (v : Value) : valueExp v ≤ markerExp (valueFormat v) := by
  cases v with
  | narrow x =>
    change x.toNat / 2 ^ 23 % 2 ^ 8 ≤ 255
    omega
  | wide hi lo =>
    change hi.toNat / 2 ^ 20 % 2 ^ 11 ≤ 2047
    omega

theorem isZero_iff (v : Value) : isZero v = true ↔ valueExp v = 0 := decide_eq_true_iff

theorem isMarker_iff (v : Value) : isMarker v = true ↔ valueExp v = markerExp (valueFormat v) := decide_eq_true_iff

theorem valueNum_of_zero {v : Value} (h : isZero v = true) : valueNum v = { m := 0, e := 0 } := if_pos h

/-- R1: the number of an encoding with the fields `neg`, `exp` and `frac`. -/
def fieldsDyadic (f : Format) (neg : Bool) (exp frac : Nat) : Dyadic :=
  { m := if neg then -((2 ^ fracBits f + frac : Nat) : Int) else ((2 ^ fracBits f + frac : Nat) : Int)
    e := (exp : Int) - bias f - fracBits f }

theorem valueNum_of_nonzero {v : Value} (h : isZero v = false) :
    valueNum v = fieldsDyadic (valueFormat v) (valueSign v) (valueExp v) (valueFrac v) :=
  if_neg (Bool.eq_false_iff.mp h)

/-- The exponents between zero's and the marker's are those of the values that are neither. -/
theorem packValue_number (f : Format) (neg : Bool) {exp frac : Nat} (h0 : exp ≠ 0) (he : exp < markerExp f)
    (hf : frac < 2 ^ fracBits f) :
    valueFormat (packValue f neg exp frac) = f ∧ isMarker (packValue f neg exp frac) = false ∧
      isZero (packValue f neg exp frac) = false ∧
      valueNum (packValue f neg exp frac) = fieldsDyadic f neg exp frac := by
  obtain ⟨hformat, hsign, hexp, hfrac⟩ := packValue_fields f neg he.le hf
  have hzero : isZero (packValue f neg exp frac) = false := by
    rw [Bool.eq_false_iff, ne_eq, isZero_iff, hexp]
    exact h0
  refine ⟨hformat, ?_, hzero, ?_⟩
  · rw [Bool.eq_false_iff, ne_eq, isMarker_iff, hexp, hformat]
    exact he.ne
  · rw [valueNum_of_nonzero hzero, hformat, hsign, hexp, hfrac]

/-! ### Rounding into a format (R6 to R8) -/

section
variable (f : Format)

theorem roundTo_of_zero (e : Int) : roundTo f { m := 0, e := e } = .value (zeroValue f) := if_pos rfl

theorem minExp_le_maxExp : minExp f ≤ maxExp f := by cases f <;> decide

/-- R7, R8: the tests of a rounded number. -/
theorem roundTo_of_nonzero {m : Int} (e : Int) (hm : m ≠ 0) :
    (maxExp f < (roundMagnitude (fracBits f + 1) m.natAbs e).2 → roundTo f { m := m, e := e } = .overflow) ∧
    ((roundMagnitude (fracBits f + 1) m.natAbs e).2 < minExp f → roundTo f { m := m, e := e } = .underflow) ∧
    (minExp f ≤ (roundMagnitude (fracBits f + 1) m.natAbs e).2 →
      (roundMagnitude (fracBits f + 1) m.natAbs e).2 ≤ maxExp f →
      roundTo f { m := m, e := e } =
        .value (packValue f (decide (m < 0)) ((roundMagnitude (fracBits f + 1) m.natAbs e).2 + bias f).toNat
          ((roundMagnitude (fracBits f + 1) m.natAbs e).1 - 2 ^ fracBits f))) := by
  have htests := minExp_le_maxExp f
  have hround : roundTo f { m := m, e := e } = _ := if_neg hm
  rw [hround]
  refine ⟨fun hover => if_pos hover, fun hunder => ?_, fun hlow hhigh => ?_⟩
  · exact (if_neg (Int.not_lt.mpr (hunder.le.trans htests))).trans (if_pos hunder)
  · exact (if_neg (Int.not_lt.mpr hhigh)).trans (if_neg (Int.not_lt.mpr hlow))

/-- R1, R7, R8: an exponent that passes the tests has a field between zero's and the marker's. -/
theorem expField_spec {u : Int} (hlow : minExp f ≤ u) (hhigh : u ≤ maxExp f) :
    (u + bias f).toNat ≠ 0 ∧ (u + bias f).toNat < markerExp f ∧ ((u + bias f).toNat : Int) = u + bias f := by
  cases f with
  | n =>
    change -127 ≤ u at hlow
    change u ≤ 126 at hhigh
    change (u + 128).toNat ≠ 0 ∧ (u + 128).toNat < 255 ∧ ((u + 128).toNat : Int) = u + 128
    omega
  | w =>
    change -1023 ≤ u at hlow
    change u ≤ 1022 at hhigh
    change (u + 1024).toNat ≠ 0 ∧ (u + 1024).toNat < 2047 ∧ ((u + 1024).toNat : Int) = u + 1024
    omega

/-- A number that passes the tests is delivered as the encoding with its sign, significand and exponent. -/
theorem roundTo_of_passed {m : Int} (e : Int) (hm : m ≠ 0)
    (hlow : minExp f ≤ (roundMagnitude (fracBits f + 1) m.natAbs e).2)
    (hhigh : (roundMagnitude (fracBits f + 1) m.natAbs e).2 ≤ maxExp f) :
    ∃ x, roundTo f { m := m, e := e } = .value x ∧ valueFormat x = f ∧ isMarker x = false ∧ isZero x = false ∧
      valueNum x =
        { m := if m < 0 then -((roundMagnitude (fracBits f + 1) m.natAbs e).1 : Int)
            else (roundMagnitude (fracBits f + 1) m.natAbs e).1
          e := (roundMagnitude (fracBits f + 1) m.natAbs e).2 - fracBits f } := by
  obtain ⟨hsigLow, hsigHigh⟩ := roundMagnitude_bounds (p := fracBits f + 1) e (by omega) (Int.natAbs_ne_zero.mpr hm)
  obtain ⟨-, -, hvalue⟩ := roundTo_of_nonzero f e hm
  replace hvalue := hvalue hlow hhigh
  generalize roundMagnitude (fracBits f + 1) m.natAbs e = r at *
  obtain ⟨h0, he, hfield⟩ := expField_spec f hlow hhigh
  rw [Nat.add_sub_cancel] at hsigLow
  rw [Nat.pow_succ] at hsigHigh
  obtain ⟨hformat, hmarker, hzero, hnum⟩ := packValue_number f (decide (m < 0)) h0 he
    (frac := r.1 - 2 ^ fracBits f) (by omega)
  refine ⟨_, hvalue, hformat, hmarker, hzero, hnum.trans ?_⟩
  rw [fieldsDyadic, hfield, Nat.add_sub_cancel' hsigLow]
  simp only [decide_eq_true_eq, Dyadic.mk.injEq, true_and]
  omega

end

/-- Settles O55: the steps are exact before they round, and the tests are those of `roundTo`. -/
theorem roundedNumbersAreTested : Obligations.RoundedNumbersAreTested := by
  refine ⟨fun v _ => valueNum_number v, fun a b _ _ => ⟨valueLt_iff a b, valueLe_iff a b⟩, fun f pol acc t c _ _ _ =>
    ⟨_, ?_, rfl⟩, fun f pol x b _ _ => ⟨_, ?_, rfl⟩, fun pol hi lo _ => ⟨_, valueNum_number _, rfl⟩, ?_⟩
  · rw [dyadicNumber_add, dyadicNumber_mul, valueNum_number, valueNum_number, valueNum_number]
  · rw [dyadicNumber_sub, valueNum_number, valueNum_number]
  · intro f pol m e v frac top bottom zero r
    have hfrac : frac = fracBits f := by cases f <;> rfl
    have htop : top = maxExp f := by cases f <;> rfl
    have hbottom : bottom = minExp f := by cases f <;> rfl
    have hzero : zero = zeroValue f := by cases f <;> rfl
    have hr : r = roundMagnitude (fracBits f + 1) m.natAbs e := by rw [← hfrac]
    rw [htop, hbottom, hzero, hfrac, hr]
    refine ⟨fun hm => ?_, fun hm hover => ?_, fun hm hunder => ?_, fun hm hlow hhigh => ?_⟩
    · subst hm
      rw [show v = _ from rfl, roundTo_of_zero]
      rfl
    · rw [show v = _ from rfl, (roundTo_of_nonzero f e hm).1 hover]
      rfl
    · rw [show v = _ from rfl, (roundTo_of_nonzero f e hm).2.1 hunder]
      cases pol <;> rfl
    · obtain ⟨x, hx, hrest⟩ := roundTo_of_passed f e hm hlow hhigh
      refine ⟨x, ?_, hrest⟩
      rw [show v = _ from rfl, hx]
      rfl

/-! ### Steps that keep a value (R2 to R4, R9, R11, R12) -/

theorem canonical_of_zero {v : Value} (h : isZero v = true) : canonical v = zeroValue (valueFormat v) := if_pos h

theorem canonical_of_nonzero {v : Value} (h : isZero v = false) : canonical v = v := if_neg (Bool.eq_false_iff.mp h)

theorem log2_mul_two_pow {mag : Nat} (hm : mag ≠ 0) (k : Nat) : Nat.log2 (mag * 2 ^ k) = Nat.log2 mag + k := by
  have hpos : 0 < 2 ^ k := Nat.two_pow_pos k
  rw [Nat.log2_eq_iff (Nat.mul_ne_zero hm hpos.ne'), Nat.pow_add, Nat.add_right_comm, Nat.pow_add]
  exact ⟨Nat.mul_le_mul_right _ (Nat.log2_self_le hm), Nat.mul_lt_mul_of_pos_right Nat.lt_log2_self hpos⟩

/-- A magnitude that fits is rounded to itself, however many zeros it is written with. -/
theorem roundMagnitude_of_exact {p mag : Nat} (e : Int) (hm : mag ≠ 0) (hl : Nat.log2 mag < p) (k : Nat) :
    roundMagnitude p (mag * 2 ^ k) (e - k) = (mag * 2 ^ (p - 1 - Nat.log2 mag), (Nat.log2 mag : Int) + e) := by
  have hlog := log2_mul_two_pow hm k
  have hexp : ((Nat.log2 mag + k : Nat) : Int) + (e - k) = (Nat.log2 mag : Int) + e := by
    push_cast
    ring
  rcases Nat.lt_or_ge (Nat.log2 mag + k) p with hshort | hlong
  · rw [roundMagnitude_of_short _ (hlog ▸ hshort), hlog, hexp, Nat.mul_assoc, ← Nat.pow_add]
    congr 3
    omega
  · have hsig : roundedSig p (mag * 2 ^ k) = mag * 2 ^ (p - 1 - Nat.log2 mag) := by
      have hsplit : mag * 2 ^ k = mag * 2 ^ (p - 1 - Nat.log2 mag) * 2 ^ (Nat.log2 mag + k + 1 - p) := by
        rw [Nat.mul_assoc, ← Nat.pow_add]
        congr 2
        omega
      rw [roundedSig, hlog, hsplit, Nat.mul_comm, Nat.mul_add_div (Nat.two_pow_pos _),
        Nat.div_eq_of_lt (Nat.pow_lt_pow_right (by decide) (by omega)), Nat.add_zero]
    have hfits : roundedSig p (mag * 2 ^ k) < 2 ^ p := by
      have hp : 2 ^ p = 2 ^ (Nat.log2 mag + 1) * 2 ^ (p - 1 - Nat.log2 mag) := by
        rw [← Nat.pow_add]
        congr 1
        omega
      rw [hsig, hp]
      exact Nat.mul_lt_mul_of_pos_right Nat.lt_log2_self (Nat.two_pow_pos _)
    rw [(roundMagnitude_of_long _ (hlog ▸ hlong)).1 hfits, hsig, hlog, hexp]

/-- R1, R3: the exponent of a value that is neither zero nor the marker passes the tests. -/
theorem exponent_passes {f : Format} {exp : Nat} (h0 : exp ≠ 0) (he : exp < markerExp f) :
    minExp f ≤ (exp : Int) - bias f ∧ (exp : Int) - bias f ≤ maxExp f := by
  cases f with
  | n =>
    change exp < 255 at he
    change -127 ≤ (exp : Int) - 128 ∧ (exp : Int) - 128 ≤ 126
    omega
  | w =>
    change exp < 2047 at he
    change -1023 ≤ (exp : Int) - 1024 ∧ (exp : Int) - 1024 ≤ 1022
    omega

theorem log2_significand {n frac : Nat} (hf : frac < 2 ^ n) : Nat.log2 (2 ^ n + frac) = n := by
  have hpos : 0 < 2 ^ n := Nat.two_pow_pos n
  rw [Nat.log2_eq_iff (by omega), Nat.pow_succ]
  omega

/-- A number written with further zeros: its magnitude and its sign. -/
theorem fieldsDyadic_mul_two_pow (f : Format) (neg : Bool) (exp frac k : Nat) :
    ((fieldsDyadic f neg exp frac).m * 2 ^ k).natAbs = (2 ^ fracBits f + frac) * 2 ^ k ∧
      decide ((fieldsDyadic f neg exp frac).m * 2 ^ k < 0) = neg := by
  have hpos : 0 < ((2 ^ fracBits f + frac : Nat) : Int) * 2 ^ k := by positivity
  have habs : (((2 ^ fracBits f + frac : Nat) : Int) * 2 ^ k).natAbs = (2 ^ fracBits f + frac) * 2 ^ k := by
    rw [Int.natAbs_mul, Int.natAbs_natCast, Int.natAbs_pow]
    rfl
  cases neg with
  | true =>
    have hneg : (fieldsDyadic f true exp frac).m * 2 ^ k = -(((2 ^ fracBits f + frac : Nat) : Int) * 2 ^ k) :=
      neg_mul _ _
    exact ⟨by rw [hneg, Int.natAbs_neg, habs], decide_eq_true (hneg ▸ neg_neg_of_pos hpos)⟩
  | false => exact ⟨habs, decide_eq_false hpos.not_gt⟩

/-- A value's number is rounded to the value, however many zeros it is written with. -/
theorem roundTo_of_exact {v : Value} (hm : isMarker v = false) (k : Nat) :
    roundTo (valueFormat v) { m := (valueNum v).m * 2 ^ k, e := (valueNum v).e - k } = .value (canonical v) := by
  cases hz : isZero v with
  | true => rw [valueNum_of_zero hz, zero_mul, roundTo_of_zero, canonical_of_zero hz]
  | false =>
    have h0 : valueExp v ≠ 0 := mt (isZero_iff v).mpr (Bool.eq_false_iff.mp hz)
    have he : valueExp v < markerExp (valueFormat v) :=
      lt_of_le_of_ne (valueExp_le v) (mt (isMarker_iff v).mpr (Bool.eq_false_iff.mp hm))
    have hlog := log2_significand (valueFrac_lt v)
    have hmag : 2 ^ fracBits (valueFormat v) + valueFrac v ≠ 0 := by
      have := Nat.two_pow_pos (fracBits (valueFormat v))
      omega
    obtain ⟨hlow, hhigh⟩ := exponent_passes h0 he
    have hround := roundMagnitude_of_exact (fieldsDyadic (valueFormat v) (valueSign v) (valueExp v) (valueFrac v)).e hmag
      (p := fracBits (valueFormat v) + 1) (by omega) k
    have hexp : (fracBits (valueFormat v) : Int) +
        (fieldsDyadic (valueFormat v) (valueSign v) (valueExp v) (valueFrac v)).e =
          (valueExp v : Int) - bias (valueFormat v) := add_sub_cancel _ _
    rw [hlog, Nat.add_sub_cancel, Nat.sub_self, Nat.pow_zero, Nat.mul_one, hexp] at hround
    obtain ⟨habs, hsign⟩ := fieldsDyadic_mul_two_pow (valueFormat v) (valueSign v) (valueExp v) (valueFrac v) k
    rw [valueNum_of_nonzero hz, canonical_of_nonzero hz]
    have hne : (fieldsDyadic (valueFormat v) (valueSign v) (valueExp v) (valueFrac v)).m * 2 ^ k ≠ 0 := by
      rw [← Int.natAbs_ne_zero, habs]
      exact Nat.mul_ne_zero hmag (Nat.two_pow_pos k).ne'
    obtain ⟨-, -, hvalue⟩ := roundTo_of_nonzero (valueFormat v)
      ((fieldsDyadic (valueFormat v) (valueSign v) (valueExp v) (valueFrac v)).e - k) hne
    rw [habs, hsign, hround] at hvalue
    rw [hvalue hlow hhigh, sub_add_cancel, Int.toNat_natCast, Nat.add_sub_cancel_left, packValue_self]

/-- The sum with a zero is the other number, written with the zeros that the lower exponent asks for. -/
theorem add_of_zero {a : Dyadic} (ha : a.m = 0) (b : Dyadic) :
    ∃ k : Nat, a.add b = { m := b.m * 2 ^ k, e := b.e - k } := by
  refine ⟨(b.e - min a.e b.e).toNat, ?_⟩
  simp only [Dyadic.add, Dyadic.scaled, ha, zero_mul, zero_add, pow2, Dyadic.mk.injEq]
  refine ⟨by push_cast; rfl, ?_⟩
  omega

theorem mul_of_zero {v w : Value} (h : isZero v = true ∨ isZero w = true) : ((valueNum v).mul (valueNum w)).m = 0 := by
  rcases h with hv | hw
  · rw [Dyadic.mul, valueNum_of_zero hv, zero_mul]
  · rw [Dyadic.mul, valueNum_of_zero hw, mul_zero]

theorem two_pow_fracBits_w : 2 ^ fracBits .w = 2 ^ fracBits .n * 2 ^ 29 := by
  rw [← Nat.pow_add]
  rfl

/-- R11: an exponent field larger by 896 and a fraction followed by 29 zeros give the same number. -/
theorem fieldsDyadic_widen (neg : Bool) (exp frac : Nat) :
    fieldsDyadic .w neg (exp + 896) (frac * 2 ^ 29) =
      { m := (fieldsDyadic .n neg exp frac).m * 2 ^ 29, e := (fieldsDyadic .n neg exp frac).e - 29 } := by
  rw [fieldsDyadic, fieldsDyadic, Dyadic.mk.injEq, two_pow_fracBits_w, ← Nat.add_mul]
  constructor
  · cases neg with
    | true =>
      simp only [if_true]
      push_cast
      ring
    | false =>
      simp only [Bool.false_eq_true, if_false]
      push_cast
      ring
  · change ((exp + 896 : Nat) : Int) - 1024 - 52 = (exp : Int) - 128 - 23 - 29
    omega

theorem widen_number {x : Word} (hm : isMarker (.narrow x) = false) (hz : isZero (.narrow x) = false) :
    valueFormat (widen (.narrow x)) = .w ∧
      valueNum (widen (.narrow x)) =
        { m := (valueNum (.narrow x)).m * 2 ^ 29, e := (valueNum (.narrow x)).e - 29 } := by
  have h0 : valueExp (.narrow x) ≠ 0 := mt (isZero_iff _).mpr (Bool.eq_false_iff.mp hz)
  have he : valueExp (.narrow x) < 255 :=
    lt_of_le_of_ne (valueExp_le (.narrow x)) (mt (isMarker_iff _).mpr (Bool.eq_false_iff.mp hm))
  have hexp : valueExp (.narrow x) + 896 < markerExp .w := by
    change _ < 2047
    omega
  have hnarrow : valueFrac (.narrow x) < 2 ^ fracBits .n := valueFrac_lt (.narrow x)
  have hfrac : valueFrac (.narrow x) * 2 ^ 29 < 2 ^ fracBits .w := by
    rw [two_pow_fracBits_w]
    exact Nat.mul_lt_mul_of_pos_right hnarrow (Nat.two_pow_pos 29)
  obtain ⟨hformat, -, -, hnum⟩ := packValue_number .w (valueSign (.narrow x)) (by omega) hexp hfrac
  exact ⟨hformat, hnum.trans ((fieldsDyadic_widen _ _ _).trans (by rw [valueNum_of_nonzero hz]; rfl))⟩

theorem canonical_narrow (x : Word) :
    canonical (.narrow x) = .narrow (if x.toNat / 2 ^ 23 % 2 ^ 8 = 0 then 0 else x) := by
  have hzero := isZero_iff (.narrow x)
  split
  next h => exact canonical_of_zero (hzero.mpr h)
  next h => exact canonical_of_nonzero (Bool.eq_false_iff.mpr (mt hzero.mp h))

theorem canonical_wide (hi lo : Word) :
    canonical (.wide hi lo) = if hi.toNat / 2 ^ 20 % 2 ^ 11 = 0 then .wide 0 0 else .wide hi lo := by
  have hzero := isZero_iff (.wide hi lo)
  split
  next h => exact canonical_of_zero (hzero.mpr h)
  next h => exact canonical_of_nonzero (Bool.eq_false_iff.mpr (mt hzero.mp h))

/-- Settles O56: the encodings, and the steps that keep a value. -/
theorem exactStepsKeepTheValue : Obligations.ExactStepsKeepTheValue := by
  refine ⟨fun x => ⟨isZero_iff (.narrow x), isMarker_iff (.narrow x), canonical_narrow x⟩,
    fun hi lo => ⟨isZero_iff (.wide hi lo), isMarker_iff (.wide hi lo), canonical_wide hi lo⟩, fun v hm => ?_,
    fun pol v => ?_, fun pol x hm hz => ⟨widen (.narrow x), ?_, widen_number hm hz⟩, fun pol x hz => ?_,
    fun pol acc t c hm hz => ?_⟩
  · have hexact := roundTo_of_exact hm 0
    rwa [pow_zero, mul_one, Nat.cast_zero, sub_zero] at hexact
  · cases v with
    | narrow x => rfl
    | wide hi lo => rfl
  · exact congrArg Delivered.value (if_neg (Bool.eq_false_iff.mp hz))
  · exact congrArg Delivered.value (if_pos hz)
  · obtain ⟨k, hsum⟩ := add_of_zero (mul_of_zero hz) (valueNum c)
    rw [fusedStep, hsum, roundTo_of_exact hm k, deliver]

end Sys2Proof.Machine

/-! SUPPORT. FLUSH_LEVEL (R170): the posting of several records at one event, and the flush as one update. -/

namespace Sys2Proof.Machine

/-! ### Several releases of one curve -/

/-- A curve is emptied by `n` releases of a reference. -/
def EmptiedBy (n : Nat) (e : CurveEntry) : Prop := e.state = .retiring ∧ 0 < n ∧ e.refCount ≤ n

theorem EmptiedBy.succ {n : Nat} {e : CurveEntry} (h : EmptiedBy n e) : EmptiedBy (n + 1) e := by
  obtain ⟨hst, -, hle⟩ := h
  exact ⟨hst, Nat.succ_pos n, Nat.le_succ_of_le hle⟩

/-- R23, R27: the entry after `n` releases of a reference. -/
def releasedTimes (n : Nat) (e : CurveEntry) : CurveEntry := releasedEntry^[n] e

theorem releasedTimes_succ (n : Nat) (e : CurveEntry) : releasedTimes (n + 1) e = releasedEntry (releasedTimes n e) :=
  Function.iterate_succ_apply' releasedEntry n e

theorem emptiedBy_succ_iff {n : Nat} {e : CurveEntry} :
    EmptiedBy (n + 1) e ↔ e.state = .retiring ∧ e.refCount - n ≤ 1 := by
  constructor
  · rintro ⟨hst, -, hle⟩
    exact ⟨hst, by omega⟩
  · rintro ⟨hst, hle⟩
    exact ⟨hst, Nat.succ_pos n, by omega⟩

theorem releasedTimes_spec (n : Nat) (e : CurveEntry) :
    (EmptiedBy n e → releasedTimes n e = emptiedEntry e) ∧
    (¬EmptiedBy n e → releasedTimes n e = { e with refCount := e.refCount - n }) := by
  induction n with
  | zero => exact ⟨fun h => absurd h.2.1 (Nat.lt_irrefl 0), fun _ => rfl⟩
  | succ n ih =>
    obtain ⟨hemptied, hcounted⟩ := ih
    rw [releasedTimes_succ]
    by_cases hn : EmptiedBy n e
    · refine ⟨fun _ => ?_, fun h => absurd hn.succ h⟩
      rw [hemptied hn]
      exact (releasedEntry_of_not_last (by simp [emptiedEntry])).1
    · rw [hcounted hn, emptiedBy_succ_iff]
      exact ⟨fun h => (releasedEntry_of_last (e := { e with refCount := e.refCount - n }) h).1,
        fun h => (releasedEntry_of_not_last (e := { e with refCount := e.refCount - n }) h).1⟩

theorem mem_releasedBlocks {b : Nat} {e : CurveEntry} :
    b ∈ releasedBlocks e ↔ (e.state = .retiring ∧ e.refCount ≤ 1) ∧ b ∈ e.blocks := by
  unfold releasedBlocks
  split
  next h => simp only [h, and_self, true_and]
  next h => simp [h]

/-- R23, R27: the blocks of an emptied curve are returned by the release that empties it. -/
theorem mem_releasedBlocks_releasedTimes {b n : Nat} {e : CurveEntry} :
    (EmptiedBy (n + 1) e ∧ b ∈ e.blocks) ↔
      (EmptiedBy n e ∧ b ∈ e.blocks) ∨ b ∈ releasedBlocks (releasedTimes n e) := by
  obtain ⟨hemptied, hcounted⟩ := releasedTimes_spec n e
  rw [mem_releasedBlocks]
  by_cases hn : EmptiedBy n e
  · rw [hemptied hn]
    simp [emptiedEntry, hn, hn.succ]
  · rw [hcounted hn, emptiedBy_succ_iff]
    simp only [hn, false_and, false_or]

/-! ### Several records posted at one event -/

/-- R167: jobs end ABORTED one after another, each with its result part. -/
def postAll (ps : List (Job × Option Value)) (s : State) : State :=
  ps.foldl (fun u p => postJob p.1 .aborted p.2 none u) s

/-- The number of the jobs that name a curve. -/
def namings (c : Fin 32) (ps : List (Job × Option Value)) : Nat := ps.countP fun p => decide (p.1.desc.curve = c)

theorem postAll_append (ps qs : List (Job × Option Value)) (s : State) :
    postAll (ps ++ qs) s = postAll qs (postAll ps s) :=
  List.foldl_append

theorem postAll_snoc (ps : List (Job × Option Value)) (p : Job × Option Value) (s : State) :
    postAll (ps ++ [p]) s = postJob p.1 .aborted p.2 none (postAll ps s) :=
  postAll_append ps [p] s

theorem namings_snoc (c : Fin 32) (ps : List (Job × Option Value)) (p : Job × Option Value) :
    namings c (ps ++ [p]) = if p.1.desc.curve = c then namings c ps + 1 else namings c ps := by
  rw [namings, List.countP_append]
  by_cases h : p.1.desc.curve = c <;> simp [namings, h]

theorem curveEntry_postJob (j : Job) (st : JobStatus) (v : Option Value) (e : Option BusErr) (s : State) (c : Fin 32) :
    curveEntry (postJob j st v e s) c =
      if j.desc.curve = c then releasedEntry (curveEntry s c) else curveEntry s c := by
  have hset := curveEntry_setCurve j.desc.curve c (releasedEntry (curveEntry s j.desc.curve)) s
  have hcurves : curveEntry (postJob j st v e s) c =
      curveEntry (setCurve j.desc.curve (releasedEntry (curveEntry s j.desc.curve)) s) c :=
    curveEntry_congr (by rw [postJob_eq]; rfl) c
  rw [hcurves, hset]
  split
  next h => rw [h]
  next => rfl

/-- Each curve is released once for each of the jobs that name it. -/
theorem curveEntry_postAll (ps : List (Job × Option Value)) (s : State) (c : Fin 32) :
    curveEntry (postAll ps s) c = releasedTimes (namings c ps) (curveEntry s c) := by
  induction ps using List.reverseRecOn with
  | nil => rfl
  | append_singleton ps p ih =>
    rw [postAll_snoc, curveEntry_postJob, namings_snoc, ih]
    split
    · rw [releasedTimes_succ]
    · rfl

theorem mem_free_postAll (ps : List (Job × Option Value)) (s : State) (b : Nat) :
    b ∈ (postAll ps s).store.free ↔
      b ∈ s.store.free ∨ ∃ c, EmptiedBy (namings c ps) (curveEntry s c) ∧ b ∈ (curveEntry s c).blocks := by
  induction ps using List.reverseRecOn with
  | nil => simp [postAll, namings, EmptiedBy]
  | append_singleton ps p ih =>
    have hfree : (postAll (ps ++ [p]) s).store.free =
        insertAllAsc (releasedBlocks (curveEntry (postAll ps s) p.1.desc.curve)) (postAll ps s).store.free := by
      rw [postAll_snoc, postJob_eq]
    rw [hfree, mem_insertAllAsc, ih, curveEntry_postAll]
    have hcurve (c : Fin 32) :
        (EmptiedBy (namings c (ps ++ [p])) (curveEntry s c) ∧ b ∈ (curveEntry s c).blocks) ↔
          (EmptiedBy (namings c ps) (curveEntry s c) ∧ b ∈ (curveEntry s c).blocks) ∨
            p.1.desc.curve = c ∧ b ∈ releasedBlocks (releasedTimes (namings c ps) (curveEntry s c)) := by
      rw [namings_snoc]
      by_cases h : p.1.desc.curve = c
      · rw [if_pos h, mem_releasedBlocks_releasedTimes]
        simp only [h, true_and]
      · rw [if_neg h]
        simp only [h, false_and, or_false]
    simp only [hcurve, exists_or, exists_eq_left']
    exact or_comm.trans or_assoc

theorem ascending_postAll (ps : List (Job × Option Value)) {s : State} (h : s.store.free.Pairwise (· < ·)) :
    (postAll ps s).store.free.Pairwise (· < ·) := by
  induction ps using List.reverseRecOn with
  | nil => exact h
  | append_singleton ps p ih =>
    rw [postAll_snoc, postJob_eq]
    exact insertAllAsc_ascending ih

/-- Releasing references does not change a generation. -/
theorem generation_releasedTimes (n : Nat) (e : CurveEntry) : (releasedTimes n e).generation = e.generation := by
  obtain ⟨hemptied, hcounted⟩ := releasedTimes_spec n e
  by_cases h : EmptiedBy n e
  · rw [hemptied h]
    rfl
  · rw [hcounted h]

theorem buildRecord_postAll (ps : List (Job × Option Value)) (s : State) (j : Job) (v : Option Value) :
    buildRecord (postAll ps s) j .aborted v none = buildRecord s j .aborted v none := by
  rw [buildRecord, curveEntry_postAll, generation_releasedTimes, buildRecord]

theorem records_postAll (ps : List (Job × Option Value)) (s : State) :
    (postAll ps s).completion.records =
      s.completion.records ++ ps.map fun p => buildRecord s p.1 .aborted p.2 none := by
  induction ps using List.reverseRecOn with
  | nil => exact (List.append_nil _).symm
  | append_singleton ps p ih =>
    rw [postAll_snoc, records_postJob, ih, buildRecord_postAll, List.map_append, List.append_assoc]
    rfl

theorem events_postAll (ps : List (Job × Option Value)) (s : State) :
    (postAll ps s).completion.events =
      if ps.any (·.1.desc.notify) then s.completion.events ||| 0x01#7 else s.completion.events := by
  induction ps using List.reverseRecOn with
  | nil => rfl
  | append_singleton ps p ih =>
    rw [postAll_snoc, postJob_eq, List.any_append]
    change (if p.1.desc.notify then (postAll ps s).completion.events ||| 0x01#7 else (postAll ps s).completion.events) = _
    rw [ih]
    cases ps.any (·.1.desc.notify) <;> cases hp : p.1.desc.notify <;> simp [hp, BitVec.or_assoc]

/-- Posting records changes the curves, the free pool, the records and the events, and nothing else. -/
theorem postAll_frame (ps : List (Job × Option Value)) (s : State) (curves : Vector CurveEntry 32) (free : List Nat)
    (records : List Record) (events : BitVec 7) :
    { postAll ps s with
      curves := curves
      store := { (postAll ps s).store with free := free }
      completion := { (postAll ps s).completion with records := records, events := events } } =
    { s with
      curves := curves
      store := { s.store with free := free }
      completion := { s.completion with records := records, events := events } } := by
  induction ps using List.reverseRecOn with
  | nil => rfl
  | append_singleton ps p ih =>
    rw [postAll_snoc, postJob_eq]
    exact ih

/-- R151: the posting of several records as one update. -/
theorem postAll_eq (ps : List (Job × Option Value)) (s : State) :
    postAll ps s =
      { s with
        curves := (postAll ps s).curves
        store := { s.store with free := (postAll ps s).store.free }
        completion :=
          { s.completion with
            records := s.completion.records ++ ps.map fun p => buildRecord s p.1 .aborted p.2 none
            events :=
              if ps.any (·.1.desc.notify) then s.completion.events ||| 0x01#7 else s.completion.events } } := by
  rw [← records_postAll, ← events_postAll, ← postAll_frame ps s]

/-! ### Leaving a place and posting a record, in either order -/

theorem postAll_comm {g : State → State}
    (hg : ∀ j v u, postJob j .aborted v none (g u) = g (postJob j .aborted v none u))
    (ps : List (Job × Option Value)) (s : State) : postAll ps (g s) = g (postAll ps s) := by
  induction ps using List.reverseRecOn with
  | nil => rfl
  | append_singleton ps p ih => rw [postAll_snoc, postAll_snoc, ih, hg]

/-- The hold slot after a flush of level `l` (R170). -/
def emptyHold (l : Fin 4) (s : State) : State := { s with hold := s.hold.filter fun h => decide (h.job.level ≠ l) }

/-- The mark of a flush on the running job (R168). -/
def markEngine (s : State) : State :=
  { s with engine := { s.engine with running := s.engine.running.map fun r => { r with abortMark := true } } }

section
variable (j : Job) (v : Option Value) (s : State)

theorem postJob_setSlot (l : Fin 4) (x : Option Suspended) :
    postJob j .aborted v none (setSlot l x s) = setSlot l x (postJob j .aborted v none s) := by
  unfold setSlot
  split
  · rw [postJob_eq, postJob_eq]
    rfl
  · rfl

theorem postJob_emptyHold (l : Fin 4) :
    postJob j .aborted v none (emptyHold l s) = emptyHold l (postJob j .aborted v none s) := by
  rw [postJob_eq, postJob_eq]
  rfl

theorem postJob_setQueue (l : Fin 4) (q : List Job) :
    postJob j .aborted v none (setQueue l q s) = setQueue l q (postJob j .aborted v none s) := by
  rw [postJob_eq, postJob_eq]
  rfl

theorem postJob_leaveEngine :
    postJob j .aborted v none (leaveEngine s) = leaveEngine (postJob j .aborted v none s) := by
  rw [postJob_eq, postJob_eq]
  rfl

theorem postJob_markEngine :
    postJob j .aborted v none (markEngine s) = markEngine (postJob j .aborted v none s) := by
  rw [postJob_eq, postJob_eq]
  rfl

end

/-! ### The steps of a flush -/

/-- The running job, when it is of the level. -/
def runningAt (l : Fin 4) (s : State) : List RunningJob := s.engine.running.toList.filter fun r => decide (r.job.level = l)

/-- R168, R170: the running job that a flush of the level ends at once. -/
def endedRunning (l : Fin 4) (s : State) : List RunningJob := if standing s then runningAt l s else []

/-- R168, R170: a flush of the level marks the running job. -/
def marksRunning (l : Fin 4) (s : State) : Bool := !standing s && !(runningAt l s).isEmpty

/-- What a flush of the level does to the engine (R168, R170). -/
def flushEngine (l : Fin 4) (s u : State) : State :=
  if endedRunning l s ≠ [] then leaveEngine u else if marksRunning l s then markEngine u else u

theorem flushRunning_eq (l : Fin 4) (s : State) :
    flushRunning l s =
      (flushEngine l s (postAll ((endedRunning l s).map fun r => (r.job, recordResult r)) s),
        { ended := (endedRunning l s).length, marked := marksRunning l s }) := by
  unfold flushRunning
  cases hr : s.engine.running with
  | none => simp [flushEngine, endedRunning, marksRunning, runningAt, hr, postAll]
  | some r =>
    by_cases hl : r.job.level = l
    · cases hst : standing s with
      | true =>
        simp [flushEngine, endedRunning, runningAt, marksRunning, hr, hl, hst, abortRunning, postAll, endRunning]
      | false =>
        simp [flushEngine, endedRunning, runningAt, marksRunning, hr, hl, hst, abortRunning, postAll, markEngine,
          markRunning]
    · simp [flushEngine, endedRunning, marksRunning, runningAt, hr, hl, postAll]

end Sys2Proof.Machine

/-! SUPPORT. FLUSH_LEVEL (R170) as one update of the state. -/

namespace Sys2Proof.Machine

/-- Jobs that wait have no result part. -/
def withoutResult (js : List Job) : List (Job × Option Value) := js.map fun j => (j, none)

theorem setSlot_none_self {l : Fin 4} {s : State} (h : slotOf s l = none) : setSlot l none s = s := by
  unfold slotOf at h
  unfold setSlot
  split
  next hl =>
    rw [dif_pos hl] at h
    rw [← h, Vector.set_getElem_self]
  next => rfl

theorem emptyHold_self {l : Fin 4} {s : State} (h : s.hold.filter (fun h => decide (h.job.level ≠ l)) = s.hold) :
    emptyHold l s = s := by
  rw [emptyHold, h]

section
variable (l : Fin 4) (s : State) (t : FlushTally)

theorem flushSlot_eq :
    flushSlot l s t =
      (setSlot l none (postAll (withoutResult ((slotOf s l).toList.map (·.job))) s),
        { t with ended := t.ended + ((slotOf s l).toList.map (·.job)).length }) := by
  unfold flushSlot
  cases hx : slotOf s l with
  | none => exact Prod.ext (setSlot_none_self hx).symm rfl
  | some x => exact Prod.ext (postJob_setSlot x.job none s l none) rfl

theorem flushHold_eq :
    flushHold l s t =
      (emptyHold l (postAll (withoutResult ((s.hold.toList.map (·.job)).filter fun j => decide (j.level = l))) s),
        { t with ended := t.ended + ((s.hold.toList.map (·.job)).filter fun j => decide (j.level = l)).length }) := by
  unfold flushHold
  cases hh : s.hold with
  | none => exact Prod.ext (emptyHold_self (by rw [hh]; rfl)).symm rfl
  | some h =>
    by_cases hl : h.job.level = l
    · have hempty : emptyHold l s = { s with hold := none } := by simp [emptyHold, hh, hl]
      simp only [Option.toList_some, List.map_cons, List.map_nil, List.filter_cons, hl, decide_true, if_true,
        List.filter_nil, List.length_singleton]
      refine Prod.ext ?_ rfl
      change postJob h.job .aborted none none { s with hold := none } = _
      rw [← hempty]
      exact postJob_emptyHold h.job none s l
    · have hkept : emptyHold l s = s := emptyHold_self (by simp [hh, hl])
      simp only [Option.toList_some, List.map_cons, List.map_nil, List.filter_cons, hl, decide_false,
        Bool.false_eq_true, if_false, List.filter_nil]
      exact Prod.ext hkept.symm rfl

theorem flushQueue_eq :
    flushQueue l s t =
      (setQueue l [] (postAll (withoutResult (queueOf s l)) s),
        { t with ended := t.ended + (queueOf s l).length }) := by
  have hposts : (queueOf s l).foldl (fun u j => postAborted j u) (setQueue l [] s) =
      postAll (withoutResult (queueOf s l)) (setQueue l [] s) := by
    rw [postAll, withoutResult, List.foldl_map]
    rfl
  rw [flushQueue, hposts, postAll_comm (g := setQueue l []) fun j v u => postJob_setQueue j v u l []]

end

/-! ### What the steps leave to the next ones -/

theorem postAll_places (ps : List (Job × Option Value)) (s : State) :
    (postAll ps s).slots = s.slots ∧ (postAll ps s).hold = s.hold ∧ (postAll ps s).intake = s.intake := by
  rw [postAll_eq]
  exact ⟨rfl, rfl, rfl⟩

theorem flushEngine_places (l : Fin 4) (s u : State) :
    (flushEngine l s u).slots = u.slots ∧ (flushEngine l s u).hold = u.hold ∧
      (flushEngine l s u).intake = u.intake := by
  unfold flushEngine
  split
  · exact ⟨rfl, rfl, rfl⟩
  · split <;> exact ⟨rfl, rfl, rfl⟩

theorem setSlot_places (l : Fin 4) (x : Option Suspended) (s : State) :
    (setSlot l x s).hold = s.hold ∧ (setSlot l x s).intake = s.intake := by
  unfold setSlot
  split <;> exact ⟨rfl, rfl⟩

theorem postJob_flushEngine (l : Fin 4) (s : State) (j : Job) (v : Option Value) (u : State) :
    postJob j .aborted v none (flushEngine l s u) = flushEngine l s (postJob j .aborted v none u) := by
  unfold flushEngine
  split
  · exact postJob_leaveEngine j v u
  · split
    · exact postJob_markEngine j v u
    · rfl

/-- The jobs of the level that wait, in the order in which a flush ends them (R170). -/
def waitingJobs (l : Fin 4) (s : State) : List Job :=
  (slotOf s l).toList.map (·.job) ++ (s.hold.toList.map (·.job)).filter (fun j => decide (j.level = l)) ++ queueOf s l

/-- The jobs that a flush of the level ends, each with its result part (R170). -/
def flushedJobs (l : Fin 4) (s : State) : List (Job × Option Value) :=
  (endedRunning l s).map (fun r => (r.job, recordResult r)) ++ withoutResult (waitingJobs l s)

theorem withoutResult_append (js ks : List Job) : withoutResult (js ++ ks) = withoutResult js ++ withoutResult ks :=
  List.map_append

/-- R170: all records are posted, and the level's places are left. -/
theorem flushJobs_eq (l : Fin 4) (s : State) :
    flushJobs l s =
      (setQueue l [] (emptyHold l (setSlot l none (flushEngine l s (postAll (flushedJobs l s) s)))),
        { ended := (endedRunning l s).length + (waitingJobs l s).length, marked := marksRunning l s }) := by
  have hposts (ps : List (Job × Option Value)) (u : State) := postAll_places ps u
  have hengine (u : State) := flushEngine_places l s u
  have hslot (ps : List (Job × Option Value)) : slotOf (flushEngine l s (postAll ps s)) l = slotOf s l :=
    slotOf_congr ((hengine _).1.trans (hposts ps s).1) l
  have hhold (ps : List (Job × Option Value)) : (setSlot l none (flushEngine l s (postAll ps s))).hold = s.hold := by
    rw [(setSlot_places l none _).1, (hengine _).2.1, (hposts ps s).2.1]
  have hqueue (ps : List (Job × Option Value)) :
      queueOf (emptyHold l (setSlot l none (flushEngine l s (postAll ps s)))) l = queueOf s l := by
    refine queueOf_congr ?_ l
    change (setSlot l none _).intake = s.intake
    rw [(setSlot_places l none _).2, (hengine _).2.2, (hposts ps s).2.2]
  have hcommEngine (ps : List (Job × Option Value)) (u : State) :
      postAll ps (flushEngine l s u) = flushEngine l s (postAll ps u) :=
    postAll_comm (postJob_flushEngine l s) ps u
  have hcommSlot (ps : List (Job × Option Value)) (u : State) :
      postAll ps (setSlot l none u) = setSlot l none (postAll ps u) :=
    postAll_comm (fun j v u => postJob_setSlot j v u l none) ps u
  have hcommHold (ps : List (Job × Option Value)) (u : State) :
      postAll ps (emptyHold l u) = emptyHold l (postAll ps u) :=
    postAll_comm (fun j v u => postJob_emptyHold j v u l) ps u
  simp only [flushJobs, flushRunning_eq, flushSlot_eq, flushHold_eq, flushQueue_eq, hslot, hhold, hqueue, hcommEngine,
    hcommSlot, hcommHold, ← postAll_append, flushedJobs, waitingJobs, withoutResult_append, List.append_assoc,
    List.length_append, Nat.add_assoc]

/-! ### The flush as one update -/

theorem flushEngine_eq (l : Fin 4) (s u : State) :
    flushEngine l s u =
      { u with
        engine :=
          if endedRunning l s ≠ [] then { u.engine with state := .idle, running := none }
          else if marksRunning l s then
            { u.engine with running := u.engine.running.map fun r => { r with abortMark := true } }
          else u.engine
        bus := if endedRunning l s ≠ [] then discardJobWork u.bus else u.bus
        yieldRequest := if endedRunning l s ≠ [] then false else u.yieldRequest } := by
  unfold flushEngine
  split
  · rfl
  · split <;> rfl

theorem setSlot_eq {s u : State} (h : u.slots = s.slots) (l : Fin 4) (x : Option Suspended) :
    setSlot l x u = { u with slots := (setSlot l x s).slots } := by
  unfold setSlot
  split
  · rw [h]
  · rw [← h]

theorem flushJobs_state (l : Fin 4) (s : State) :
    (flushJobs l s).1 =
      { s with
        slots := (setSlot l none s).slots
        curves := (postAll (flushedJobs l s) s).curves
        store := { s.store with free := (postAll (flushedJobs l s) s).store.free }
        intake := { s.intake with queues := s.intake.queues.set l [] }
        hold := s.hold.filter fun h => decide (h.job.level ≠ l)
        engine :=
          if endedRunning l s ≠ [] then { s.engine with state := .idle, running := none }
          else if marksRunning l s then
            { s.engine with running := s.engine.running.map fun r => { r with abortMark := true } }
          else s.engine
        bus := if endedRunning l s ≠ [] then discardJobWork s.bus else s.bus
        yieldRequest := if endedRunning l s ≠ [] then false else s.yieldRequest
        completion :=
          { s.completion with
            records := s.completion.records ++ (flushedJobs l s).map fun p => buildRecord s p.1 .aborted p.2 none
            events :=
              if (flushedJobs l s).any (·.1.desc.notify) then s.completion.events ||| 0x01#7
              else s.completion.events } } := by
  have hslots : (flushEngine l s (postAll (flushedJobs l s) s)).slots = s.slots :=
    (flushEngine_places l s _).1.trans (postAll_places _ s).1
  rw [flushJobs_eq, setSlot_eq hslots, flushEngine_eq, postAll_eq]
  rfl

/-! ### The jobs that a flush ends -/

theorem flushedJobs_map_fst (l : Fin 4) (s : State) :
    (flushedJobs l s).map Prod.fst = (endedRunning l s).map (·.job) ++ waitingJobs l s := by
  simp [flushedJobs, withoutResult, Function.comp_def]

theorem namings_flushedJobs (l : Fin 4) (s : State) (c : Fin 32) :
    namings c (flushedJobs l s) =
      ((endedRunning l s).map (·.job) ++ waitingJobs l s).countP fun j => decide (j.desc.curve = c) := by
  rw [← flushedJobs_map_fst, List.countP_map]
  rfl

theorem any_flushedJobs (l : Fin 4) (s : State) :
    (flushedJobs l s).any (·.1.desc.notify) =
      ((endedRunning l s).map (·.job) ++ waitingJobs l s).any (·.desc.notify) := by
  rw [← flushedJobs_map_fst, List.any_map]
  rfl

theorem records_flushedJobs (l : Fin 4) (s : State) :
    (flushedJobs l s).map (fun p => buildRecord s p.1 .aborted p.2 none) =
      (endedRunning l s).map (fun r => buildRecord s r.job .aborted (recordResult r) none) ++
        (waitingJobs l s).map fun j => buildRecord s j .aborted none none := by
  rw [flushedJobs, withoutResult, List.map_append, List.map_map, List.map_map]
  rfl

/-! ### The flush and its report -/

theorem level?_val (l : Fin 4) : level? l.val = some l := dif_pos l.isLt

theorem level?_of_le {n : Nat} (h : 4 ≤ n) : level? n = none := dif_neg (Nat.not_lt.mpr h)

theorem exec_flushLevel_of_level {s : State} (ht : commandTaken s) {l : Fin 4} (hl : s.cmd.args[0].toNat = l.val) :
    exec .flushLevel s = .next (recorded 0x09#8 .done (flushLevel l s)) := by
  have hlevel : level? (argNumber s) = some l := (congrArg level? hl).trans (level?_val l)
  refine exec_immediate_of_taken (exec_flushLevel_eq s) ht ?_
  simp only [flushLevelBody, hlevel]

theorem flushReport_eq (n : Nat) (b : Bool) :
    (field n 0 4 ||| flagBit b 8 : Word) = BitVec.ofNat 32 (n % 16 + if b then 256 else 0) := by
  apply BitVec.eq_of_toNat_eq
  rw [((shows_field n 4 (by decide)).flag b 8 (by decide) (by decide)).value, BitVec.toNat_ofNat]
  cases b <;> simp <;> omega

/-- R105: the yield request is set afresh, whatever it was. -/
theorem reactToSources_yieldRequest (s : State) (y : Bool) :
    reactToSources { s with yieldRequest := y } = reactToSources s := rfl

theorem recorded_fillQuery {code : BitVec 8} {result : CmdResult} {q : Word} {s t : State} (h : t.cmd = s.cmd) :
    recorded code result (fillQuery q 0 0 0 t) =
      { t with
        answer := .ack
        cmd := { s.cmd with lastCommand := some code, lastResult := result, query := #v[q, 0, 0, 0] } } := by
  rw [recorded, fillQuery, h]

/-- Settles O30: the flush is the posting of its records and the leaving of the level's places. -/
theorem flushLevelEndsTheLevel : Obligations.FlushLevelEndsTheLevel := by
  intro s ht
  refine ⟨fun hn => ?_, ?_⟩
  · refine exec_immediate_of_taken (exec_flushLevel_eq s) ht ?_
    have hnone : level? (argNumber s) = none := level?_of_le hn
    simp only [flushLevelBody, hnone]
  · intro l hl running atOnce atOnceEnded waiting ended marked record fewer empties
    have hempties (c : Fin 32) : EmptiedBy (namings c (flushedJobs l s)) (curveEntry s c) ↔ empties c := by
      rw [namings_flushedJobs]
      exact Iff.rfl
    refine ⟨(postAll (flushedJobs l s) s).curves, (postAll (flushedJobs l s) s).store.free, fun c => ?_, fun b => ?_,
      ascending_postAll _, ?_⟩
    · obtain ⟨hemptied, hcounted⟩ := releasedTimes_spec (namings c (flushedJobs l s)) (curveEntry s c)
      rw [hempties, ← curveEntry_postAll] at hemptied hcounted
      rw [namings_flushedJobs] at hcounted
      exact ⟨hemptied, hcounted⟩
    · rw [mem_free_postAll]
      simp only [hempties]
    · intro flushed
      have hflushed : (flushJobs l s).1 =
          { flushed with yieldRequest := if endedRunning l s ≠ [] then false else s.yieldRequest } := by
        rw [flushJobs_state, records_flushedJobs, any_flushedJobs, ← List.append_assoc]
        simp only [flushed, setSlot]
        split <;> rfl
      have hcmd : (reactToSources flushed).cmd = s.cmd := by
        obtain ⟨-, -, hreact, -⟩ := reactToSources_frame flushed
        obtain ⟨-, -, hslot, -⟩ := setSlot_frame l none s
        exact hreact.trans hslot
      have hreact : reactToSources (flushJobs l s).1 = reactToSources flushed := by
        rw [hflushed]
        exact reactToSources_yieldRequest flushed _
      have hlength : (endedRunning l s).length + (waitingJobs l s).length = ended.length := by
        rw [List.length_append, List.length_map]
        rfl
      rw [exec_flushLevel_of_level ht hl, flushLevel, hreact, recorded_fillQuery hcmd, flushJobs_eq, flushReport_eq,
        hlength]
      rfl

end Sys2Proof.Machine
